-- ==== Sys2Proof/Word.lean ====
section
/-! DEFINITION. The word types of the 68000: byte, word, long word (00_scope.md R7) and register numbers
(30_encoding.md R106). -/

namespace Sys2Proof

/-- A byte, the smallest addressable unit (20_memory.md R60). -/
abbrev Byte := BitVec 8

/-- A 16-bit word, the unit of the instruction stream (30_encoding.md R100). -/
abbrev Word := BitVec 16

/-- A 32-bit long word: registers and computed addresses (10_state.md R20, R21, R23). -/
abbrev Long := BitVec 32

/-- A register number, 0 to 7 (30_encoding.md R106). -/
abbrev RegNo := BitVec 3

end Sys2Proof
end

