-- ==== Sys2Proof/Syntax.lean ====
section
/-! DEFINITION. The instructions of the 68000 as a datatype: one constructor per row of spec/opcode_table.json,
with operand sizes, effective addresses (30_encoding.md R102), conditions (R140) and displacements (R141). -/

namespace Sys2Proof

/-- Operand sizes: byte, word, long word (00_scope.md R7). -/
inductive Size where
  | b | w | l
deriving DecidableEq, Repr

/-- `bits(sz)` of 00_scope.md R7. -/
abbrev Size.bits : Size → Nat
  | .b => 8
  | .w => 16
  | .l => 32

/-- `bytes(sz)` of 00_scope.md R7. -/
def Size.bytes : Size → Nat
  | .b => 1
  | .w => 2
  | .l => 4

/-- The sizes of the instructions that have no byte form (ADDA, CMPA, EXT, MOVEA, MOVEM, MOVEP, SUBA). -/
inductive SizeWL where
  | w | l
deriving DecidableEq, Repr

/-- A word-or-long size as an operand size. -/
def SizeWL.size : SizeWL → Size
  | .w => .w
  | .l => .l

/-- The index extension word of `d8(An,IX)` and `d8(PC,IX)` (30_encoding.md R116): the index register (`isAddr`
is D/A, bit 15; `reg` bits 14 to 12), its width (`long` is W/L, bit 11) and the displacement (bits 7 to 0). -/
structure IndexExt where
  isAddr : Bool
  reg    : RegNo
  long   : Bool
  disp   : Byte
deriving DecidableEq, Repr

/-- An effective address (30_encoding.md R102). The value of an immediate is held in 32 bits; at byte and word
size its upper bits are zero (`EA.immFits`). -/
inductive EA where
  | dn      (r : RegNo)
  | an      (r : RegNo)
  | ind     (r : RegNo)
  | postInc (r : RegNo)
  | preDec  (r : RegNo)
  | disp    (r : RegNo) (d : Word)
  | index   (r : RegNo) (x : IndexExt)
  | absW    (addr : Word)
  | absL    (addr : Long)
  | pcDisp  (d : Word)
  | pcIndex (x : IndexExt)
  | imm     (v : Long)
deriving DecidableEq, Repr

/-- The sixteen conditions, in the order of their codes (30_encoding.md R140). -/
inductive Cond where
  | t | f | hi | ls | cc | cs | ne | eq | vc | vs | pl | mi | ge | lt | gt | le
deriving DecidableEq, Repr

/-- The displacement of Bcc, BRA and BSR: in the operation word (never `$00`), or in a word of its own (R141). -/
inductive Disp where
  | byte (d : Byte)
  | word (d : Word)
deriving DecidableEq, Repr

/-- The instructions. Operand order is the assembler's: source, then destination. `rx` and `ry` are the fields
of bits 11 to 9 and bits 2 to 0 (30_encoding.md R106). -/
inductive Instr where
  /- group 0000 (R131) -/
  | oriToCcr  (v : Byte)
  | oriToSr   (v : Word)
  | andiToCcr (v : Byte)
  | andiToSr  (v : Word)
  | eoriToCcr (v : Byte)
  | eoriToSr  (v : Word)
  | movepToReg (sz : SizeWL) (ry : RegNo) (d : Word) (rx : RegNo)
  | movepToMem (sz : SizeWL) (rx : RegNo) (ry : RegNo) (d : Word)
  | btstReg (rx : RegNo) (ea : EA)
  | bchgReg (rx : RegNo) (ea : EA)
  | bclrReg (rx : RegNo) (ea : EA)
  | bsetReg (rx : RegNo) (ea : EA)
  | btstImm (n : Byte) (ea : EA)
  | bchgImm (n : Byte) (ea : EA)
  | bclrImm (n : Byte) (ea : EA)
  | bsetImm (n : Byte) (ea : EA)
  | ori  (sz : Size) (v : Long) (ea : EA)
  | andi (sz : Size) (v : Long) (ea : EA)
  | subi (sz : Size) (v : Long) (ea : EA)
  | addi (sz : Size) (v : Long) (ea : EA)
  | eori (sz : Size) (v : Long) (ea : EA)
  | cmpi (sz : Size) (v : Long) (ea : EA)
  /- groups 0001, 0010, 0011 (R132) -/
  | movea (sz : SizeWL) (src : EA) (rx : RegNo)
  | move  (sz : Size) (src dst : EA)
  /- group 0100 (R133) -/
  | reset
  | nop
  | stop (v : Word)
  | rte
  | rts
  | trapv
  | rtr
  | illegal
  | trap (n : BitVec 4)
  | link (r : RegNo) (d : Word)
  | unlk (r : RegNo)
  | moveToUsp   (r : RegNo)
  | moveFromUsp (r : RegNo)
  | jsr (ea : EA)
  | jmp (ea : EA)
  | swap (r : RegNo)
  | ext (sz : SizeWL) (r : RegNo)
  | nbcd (ea : EA)
  | pea (ea : EA)
  | movemToMem (sz : SizeWL) (mask : Word) (ea : EA)
  | movemToReg (sz : SizeWL) (mask : Word) (ea : EA)
  | moveFromSr (ea : EA)
  | negx (sz : Size) (ea : EA)
  | moveFromCcr (low : BitVec 6)
  | clr (sz : Size) (ea : EA)
  | moveToCcr (ea : EA)
  | neg (sz : Size) (ea : EA)
  | moveToSr (ea : EA)
  | not (sz : Size) (ea : EA)
  | tas (ea : EA)
  | tst (sz : Size) (ea : EA)
  | chk (ea : EA) (rx : RegNo)
  | lea (ea : EA) (rx : RegNo)
  /- group 0101 (R134) -/
  | dbcc (c : Cond) (r : RegNo) (d : Word)
  | scc  (c : Cond) (ea : EA)
  | addq (sz : Size) (q : BitVec 3) (ea : EA)
  | subq (sz : Size) (q : BitVec 3) (ea : EA)
  /- groups 0110 and 0111 (R135) -/
  | bra (d : Disp)
  | bsr (d : Disp)
  | bcc (c : Cond) (d : Disp)
  | moveq (v : Byte) (rx : RegNo)
  /- groups 1000, 1001, 1011, 1100, 1101 (R136) -/
  | divu (ea : EA) (rx : RegNo)
  | divs (ea : EA) (rx : RegNo)
  | sbcdReg (ry rx : RegNo)
  | sbcdMem (ry rx : RegNo)
  | orToReg (sz : Size) (ea : EA) (rx : RegNo)
  | orToMem (sz : Size) (rx : RegNo) (ea : EA)
  | suba (sz : SizeWL) (ea : EA) (rx : RegNo)
  | subxReg (sz : Size) (ry rx : RegNo)
  | subxMem (sz : Size) (ry rx : RegNo)
  | subToReg (sz : Size) (ea : EA) (rx : RegNo)
  | subToMem (sz : Size) (rx : RegNo) (ea : EA)
  | cmpa (sz : SizeWL) (ea : EA) (rx : RegNo)
  | cmpm (sz : Size) (ry rx : RegNo)
  | cmp (sz : Size) (ea : EA) (rx : RegNo)
  | eor (sz : Size) (rx : RegNo) (ea : EA)
  | mulu (ea : EA) (rx : RegNo)
  | muls (ea : EA) (rx : RegNo)
  | abcdReg (ry rx : RegNo)
  | abcdMem (ry rx : RegNo)
  | exgDD (rx ry : RegNo)
  | exgAA (rx ry : RegNo)
  | exgDA (rx ry : RegNo)
  | andToReg (sz : Size) (ea : EA) (rx : RegNo)
  | andToMem (sz : Size) (rx : RegNo) (ea : EA)
  | adda (sz : SizeWL) (ea : EA) (rx : RegNo)
  | addxReg (sz : Size) (ry rx : RegNo)
  | addxMem (sz : Size) (ry rx : RegNo)
  | addToReg (sz : Size) (ea : EA) (rx : RegNo)
  | addToMem (sz : Size) (rx : RegNo) (ea : EA)
  /- group 1110 (R137, 43_shift_rotate.md R372, R373): memory, register count, immediate count -/
  | aslMem  (ea : EA)
  | asrMem  (ea : EA)
  | lslMem  (ea : EA)
  | lsrMem  (ea : EA)
  | roxlMem (ea : EA)
  | roxrMem (ea : EA)
  | rolMem  (ea : EA)
  | rorMem  (ea : EA)
  | aslReg  (sz : Size) (rx ry : RegNo)
  | aslImm  (sz : Size) (q : BitVec 3) (ry : RegNo)
  | asrReg  (sz : Size) (rx ry : RegNo)
  | asrImm  (sz : Size) (q : BitVec 3) (ry : RegNo)
  | lslReg  (sz : Size) (rx ry : RegNo)
  | lslImm  (sz : Size) (q : BitVec 3) (ry : RegNo)
  | lsrReg  (sz : Size) (rx ry : RegNo)
  | lsrImm  (sz : Size) (q : BitVec 3) (ry : RegNo)
  | roxlReg (sz : Size) (rx ry : RegNo)
  | roxlImm (sz : Size) (q : BitVec 3) (ry : RegNo)
  | roxrReg (sz : Size) (rx ry : RegNo)
  | roxrImm (sz : Size) (q : BitVec 3) (ry : RegNo)
  | rolReg  (sz : Size) (rx ry : RegNo)
  | rolImm  (sz : Size) (q : BitVec 3) (ry : RegNo)
  | rorReg  (sz : Size) (rx ry : RegNo)
  | rorImm  (sz : Size) (q : BitVec 3) (ry : RegNo)
  /- operation words of lines A and F (R150), with their low twelve bits -/
  | lineA (low : BitVec 12)
  | lineF (low : BitVec 12)
deriving DecidableEq, Repr

end Sys2Proof
end

