-- ==== Sys2Proof/WellFormed.lean ====
section
/-! DEFINITION. Which instruction terms are well formed: the effective-address categories (30_encoding.md R103) and
the ranges of the fields that the datatype leaves wider than the encoding. Every decoded instruction is well
formed, and every well-formed instruction has an encoding. -/

namespace Sys2Proof

/-- The twelve addressing modes (30_encoding.md R102). -/
inductive Mode where
  | dn | an | ind | postInc | preDec | disp | index | absW | absL | pcDisp | pcIndex | imm
deriving DecidableEq, Repr

/-- The mode of an effective address. -/
def EA.mode : EA → Mode
  | .dn _      => .dn
  | .an _      => .an
  | .ind _     => .ind
  | .postInc _ => .postInc
  | .preDec _  => .preDec
  | .disp _ _  => .disp
  | .index _ _ => .index
  | .absW _    => .absW
  | .absL _    => .absL
  | .pcDisp _  => .pcDisp
  | .pcIndex _ => .pcIndex
  | .imm _     => .imm

/-- The sets of modes that instructions accept: the categories of 30_encoding.md R103 and, for MOVEM and the
immediate form of BTST, the sets of 40_data_movement.md R210 and R211 and 44_bit_manipulation.md R424. -/
inductive Category where
  /-- all modes -/
  | all
  /-- all but `An` -/
  | data
  /-- data modes without the immediate (R424) -/
  | dataNoImm
  /-- control modes -/
  | control
  /-- alterable modes -/
  | alterable
  /-- data alterable modes -/
  | dataAlterable
  /-- memory alterable modes -/
  | memAlterable
  /-- control alterable modes and `-(An)` (R210) -/
  | movemStore
  /-- control modes and `(An)+` (R211) -/
  | movemLoad
deriving DecidableEq, Repr

/-- The table of 30_encoding.md R103. -/
def Category.allows : Category → Mode → Bool
  | .all, _ => true
  | .data, .an => false
  | .data, _ => true
  | .dataNoImm, m => m != .an && m != .imm
  | .control, m => m == .ind || m == .disp || m == .index || m == .absW || m == .absL || m == .pcDisp || m == .pcIndex
  | .alterable, m => m != .pcDisp && m != .pcIndex && m != .imm
  | .dataAlterable, m => m != .an && m != .pcDisp && m != .pcIndex && m != .imm
  | .memAlterable, m => m != .dn && m != .an && m != .pcDisp && m != .pcIndex && m != .imm
  | .movemStore, m => m == .ind || m == .preDec || m == .disp || m == .index || m == .absW || m == .absL
  | .movemLoad, m =>
    m == .ind || m == .postInc || m == .disp || m == .index || m == .absW || m == .absL || m == .pcDisp || m == .pcIndex

/-- A mode an instruction accepts at a size: in its category, and not `An` at byte size (R103, R112). -/
def modeAllowed (c : Category) (sz : Size) (m : Mode) : Bool :=
  c.allows m && !(sz == .b && m == .an)

/-- An immediate value fits its size: the bits above the size are zero (30_encoding.md R124). -/
def immFits (sz : Size) (v : Long) : Bool :=
  match sz with
  | .b => v.toNat < 256
  | .w => v.toNat < 65536
  | .l => true

/-- An effective address is accepted by an instruction of category `c` at size `sz`. -/
def EA.wf (c : Category) (sz : Size) (ea : EA) : Bool :=
  modeAllowed c sz ea.mode &&
    match ea with
    | .imm v => immFits sz v
    | _ => true

/-- A displacement held in the operation word is not zero (30_encoding.md R141). -/
def Disp.wf : Disp → Bool
  | .byte d => d != 0
  | .word _ => true

/-- The size of the operand of a bit instruction: long for a data register, else byte (44_bit_manipulation.md R420). -/
def EA.bitSize : EA → Size
  | .dn _ => .l
  | _ => .b

/-- Well-formedness of an instruction: each effective address in the category its rule gives it, immediates that
fit, displacement bytes that are not zero, and no condition T or F in Bcc (R141). -/
def Instr.wf : Instr → Bool
  | .oriToCcr _ | .oriToSr _ | .andiToCcr _ | .andiToSr _ | .eoriToCcr _ | .eoriToSr _ => true
  | .movepToReg _ _ _ _ | .movepToMem _ _ _ _ => true
  | .btstReg _ ea => ea.wf .data ea.bitSize
  | .bchgReg _ ea | .bclrReg _ ea | .bsetReg _ ea => ea.wf .dataAlterable ea.bitSize
  | .btstImm _ ea => ea.wf .dataNoImm ea.bitSize
  | .bchgImm _ ea | .bclrImm _ ea | .bsetImm _ ea => ea.wf .dataAlterable ea.bitSize
  | .ori sz v ea | .andi sz v ea | .subi sz v ea | .addi sz v ea | .eori sz v ea | .cmpi sz v ea =>
    immFits sz v && ea.wf .dataAlterable sz
  | .movea sz src _ => src.wf .all sz.size
  | .move sz src dst => src.wf .all sz && dst.wf .dataAlterable sz
  | .reset | .nop | .stop _ | .rte | .rts | .trapv | .rtr | .illegal => true
  | .trap _ | .link _ _ | .unlk _ | .moveToUsp _ | .moveFromUsp _ => true
  | .jsr ea | .jmp ea | .pea ea | .lea ea _ => ea.wf .control .l
  | .swap _ | .ext _ _ | .moveFromCcr _ => true
  | .nbcd ea | .tas ea | .scc _ ea => ea.wf .dataAlterable .b
  | .movemToMem sz _ ea => ea.wf .movemStore sz.size
  | .movemToReg sz _ ea => ea.wf .movemLoad sz.size
  | .moveFromSr ea => ea.wf .dataAlterable .w
  | .negx sz ea | .clr sz ea | .neg sz ea | .not sz ea | .tst sz ea => ea.wf .dataAlterable sz
  | .moveToCcr ea | .moveToSr ea | .chk ea _ => ea.wf .data .w
  | .dbcc _ _ _ => true
  | .addq sz _ ea | .subq sz _ ea => ea.wf .alterable sz
  | .bra d | .bsr d => d.wf
  | .bcc c d => c != .t && c != .f && d.wf
  | .moveq _ _ => true
  | .divu ea _ | .divs ea _ | .mulu ea _ | .muls ea _ => ea.wf .data .w
  | .sbcdReg _ _ | .sbcdMem _ _ | .abcdReg _ _ | .abcdMem _ _ => true
  | .orToReg sz ea _ | .andToReg sz ea _ => ea.wf .data sz
  | .subToReg sz ea _ | .addToReg sz ea _ | .cmp sz ea _ => ea.wf .all sz
  | .orToMem sz _ ea | .andToMem sz _ ea | .subToMem sz _ ea | .addToMem sz _ ea => ea.wf .memAlterable sz
  | .eor sz _ ea => ea.wf .dataAlterable sz
  | .suba sz ea _ | .cmpa sz ea _ | .adda sz ea _ => ea.wf .all sz.size
  | .subxReg _ _ _ | .subxMem _ _ _ | .addxReg _ _ _ | .addxMem _ _ _ | .cmpm _ _ _ => true
  | .exgDD _ _ | .exgAA _ _ | .exgDA _ _ => true
  | .aslMem ea | .asrMem ea | .lslMem ea | .lsrMem ea | .roxlMem ea | .roxrMem ea | .rolMem ea | .rorMem ea =>
    ea.wf .memAlterable .w
  | .aslReg _ _ _ | .asrReg _ _ _ | .lslReg _ _ _ | .lsrReg _ _ _ => true
  | .roxlReg _ _ _ | .roxrReg _ _ _ | .rolReg _ _ _ | .rorReg _ _ _ => true
  | .aslImm _ _ _ | .asrImm _ _ _ | .lslImm _ _ _ | .lsrImm _ _ _ => true
  | .roxlImm _ _ _ | .roxrImm _ _ _ | .rolImm _ _ _ | .rorImm _ _ _ => true
  | .lineA _ | .lineF _ => true

end Sys2Proof
end

