-- ==== Sys2Proof/Decode.lean ====
section
/-! DEFINITION. The decoder, from the opcode map of 30_encoding.md R130 to R137, and after it the encoder, from the
encodings of each instruction's rule. Both work on the instruction stream as a list of words (R100). -/

namespace Sys2Proof

/-! ## Fields of the operation word -/

/-- Bits 15 to 12, the group (30_encoding.md R130). -/
def groupField (w : Word) : BitVec 4 := w.extractLsb' 12 4
/-- Bits 11 to 9 (R106). -/
def regField (w : Word) : RegNo := w.extractLsb' 9 3
/-- Bits 8 to 6, the OP mode (R105), and the mode half of MOVE's destination (R104). -/
def opField (w : Word) : BitVec 3 := w.extractLsb' 6 3
/-- Bits 5 to 3, the mode of the effective address (R102). -/
def modeField (w : Word) : BitVec 3 := w.extractLsb' 3 3
/-- Bits 2 to 0, the register of the effective address (R102). -/
def eaRegField (w : Word) : RegNo := w.extractLsb' 0 3
/-- Bits 7 to 6, the size field (R105). -/
def sizeField (w : Word) : BitVec 2 := w.extractLsb' 6 2
/-- Bits 11 to 8, the condition (R140). -/
def condField (w : Word) : BitVec 4 := w.extractLsb' 8 4
/-- Bit 8. -/
def bit8 (w : Word) : Bool := w.getLsbD 8
/-- Bits 7 to 0. -/
def low8 (w : Word) : Byte := w.extractLsb' 0 8

/-- Size codes 00, 01, 10 of bits 7 to 6 (R105). -/
def sizeOf2 : BitVec 2 → Option Size
  | 0#2 => some .b
  | 1#2 => some .w
  | 2#2 => some .l
  | _   => none

/-- The conditions by their codes (R140). -/
def condOf : BitVec 4 → Cond
  | 0x0#4 => .t  | 0x1#4 => .f  | 0x2#4 => .hi | 0x3#4 => .ls
  | 0x4#4 => .cc | 0x5#4 => .cs | 0x6#4 => .ne | 0x7#4 => .eq
  | 0x8#4 => .vc | 0x9#4 => .vs | 0xA#4 => .pl | 0xB#4 => .mi
  | 0xC#4 => .ge | 0xD#4 => .lt | 0xE#4 => .gt | _     => .le

/-- The addressing mode of a mode and register pair; mode 111 with register 5, 6 or 7 is none (R102). -/
def modeOf (m : BitVec 3) (r : RegNo) : Option Mode :=
  match m with
  | 0#3 => some .dn
  | 1#3 => some .an
  | 2#3 => some .ind
  | 3#3 => some .postInc
  | 4#3 => some .preDec
  | 5#3 => some .disp
  | 6#3 => some .index
  | _   =>
    match r with
    | 0#3 => some .absW
    | 1#3 => some .absL
    | 2#3 => some .pcDisp
    | 3#3 => some .pcIndex
    | 4#3 => some .imm
    | _   => none

/-- The mode of an effective-address field, if an instruction of category `c` accepts it at size `sz` (R151). -/
def acceptMode (c : Category) (sz : Size) (m : BitVec 3) (r : RegNo) : Option Mode :=
  match modeOf m r with
  | some mode => if modeAllowed c sz mode then some mode else none
  | none => none

/-! ## Reading the words of an instruction -/

/-- Why words do not decode. -/
inductive DecodeError where
  /-- There is no operation word. -/
  | noWord
  /-- The operation word matches no instruction (30_encoding.md R150). -/
  | unmatched (w : Word)
  /-- The list ends before the instruction's last extension word. -/
  | truncated
deriving DecidableEq, Repr

/-- Reading from the words that follow the operation word: each reading may take words off the list. -/
abbrev Reader := StateT (List Word) (Except DecodeError)

/-- The operation word `w` matches no instruction. -/
def unmatched (w : Word) : Reader Instr := throw (.unmatched w)

/-- Take one extension word. -/
def takeWord : Reader Word := fun ws =>
  match ws with
  | [] => .error .truncated
  | w :: rest => .ok (w, rest)

/-- Take two extension words, the high-order word first (30_encoding.md R122, R124). -/
def takeLong : Reader Long := do
  let h ← takeWord
  let l ← takeWord
  return (h.setWidth 32 <<< 16) ||| l.setWidth 32

/-- Take an immediate of a size; the high byte of a byte immediate's word is ignored (R124). -/
def takeImm : Size → Reader Long
  | .b => do
    let w ← takeWord
    return (w.setWidth 8).setWidth 32
  | .w => do
    let w ← takeWord
    return w.setWidth 32
  | .l => takeLong

/-- The fields of an index extension word; bits 10 to 8 are ignored (R116). -/
def indexOf (x : Word) : IndexExt where
  isAddr := x.getLsbD 15
  reg    := x.extractLsb' 12 3
  long   := x.getLsbD 11
  disp   := x.setWidth 8

/-- Take the extension words of an effective address (R102). -/
def takeEA (sz : Size) (mode : Mode) (r : RegNo) : Reader EA :=
  match mode with
  | .dn      => return .dn r
  | .an      => return .an r
  | .ind     => return .ind r
  | .postInc => return .postInc r
  | .preDec  => return .preDec r
  | .disp    => do return .disp r (← takeWord)
  | .index   => do return .index r (indexOf (← takeWord))
  | .absW    => do return .absW (← takeWord)
  | .absL    => do return .absL (← takeLong)
  | .pcDisp  => do return .pcDisp (← takeWord)
  | .pcIndex => do return .pcIndex (indexOf (← takeWord))
  | .imm     => do return .imm (← takeImm sz)

/-- An instruction with one effective address in bits 5 to 0. -/
def withEA (w : Word) (c : Category) (sz : Size) (k : EA → Instr) : Reader Instr :=
  match acceptMode c sz (modeField w) (eaRegField w) with
  | none => unmatched w
  | some mode => do return k (← takeEA sz mode (eaRegField w))

/-- An instruction with an effective address, at a size that a 2-bit size field gives. -/
def withSizedEA (w : Word) (c : Category) (k : Size → EA → Instr) : Reader Instr :=
  match sizeOf2 (sizeField w) with
  | none => unmatched w
  | some sz => withEA w c sz (k sz)

/-- An instruction with an immediate and, after its words, an effective address (R101). -/
def withImmEA (w : Word) (sz : Size) (k : Size → Long → EA → Instr) : Reader Instr :=
  match acceptMode .dataAlterable sz (modeField w) (eaRegField w) with
  | none => unmatched w
  | some mode => do
    let v ← takeImm sz
    return k sz v (← takeEA sz mode (eaRegField w))

/-- The size of a bit instruction's operand, by its mode field (44_bit_manipulation.md R420). -/
def bitSizeOf (m : BitVec 3) : Size := if m = 0#3 then .l else .b

/-- A bit instruction with the bit number in a word of its own; the word's high byte is ignored (R422). -/
def withBitEA (w : Word) (c : Category) (k : Byte → EA → Instr) : Reader Instr :=
  match acceptMode c (bitSizeOf (modeField w)) (modeField w) (eaRegField w) with
  | none => unmatched w
  | some mode => do
    let n ← takeWord
    return k (n.setWidth 8) (← takeEA (bitSizeOf (modeField w)) mode (eaRegField w))

/-- MOVEM: the mask word, then the effective address (40_data_movement.md R210, R211). -/
def withMaskEA (w : Word) (c : Category) (sz : SizeWL) (k : SizeWL → Word → EA → Instr) : Reader Instr :=
  match acceptMode c sz.size (modeField w) (eaRegField w) with
  | none => unmatched w
  | some mode => do
    let mask ← takeWord
    return k sz mask (← takeEA sz.size mode (eaRegField w))

/-- ORI, ANDI, EORI to CCR: the high byte of the immediate word is ignored (30_encoding.md R152). -/
def withByteWord (k : Byte → Instr) : Reader Instr := do return k ((← takeWord).setWidth 8)

/-- An instruction whose one extension word is a word operand. -/
def withWord (k : Word → Instr) : Reader Instr := do return k (← takeWord)

/-- The displacement of Bcc, BRA, BSR: bits 7 to 0, or a word if they are zero (30_encoding.md R141). -/
def withDisp (w : Word) (k : Disp → Instr) : Reader Instr :=
  if low8 w = 0 then do return k (.word (← takeWord)) else return k (.byte (low8 w))

/-! ## The opcode map -/

/-- The immediate instructions of one row of group 0000, with the `to CCR` and `to SR` forms that take the place of
the immediate mode (30_encoding.md R131). -/
def logicImm (w : Word) (sz : Size) (toCcr : Byte → Instr) (toSr : Word → Instr) (k : Size → Long → EA → Instr) :
    Reader Instr :=
  if modeField w = 7#3 ∧ eaRegField w = 4#3 then
    match sz with
    | .b => withByteWord toCcr
    | .w => withWord toSr
    | .l => unmatched w
  else withImmEA w sz k

/-- The rows of group 0000 with bit 8 = 0 and a size in bits 7 to 6 (R131). -/
def decodeImmRow (w : Word) (sz : Size) : Reader Instr :=
  match regField w with
  | 0#3 => logicImm w sz .oriToCcr .oriToSr .ori
  | 1#3 => logicImm w sz .andiToCcr .andiToSr .andi
  | 2#3 => withImmEA w sz .subi
  | 3#3 => withImmEA w sz .addi
  | 4#3 =>
    match sz with
    | .b => withBitEA w .dataNoImm .btstImm
    | .w => withBitEA w .dataAlterable .bchgImm
    | .l => withBitEA w .dataAlterable .bclrImm
  | 5#3 => logicImm w sz .eoriToCcr .eoriToSr .eori
  | 6#3 => withImmEA w sz .cmpi
  | _   => unmatched w

/-- Group 0000: immediate instructions, bit instructions, MOVEP (R131). -/
def decode0 (w : Word) : Reader Instr :=
  let rx := regField w
  let ry := eaRegField w
  match opField w with
  | 0#3 => decodeImmRow w .b
  | 1#3 => decodeImmRow w .w
  | 2#3 => decodeImmRow w .l
  | 3#3 => if rx = 4#3 then withBitEA w .dataAlterable .bsetImm else unmatched w
  | 4#3 =>
    if modeField w = 1#3 then withWord (fun d => .movepToReg .w ry d rx)
    else withEA w .data (bitSizeOf (modeField w)) (.btstReg rx)
  | 5#3 =>
    if modeField w = 1#3 then withWord (fun d => .movepToReg .l ry d rx)
    else withEA w .dataAlterable (bitSizeOf (modeField w)) (.bchgReg rx)
  | 6#3 =>
    if modeField w = 1#3 then withWord (fun d => .movepToMem .w rx ry d)
    else withEA w .dataAlterable (bitSizeOf (modeField w)) (.bclrReg rx)
  | _   =>
    if modeField w = 1#3 then withWord (fun d => .movepToMem .l rx ry d)
    else withEA w .dataAlterable (bitSizeOf (modeField w)) (.bsetReg rx)

/-- MOVE at a size: both effective addresses must be accepted before any extension word is taken; the source's
words come first (R101, R132). -/
def decodeMove (w : Word) (sz : Size) : Reader Instr :=
  match acceptMode .all sz (modeField w) (eaRegField w), acceptMode .dataAlterable sz (opField w) (regField w) with
  | some src, some dst => do
    let s ← takeEA sz src (eaRegField w)
    return .move sz s (← takeEA sz dst (regField w))
  | _, _ => unmatched w

/-- Groups 0010 and 0011: MOVEA where the destination mode is 001, else MOVE (R132). -/
def decodeMoveWL (w : Word) (sz : SizeWL) : Reader Instr :=
  if opField w = 1#3 then withEA w .all sz.size (fun ea => .movea sz ea (regField w))
  else decodeMove w sz.size

/-- The fixed words $4E70 to $4E77 (R133). -/
def decodeFixed (w : Word) : Reader Instr :=
  match eaRegField w with
  | 0#3 => return .reset
  | 1#3 => return .nop
  | 2#3 => withWord .stop
  | 3#3 => return .rte
  | 5#3 => return .rts
  | 6#3 => return .trapv
  | 7#3 => return .rtr
  | _   => unmatched w

/-- The words `0100 1110 01xx xxxx`: TRAP, LINK, UNLK, MOVE USP and the fixed words (R133). -/
def decode4E (w : Word) : Reader Instr :=
  let r := eaRegField w
  match modeField w with
  | 0#3 => return .trap (w.extractLsb' 0 4)
  | 1#3 => return .trap (w.extractLsb' 0 4)
  | 2#3 => withWord (.link r)
  | 3#3 => return .unlk r
  | 4#3 => return .moveToUsp r
  | 5#3 => return .moveFromUsp r
  | 6#3 => decodeFixed w
  | _   => unmatched w

/-- The words `0100 1000 xxxx xxxx`: NBCD, SWAP, PEA, EXT, MOVEM to memory (R133). -/
def decode48 (w : Word) : Reader Instr :=
  match opField w with
  | 0#3 => withEA w .dataAlterable .b .nbcd
  | 1#3 => if modeField w = 0#3 then return .swap (eaRegField w) else withEA w .control .l .pea
  | 2#3 => if modeField w = 0#3 then return .ext .w (eaRegField w) else withMaskEA w .movemStore .w .movemToMem
  | _   => if modeField w = 0#3 then return .ext .l (eaRegField w) else withMaskEA w .movemStore .l .movemToMem

/-- The words `0100 rrr0 xxxx xxxx`, by bits 11 to 9 (R133). -/
def decode4Low (w : Word) : Reader Instr :=
  match regField w with
  | 0#3 => if opField w = 3#3 then withEA w .dataAlterable .w .moveFromSr else withSizedEA w .dataAlterable .negx
  | 1#3 => if opField w = 3#3 then return .moveFromCcr (w.extractLsb' 0 6) else withSizedEA w .dataAlterable .clr
  | 2#3 => if opField w = 3#3 then withEA w .data .w .moveToCcr else withSizedEA w .dataAlterable .neg
  | 3#3 => if opField w = 3#3 then withEA w .data .w .moveToSr else withSizedEA w .dataAlterable .not
  | 4#3 => decode48 w
  | 5#3 =>
    if w = 0x4AFC#16 then return .illegal
    else if opField w = 3#3 then withEA w .dataAlterable .b .tas
    else withSizedEA w .dataAlterable .tst
  | 6#3 =>
    match opField w with
    | 2#3 => withMaskEA w .movemLoad .w .movemToReg
    | 3#3 => withMaskEA w .movemLoad .l .movemToReg
    | _   => unmatched w
  | _   =>
    match opField w with
    | 1#3 => decode4E w
    | 2#3 => withEA w .control .l .jsr
    | 3#3 => withEA w .control .l .jmp
    | _   => unmatched w

/-- Group 0100 (R133). -/
def decode4 (w : Word) : Reader Instr :=
  match opField w with
  | 4#3 => unmatched w
  | 5#3 => unmatched w
  | 6#3 => withEA w .data .w (fun ea => .chk ea (regField w))
  | 7#3 => withEA w .control .l (fun ea => .lea ea (regField w))
  | _   => decode4Low w

/-- Group 0101: DBcc, Scc, ADDQ, SUBQ (R134). -/
def decode5 (w : Word) : Reader Instr :=
  match sizeOf2 (sizeField w) with
  | none =>
    if modeField w = 1#3 then withWord (.dbcc (condOf (condField w)) (eaRegField w))
    else withEA w .dataAlterable .b (.scc (condOf (condField w)))
  | some sz =>
    if bit8 w then withEA w .alterable sz (.subq sz (regField w))
    else withEA w .alterable sz (.addq sz (regField w))

/-- Group 0110: BRA, BSR, Bcc (R135). -/
def decode6 (w : Word) : Reader Instr :=
  match condField w with
  | 0#4 => withDisp w .bra
  | 1#4 => withDisp w .bsr
  | c   => withDisp w (.bcc (condOf c))

/-- Group 0111: MOVEQ (R135). -/
def decode7 (w : Word) : Reader Instr :=
  if bit8 w then unmatched w else return .moveq (low8 w) (regField w)

/-- A two-register form in the hole that the memory-alterable category leaves: mode 0 and mode 1 of OP modes 100 to
110; elsewhere the `Dn,<ea>` form (R136). -/
def pairOr (w : Word) (mode0 mode1 : Reader Instr) (other : Reader Instr) : Reader Instr :=
  match modeField w with
  | 0#3 => mode0
  | 1#3 => mode1
  | _   => other

/-- Group 1000: OR, DIVU, DIVS, SBCD (R136). -/
def decode8 (w : Word) : Reader Instr :=
  let rx := regField w
  let ry := eaRegField w
  match opField w with
  | 0#3 => withEA w .data .b (fun ea => .orToReg .b ea rx)
  | 1#3 => withEA w .data .w (fun ea => .orToReg .w ea rx)
  | 2#3 => withEA w .data .l (fun ea => .orToReg .l ea rx)
  | 3#3 => withEA w .data .w (fun ea => .divu ea rx)
  | 4#3 => pairOr w (return .sbcdReg ry rx) (return .sbcdMem ry rx) (withEA w .memAlterable .b (.orToMem .b rx))
  | 5#3 => withEA w .memAlterable .w (.orToMem .w rx)
  | 6#3 => withEA w .memAlterable .l (.orToMem .l rx)
  | _   => withEA w .data .w (fun ea => .divs ea rx)

/-- Group 1001: SUB, SUBA, SUBX (R136). -/
def decode9 (w : Word) : Reader Instr :=
  let rx := regField w
  let ry := eaRegField w
  match opField w with
  | 0#3 => withEA w .all .b (fun ea => .subToReg .b ea rx)
  | 1#3 => withEA w .all .w (fun ea => .subToReg .w ea rx)
  | 2#3 => withEA w .all .l (fun ea => .subToReg .l ea rx)
  | 3#3 => withEA w .all .w (fun ea => .suba .w ea rx)
  | 4#3 => pairOr w (return .subxReg .b ry rx) (return .subxMem .b ry rx) (withEA w .memAlterable .b (.subToMem .b rx))
  | 5#3 => pairOr w (return .subxReg .w ry rx) (return .subxMem .w ry rx) (withEA w .memAlterable .w (.subToMem .w rx))
  | 6#3 => pairOr w (return .subxReg .l ry rx) (return .subxMem .l ry rx) (withEA w .memAlterable .l (.subToMem .l rx))
  | _   => withEA w .all .l (fun ea => .suba .l ea rx)

/-- Group 1011: CMP, CMPA, EOR, CMPM (R136). -/
def decodeB (w : Word) : Reader Instr :=
  let rx := regField w
  let ry := eaRegField w
  match opField w with
  | 0#3 => withEA w .all .b (fun ea => .cmp .b ea rx)
  | 1#3 => withEA w .all .w (fun ea => .cmp .w ea rx)
  | 2#3 => withEA w .all .l (fun ea => .cmp .l ea rx)
  | 3#3 => withEA w .all .w (fun ea => .cmpa .w ea rx)
  | 4#3 => if modeField w = 1#3 then return .cmpm .b ry rx else withEA w .dataAlterable .b (.eor .b rx)
  | 5#3 => if modeField w = 1#3 then return .cmpm .w ry rx else withEA w .dataAlterable .w (.eor .w rx)
  | 6#3 => if modeField w = 1#3 then return .cmpm .l ry rx else withEA w .dataAlterable .l (.eor .l rx)
  | _   => withEA w .all .l (fun ea => .cmpa .l ea rx)

/-- Group 1100: AND, MULU, MULS, ABCD, EXG (R136). -/
def decodeC (w : Word) : Reader Instr :=
  let rx := regField w
  let ry := eaRegField w
  match opField w with
  | 0#3 => withEA w .data .b (fun ea => .andToReg .b ea rx)
  | 1#3 => withEA w .data .w (fun ea => .andToReg .w ea rx)
  | 2#3 => withEA w .data .l (fun ea => .andToReg .l ea rx)
  | 3#3 => withEA w .data .w (fun ea => .mulu ea rx)
  | 4#3 => pairOr w (return .abcdReg ry rx) (return .abcdMem ry rx) (withEA w .memAlterable .b (.andToMem .b rx))
  | 5#3 => pairOr w (return .exgDD rx ry) (return .exgAA rx ry) (withEA w .memAlterable .w (.andToMem .w rx))
  | 6#3 => pairOr w (unmatched w) (return .exgDA rx ry) (withEA w .memAlterable .l (.andToMem .l rx))
  | _   => withEA w .data .w (fun ea => .muls ea rx)

/-- Group 1101: ADD, ADDA, ADDX (R136). -/
def decodeD (w : Word) : Reader Instr :=
  let rx := regField w
  let ry := eaRegField w
  match opField w with
  | 0#3 => withEA w .all .b (fun ea => .addToReg .b ea rx)
  | 1#3 => withEA w .all .w (fun ea => .addToReg .w ea rx)
  | 2#3 => withEA w .all .l (fun ea => .addToReg .l ea rx)
  | 3#3 => withEA w .all .w (fun ea => .adda .w ea rx)
  | 4#3 => pairOr w (return .addxReg .b ry rx) (return .addxMem .b ry rx) (withEA w .memAlterable .b (.addToMem .b rx))
  | 5#3 => pairOr w (return .addxReg .w ry rx) (return .addxMem .w ry rx) (withEA w .memAlterable .w (.addToMem .w rx))
  | 6#3 => pairOr w (return .addxReg .l ry rx) (return .addxMem .l ry rx) (withEA w .memAlterable .l (.addToMem .l rx))
  | _   => withEA w .all .l (fun ea => .adda .l ea rx)

/-- Group 1110, memory form: bits 10 to 9 the kind, bit 8 the direction, bit 11 = 0 (R137). -/
def decodeShiftMem (w : Word) : Reader Instr :=
  match regField w, bit8 w with
  | 0#3, true  => withEA w .memAlterable .w .aslMem
  | 0#3, false => withEA w .memAlterable .w .asrMem
  | 1#3, true  => withEA w .memAlterable .w .lslMem
  | 1#3, false => withEA w .memAlterable .w .lsrMem
  | 2#3, true  => withEA w .memAlterable .w .roxlMem
  | 2#3, false => withEA w .memAlterable .w .roxrMem
  | 3#3, true  => withEA w .memAlterable .w .rolMem
  | 3#3, false => withEA w .memAlterable .w .rorMem
  | _, _       => unmatched w

/-- Group 1110, register form: bits 5 to 3 hold i/r and the kind, bit 8 the direction (43_shift_rotate.md R372). -/
def decodeShiftReg (w : Word) (sz : Size) : Reader Instr :=
  let c := regField w
  let ry := eaRegField w
  match modeField w, bit8 w with
  | 0#3, true  => return .aslImm sz c ry
  | 0#3, false => return .asrImm sz c ry
  | 1#3, true  => return .lslImm sz c ry
  | 1#3, false => return .lsrImm sz c ry
  | 2#3, true  => return .roxlImm sz c ry
  | 2#3, false => return .roxrImm sz c ry
  | 3#3, true  => return .rolImm sz c ry
  | 3#3, false => return .rorImm sz c ry
  | 4#3, true  => return .aslReg sz c ry
  | 4#3, false => return .asrReg sz c ry
  | 5#3, true  => return .lslReg sz c ry
  | 5#3, false => return .lsrReg sz c ry
  | 6#3, true  => return .roxlReg sz c ry
  | 6#3, false => return .roxrReg sz c ry
  | _,   true  => return .rolReg sz c ry
  | _,   false => return .rorReg sz c ry

/-- Group 1110 (R137). -/
def decodeE (w : Word) : Reader Instr :=
  match sizeOf2 (sizeField w) with
  | none => decodeShiftMem w
  | some sz => decodeShiftReg w sz

/-- The instruction an operation word begins, its extension words read from the list (R130). -/
def decodeGroup (w : Word) : Reader Instr :=
  match groupField w with
  | 0x0#4 => decode0 w
  | 0x1#4 => decodeMove w .b
  | 0x2#4 => decodeMoveWL w .l
  | 0x3#4 => decodeMoveWL w .w
  | 0x4#4 => decode4 w
  | 0x5#4 => decode5 w
  | 0x6#4 => decode6 w
  | 0x7#4 => decode7 w
  | 0x8#4 => decode8 w
  | 0x9#4 => decode9 w
  | 0xA#4 => return .lineA (w.extractLsb' 0 12)
  | 0xB#4 => decodeB w
  | 0xC#4 => decodeC w
  | 0xD#4 => decodeD w
  | 0xE#4 => decodeE w
  | _     => return .lineF (w.extractLsb' 0 12)

/-- Decode the first instruction of a list of words: the instruction and the words after it, or why there is none. -/
def decodeWords : List Word → Except DecodeError (Instr × List Word)
  | [] => .error .noWord
  | w :: rest => decodeGroup w rest

/-- Pair bytes into words, the byte at the lower address the more significant (20_memory.md R61); an odd last byte is
left out. -/
def wordsOfBytes : List Byte → List Word
  | hi :: lo :: rest => ((hi.setWidth 16 <<< 8) ||| lo.setWidth 16) :: wordsOfBytes rest
  | _ => []

/-- Decode the first instruction of a list of bytes as they lie in memory. -/
def decodeBytes (bs : List Byte) : Except DecodeError (Instr × List Word) := decodeWords (wordsOfBytes bs)

/-- The bytes of a table word: the words of its `nbits` low bits from bit 0 up, each as memory holds it, and zero
words up to the longest instruction, five words. -/
def tableBytes (nbits w : Nat) : List Byte :=
  let v : BitVec 80 := BitVec.ofNat 80 (w % 2 ^ nbits)
  [v.extractLsb' 8 8, v.extractLsb' 0 8, v.extractLsb' 24 8, v.extractLsb' 16 8, v.extractLsb' 40 8, v.extractLsb' 32 8,
   v.extractLsb' 56 8, v.extractLsb' 48 8, v.extractLsb' 72 8, v.extractLsb' 64 8]

/-- The instruction the decoder reads from a word of spec/opcode_table.json, numbered as the table numbers it. -/
def decodeTableWord (nbits w : Nat) : Option Instr :=
  match decodeBytes (tableBytes nbits w) with
  | .ok (i, _) => some i
  | .error _ => none

/-! ## The encoder -/

/-- An operation word of fields of 4, 3, 3, 3 and 3 bits: group, bits 11 to 9, 8 to 6, 5 to 3, 2 to 0. -/
def opWord (g : BitVec 4) (r o m y : BitVec 3) : Word :=
  (g.setWidth 16 <<< 12) ||| (r.setWidth 16 <<< 9) ||| (o.setWidth 16 <<< 6) ||| (m.setWidth 16 <<< 3) ||| y.setWidth 16

/-- An operation word of fields of 4, 4 and 8 bits: group, condition, displacement. -/
def opWordCond8 (g c : BitVec 4) (d : Byte) : Word :=
  (g.setWidth 16 <<< 12) ||| (c.setWidth 16 <<< 8) ||| d.setWidth 16

/-- An operation word of group, condition, `11`, mode and register. -/
def opWordCondEA (g c : BitVec 4) (m y : BitVec 3) : Word :=
  (g.setWidth 16 <<< 12) ||| (c.setWidth 16 <<< 8) ||| 0x00C0#16 ||| (m.setWidth 16 <<< 3) ||| y.setWidth 16

/-- The code of a size in bits 7 to 6 (30_encoding.md R105). -/
def Size.code : Size → BitVec 3
  | .b => 0
  | .w => 1
  | .l => 2

/-- A size code with 1 above it: OP modes 100, 101, 110 (R105), and bits 8 to 6 of ADDX, CMPM, SUBQ. -/
def Size.codeHigh : Size → BitVec 3
  | .b => 4
  | .w => 5
  | .l => 6

/-- The OP modes of ADDA, CMPA, SUBA: 011 word, 111 long (R105). -/
def SizeWL.codeA : SizeWL → BitVec 3
  | .w => 3
  | .l => 7

/-- Bits 8 to 6 of EXT and MOVEM: 010 word, 011 long (R105). -/
def SizeWL.code : SizeWL → BitVec 3
  | .w => 2
  | .l => 3

/-- The group of MOVE at each size: bits 13 and 12 are 01 byte, 11 word, 10 long (R105). -/
def Size.moveGroup : Size → BitVec 4
  | .b => 1
  | .w => 3
  | .l => 2

/-- The code of a condition (R140). -/
def Cond.code : Cond → BitVec 4
  | .t => 0x0  | .f => 0x1  | .hi => 0x2 | .ls => 0x3
  | .cc => 0x4 | .cs => 0x5 | .ne => 0x6 | .eq => 0x7
  | .vc => 0x8 | .vs => 0x9 | .pl => 0xA | .mi => 0xB
  | .ge => 0xC | .lt => 0xD | .gt => 0xE | .le => 0xF

/-- The mode bits of an effective address (R102). -/
def EA.modeBits : EA → BitVec 3
  | .dn _      => 0
  | .an _      => 1
  | .ind _     => 2
  | .postInc _ => 3
  | .preDec _  => 4
  | .disp _ _  => 5
  | .index _ _ => 6
  | .absW _ | .absL _ | .pcDisp _ | .pcIndex _ | .imm _ => 7

/-- The register bits of an effective address (R102). -/
def EA.regBits : EA → RegNo
  | .dn r | .an r | .ind r | .postInc r | .preDec r | .disp r _ | .index r _ => r
  | .absW _    => 0
  | .absL _    => 1
  | .pcDisp _  => 2
  | .pcIndex _ => 3
  | .imm _     => 4

/-- The index extension word, bits 10 to 8 zero (R116). -/
def IndexExt.word (x : IndexExt) : Word :=
  ((BitVec.ofBool x.isAddr).setWidth 16 <<< 15) ||| (x.reg.setWidth 16 <<< 12) |||
    ((BitVec.ofBool x.long).setWidth 16 <<< 11) ||| x.disp.setWidth 16

/-- The two words of a long word, the high-order word first. -/
def longWords (v : Long) : List Word := [v.extractLsb' 16 16, v.extractLsb' 0 16]

/-- The words of an immediate at a size; the high byte of a byte immediate's word is zero (R124). -/
def immWords (sz : Size) (v : Long) : List Word :=
  match sz with
  | .b => [(v.setWidth 8).setWidth 16]
  | .w => [v.setWidth 16]
  | .l => longWords v

/-- The extension words of an effective address at a size (R102). -/
def EA.words (sz : Size) : EA → List Word
  | .dn _ | .an _ | .ind _ | .postInc _ | .preDec _ => []
  | .disp _ d  => [d]
  | .index _ x => [x.word]
  | .absW a    => [a]
  | .absL a    => longWords a
  | .pcDisp d  => [d]
  | .pcIndex x => [x.word]
  | .imm v     => immWords sz v

/-- The byte of a displacement in the operation word (R141). -/
def Disp.byteField : Disp → Byte
  | .byte d => d
  | .word _ => 0

/-- The displacement word, if there is one (R141). -/
def Disp.words : Disp → List Word
  | .byte _ => []
  | .word d => [d]

/-- The operation word of an instruction with an effective address in bits 5 to 0. -/
def opWordEA (g : BitVec 4) (r o : BitVec 3) (ea : EA) : Word := opWord g r o ea.modeBits ea.regBits

/-- The operation word of a memory shift (43_shift_rotate.md R373). -/
def opWordShiftMem (kind : BitVec 3) (left : Bool) (ea : EA) : Word :=
  opWordEA 0xE kind (if left then 7 else 3) ea

/-- The operation word of a register shift (R372): `c` the count or count register, `m` is i/r and the kind. -/
def opWordShiftReg (c : BitVec 3) (left : Bool) (sz : Size) (m : BitVec 3) (ry : RegNo) : Word :=
  opWord 0xE c (if left then sz.codeHigh else sz.code) m ry

/-- The operation word of an instruction. -/
def Instr.opWord : Instr → Word
  | .oriToCcr _  => 0x003C
  | .oriToSr _   => 0x007C
  | .andiToCcr _ => 0x023C
  | .andiToSr _  => 0x027C
  | .eoriToCcr _ => 0x0A3C
  | .eoriToSr _  => 0x0A7C
  | .movepToReg sz ry _ rx => Sys2Proof.opWord 0 rx (match sz with | .w => 4 | .l => 5) 1 ry
  | .movepToMem sz rx ry _ => Sys2Proof.opWord 0 rx (match sz with | .w => 6 | .l => 7) 1 ry
  | .btstReg rx ea => opWordEA 0 rx 4 ea
  | .bchgReg rx ea => opWordEA 0 rx 5 ea
  | .bclrReg rx ea => opWordEA 0 rx 6 ea
  | .bsetReg rx ea => opWordEA 0 rx 7 ea
  | .btstImm _ ea => opWordEA 0 4 0 ea
  | .bchgImm _ ea => opWordEA 0 4 1 ea
  | .bclrImm _ ea => opWordEA 0 4 2 ea
  | .bsetImm _ ea => opWordEA 0 4 3 ea
  | .ori sz _ ea  => opWordEA 0 0 sz.code ea
  | .andi sz _ ea => opWordEA 0 1 sz.code ea
  | .subi sz _ ea => opWordEA 0 2 sz.code ea
  | .addi sz _ ea => opWordEA 0 3 sz.code ea
  | .eori sz _ ea => opWordEA 0 5 sz.code ea
  | .cmpi sz _ ea => opWordEA 0 6 sz.code ea
  | .movea sz src rx => opWordEA sz.size.moveGroup rx 1 src
  | .move sz src dst => opWordEA sz.moveGroup dst.regBits dst.modeBits src
  | .reset   => 0x4E70
  | .nop     => 0x4E71
  | .stop _  => 0x4E72
  | .rte     => 0x4E73
  | .rts     => 0x4E75
  | .trapv   => 0x4E76
  | .rtr     => 0x4E77
  | .illegal => 0x4AFC
  | .trap n  => 0x4E40#16 ||| n.setWidth 16
  | .link r _ => Sys2Proof.opWord 4 7 1 2 r
  | .unlk r   => Sys2Proof.opWord 4 7 1 3 r
  | .moveToUsp r   => Sys2Proof.opWord 4 7 1 4 r
  | .moveFromUsp r => Sys2Proof.opWord 4 7 1 5 r
  | .jsr ea => opWordEA 4 7 2 ea
  | .jmp ea => opWordEA 4 7 3 ea
  | .swap r => Sys2Proof.opWord 4 4 1 0 r
  | .ext sz r => Sys2Proof.opWord 4 4 sz.code 0 r
  | .nbcd ea => opWordEA 4 4 0 ea
  | .pea ea => opWordEA 4 4 1 ea
  | .movemToMem sz _ ea => opWordEA 4 4 sz.code ea
  | .movemToReg sz _ ea => opWordEA 4 6 sz.code ea
  | .moveFromSr ea => opWordEA 4 0 3 ea
  | .negx sz ea => opWordEA 4 0 sz.code ea
  | .moveFromCcr low => 0x42C0#16 ||| low.setWidth 16
  | .clr sz ea => opWordEA 4 1 sz.code ea
  | .moveToCcr ea => opWordEA 4 2 3 ea
  | .neg sz ea => opWordEA 4 2 sz.code ea
  | .moveToSr ea => opWordEA 4 3 3 ea
  | .not sz ea => opWordEA 4 3 sz.code ea
  | .tas ea => opWordEA 4 5 3 ea
  | .tst sz ea => opWordEA 4 5 sz.code ea
  | .chk ea rx => opWordEA 4 rx 6 ea
  | .lea ea rx => opWordEA 4 rx 7 ea
  | .dbcc c r _ => opWordCondEA 5 c.code 1 r
  | .scc c ea => opWordCondEA 5 c.code ea.modeBits ea.regBits
  | .addq sz q ea => opWordEA 5 q sz.code ea
  | .subq sz q ea => opWordEA 5 q sz.codeHigh ea
  | .bra d => opWordCond8 6 0 d.byteField
  | .bsr d => opWordCond8 6 1 d.byteField
  | .bcc c d => opWordCond8 6 c.code d.byteField
  | .moveq v rx => (0x7000#16 ||| (rx.setWidth 16 <<< 9)) ||| v.setWidth 16
  | .divu ea rx => opWordEA 8 rx 3 ea
  | .divs ea rx => opWordEA 8 rx 7 ea
  | .sbcdReg ry rx => Sys2Proof.opWord 8 rx 4 0 ry
  | .sbcdMem ry rx => Sys2Proof.opWord 8 rx 4 1 ry
  | .orToReg sz ea rx => opWordEA 8 rx sz.code ea
  | .orToMem sz rx ea => opWordEA 8 rx sz.codeHigh ea
  | .suba sz ea rx => opWordEA 9 rx sz.codeA ea
  | .subxReg sz ry rx => Sys2Proof.opWord 9 rx sz.codeHigh 0 ry
  | .subxMem sz ry rx => Sys2Proof.opWord 9 rx sz.codeHigh 1 ry
  | .subToReg sz ea rx => opWordEA 9 rx sz.code ea
  | .subToMem sz rx ea => opWordEA 9 rx sz.codeHigh ea
  | .cmpa sz ea rx => opWordEA 0xB rx sz.codeA ea
  | .cmpm sz ry rx => Sys2Proof.opWord 0xB rx sz.codeHigh 1 ry
  | .cmp sz ea rx => opWordEA 0xB rx sz.code ea
  | .eor sz rx ea => opWordEA 0xB rx sz.codeHigh ea
  | .mulu ea rx => opWordEA 0xC rx 3 ea
  | .muls ea rx => opWordEA 0xC rx 7 ea
  | .abcdReg ry rx => Sys2Proof.opWord 0xC rx 4 0 ry
  | .abcdMem ry rx => Sys2Proof.opWord 0xC rx 4 1 ry
  | .exgDD rx ry => Sys2Proof.opWord 0xC rx 5 0 ry
  | .exgAA rx ry => Sys2Proof.opWord 0xC rx 5 1 ry
  | .exgDA rx ry => Sys2Proof.opWord 0xC rx 6 1 ry
  | .andToReg sz ea rx => opWordEA 0xC rx sz.code ea
  | .andToMem sz rx ea => opWordEA 0xC rx sz.codeHigh ea
  | .adda sz ea rx => opWordEA 0xD rx sz.codeA ea
  | .addxReg sz ry rx => Sys2Proof.opWord 0xD rx sz.codeHigh 0 ry
  | .addxMem sz ry rx => Sys2Proof.opWord 0xD rx sz.codeHigh 1 ry
  | .addToReg sz ea rx => opWordEA 0xD rx sz.code ea
  | .addToMem sz rx ea => opWordEA 0xD rx sz.codeHigh ea
  | .aslMem ea  => opWordShiftMem 0 true ea
  | .asrMem ea  => opWordShiftMem 0 false ea
  | .lslMem ea  => opWordShiftMem 1 true ea
  | .lsrMem ea  => opWordShiftMem 1 false ea
  | .roxlMem ea => opWordShiftMem 2 true ea
  | .roxrMem ea => opWordShiftMem 2 false ea
  | .rolMem ea  => opWordShiftMem 3 true ea
  | .rorMem ea  => opWordShiftMem 3 false ea
  | .aslReg sz rx ry  => opWordShiftReg rx true sz 4 ry
  | .aslImm sz q ry   => opWordShiftReg q true sz 0 ry
  | .asrReg sz rx ry  => opWordShiftReg rx false sz 4 ry
  | .asrImm sz q ry   => opWordShiftReg q false sz 0 ry
  | .lslReg sz rx ry  => opWordShiftReg rx true sz 5 ry
  | .lslImm sz q ry   => opWordShiftReg q true sz 1 ry
  | .lsrReg sz rx ry  => opWordShiftReg rx false sz 5 ry
  | .lsrImm sz q ry   => opWordShiftReg q false sz 1 ry
  | .roxlReg sz rx ry => opWordShiftReg rx true sz 6 ry
  | .roxlImm sz q ry  => opWordShiftReg q true sz 2 ry
  | .roxrReg sz rx ry => opWordShiftReg rx false sz 6 ry
  | .roxrImm sz q ry  => opWordShiftReg q false sz 2 ry
  | .rolReg sz rx ry  => opWordShiftReg rx true sz 7 ry
  | .rolImm sz q ry   => opWordShiftReg q true sz 3 ry
  | .rorReg sz rx ry  => opWordShiftReg rx false sz 7 ry
  | .rorImm sz q ry   => opWordShiftReg q false sz 3 ry
  | .lineA low => 0xA000#16 ||| low.setWidth 16
  | .lineF low => 0xF000#16 ||| low.setWidth 16

/-- The extension words of an instruction, in the order of 30_encoding.md R101. -/
def Instr.extWords : Instr → List Word
  | .oriToCcr v | .andiToCcr v | .eoriToCcr v => [v.setWidth 16]
  | .oriToSr v | .andiToSr v | .eoriToSr v | .stop v => [v]
  | .movepToReg _ _ d _ | .movepToMem _ _ _ d => [d]
  | .btstReg _ ea | .bchgReg _ ea | .bclrReg _ ea | .bsetReg _ ea => ea.words ea.bitSize
  | .btstImm n ea | .bchgImm n ea | .bclrImm n ea | .bsetImm n ea => n.setWidth 16 :: ea.words ea.bitSize
  | .ori sz v ea | .andi sz v ea | .subi sz v ea | .addi sz v ea | .eori sz v ea | .cmpi sz v ea =>
    immWords sz v ++ ea.words sz
  | .movea sz src _ => src.words sz.size
  | .move sz src dst => src.words sz ++ dst.words sz
  | .link _ d => [d]
  | .jsr ea | .jmp ea | .pea ea | .lea ea _ => ea.words .l
  | .nbcd ea | .tas ea | .scc _ ea => ea.words .b
  | .movemToMem sz mask ea | .movemToReg sz mask ea => mask :: ea.words sz.size
  | .moveFromSr ea | .moveToCcr ea | .moveToSr ea | .chk ea _ => ea.words .w
  | .negx sz ea | .clr sz ea | .neg sz ea | .not sz ea | .tst sz ea => ea.words sz
  | .dbcc _ _ d => [d]
  | .addq sz _ ea | .subq sz _ ea => ea.words sz
  | .bra d | .bsr d | .bcc _ d => d.words
  | .divu ea _ | .divs ea _ | .mulu ea _ | .muls ea _ => ea.words .w
  | .orToReg sz ea _ | .andToReg sz ea _ | .subToReg sz ea _ | .addToReg sz ea _ | .cmp sz ea _ => ea.words sz
  | .orToMem sz _ ea | .andToMem sz _ ea | .subToMem sz _ ea | .addToMem sz _ ea | .eor sz _ ea => ea.words sz
  | .suba sz ea _ | .cmpa sz ea _ | .adda sz ea _ => ea.words sz.size
  | .aslMem ea | .asrMem ea | .lslMem ea | .lsrMem ea | .roxlMem ea | .roxrMem ea | .rolMem ea | .rorMem ea =>
    ea.words .w
  | .reset | .nop | .rte | .rts | .trapv | .rtr | .illegal | .trap _ | .unlk _ | .moveToUsp _ | .moveFromUsp _ => []
  | .swap _ | .ext _ _ | .moveFromCcr _ | .moveq _ _ | .sbcdReg _ _ | .sbcdMem _ _ | .abcdReg _ _ | .abcdMem _ _ => []
  | .subxReg _ _ _ | .subxMem _ _ _ | .addxReg _ _ _ | .addxMem _ _ _ | .cmpm _ _ _ => []
  | .exgDD _ _ | .exgAA _ _ | .exgDA _ _ => []
  | .aslReg _ _ _ | .asrReg _ _ _ | .lslReg _ _ _ | .lsrReg _ _ _ => []
  | .roxlReg _ _ _ | .roxrReg _ _ _ | .rolReg _ _ _ | .rorReg _ _ _ => []
  | .aslImm _ _ _ | .asrImm _ _ _ | .lslImm _ _ _ | .lsrImm _ _ _ => []
  | .roxlImm _ _ _ | .roxrImm _ _ _ | .rolImm _ _ _ | .rorImm _ _ _ => []
  | .lineA _ | .lineF _ => []

/-- The words of an instruction: the operation word, then the extension words (R100, R101). -/
def encode (i : Instr) : List Word := i.opWord :: i.extWords

/-- The length of an instruction in words. -/
def Instr.length (i : Instr) : Nat := (encode i).length

end Sys2Proof
end

