-- ==== Sys2Proof/Config.lean ====
section
/-! DEFINITION. The free values of the model: constants without a body, so that nothing can be proved about
their values. They stand for the spec's `draw()` (00_scope.md R8), for the other values the spec leaves unspecified,
and for the devices of the platform (`MEM`, R6). The first kinds are applied to the counter `draws` of the state
(log entry 6), the last to what the devices have seen (log entry 26). -/

namespace Sys2Proof.Config

/-- What a device of the platform sees: a bus cycle that reaches it, with its address in the 24-bit space
(20_memory.md R60, R66); an interrupt acknowledge cycle of a level (60_exceptions.md R542); the pulse of the RESET
instruction (47_system_control.md R502); an external reset (70_reset_and_hazards.md R580). That the last three are
seen by every device, and that a bus cycle is seen only by the devices it reaches, is the model's choice (DESIGN
CHOICE, log entry 26). -/
inductive BusEvent where
  | readByte (a : Nat)
  | readWord (a : Nat)
  | writeByte (a : Nat) (v : Byte)
  | writeWord (a : Nat) (v : Word)
  | acknowledge (level : BitVec 3)
  | resetPulse
  | externalReset
deriving DecidableEq, Repr

/-- The byte that a device answers at an address to the read cycle that stands first in the list, the devices having
seen the events after it, the latest first: the read and write functions and the `reset_pulse` of `MEM`
(00_scope.md R6, 92_eei_decisions.md D2), as any function of their history (log entry 26). -/
opaque deviceByte : List BusEvent → Nat → Byte

/-- One free bit: an undefined flag (92_eei_decisions.md D5, D20 to D22), a prefetch choice (D4), the order of
the halves of a long access (`LONG_ORDER`, D11). -/
opaque freeBit : Nat → Bool

/-- A free byte: the result of a BCD instruction on an invalid operand (D21). -/
opaque freeByte : Nat → Byte

/-- A free word: the unspecified bits of the group 0 frame and its instruction register where no instruction
is in progress (60_exceptions.md R535). -/
opaque freeWord : Nat → Word

/-- A free long word: the saved program counter of a group 0 exception that no instruction caused (R535). -/
opaque freeLong : Nat → Long

/-- A free number, used below a bound the spec states (the saved program counter, `I + 2` to `I + 10`, R535). -/
opaque freeNat : Nat → Nat

end Sys2Proof.Config
end

