-- ==== Sys2Proof/Machine/State.lean ====
section
/-! DEFINITION. The state of the machine: the registers of the 68000 (10_state.md), its hidden state (R30), memory, and
what the platform presents to it; and the state right after reset (70_reset_and_hazards.md R580, R581). -/

namespace Sys2Proof.Machine

/-- The status register `SR` as its ten named bits (10_state.md R24). Bits 14, 12, 11, 7, 6 and 5 are hardwired
zero and hold nothing (R25, log entry 18). -/
structure StatusReg where
  /-- bit 15, trace -/
  t : Bool
  /-- bit 13, supervisor state -/
  s : Bool
  /-- bits 10 to 8, interrupt mask -/
  i : BitVec 3
  /-- bit 4, extend -/
  x : Bool
  /-- bit 3, negative -/
  n : Bool
  /-- bit 2, zero -/
  z : Bool
  /-- bit 1, overflow -/
  v : Bool
  /-- bit 0, carry -/
  c : Bool
deriving DecidableEq, Repr

/-- The platform's answer to an interrupt acknowledge (60_exceptions.md R542). -/
inductive Ack where
  /-- The device supplies a vector number. -/
  | vector (k : Byte)
  /-- The platform requests autovectoring. -/
  | auto
  /-- Nothing answers: the cycle ends in a bus error. -/
  | busError
deriving DecidableEq, Repr

/-- The inputs of one step (60_exceptions.md R565): external reset, the interrupt request level (R540), and the answer
the platform would give to an acknowledge (R542). -/
structure Pins where
  resetIn : Bool
  ipl     : BitVec 3
  ack     : Ack
deriving DecidableEq, Repr

/-- No reset, no interrupt request. -/
def Pins.idle : Pins := { resetIn := false, ipl := 0, ack := .auto }

/-- A range of addresses of the platform's map `MEM` (00_scope.md R6): one at which nothing answers, so that an access
ends in a bus error (20_memory.md R74), or one at which a device answers (92_eei_decisions.md D2). -/
structure Region where
  base : Nat
  size : Nat
deriving DecidableEq, Repr

/-- A word that may have been fetched ahead of its use: its address, what `MEM` answered for it before the writes of
the instruction that prefetched it, and how many events the devices had seen by then (10_state.md R30 d,
20_memory.md R73, log entry 7). -/
structure Prefetched where
  addr : Nat
  word : Word
  seen : Nat
deriving DecidableEq, Repr

/-- The state of the machine. -/
structure State where
  /-- data registers `D0` to `D7` (10_state.md R20) -/
  d : Vector Long 8
  /-- address registers `A0` to `A6` (R21); `A7` is `ssp` or `usp` (R22) -/
  a : Vector Long 7
  /-- user stack pointer (R22) -/
  usp : Long
  /-- supervisor stack pointer (R22) -/
  ssp : Long
  /-- program counter (R23) -/
  pc : Long
  /-- status register (R24) -/
  sr : StatusReg
  /-- memory: the bytes that differ from what an unlisted address reads as (20_memory.md R60, log entry 2) -/
  mem : List Host.Cell
  /-- set by STOP (R30 a) -/
  stopped : Bool
  /-- set by a double bus fault (R30 b) -/
  halted : Bool
  /-- the memory of a transition of `ipl` to 7 (R30 c) -/
  nmiEdge : Bool
  /-- the instruction register: the operation word of the instruction in progress (60_exceptions.md R535) -/
  ir : Word
  /-- prefetched words, as they stood before the writes of the instructions that prefetched them (R30 d) -/
  prefetch : List Prefetched
  /-- the platform's inputs as last sampled (R30 c, 60_exceptions.md R565) -/
  pins : Pins
  /-- the platform's inputs still to come, one entry a step; none left means idle (log entry 5) -/
  inputs : List Pins
  /-- the platform's ranges that do not answer (20_memory.md R74); no instruction changes it (log entry 4) -/
  silent : List Region
  /-- the platform's ranges at which a device answers, every other address being a memory cell (00_scope.md R6,
  92_eei_decisions.md D2); no instruction changes it (log entry 4) -/
  devices : List Region
  /-- what the devices have seen, the latest first: the bus cycles that reached one, interrupt acknowledges, reset
  pulses and external resets (92_eei_decisions.md D2, log entry 26) -/
  deviceLog : List Config.BusEvent
  /-- how many times RESET has driven the reset pin (R30 e) -/
  resetPulses : Nat
  /-- the model's own: `T` as it was when the instruction in progress began, until that instruction turns out not to
  be traced (the `t` of 60_exceptions.md R565) -/
  traceDue : Bool
  /-- the model's own: how many free values have been drawn (00_scope.md R8, log entry 6) -/
  draws : Nat
deriving DecidableEq, Repr

/-- Why a step stops with a fault. -/
inductive Fault where
  /-- Raised by a step whose decoder asks for more words than the longest instruction has. No state reaches it: five
  words are always given to it. Safe: the machine stops where the spec gives no behaviour. -/
  | truncated
deriving DecidableEq, Repr

/-- Why an instruction is refused. -/
inductive Refusal where
  /-- Raised by an arm of `exec` whose instruction has no meaning yet. Safe: nothing can be proved of it. -/
  | notModelled (mnemonic : String)
  /-- Raised by LINK with `A7`, which 40_data_movement.md R219 leaves undefined and tells a model to refuse. Safe. -/
  | linkA7
  /-- Raised by UNLK with `A7`, which 40_data_movement.md R220 tells a model to refuse. Safe. -/
  | unlkA7
  /-- Raised by a meaning given an operand that no well-formed instruction has. No decoded instruction raises it.
  Safe. -/
  | malformed
deriving DecidableEq, Repr

/-- The status register after reset: supervisor state, no trace, mask 7; the condition codes, which reset leaves
unspecified, are zero (70_reset_and_hazards.md R581; DESIGN CHOICE, unsafe, log entry 1). -/
def StatusReg.reset : StatusReg :=
  { t := false, s := true, i := 7, x := false, n := false, z := false, v := false, c := false }

/-- The machine right after reset (70_reset_and_hazards.md R580, R581). Memory lists nothing, so the two reset
vectors read zero (log entry 2). The registers the spec leaves unspecified are zero (DESIGN CHOICE, unsafe, log
entry 1). -/
def State.reset : State where
  d := Vector.replicate 8 0
  a := Vector.replicate 7 0
  usp := 0
  ssp := 0
  pc := 0
  sr := StatusReg.reset
  mem := []
  stopped := false
  halted := false
  nmiEdge := false
  ir := 0
  prefetch := []
  pins := Pins.idle
  inputs := []
  silent := []
  devices := []
  deviceLog := []
  resetPulses := 0
  traceDue := false
  draws := 0

end Sys2Proof.Machine
end

