-- ==== Sys2Proof/Machine/Flags.lean ====
section
/-! DEFINITION. The status register as a word, the flag helpers of 00_scope.md R10 to R12, and the conditions of
30_encoding.md R140. -/

namespace Sys2Proof.Machine

/-- `SR` as a word; the unnamed bits read as zero (10_state.md R24, R25). -/
def StatusReg.toWord (r : StatusReg) : Word :=
  BitVec.ofBool r.t ++ 0#1 ++ BitVec.ofBool r.s ++ 0#2 ++ r.i ++ 0#3 ++
    BitVec.ofBool r.x ++ BitVec.ofBool r.n ++ BitVec.ofBool r.z ++ BitVec.ofBool r.v ++ BitVec.ofBool r.c

/-- A write of a word to `SR`: the unnamed bits are discarded (10_state.md R25). -/
def StatusReg.ofWord (w : Word) : StatusReg where
  t := w.getLsbD 15
  s := w.getLsbD 13
  i := w.extractLsb' 8 3
  x := w.getLsbD 4
  n := w.getLsbD 3
  z := w.getLsbD 2
  v := w.getLsbD 1
  c := w.getLsbD 0

/-- `CCR`, the low byte of `SR` (10_state.md R24). -/
def StatusReg.ccr (r : StatusReg) : Byte := r.toWord.setWidth 8

/-- A write of a byte to `CCR`: bits 4 to 0 become the flags, the high byte of `SR` stays (10_state.md R25). -/
def StatusReg.withCcr (r : StatusReg) (b : Byte) : StatusReg :=
  { r with x := b.getLsbD 4, n := b.getLsbD 3, z := b.getLsbD 2, v := b.getLsbD 1, c := b.getLsbD 0 }

/-- `NZ(sz, r)` (00_scope.md R10). -/
def StatusReg.nz {n : Nat} (sr : StatusReg) (r : BitVec n) : StatusReg :=
  { sr with n := r.msb, z := r == 0 }

/-- `LOGIC(sz, r)`: N and Z from the result, V and C cleared, X unchanged (00_scope.md R10). -/
def StatusReg.logic {n : Nat} (sr : StatusReg) (r : BitVec n) : StatusReg :=
  { sr.nz r with v := false, c := false }

/-- The carry out of the top bit of `r = d + s [+ X]` (00_scope.md R11). -/
def addCarry {n : Nat} (s d r : BitVec n) : Bool :=
  (s.msb && d.msb) || (!r.msb && d.msb) || (s.msb && !r.msb)

/-- Signed overflow of `r = d + s [+ X]` (00_scope.md R11). -/
def addOverflow {n : Nat} (s d r : BitVec n) : Bool :=
  (s.msb && d.msb && !r.msb) || (!s.msb && !d.msb && r.msb)

/-- `ADDFLAGS`: C, V, X and N of an addition; Z is the caller's (00_scope.md R11). -/
def StatusReg.addFlags {n : Nat} (sr : StatusReg) (s d r : BitVec n) : StatusReg :=
  { sr with x := addCarry s d r, n := r.msb, v := addOverflow s d r, c := addCarry s d r }

/-- The borrow of `r = d - s [- X]` (00_scope.md R12). -/
def subBorrow {n : Nat} (s d r : BitVec n) : Bool :=
  (s.msb && !d.msb) || (r.msb && !d.msb) || (s.msb && r.msb)

/-- Signed overflow of `r = d - s [- X]` (00_scope.md R12). -/
def subOverflow {n : Nat} (s d r : BitVec n) : Bool :=
  (!s.msb && d.msb && !r.msb) || (s.msb && !d.msb && r.msb)

/-- `SUBFLAGS`: C, V and N of a subtraction; X and Z are the caller's (00_scope.md R12). -/
def StatusReg.subFlags {n : Nat} (sr : StatusReg) (s d r : BitVec n) : StatusReg :=
  { sr with n := r.msb, v := subOverflow s d r, c := subBorrow s d r }

/-- `Z <- (r = 0)`. -/
def StatusReg.setZ {n : Nat} (sr : StatusReg) (r : BitVec n) : StatusReg := { sr with z := r == 0 }

/-- Sticky Z: cleared by a result that is not zero, else unchanged (41_integer_arithmetic.md R260). -/
def StatusReg.stickyZ {n : Nat} (sr : StatusReg) (r : BitVec n) : StatusReg := { sr with z := sr.z && r == 0 }

/-- `X <- C`. -/
def StatusReg.copyX (sr : StatusReg) : StatusReg := { sr with x := sr.c }

/-- The flags of ADD, ADDI, ADDQ (41_integer_arithmetic.md R262). -/
def StatusReg.ofAdd {n : Nat} (sr : StatusReg) (s d r : BitVec n) : StatusReg := (sr.addFlags s d r).setZ r

/-- The flags of ADDX (R270). -/
def StatusReg.ofAddX {n : Nat} (sr : StatusReg) (s d r : BitVec n) : StatusReg := (sr.addFlags s d r).stickyZ r

/-- The flags of SUB, SUBI, SUBQ, NEG (R273, R292). -/
def StatusReg.ofSub {n : Nat} (sr : StatusReg) (s d r : BitVec n) : StatusReg := (sr.subFlags s d r).copyX.setZ r

/-- The flags of SUBX and NEGX (R277, R293). -/
def StatusReg.ofSubX {n : Nat} (sr : StatusReg) (s d r : BitVec n) : StatusReg := (sr.subFlags s d r).copyX.stickyZ r

/-- The flags of CMP, CMPA, CMPI, CMPM: X unchanged (R285). -/
def StatusReg.ofCmp {n : Nat} (sr : StatusReg) (s d r : BitVec n) : StatusReg := (sr.subFlags s d r).setZ r

/-- `Cond(cccc)`: whether a condition holds (30_encoding.md R140). -/
def StatusReg.holds (sr : StatusReg) : Cond → Bool
  | .t  => true
  | .f  => false
  | .hi => !sr.c && !sr.z
  | .ls => sr.c || sr.z
  | .cc => !sr.c
  | .cs => sr.c
  | .ne => !sr.z
  | .eq => sr.z
  | .vc => !sr.v
  | .vs => sr.v
  | .pl => !sr.n
  | .mi => sr.n
  | .ge => sr.n == sr.v
  | .lt => sr.n != sr.v
  | .gt => !sr.z && (sr.n == sr.v)
  | .le => sr.z || (sr.n != sr.v)

end Sys2Proof.Machine
end

