-- ==== Sys2Proof/Machine/Memory.lean ====
section
/-! DEFINITION. Memory as a list of address and byte pairs in one canonical form: addresses strictly rising, each
below the size of the address space, and no entry equal to what an unlisted address reads as. -/

namespace Sys2Proof.Machine

/-- `ADDR_BITS`: how many low bits of an address reach memory (20_memory.md R60). -/
def addrBits : Nat := 24

/-- The byte a 32-bit address selects: its low 24 bits (20_memory.md R60). -/
def addrOf (a : Long) : Nat := a.toNat % 2 ^ addrBits

/-- The byte addresses of a value of `n` bytes at `x`, wrapping at the top of the space (20_memory.md R62). -/
def bytesAt (x : Long) (n : Nat) : List Nat := (List.range n).map fun k => addrOf (x + BitVec.ofNat 32 k)

/-- What an unlisted address reads as. DESIGN CHOICE, unsafe (log entry 2): the spec gives memory no contents after
power-on. -/
def Memory.unlisted : Byte := 0

/-- The byte at an address. -/
def Memory.read : List Host.Cell → Nat → Byte
  | [], _ => Memory.unlisted
  | (k, v) :: rest, a => if k = a then v else Memory.read rest a

/-- Drop the entry of an address. -/
def Memory.erase (m : List Host.Cell) (a : Nat) : List Host.Cell := m.filter fun c => c.1 ≠ a

/-- Put an entry in its place. -/
def Memory.insert : List Host.Cell → Nat → Byte → List Host.Cell
  | [], a, v => [(a, v)]
  | (k, u) :: rest, a, v =>
    if a < k then (a, v) :: (k, u) :: rest
    else if a = k then (a, v) :: rest
    else (k, u) :: Memory.insert rest a v

/-- Write a byte: the value an unlisted address reads as removes the entry. -/
def Memory.write (m : List Host.Cell) (a : Nat) (v : Byte) : List Host.Cell :=
  if v = Memory.unlisted then Memory.erase m a else Memory.insert m a v

/-- Addresses strictly rising above `lo`, below the size of the address space, and no unlisted value. -/
def Memory.wfFrom : Nat → List Host.Cell → Bool
  | _, [] => true
  | lo, (k, v) :: rest => decide (lo ≤ k) && decide (k < 2 ^ addrBits) && v != Memory.unlisted && Memory.wfFrom (k + 1) rest

/-- The canonical form. -/
def Memory.wf (m : List Host.Cell) : Bool := Memory.wfFrom 0 m

end Sys2Proof.Machine
end

