-- ==== Sys2Proof/Machine/Ops.lean ====
section
/-! DEFINITION. The named operations over registers and memory: register access, bus accesses with their faults,
instruction fetch, the stack, free values, and taking an exception and returning from one. -/

namespace Sys2Proof.Machine

/-! ## Registers -/

/-- `D[r]` (10_state.md R20). -/
def State.dreg (s : State) (r : RegNo) : Long := s.d[r.toNat]'r.isLt

/-- Write all 32 bits of `D[r]`. -/
def State.setDreg (s : State) (r : RegNo) (v : Long) : State := { s with d := s.d.set r.toNat v r.isLt }

/-- The active stack pointer: `SSP` in supervisor state, `USP` in user state (10_state.md R22). -/
def State.sp (s : State) : Long := if s.sr.s then s.ssp else s.usp

/-- Write the active stack pointer. -/
def State.setSp (s : State) (v : Long) : State := if s.sr.s then { s with ssp := v } else { s with usp := v }

/-- `A[r]`; `A[7]` is the active stack pointer (10_state.md R21, R22). -/
def State.areg (s : State) (r : RegNo) : Long := if h : r.toNat < 7 then s.a[r.toNat] else s.sp

/-- Write all 32 bits of `A[r]`. -/
def State.setAreg (s : State) (r : RegNo) (v : Long) : State :=
  if h : r.toNat < 7 then { s with a := s.a.set r.toNat v } else s.setSp v

/-- The low `n` bits of a register replaced, the others kept (00_scope.md R9). -/
def merge {n : Nat} (old : Long) (v : BitVec n) : Long := ((old >>> n) <<< n) ||| v.setWidth 32

/-- `D[r][n-1:0] <- v` (00_scope.md R9). -/
def State.putDreg {n : Nat} (s : State) (r : RegNo) (v : BitVec n) : State := s.setDreg r (merge (s.dreg r) v)

/-! ## Bytes, words and long words of memory -/

/-- The byte a 32-bit address selects (20_memory.md R60). -/
def State.readByte (s : State) (a : Long) : Byte := Memory.read s.mem (addrOf a)

/-- The word at an address, the byte at the lower address the more significant (R61). -/
def State.readWord (s : State) (a : Long) : Word := s.readByte a ++ s.readByte (a + 1#32)

/-- The long word at an address (R61, R62). -/
def State.readLong (s : State) (a : Long) : Long := s.readWord a ++ s.readWord (a + 2#32)

/-- The value of a size at an address. -/
def State.readSized (s : State) : (sz : Size) → Long → BitVec sz.bits
  | .b, a => s.readByte a
  | .w, a => s.readWord a
  | .l, a => s.readLong a

/-- Store a byte. -/
def State.writeByte (s : State) (a : Long) (v : Byte) : State := { s with mem := Memory.write s.mem (addrOf a) v }

/-- Store a word, the more significant byte at the lower address (R61, R63). -/
def State.writeWord (s : State) (a : Long) (v : Word) : State :=
  (s.writeByte a (v.extractLsb' 8 8)).writeByte (a + 1#32) (v.extractLsb' 0 8)

/-- Store a long word. -/
def State.writeLong (s : State) (a : Long) (v : Long) : State :=
  (s.writeWord a (v.extractLsb' 16 16)).writeWord (a + 2#32) (v.extractLsb' 0 16)

/-- Store a value of a size. -/
def State.writeSized (s : State) : (sz : Size) → Long → BitVec sz.bits → State
  | .b, a, v => s.writeByte a v
  | .w, a, v => s.writeWord a v
  | .l, a, v => s.writeLong a v

/-! ## Accesses -/

/-- The two spaces an access may refer to (20_memory.md R70). -/
inductive Space where
  | data | program
deriving DecidableEq, Repr

/-- The function code of an access (60_exceptions.md R535). -/
def State.functionCode (s : State) : Space → BitVec 3
  | .data    => if s.sr.s then 5 else 1
  | .program => if s.sr.s then 6 else 2

/-- The two group 0 causes an access can have (60_exceptions.md R524, R525). -/
inductive FaultKind where
  | addressError | busError
deriving DecidableEq, Repr

/-- The vector number of a group 0 exception (60_exceptions.md R522). -/
def FaultKind.vector : FaultKind → Byte
  | .addressError => 3
  | .busError => 2

/-- A faulting access, with what its frame reports (60_exceptions.md R535). -/
structure AccessFault where
  kind : FaultKind
  addr : Long
  /-- R/W: the access was a read -/
  read : Bool
  fc : BitVec 3
  /-- I/N: the processor was doing exception processing -/
  inException : Bool
deriving DecidableEq, Repr

/-- What ends an instruction early: a group 0 fault, or a refusal of the model. -/
inductive Abort where
  | group0 (f : AccessFault)
  | refuse (r : Refusal)
deriving DecidableEq, Repr

/-- A part of an instruction: it changes the state and gives a result, or ends early, the changes made so far kept
(30_encoding.md R127). -/
abbrev Exec := EStateM Abort State

/-- A word or long access at an odd address is not made (20_memory.md R65). -/
def misaligned (sz : Size) (a : Long) : Bool := sz != .b && a.getLsbD 0

/-- A range covers a byte address. -/
def Region.covers (r : Region) (a : Long) : Bool := decide (r.base ≤ addrOf a) && decide (addrOf a < r.base + r.size)

/-- Something answers at a byte address (20_memory.md R74). -/
def State.answersAt (s : State) (a : Long) : Bool := !s.silent.any fun r => r.covers a

/-- What answers at a byte address is a device, not a memory cell (92_eei_decisions.md D2). -/
def State.deviceAt (s : State) (a : Long) : Bool := s.devices.any fun r => r.covers a

/-- A word bus cycle is answered (20_memory.md R66). -/
def State.wordAnswers (s : State) (a : Long) : Bool := s.answersAt a && s.answersAt (a + 1#32)

/-- Every bus cycle of an access is answered. -/
def State.answers (s : State) (sz : Size) (a : Long) : Bool :=
  match sz with
  | .b => s.answersAt a
  | .w => s.wordAnswers a
  | .l => s.wordAnswers a && s.wordAnswers (a + 2#32)

/-- An access raises nothing: it is aligned and answered. -/
def State.accessOk (s : State) (sz : Size) (a : Long) : Bool := !misaligned sz a && s.answers sz a

/-- The fault of an access that is not `accessOk`: an odd address before anything that does not answer
(20_memory.md R62, R63). -/
def State.accessFault (s : State) (sp : Space) (sz : Size) (a : Long) (read : Bool) : AccessFault where
  kind := if misaligned sz a then .addressError else .busError
  addr := a
  read := read
  fc := s.functionCode sp
  inException := false

/-- A free bit, and the state in which it has been drawn (00_scope.md R8), where an access draws it. -/
def State.drawn (s : State) : Bool × State := (Config.freeBit s.draws, { s with draws := s.draws + 1 })

/-- Draw one free bit (00_scope.md R8). -/
def drawBit : Exec Bool := do
  let s ← get
  set { s with draws := s.draws + 1 }
  return Config.freeBit s.draws

/-- Draw one free byte. -/
def drawByte : Exec Byte := do
  let s ← get
  set { s with draws := s.draws + 1 }
  return Config.freeByte s.draws

/-! ### Bus cycles: memory cells and devices (00_scope.md R6, 92_eei_decisions.md D2, log entry 26) -/

/-- An event that a device sees becomes part of what the devices have seen. -/
def State.note (s : State) (e : Config.BusEvent) : State := { s with deviceLog := e :: s.deviceLog }

/-- The byte that `MEM` answers at an address to a read cycle: the cell's, or the device's. -/
def State.answer (s : State) (e : Config.BusEvent) (a : Long) : Byte :=
  if s.deviceAt a then Config.deviceByte (e :: s.deviceLog) (addrOf a) else s.readByte a

/-- A byte written to a cell; a device has no cell. -/
def State.writeCell (s : State) (a : Long) (v : Byte) : State := if s.deviceAt a then s else s.writeByte a v

/-- A word cycle reaches a device. -/
def State.wordDevice (s : State) (a : Long) : Bool := s.deviceAt a || s.deviceAt (a + 1#32)

/-- A byte read cycle: the byte, and the state after it. -/
def State.readByteCycle (s : State) (a : Long) : Byte × State :=
  let e := .readByte (addrOf a)
  (s.answer e a, if s.deviceAt a then s.note e else s)

/-- A word read cycle, one access for a device that both its bytes belong to (20_memory.md R66). -/
def State.readWordCycle (s : State) (a : Long) : Word × State :=
  let e := .readWord (addrOf a)
  (s.answer e a ++ s.answer e (a + 1#32), if s.wordDevice a then s.note e else s)

/-- A byte write cycle. -/
def State.writeByteCycle (s : State) (a : Long) (v : Byte) : State :=
  if s.deviceAt a then s.note (.writeByte (addrOf a) v) else s.writeByte a v

/-- A word write cycle. -/
def State.writeWordCycle (s : State) (a : Long) (v : Word) : State :=
  let t := (s.writeCell a (v.extractLsb' 8 8)).writeCell (a + 1#32) (v.extractLsb' 0 8)
  if s.wordDevice a then t.note (.writeWord (addrOf a) v) else t

/-- No byte of an access belongs to a device: it is an access to memory cells. -/
def State.isCells (s : State) (sz : Size) (a : Long) : Bool :=
  match sz with
  | .b => !s.deviceAt a
  | .w => !s.wordDevice a
  | .l => !s.wordDevice a && !s.wordDevice (a + 2#32)

/-- The two word cycles of a long read, the high half first or the low one (20_memory.md R66). -/
def State.readHalves (s : State) (a : Long) : (highFirst : Bool) → Long × State
  | true =>
    let (high, s1) := s.readWordCycle a
    let (low, s2) := s1.readWordCycle (a + 2#32)
    (high ++ low, s2)
  | false =>
    let (low, s1) := s.readWordCycle (a + 2#32)
    let (high, s2) := s1.readWordCycle a
    (high ++ low, s2)

/-- The two word cycles of a long write, the high half first or the low one. -/
def State.writeHalves (s : State) (a : Long) (v : Long) : (highFirst : Bool) → State
  | true => (s.writeWordCycle a (v.extractLsb' 16 16)).writeWordCycle (a + 2#32) (v.extractLsb' 0 16)
  | false => (s.writeWordCycle (a + 2#32) (v.extractLsb' 0 16)).writeWordCycle a (v.extractLsb' 16 16)

/-- A long read. A free bit says which half goes first where a device can see it (D11, log entry 9). -/
def State.readLongCycles (s : State) (a : Long) : Long × State :=
  if s.isCells .l a then (s.readLong a, s) else s.drawn.2.readHalves a s.drawn.1

/-- A long write, in the order a free bit says where a device can see it. -/
def State.writeLongCycles (s : State) (a : Long) (v : Long) : State :=
  if s.isCells .l a then s.writeLong a v else s.drawn.2.writeHalves a v s.drawn.1

/-- What `MEM` answers to a read that raises nothing, and the state after it. -/
def State.busRead (s : State) : (sz : Size) → Long → BitVec sz.bits × State
  | .b, a => s.readByteCycle a
  | .w, a => s.readWordCycle a
  | .l, a => s.readLongCycles a

/-- The state after a write that raises nothing. -/
def State.busWrite (s : State) : (sz : Size) → Long → BitVec sz.bits → State
  | .b, a, v => s.writeByteCycle a v
  | .w, a, v => s.writeWordCycle a v
  | .l, a, v => s.writeLongCycles a v

/-- The address of the one half of an aligned long access that is answered, where the other is not. -/
def State.answeredHalf (s : State) (sz : Size) (a : Long) : Option Long :=
  if sz ≠ .l ∨ misaligned sz a = true ∨ s.wordAnswers a = s.wordAnswers (a + 2#32) then none
  else if s.wordAnswers a then some a else some (a + 2#32)

/-- What a read that ends in a bus error leaves: where one half of a long access reaches a device and the other is not
answered, a free bit says whether the device's half came first (20_memory.md R66, D11, log entry 9). -/
def State.halfRead (s : State) (sz : Size) (a : Long) : State :=
  match s.answeredHalf sz a with
  | none => s
  | some h =>
    if s.wordDevice h then
      match s.drawn with
      | (true, s0) => (s0.readWordCycle h).2
      | (false, s0) => s0
    else s

/-- What a write that ends in a bus error leaves: where one half of a long access is answered and the other is not,
a free bit says whether the answered half came first (20_memory.md R66, D11, log entry 9). -/
def State.halfWritten (s : State) (sz : Size) (a : Long) (v : BitVec sz.bits) : State :=
  match s.answeredHalf sz a with
  | none => s
  | some h =>
    match s.drawn with
    | (true, s0) => s0.writeWordCycle h (if h = a then v.extractLsb' 16 16 else v.extractLsb' 0 16)
    | (false, s0) => s0

/-- `MemRead` (20_memory.md R62). -/
def memRead (sp : Space) (sz : Size) (a : Long) : Exec (BitVec sz.bits) := fun s =>
  if s.accessOk sz a then .ok (s.busRead sz a).1 (s.busRead sz a).2
  else .error (.group0 (s.accessFault sp sz a true)) (s.halfRead sz a)

/-- `MemWrite` (20_memory.md R63). -/
def memWrite (sz : Size) (a : Long) (v : BitVec sz.bits) : Exec Unit := fun s =>
  if s.accessOk sz a then .ok () (s.busWrite sz a v)
  else .error (.group0 (s.accessFault .data sz a false)) (s.halfWritten sz a v)

/-- `Fetch16()` for an extension word: the access is made here, so that its fault comes in its place and a device sees
it there; the word it answers stands in the instruction already, which is decoded from what these fetches answer
(20_memory.md R64, `State.instrWords`, log entry 8). -/
def fetchExt : Exec Unit := do
  let s ← get
  let _ ← memRead .program .w s.pc
  modify fun s => { s with pc := s.pc + 2#32 }

/-- Fetch some number of extension words. -/
def fetchExts : Nat → Exec Unit
  | 0 => pure ()
  | n + 1 => do
    fetchExt
    fetchExts n

/-- `PC <- target`: a control transfer; no older word of the fall-through path is fetched after it (20_memory.md R73). -/
def jump (a : Long) : Exec Unit := modify fun s => { s with pc := a, prefetch := [] }

/-! ## The stack (20_memory.md R67) -/

/-- `Push16`. -/
def push16 (v : Word) : Exec Unit := do
  modify fun s => s.setSp (s.sp - 2#32)
  memWrite .w (← get).sp v

/-- `Push32`. -/
def push32 (v : Long) : Exec Unit := do
  modify fun s => s.setSp (s.sp - 4#32)
  memWrite .l (← get).sp v

/-- `Pop16`. -/
def pop16 : Exec Word := do
  let v ← memRead .data .w (← get).sp
  modify fun s => s.setSp (s.sp + 2#32)
  return v

/-- `Pop32`. -/
def pop32 : Exec Long := do
  let v ← memRead .data .l (← get).sp
  modify fun s => s.setSp (s.sp + 4#32)
  return v

/-! ## Taking an exception and returning from one -/

/-- Steps 1 and 2 of exception processing: supervisor state, no trace (60_exceptions.md R530). Prefetched words of
the interrupted stream are dropped (20_memory.md R73). -/
def State.enterSupervisor (s : State) : State := { s with sr := { s.sr with s := true, t := false }, prefetch := [] }

/-- The address of an exception vector (60_exceptions.md R522). -/
def vectorAddress (k : Byte) : Long := k.setWidth 32 <<< 2

/-- `PC <- Vector(k)` (60_exceptions.md R523). -/
def loadVector (k : Byte) : Exec Unit := do
  let a ← memRead .data .l (vectorAddress k)
  jump a

/-- A fault of exception processing reports I/N = 1 (60_exceptions.md R535, R545). -/
def Abort.inProcessing : Abort → Abort
  | .group0 f => .group0 { f with inException := true }
  | .refuse r => .refuse r

/-- A part of exception processing: its faults report I/N = 1. -/
def processing (m : Exec Unit) : Exec Unit := fun s =>
  match m s with
  | .ok u s' => .ok u s'
  | .error e s' => .error e.inProcessing s'

/-- Exception processing of groups 1 and 2 (60_exceptions.md R530): vector number `k`, saved program counter `p`, and,
for an interrupt, the level that becomes the mask. It stacks the 6-byte frame of R534. -/
def takeException (k : Byte) (p : Long) (level : Option (BitVec 3)) : Exec Unit := processing do
  let old := (← get).sr.toWord
  modify State.enterSupervisor
  match level with
  | none => pure ()
  | some l => modify fun s => { s with sr := { s.sr with i := l } }
  push32 p
  push16 old
  loadVector k

/-- Return from an exception: pop the status register and the program counter of the 6-byte frame
(47_system_control.md R500, 60_exceptions.md R536). -/
def returnFromException : Exec Unit := do
  let w ← pop16
  let p ← pop32
  modify fun s => { s with sr := StatusReg.ofWord w }
  jump p

/-- An exception that takes the place of the instruction in progress (illegal, lines A and F, privilege violation):
the saved program counter is the instruction's own address, and no trace follows (60_exceptions.md R526, R527, R538 b).
The operation word has been fetched, so that address is `PC - 2`. -/
def exceptionInstead (k : Byte) : Exec Unit := do
  modify fun s => { s with traceDue := false }
  takeException k ((← get).pc - 2#32) none

/-- A group 2 exception: the saved program counter is the address of the next instruction, which is `PC` once the
extension words have been fetched (60_exceptions.md R533). -/
def trapNext (k : Byte) : Exec Unit := do takeException k (← get).pc none

/-- A privileged instruction: in user state a privilege violation takes its place, before an extension word is fetched
or an operand touched (60_exceptions.md R526). -/
def privileged (body : Exec Unit) : Exec Unit := do
  if (← get).sr.s then body else exceptionInstead 8

/-- The access information word of the 14-byte frame; bits 15 to 5 are free (60_exceptions.md R535). -/
def AccessFault.info (f : AccessFault) (free : Word) : Word :=
  free.extractLsb' 5 11 ++ BitVec.ofBool f.read ++ BitVec.ofBool f.inException ++ f.fc

/-- Group 0 exception processing: it stacks the 14-byte frame, `p` the saved program counter and `ir` the instruction
register (60_exceptions.md R530, R535). -/
def group0Frame (f : AccessFault) (p : Long) (ir info : Word) : Exec Unit := do
  let old := (← get).sr.toWord
  modify State.enterSupervisor
  push32 p
  push16 old
  push16 ir
  push32 f.addr
  push16 info
  loadVector f.kind.vector

/-- The saved program counter of a group 0 exception: free, from `I + 2` to `I + 10` where an instruction at `I` is
concerned, and free altogether where none is (60_exceptions.md R535, log entry 11). -/
def group0Pc (concerned : Option Long) (draw : Nat) : Long :=
  match concerned with
  | some i => i + 2#32 + BitVec.ofNat 32 (Config.freeNat draw % 9)
  | none => Config.freeLong draw

/-- Take a bus error or an address error. `concerned` is the address of the instruction in progress and `ir` its
operation word, where there are any; what no instruction gives is free (60_exceptions.md R535, log entry 11). The
instruction is not traced (R538 c), also where the fault is met in the processing of a group 2 exception that it raised
(DESIGN CHOICE, log entry 27). A fault on the way halts the processor (R546). -/
def State.takeGroup0 (s : State) (f : AccessFault) (concerned : Option Long) (ir : Option Word) : State :=
  let n := s.draws
  let frame := group0Frame f (group0Pc concerned n) (ir.getD (Config.freeWord (n + 1))) (f.info (Config.freeWord (n + 2)))
  match frame { s with draws := n + 3, traceDue := false } with
  | .ok _ s' => s'
  | .error _ s' => { s' with halted := true }

/-- The outcome of a part of an instruction that began at address `i`. -/
def conclude (i : Long) : EStateM.Result Abort State Unit → Host.Outcome State Fault Refusal
  | .ok _ s => .next s
  | .error (.group0 f) s => .next (s.takeGroup0 f (some i) (some s.ir))
  | .error (.refuse r) _ => .refused r

/-- Execute an instruction's rule at the instruction's address: its operation word has been fetched, so `PC` is past it
(10_state.md R23). -/
def runBody (body : Exec Unit) (s : State) : Host.Outcome State Fault Refusal :=
  conclude s.pc (body { s with pc := s.pc + 2#32 })

/-- Write the status register as a function of what it was. -/
def setFlags (f : StatusReg → StatusReg) : Exec Unit := modify fun s => { s with sr := f s.sr }

end Sys2Proof.Machine
end

