-- ==== Sys2Proof/Machine/Operands.lean ====
section
/-! DEFINITION. The operand primitives of 30_encoding.md R110 to R126: resolving an effective address to a location,
reading and writing a location, and the two-operand forms that several families share. -/

namespace Sys2Proof.Machine

/-- A location (30_encoding.md R110). A memory location carries the space of the reference (20_memory.md R70). -/
inductive Loc where
  | dreg (r : RegNo)
  | areg (r : RegNo)
  | mem  (sp : Space) (a : Long)
  | imm  (v : Long)
deriving DecidableEq, Repr

/-- The amount a post-increment or pre-decrement changes its register by: the size in bytes, but 2 for a byte through
`A7` (30_encoding.md R114, 20_memory.md R68). -/
def eaStep (sz : Size) (r : RegNo) : Long :=
  match sz with
  | .b => if r = 7#3 then 2 else 1
  | .w => 2
  | .l => 4

/-- The number of extension words of an effective address (30_encoding.md R102). -/
def eaExtCount (sz : Size) : EA → Nat
  | .dn _ | .an _ | .ind _ | .postInc _ | .preDec _ => 0
  | .disp _ _ | .index _ _ | .absW _ | .pcDisp _ | .pcIndex _ => 1
  | .absL _ => 2
  | .imm _ => if sz = .l then 2 else 1

/-- `Index(x) + Disp8(x)` (30_encoding.md R116). -/
def State.indexOffset (s : State) (x : IndexExt) : Long :=
  let r := if x.isAddr then s.areg x.reg else s.dreg x.reg
  (if x.long then r else (r.setWidth 16).signExtend 32) + x.disp.signExtend 32

/-- The location an effective address resolves to, in the state where `PC` is at its first extension word
(30_encoding.md R111 to R122, R124). -/
def eaLoc (sz : Size) (ea : EA) (s : State) : Loc :=
  match ea with
  | .dn r      => .dreg r
  | .an r      => .areg r
  | .ind r     => .mem .data (s.areg r)
  | .postInc r => .mem .data (s.areg r)
  | .preDec r  => .mem .data (s.areg r - eaStep sz r)
  | .disp r d  => .mem .data (s.areg r + d.signExtend 32)
  | .index r x => .mem .data (s.areg r + s.indexOffset x)
  | .absW a    => .mem .data (a.signExtend 32)
  | .absL a    => .mem .data a
  | .pcDisp d  => .mem .program (s.pc + d.signExtend 32)
  | .pcIndex x => .mem .program (s.pc + s.indexOffset x)
  | .imm v     => .imm v

/-- The register change of a post-increment or pre-decrement (30_encoding.md R114, R115). -/
def eaUpdate (sz : Size) (ea : EA) (s : State) : State :=
  match ea with
  | .postInc r => s.setAreg r (s.areg r + eaStep sz r)
  | .preDec r  => s.setAreg r (s.areg r - eaStep sz r)
  | _ => s

/-- `ResolveEA`: fetch the extension words, make the register change, answer the location (30_encoding.md R110). -/
def resolveEA (sz : Size) (ea : EA) : Exec Loc := do
  let s ← get
  fetchExts (eaExtCount sz ea)
  modify (eaUpdate sz ea)
  return eaLoc sz ea s

/-- `ReadLoc` (30_encoding.md R123). -/
def readLoc (sz : Size) : Loc → Exec (BitVec sz.bits)
  | .dreg r   => do return ((← get).dreg r).setWidth sz.bits
  | .areg r   => do return ((← get).areg r).setWidth sz.bits
  | .mem sp a => memRead sp sz a
  | .imm v    => return v.setWidth sz.bits

/-- `WriteLoc` (30_encoding.md R123). A write to an immediate or through the program space does not occur in a
well-formed instruction. -/
def writeLoc (sz : Size) (loc : Loc) (v : BitVec sz.bits) : Exec Unit :=
  match loc with
  | .dreg r       => modify fun s => s.putDreg r v
  | .areg r       => modify fun s => s.setAreg r (v.signExtend 32)
  | .mem .data a  => memWrite sz a v
  | .mem .program _ => throw (.refuse .malformed)
  | .imm _        => throw (.refuse .malformed)

/-- `ReadEA` (30_encoding.md R123). -/
def readEA (sz : Size) (ea : EA) : Exec (BitVec sz.bits) := do
  let loc ← resolveEA sz ea
  readLoc sz loc

/-- The address of a control-mode effective address: resolving it makes no data access (30_encoding.md R110). -/
def addressEA (sz : Size) (ea : EA) : Exec Long := do
  match ← resolveEA sz ea with
  | .mem _ a => return a
  | _ => throw (.refuse .malformed)

/-- The value of the immediate words of ADDI, ANDI, CMPI, EORI, ORI, SUBI, once fetched (30_encoding.md R124). -/
def fetchImm (sz : Size) (v : Long) : Exec (BitVec sz.bits) := do
  fetchExts (if sz = .l then 2 else 1)
  return v.setWidth sz.bits

/-! ## The forms several families share -/

/-- An instruction that reads an effective address, and combines it with the sized part of `D[rx]`, which takes the
result (30_encoding.md R125). `f` gives the result and the flags from source, destination and old flags. -/
def eaToDreg (sz : Size) (ea : EA) (rx : RegNo)
    (f : BitVec sz.bits → BitVec sz.bits → StatusReg → BitVec sz.bits × StatusReg) : Exec Unit := do
  let s ← readEA sz ea
  let st ← get
  let (r, sr) := f s ((st.dreg rx).setWidth sz.bits) st.sr
  set ({ st.putDreg rx r with sr := sr } : State)

/-- Read and write back one location, resolved once (30_encoding.md R126). -/
def modifyLoc (sz : Size) (loc : Loc) (f : BitVec sz.bits → StatusReg → BitVec sz.bits × StatusReg) : Exec Unit := do
  let d ← readLoc sz loc
  let (r, sr) := f d (← get).sr
  writeLoc sz loc r
  setFlags fun _ => sr

/-- An instruction that reads and writes one effective address (30_encoding.md R126). -/
def modifyEA (sz : Size) (ea : EA) (f : BitVec sz.bits → StatusReg → BitVec sz.bits × StatusReg) : Exec Unit := do
  let loc ← resolveEA sz ea
  modifyLoc sz loc f

/-- The `Dn,<ea>` direction: the effective address is combined with the sized part of `D[rx]`. -/
def dregToEA (sz : Size) (rx : RegNo) (ea : EA)
    (f : BitVec sz.bits → BitVec sz.bits → StatusReg → BitVec sz.bits × StatusReg) : Exec Unit := do
  let loc ← resolveEA sz ea
  let d ← readLoc sz loc
  let st ← get
  let (r, sr) := f ((st.dreg rx).setWidth sz.bits) d st.sr
  writeLoc sz loc r
  setFlags fun _ => sr

/-- An immediate combined with an effective address. -/
def immToEA (sz : Size) (v : Long) (ea : EA)
    (f : BitVec sz.bits → BitVec sz.bits → StatusReg → BitVec sz.bits × StatusReg) : Exec Unit := do
  let s ← fetchImm sz v
  modifyEA sz ea (f s)

/-- The register forms `Dy,Dx` of ADDX and SUBX (41_integer_arithmetic.md R270, R277). -/
def dregPair (sz : Size) (ry rx : RegNo)
    (f : BitVec sz.bits → BitVec sz.bits → StatusReg → BitVec sz.bits × StatusReg) : Exec Unit := do
  let st ← get
  let (r, sr) := f ((st.dreg ry).setWidth sz.bits) ((st.dreg rx).setWidth sz.bits) st.sr
  set ({ st.putDreg rx r with sr := sr } : State)

/-- Pre-decrement a register and read there. -/
def readPreDec (sz : Size) (r : RegNo) : Exec (BitVec sz.bits) := do
  modify fun s => s.setAreg r (s.areg r - eaStep sz r)
  memRead .data sz ((← get).areg r)

/-- Read where a register points and post-increment it. -/
def readPostInc (sz : Size) (r : RegNo) : Exec (BitVec sz.bits) := do
  let v ← memRead .data sz ((← get).areg r)
  modify fun s => s.setAreg r (s.areg r + eaStep sz r)
  return v

/-- The memory forms `-(Ay),-(Ax)` of ADDX and SUBX: source before destination, flags after the write (R271, R278). -/
def memPair (sz : Size) (ry rx : RegNo)
    (f : BitVec sz.bits → BitVec sz.bits → StatusReg → BitVec sz.bits × StatusReg) : Exec Unit := do
  let s ← readPreDec sz ry
  let d ← readPreDec sz rx
  let (r, sr) := f s d (← get).sr
  memWrite sz ((← get).areg rx) r
  setFlags fun _ => sr

/-- The read that CLR, Scc and MOVE from SR make of a memory destination before they write it (20_memory.md R76). -/
def discardRead (sz : Size) : Loc → Exec Unit
  | .mem sp a => do
    let _ ← memRead sp sz a
  | _ => pure ()

end Sys2Proof.Machine
end

