-- ==== Sys2Proof/Machine/Arithmetic.lean ====
section
/-! DEFINITION. The integer arithmetic instructions (41_integer_arithmetic.md). -/

namespace Sys2Proof.Machine

/-! ## Results and flags -/

/-- A bit as a number of a width: the carry or borrow in of ADDX, SUBX, NEGX. -/
def bitAs (n : Nat) (b : Bool) : BitVec n := (BitVec.ofBool b).setWidth n

/-- `d + s` with the flags of ADD (R262). -/
def addOp {n : Nat} (s d : BitVec n) (sr : StatusReg) : BitVec n × StatusReg := (d + s, sr.ofAdd s d (d + s))

/-- `d + s + X` with the flags of ADDX (R270). -/
def addxOp {n : Nat} (s d : BitVec n) (sr : StatusReg) : BitVec n × StatusReg :=
  (d + s + bitAs n sr.x, sr.ofAddX s d (d + s + bitAs n sr.x))

/-- `d - s` with the flags of SUB (R273). -/
def subOp {n : Nat} (s d : BitVec n) (sr : StatusReg) : BitVec n × StatusReg := (d - s, sr.ofSub s d (d - s))

/-- `d - s - X` with the flags of SUBX (R277). -/
def subxOp {n : Nat} (s d : BitVec n) (sr : StatusReg) : BitVec n × StatusReg :=
  (d - s - bitAs n sr.x, sr.ofSubX s d (d - s - bitAs n sr.x))

/-- `0 - d` with the flags of NEG (R292). -/
def negOp {n : Nat} (d : BitVec n) (sr : StatusReg) : BitVec n × StatusReg := subOp d 0 sr

/-- `0 - d - X` with the flags of NEGX (R293). -/
def negxOp {n : Nat} (d : BitVec n) (sr : StatusReg) : BitVec n × StatusReg := subxOp d 0 sr

/-- The data of ADDQ and SUBQ: 1 to 7, and 0 for 8 (30_encoding.md R107). -/
def quick (n : Nat) (q : BitVec 3) : BitVec n := if q = 0 then 8 else q.setWidth n

/-! ## ADD family -/

/-- ADD, register to memory (R261). -/
def execAddToMem (sz : Size) (rx : RegNo) (ea : EA) (s : State) : Host.Outcome State Fault Refusal :=
  runBody (dregToEA sz rx ea addOp) s

/-- ADD, to register (R262). -/
def execAddToReg (sz : Size) (ea : EA) (rx : RegNo) (s : State) : Host.Outcome State Fault Refusal :=
  runBody (eaToDreg sz ea rx addOp) s

/-- ADDA: a word is sign-extended; no flag changes (R263). -/
def execAdda (sz : SizeWL) (ea : EA) (rx : RegNo) (s : State) : Host.Outcome State Fault Refusal :=
  runBody (do
    let v ← readEA sz.size ea
    modify fun s => s.setAreg rx (s.areg rx + v.signExtend 32)) s

/-- ADDI (R264). -/
def execAddi (sz : Size) (v : Long) (ea : EA) (s : State) : Host.Outcome State Fault Refusal :=
  runBody (immToEA sz v ea addOp) s

/-- ADDQ; on an address register all 32 bits are added to and no flag changes (R265). -/
def execAddq (sz : Size) (q : BitVec 3) (ea : EA) (s : State) : Host.Outcome State Fault Refusal :=
  runBody (match ea with
    | .an r => modify fun s => s.setAreg r (s.areg r + quick 32 q)
    | ea    => modifyEA sz ea (addOp (quick sz.bits q))) s

/-- ADDX, registers (R270). -/
def execAddxReg (sz : Size) (ry rx : RegNo) (s : State) : Host.Outcome State Fault Refusal :=
  runBody (dregPair sz ry rx addxOp) s

/-- ADDX, memory (R271). -/
def execAddxMem (sz : Size) (ry rx : RegNo) (s : State) : Host.Outcome State Fault Refusal :=
  runBody (memPair sz ry rx addxOp) s

/-! ## SUB family -/

/-- SUB, register to memory (R272). -/
def execSubToMem (sz : Size) (rx : RegNo) (ea : EA) (s : State) : Host.Outcome State Fault Refusal :=
  runBody (dregToEA sz rx ea subOp) s

/-- SUB, to register (R273). -/
def execSubToReg (sz : Size) (ea : EA) (rx : RegNo) (s : State) : Host.Outcome State Fault Refusal :=
  runBody (eaToDreg sz ea rx subOp) s

/-- SUBA (R274). -/
def execSuba (sz : SizeWL) (ea : EA) (rx : RegNo) (s : State) : Host.Outcome State Fault Refusal :=
  runBody (do
    let v ← readEA sz.size ea
    modify fun s => s.setAreg rx (s.areg rx - v.signExtend 32)) s

/-- SUBI (R275). -/
def execSubi (sz : Size) (v : Long) (ea : EA) (s : State) : Host.Outcome State Fault Refusal :=
  runBody (immToEA sz v ea subOp) s

/-- SUBQ (R276). -/
def execSubq (sz : Size) (q : BitVec 3) (ea : EA) (s : State) : Host.Outcome State Fault Refusal :=
  runBody (match ea with
    | .an r => modify fun s => s.setAreg r (s.areg r - quick 32 q)
    | ea    => modifyEA sz ea (subOp (quick sz.bits q))) s

/-- SUBX, registers (R277). -/
def execSubxReg (sz : Size) (ry rx : RegNo) (s : State) : Host.Outcome State Fault Refusal :=
  runBody (dregPair sz ry rx subxOp) s

/-- SUBX, memory (R278). -/
def execSubxMem (sz : Size) (ry rx : RegNo) (s : State) : Host.Outcome State Fault Refusal :=
  runBody (memPair sz ry rx subxOp) s

/-! ## Multiply and divide -/

/-- A multiplication: the 32-bit product to `D[rx]`, with the flags of LOGIC (R280). -/
def multiply (ea : EA) (rx : RegNo) (f : Word → Word → Long) : Exec Unit := do
  let v ← readEA .w ea
  let r := f v (((← get).dreg rx).setWidth 16)
  modify fun s => s.setDreg rx r
  setFlags fun sr => sr.logic r

/-- MULS (R280). -/
def execMuls (ea : EA) (rx : RegNo) (s : State) : Host.Outcome State Fault Refusal :=
  runBody (multiply ea rx fun v d => d.signExtend 32 * v.signExtend 32) s

/-- MULU (R281). -/
def execMulu (ea : EA) (rx : RegNo) (s : State) : Host.Outcome State Fault Refusal :=
  runBody (multiply ea rx fun v d => d.setWidth 32 * v.setWidth 32) s

/-- Division by zero: C cleared, N, Z and V free, then the zero divide exception (R282, D20). -/
def zeroDivide : Exec Unit := do
  let n ← drawBit
  let z ← drawBit
  let v ← drawBit
  setFlags fun sr => { sr with n := n, z := z, v := v, c := false }
  trapNext 5

/-- A quotient and a remainder: the register written and the flags set if the quotient fits its 16 bits, else V set,
N and Z free and the register unchanged (R282, R283). -/
def storeQuotient (rx : RegNo) (q m : Int) (fits negative : Bool) : Exec Unit := do
  if fits then
    modify fun s => s.setDreg rx (BitVec.ofInt 16 m ++ BitVec.ofInt 16 q)
    setFlags fun sr => { sr with n := negative, z := q == 0, v := false, c := false }
  else
    let n ← drawBit
    let z ← drawBit
    setFlags fun sr => { sr with n := n, z := z, v := true, c := false }

/-- DIVS: the quotient truncated toward zero, the remainder with the sign of the dividend (R282). -/
def execDivs (ea : EA) (rx : RegNo) (s : State) : Host.Outcome State Fault Refusal :=
  runBody (do
    let v ← readEA .w ea
    if v = 0 then zeroDivide
    else
      let d := ((← get).dreg rx).toInt
      let q := d.tdiv v.toInt
      storeQuotient rx q (d - q * v.toInt) (decide (-32768 ≤ q) && decide (q ≤ 32767)) (decide (q < 0))) s

/-- DIVU (R283). -/
def execDivu (ea : EA) (rx : RegNo) (s : State) : Host.Outcome State Fault Refusal :=
  runBody (do
    let v ← readEA .w ea
    if v = 0 then zeroDivide
    else
      let d := ((← get).dreg rx).toNat
      let q := d / v.toNat
      storeQuotient rx q (d % v.toNat) (decide (q ≤ 65535)) (q.testBit 15)) s

/-! ## Compare -/

/-- CMP (R285). -/
def execCmp (sz : Size) (ea : EA) (rx : RegNo) (s : State) : Host.Outcome State Fault Refusal :=
  runBody (do
    let v ← readEA sz ea
    let d := ((← get).dreg rx).setWidth sz.bits
    setFlags fun sr => sr.ofCmp v d (d - v)) s

/-- CMPA: all 32 bits are compared, a word sign-extended (R286). -/
def execCmpa (sz : SizeWL) (ea : EA) (rx : RegNo) (s : State) : Host.Outcome State Fault Refusal :=
  runBody (do
    let v ← readEA sz.size ea
    let d := (← get).areg rx
    setFlags fun sr => sr.ofCmp (v.signExtend 32) d (d - v.signExtend 32)) s

/-- CMPI (R287). -/
def execCmpi (sz : Size) (v : Long) (ea : EA) (s : State) : Host.Outcome State Fault Refusal :=
  runBody (do
    let v ← fetchImm sz v
    let d ← readEA sz ea
    setFlags fun sr => sr.ofCmp v d (d - v)) s

/-- CMPM (R288). -/
def execCmpm (sz : Size) (ry rx : RegNo) (s : State) : Host.Outcome State Fault Refusal :=
  runBody (do
    let v ← readPostInc sz ry
    let d ← readPostInc sz rx
    setFlags fun sr => sr.ofCmp v d (d - v)) s

/-! ## Single-operand arithmetic -/

/-- CLR: a memory operand is read before it is written (R290). -/
def execClr (sz : Size) (ea : EA) (s : State) : Host.Outcome State Fault Refusal :=
  runBody (do
    let loc ← resolveEA sz ea
    discardRead sz loc
    writeLoc sz loc 0
    setFlags fun sr => { sr with n := false, z := true, v := false, c := false }) s

/-- EXT: byte to word, or word to long (R291). -/
def execExt (sz : SizeWL) (r : RegNo) (s : State) : Host.Outcome State Fault Refusal :=
  runBody (do
    let d := (← get).dreg r
    match sz with
    | .w => do
      let v : Word := (d.setWidth 8).signExtend 16
      modify fun s => s.putDreg r v
      setFlags fun sr => sr.logic v
    | .l => do
      let v : Long := (d.setWidth 16).signExtend 32
      modify fun s => s.setDreg r v
      setFlags fun sr => sr.logic v) s

/-- NEG (R292). -/
def execNeg (sz : Size) (ea : EA) (s : State) : Host.Outcome State Fault Refusal :=
  runBody (modifyEA sz ea negOp) s

/-- NEGX (R293). -/
def execNegx (sz : Size) (ea : EA) (s : State) : Host.Outcome State Fault Refusal :=
  runBody (modifyEA sz ea negxOp) s

/-- TST (R294). -/
def execTst (sz : Size) (ea : EA) (s : State) : Host.Outcome State Fault Refusal :=
  runBody (do
    let v ← readEA sz ea
    setFlags fun sr => sr.logic v) s

/-- TAS: flags from the byte, then its bit 7 set (R299). With the processor as the only bus master the read and the
write are indivisible as they stand (20_memory.md R72, log entry 21). -/
def execTas (ea : EA) (s : State) : Host.Outcome State Fault Refusal :=
  runBody (do
    let loc ← resolveEA .b ea
    let v : Byte ← readLoc .b loc
    setFlags fun sr => sr.logic v
    writeLoc .b loc (v ||| 0x80#8)) s

end Sys2Proof.Machine
end

