-- ==== Sys2Proof/Machine/Bcd.lean ====
section
/-! DEFINITION. The binary-coded decimal instructions (45_bcd.md). -/

namespace Sys2Proof.Machine

/-- `dec(b)`: the number two digits stand for (R440). -/
def bcdValue (b : Byte) : Nat := 10 * (b.extractLsb' 4 4).toNat + (b.extractLsb' 0 4).toNat

/-- `bcd(k)`: the byte of a number from 0 to 99 (R440). -/
def bcdByte (k : Nat) : Byte := BitVec.ofNat 8 (16 * (k / 10) + k % 10)

/-- Both digits are 0 to 9 (R440). -/
def bcdValid (b : Byte) : Bool := decide ((b.extractLsb' 4 4).toNat ≤ 9) && decide ((b.extractLsb' 0 4).toNat ≤ 9)

/-- The result byte of a decimal number outside or inside 0 to 99 (R441, R443). -/
def bcdResult (t : Int) : Byte := bcdByte (t % 100).toNat

/-- The result byte, and the value that Z takes. C and X are the decimal carry or borrow, N and V are free; if an input
was not valid the result, C, X and Z are free as well, each by a draw of its own (R440, D5, D21, log entry 20). -/
def bcdConclude (valid : Bool) (t : Int) : Exec (Byte × Bool) := do
  let n ← drawBit
  let v ← drawBit
  if valid then
    let carry := decide (t < 0) || decide (99 < t)
    setFlags fun sr => { sr with x := carry, n := n, v := v, c := carry }
    return (bcdResult t, (← get).sr.z && bcdResult t == 0)
  else
    let r ← drawByte
    let c ← drawBit
    let x ← drawBit
    let z ← drawBit
    setFlags fun sr => { sr with x := x, n := n, v := v, c := c }
    return (r, z)

/-- X as a number. -/
def StatusReg.xNat (sr : StatusReg) : Nat := if sr.x then 1 else 0

/-- `Z <- z`. -/
def putZ (z : Bool) : Exec Unit := setFlags fun sr => { sr with z := z }

/-- The sum of ABCD (R441). -/
def abcdOp (s d : Byte) : Exec (Byte × Bool) := do
  bcdConclude (bcdValid s && bcdValid d) (bcdValue d + bcdValue s + (← get).sr.xNat)

/-- The difference of SBCD, and of NBCD with `d` = 0 (R443, R445). -/
def sbcdOp (s d : Byte) : Exec (Byte × Bool) := do
  bcdConclude (bcdValid s && bcdValid d) ((bcdValue d : Int) - bcdValue s - (← get).sr.xNat)

/-- The register forms of ABCD and SBCD (R441, R443). -/
def bcdRegs (ry rx : RegNo) (f : Byte → Byte → Exec (Byte × Bool)) : Exec Unit := do
  let st ← get
  let (r, z) ← f ((st.dreg ry).setWidth 8) ((st.dreg rx).setWidth 8)
  modify fun s => s.putDreg rx r
  putZ z

/-- The memory forms of ABCD and SBCD (R442, R444). -/
def bcdMem (ry rx : RegNo) (f : Byte → Byte → Exec (Byte × Bool)) : Exec Unit := do
  let s ← readPreDec .b ry
  let d ← readPreDec .b rx
  let (r, z) ← f s d
  putZ z
  memWrite .b ((← get).areg rx) r

/-- ABCD, registers (R441). -/
def execAbcdReg (ry rx : RegNo) (s : State) : Host.Outcome State Fault Refusal := runBody (bcdRegs ry rx abcdOp) s

/-- ABCD, memory (R442). -/
def execAbcdMem (ry rx : RegNo) (s : State) : Host.Outcome State Fault Refusal := runBody (bcdMem ry rx abcdOp) s

/-- SBCD, registers (R443). -/
def execSbcdReg (ry rx : RegNo) (s : State) : Host.Outcome State Fault Refusal := runBody (bcdRegs ry rx sbcdOp) s

/-- SBCD, memory (R444). -/
def execSbcdMem (ry rx : RegNo) (s : State) : Host.Outcome State Fault Refusal := runBody (bcdMem ry rx sbcdOp) s

/-- NBCD (R445). -/
def execNbcd (ea : EA) (s : State) : Host.Outcome State Fault Refusal :=
  runBody (do
    let loc ← resolveEA .b ea
    let d ← readLoc .b loc
    let (r, z) ← sbcdOp d 0
    writeLoc .b loc r
    putZ z) s

end Sys2Proof.Machine
end

