-- ==== Sys2Proof/Machine/Bits.lean ====
section
/-! DEFINITION. The bit manipulation instructions (44_bit_manipulation.md). -/

namespace Sys2Proof.Machine

/-- The four kinds of bit operation (R420). -/
inductive BitOp where
  | tst | chg | clr | set
deriving DecidableEq, Repr

/-- The operand after a bit operation on its bit `k`; TST changes nothing (R420). -/
def BitOp.apply {n : Nat} (op : BitOp) (v : BitVec n) (k : Nat) : BitVec n :=
  match op with
  | .tst => v
  | .chg => v ^^^ (1#n <<< k)
  | .clr => v &&& ~~~(1#n <<< k)
  | .set => v ||| (1#n <<< k)

/-- `BITOP`: Z from the bit before the change, the bit number modulo the operand's width (R420). -/
def bitOp (op : BitOp) (b : Nat) (ea : EA) : Exec Unit := do
  let sz := ea.bitSize
  let loc ← resolveEA sz ea
  let v ← readLoc sz loc
  let k := b % sz.bits
  setFlags fun sr => { sr with z := !v.getLsbD k }
  match op with
  | .tst => pure ()
  | _ => writeLoc sz loc (op.apply v k)

/-- The forms with the bit number in a register, which is read first (R421). -/
def bitOpReg (op : BitOp) (rx : RegNo) (ea : EA) : Exec Unit := do
  bitOp op ((← get).dreg rx).toNat ea

/-- The forms with the bit number in a word of its own (R422). -/
def bitOpImm (op : BitOp) (n : Byte) (ea : EA) : Exec Unit := do
  fetchExt
  bitOp op n.toNat ea

/-- BTST, register number (R423). -/
def execBtstReg (rx : RegNo) (ea : EA) (s : State) : Host.Outcome State Fault Refusal := runBody (bitOpReg .tst rx ea) s

/-- BTST, immediate number (R424). -/
def execBtstImm (n : Byte) (ea : EA) (s : State) : Host.Outcome State Fault Refusal := runBody (bitOpImm .tst n ea) s

/-- BSET, register number (R425). -/
def execBsetReg (rx : RegNo) (ea : EA) (s : State) : Host.Outcome State Fault Refusal := runBody (bitOpReg .set rx ea) s

/-- BSET, immediate number (R426). -/
def execBsetImm (n : Byte) (ea : EA) (s : State) : Host.Outcome State Fault Refusal := runBody (bitOpImm .set n ea) s

/-- BCLR, register number (R427). -/
def execBclrReg (rx : RegNo) (ea : EA) (s : State) : Host.Outcome State Fault Refusal := runBody (bitOpReg .clr rx ea) s

/-- BCLR, immediate number (R428). -/
def execBclrImm (n : Byte) (ea : EA) (s : State) : Host.Outcome State Fault Refusal := runBody (bitOpImm .clr n ea) s

/-- BCHG, register number (R429). -/
def execBchgReg (rx : RegNo) (ea : EA) (s : State) : Host.Outcome State Fault Refusal := runBody (bitOpReg .chg rx ea) s

/-- BCHG, immediate number (R430). -/
def execBchgImm (n : Byte) (ea : EA) (s : State) : Host.Outcome State Fault Refusal := runBody (bitOpImm .chg n ea) s

end Sys2Proof.Machine
end

