-- ==== Sys2Proof/Machine/Control.lean ====
section
/-! DEFINITION. The program control instructions (46_program_control.md). -/

namespace Sys2Proof.Machine

/-- The target of Bcc, BRA and BSR: the base is `PC` before a displacement word is fetched, the address of the
operation word + 2 (R461). -/
def branchTarget (d : Disp) : Exec Long := do
  let base := (← get).pc
  match d with
  | .byte d => return base + d.signExtend 32
  | .word d => do
    fetchExt
    return base + d.signExtend 32

/-- Bcc (R461). -/
def execBcc (c : Cond) (d : Disp) (s : State) : Host.Outcome State Fault Refusal :=
  runBody (do
    let target ← branchTarget d
    if (← get).sr.holds c then jump target) s

/-- DBcc (R462). -/
def execDbcc (c : Cond) (r : RegNo) (d : Word) (s : State) : Host.Outcome State Fault Refusal :=
  runBody (do
    let base := (← get).pc
    fetchExt
    let st ← get
    if !st.sr.holds c then
      let count : Word := (st.dreg r).setWidth 16 - 1
      modify fun s => s.putDreg r count
      if count ≠ 0xFFFF#16 then jump (base + d.signExtend 32)) s

/-- Scc: a memory destination is read before it is written (R463, 20_memory.md R76). -/
def execScc (c : Cond) (ea : EA) (s : State) : Host.Outcome State Fault Refusal :=
  runBody (do
    let loc ← resolveEA .b ea
    discardRead .b loc
    writeLoc .b loc (if (← get).sr.holds c then 0xFF#8 else 0x00#8)) s

/-- BRA (R464). -/
def execBra (d : Disp) (s : State) : Host.Outcome State Fault Refusal :=
  runBody (do jump (← branchTarget d)) s

/-- BSR: the return address is pushed, then control transfers (R465). -/
def execBsr (d : Disp) (s : State) : Host.Outcome State Fault Refusal :=
  runBody (do
    let target ← branchTarget d
    push32 (← get).pc
    jump target) s

/-- JMP (R466). -/
def execJmp (ea : EA) (s : State) : Host.Outcome State Fault Refusal :=
  runBody (do jump (← addressEA .l ea)) s

/-- JSR: the target is computed before the push (R467). -/
def execJsr (ea : EA) (s : State) : Host.Outcome State Fault Refusal :=
  runBody (do
    let target ← addressEA .l ea
    push32 (← get).pc
    jump target) s

/-- RTR: the condition codes, then the program counter (R468). -/
def execRtr (s : State) : Host.Outcome State Fault Refusal :=
  runBody (do
    let w ← pop16
    setFlags fun sr => sr.withCcr (w.setWidth 8)
    jump (← pop32)) s

/-- RTS (R469). -/
def execRts (s : State) : Host.Outcome State Fault Refusal :=
  runBody (do jump (← pop32)) s

/-- TRAP (R470, 60_exceptions.md R532). -/
def execTrap (n : BitVec 4) (s : State) : Host.Outcome State Fault Refusal :=
  runBody (trapNext (32 + n.setWidth 8)) s

/-- TRAPV (R471, 60_exceptions.md R531). -/
def execTrapv (s : State) : Host.Outcome State Fault Refusal :=
  runBody (do
    if (← get).sr.v then trapNext 7) s

/-- N after CHK: set for a negative value, clear for one above the bound, free where neither or both hold (R472, D22). -/
def chkSign (d b : Int) (free : Bool) : Bool :=
  if d < 0 ∧ ¬ b < d then true else if b < d ∧ ¬ d < 0 then false else free

/-- The flags of CHK: Z, V and C are free (R472, D5). -/
def chkFlags (d b : Int) : Exec Unit := do
  let z ← drawBit
  let v ← drawBit
  let c ← drawBit
  let n ← drawBit
  setFlags fun sr => { sr with n := chkSign d b n, z := z, v := v, c := c }

/-- CHK (R472). -/
def execChk (ea : EA) (rx : RegNo) (s : State) : Host.Outcome State Fault Refusal :=
  runBody (do
    let b ← readEA .w ea
    let d : Word := ((← get).dreg rx).setWidth 16
    chkFlags d.toInt b.toInt
    if d.toInt < 0 ∨ b.toInt < d.toInt then trapNext 6) s

end Sys2Proof.Machine
end

