-- ==== Sys2Proof/Machine/DataMovement.lean ====
section
/-! DEFINITION. The data movement instructions (40_data_movement.md). -/

namespace Sys2Proof.Machine

/-- MOVE (R201). -/
def execMove (sz : Size) (src dst : EA) (s : State) : Host.Outcome State Fault Refusal :=
  runBody (do
    let v ← readEA sz src
    let loc ← resolveEA sz dst
    writeLoc sz loc v
    setFlags fun sr => sr.logic v) s

/-- MOVEA: a word is sign-extended; no flag changes (R203). -/
def execMovea (sz : SizeWL) (src : EA) (rx : RegNo) (s : State) : Host.Outcome State Fault Refusal :=
  runBody (do
    let v ← readEA sz.size src
    modify fun s => s.setAreg rx (v.signExtend 32)) s

/-- MOVE to CCR: the upper byte of the source has no effect (R204). -/
def execMoveToCcr (ea : EA) (s : State) : Host.Outcome State Fault Refusal :=
  runBody (do
    let w ← readEA .w ea
    setFlags fun sr => sr.withCcr (w.setWidth 8)) s

/-- MOVE to SR, privileged (R205). -/
def execMoveToSr (ea : EA) (s : State) : Host.Outcome State Fault Refusal :=
  runBody (privileged do
    let w ← readEA .w ea
    setFlags fun _ => StatusReg.ofWord w) s

/-- MOVE from SR: a memory destination is read before it is written (R206, 20_memory.md R76). -/
def execMoveFromSr (ea : EA) (s : State) : Host.Outcome State Fault Refusal :=
  runBody (do
    let loc ← resolveEA .w ea
    discardRead .w loc
    writeLoc .w loc (← get).sr.toWord) s

/-- MOVE from CCR is no instruction of the 68000: an illegal instruction exception (R207, 30_encoding.md R150). -/
def execMoveFromCcr (s : State) : Host.Outcome State Fault Refusal := runBody (exceptionInstead 4) s

/-- MOVE USP,An, privileged (R208). -/
def execMoveFromUsp (r : RegNo) (s : State) : Host.Outcome State Fault Refusal :=
  runBody (privileged do modify fun s => s.setAreg r s.usp) s

/-- MOVE An,USP, privileged (R209). -/
def execMoveToUsp (r : RegNo) (s : State) : Host.Outcome State Fault Refusal :=
  runBody (privileged do modify fun s => { s with usp := s.areg r }) s

/-! ## MOVEM -/

/-- `Reg(i)`: `D0` to `D7`, then `A0` to `A7` (R210). -/
def State.reg (s : State) (i : Nat) : Long :=
  if i < 8 then s.dreg (BitVec.ofNat 3 i) else s.areg (BitVec.ofNat 3 (i - 8))

/-- `Reg(i) <- v`, all 32 bits (R211). -/
def State.setReg (s : State) (i : Nat) (v : Long) : State :=
  if i < 8 then s.setDreg (BitVec.ofNat 3 i) v else s.setAreg (BitVec.ofNat 3 (i - 8)) v

/-- The set bits of a register mask, bit 0 first (R210). -/
def maskBits (mask : Word) : List Nat := (List.range 16).filter fun i => mask.getLsbD i

/-- The size in bytes as an address offset. -/
def sizeOffset (sz : Size) : Long := BitVec.ofNat 32 sz.bytes

/-- Store registers at rising addresses from `a` (R210, control modes). -/
def storeUp (sz : Size) : List Nat → Long → Exec Unit
  | [], _ => pure ()
  | i :: is, a => do
    memWrite sz a (((← get).reg i).setWidth sz.bits)
    storeUp sz is (a + sizeOffset sz)

/-- Store registers at falling addresses below `a`, and answer the last address; mask bit `i` names `Reg(15 - i)`
(R210, `-(An)`). -/
def storeDown (sz : Size) : List Nat → Long → Exec Long
  | [], a => return a
  | i :: is, a => do
    memWrite sz (a - sizeOffset sz) (((← get).reg (15 - i)).setWidth sz.bits)
    storeDown sz is (a - sizeOffset sz)

/-- Load registers from rising addresses, words sign-extended, and answer the address after the last (R211). -/
def loadUp (sp : Space) (sz : Size) : List Nat → Long → Exec Long
  | [], a => return a
  | i :: is, a => do
    let v ← memRead sp sz a
    modify fun s => s.setReg i (v.signExtend 32)
    loadUp sp sz is (a + sizeOffset sz)

/-- MOVEM, registers to memory (R210). -/
def execMovemToMem (sz : SizeWL) (mask : Word) (ea : EA) (s : State) : Host.Outcome State Fault Refusal :=
  runBody (do
    fetchExt
    match ea with
    | .preDec r => do
      let a ← storeDown sz.size (maskBits mask) ((← get).areg r)
      modify fun s => s.setAreg r a
    | _ => do
      let a ← addressEA sz.size ea
      storeUp sz.size (maskBits mask) a) s

/-- The transfers of MOVEM to registers, and the one extra word read after the last of them (R211, log entry 14). -/
def loadMany (sp : Space) (sz : Size) (mask : Word) (a : Long) : Exec Long := do
  let b ← loadUp sp sz (maskBits mask) a
  if mask ≠ 0 then
    let _ ← memRead sp .w b
  return b

/-- MOVEM, memory to registers: with `(An)+` the register ends as the incremented address, even if it was loaded
(R211). -/
def execMovemToReg (sz : SizeWL) (mask : Word) (ea : EA) (s : State) : Host.Outcome State Fault Refusal :=
  runBody (do
    fetchExt
    match ea with
    | .postInc r => do
      let b ← loadMany .data sz.size mask ((← get).areg r)
      modify fun s => s.setAreg r b
    | _ => do
      match ← resolveEA sz.size ea with
      | .mem sp a => let _ ← loadMany sp sz.size mask a
      | _ => throw (.refuse .malformed)) s

/-! ## MOVEP -/

/-- The byte lanes of a register that MOVEP transfers, the most significant first (R212). -/
def movepLanes : SizeWL → List Nat
  | .w => [1, 0]
  | .l => [3, 2, 1, 0]

/-- A byte lane of a register replaced. -/
def putLane (old : Long) (k : Nat) (b : Byte) : Long :=
  (old &&& ~~~(0xFF#32 <<< (8 * k))) ||| (b.setWidth 32 <<< (8 * k))

/-- Bytes at every other address into the lanes of a register (R212). -/
def movepLoad (rx : RegNo) : List Nat → Long → Exec Unit
  | [], _ => pure ()
  | k :: ks, a => do
    let b ← memRead .data .b a
    modify fun s => s.setDreg rx (putLane (s.dreg rx) k b)
    movepLoad rx ks (a + 2#32)

/-- The lanes of a register to bytes at every other address (R213). -/
def movepStore (rx : RegNo) : List Nat → Long → Exec Unit
  | [], _ => pure ()
  | k :: ks, a => do
    memWrite .b a (((← get).dreg rx).extractLsb' (8 * k) 8)
    movepStore rx ks (a + 2#32)

/-- MOVEP, memory to register (R212). -/
def execMovepToReg (sz : SizeWL) (ry : RegNo) (d : Word) (rx : RegNo) (s : State) : Host.Outcome State Fault Refusal :=
  runBody (do
    fetchExt
    movepLoad rx (movepLanes sz) ((← get).areg ry + d.signExtend 32)) s

/-- MOVEP, register to memory (R213). -/
def execMovepToMem (sz : SizeWL) (rx ry : RegNo) (d : Word) (s : State) : Host.Outcome State Fault Refusal :=
  runBody (do
    fetchExt
    movepStore rx (movepLanes sz) ((← get).areg ry + d.signExtend 32)) s

/-! ## MOVEQ, EXG, SWAP -/

/-- MOVEQ (R214). -/
def execMoveq (v : Byte) (rx : RegNo) (s : State) : Host.Outcome State Fault Refusal :=
  runBody (do
    modify fun s => s.setDreg rx (v.signExtend 32)
    setFlags fun sr => sr.logic (v.signExtend 32)) s

/-- EXG, two data registers (R215). -/
def execExgDD (rx ry : RegNo) (s : State) : Host.Outcome State Fault Refusal :=
  runBody (modify fun s => (s.setDreg rx (s.dreg ry)).setDreg ry (s.dreg rx)) s

/-- EXG, two address registers (R215). -/
def execExgAA (rx ry : RegNo) (s : State) : Host.Outcome State Fault Refusal :=
  runBody (modify fun s => (s.setAreg rx (s.areg ry)).setAreg ry (s.areg rx)) s

/-- EXG, a data register and an address register (R215). -/
def execExgDA (rx ry : RegNo) (s : State) : Host.Outcome State Fault Refusal :=
  runBody (modify fun s => (s.setDreg rx (s.areg ry)).setAreg ry (s.dreg rx)) s

/-- The two words of a long word exchanged (R216). -/
def swapWords (v : Long) : Long := v.extractLsb' 0 16 ++ v.extractLsb' 16 16

/-- SWAP (R216). -/
def execSwap (r : RegNo) (s : State) : Host.Outcome State Fault Refusal :=
  runBody (do
    let v := swapWords ((← get).dreg r)
    modify fun s => s.setDreg r v
    setFlags fun sr => sr.logic v) s

/-! ## LEA, PEA, LINK, UNLK -/

/-- LEA (R217). -/
def execLea (ea : EA) (rx : RegNo) (s : State) : Host.Outcome State Fault Refusal :=
  runBody (do
    let a ← addressEA .l ea
    modify fun s => s.setAreg rx a) s

/-- PEA (R218). -/
def execPea (ea : EA) (s : State) : Host.Outcome State Fault Refusal :=
  runBody (do push32 (← addressEA .l ea)) s

/-- LINK: push `An`, copy the stack pointer to it, move the stack pointer (R219). With `A7` the spec defines nothing
and the model refuses (log entry 16). -/
def execLink (r : RegNo) (d : Word) (s : State) : Host.Outcome State Fault Refusal :=
  runBody (do
    if r = 7#3 then throw (.refuse .linkA7)
    fetchExt
    push32 ((← get).areg r)
    modify fun s => s.setAreg r s.sp
    modify fun s => s.setSp (s.sp + d.signExtend 32)) s

/-- UNLK (R220); refused with `A7` (log entry 16). -/
def execUnlk (r : RegNo) (s : State) : Host.Outcome State Fault Refusal :=
  runBody (do
    if r = 7#3 then throw (.refuse .unlkA7)
    modify fun s => s.setSp (s.areg r)
    let v ← pop32
    modify fun s => s.setAreg r v) s

end Sys2Proof.Machine
end

