-- ==== Sys2Proof/Machine/Logical.lean ====
section
/-! DEFINITION. The logical instructions (42_logical.md). -/

namespace Sys2Proof.Machine

/-- A bitwise operation with the flags of LOGIC (R330). -/
def logicOp {n : Nat} (f : BitVec n → BitVec n → BitVec n) (s d : BitVec n) (sr : StatusReg) : BitVec n × StatusReg :=
  (f d s, sr.logic (f d s))

/-- `d and s` (R331). -/
def andOp {n : Nat} (s d : BitVec n) (sr : StatusReg) : BitVec n × StatusReg := logicOp (· &&& ·) s d sr

/-- `d or s` (R340). -/
def orOp {n : Nat} (s d : BitVec n) (sr : StatusReg) : BitVec n × StatusReg := logicOp (· ||| ·) s d sr

/-- `d xor s` (R336). -/
def eorOp {n : Nat} (s d : BitVec n) (sr : StatusReg) : BitVec n × StatusReg := logicOp (· ^^^ ·) s d sr

/-- `not d` (R345). -/
def notOp {n : Nat} (d : BitVec n) (sr : StatusReg) : BitVec n × StatusReg := (~~~d, sr.logic (~~~d))

/-- The `to CCR` forms: a byte combined with `CCR` (R334, R338, R343). -/
def immToCcr (v : Byte) (f : Byte → Byte → Byte) : Exec Unit := do
  fetchExt
  setFlags fun sr => sr.withCcr (f sr.ccr v)

/-- The `to SR` forms, privileged: a word combined with `SR` (R335, R339, R344). -/
def immToSr (v : Word) (f : Word → Word → Word) : Exec Unit := privileged do
  fetchExt
  setFlags fun sr => StatusReg.ofWord (f sr.toWord v)

/-- AND, register to memory (R331). -/
def execAndToMem (sz : Size) (rx : RegNo) (ea : EA) (s : State) : Host.Outcome State Fault Refusal :=
  runBody (dregToEA sz rx ea andOp) s

/-- AND, to register (R332). -/
def execAndToReg (sz : Size) (ea : EA) (rx : RegNo) (s : State) : Host.Outcome State Fault Refusal :=
  runBody (eaToDreg sz ea rx andOp) s

/-- ANDI (R333). -/
def execAndi (sz : Size) (v : Long) (ea : EA) (s : State) : Host.Outcome State Fault Refusal :=
  runBody (immToEA sz v ea andOp) s

/-- ANDI to CCR (R334). -/
def execAndiToCcr (v : Byte) (s : State) : Host.Outcome State Fault Refusal := runBody (immToCcr v (· &&& ·)) s

/-- ANDI to SR (R335). -/
def execAndiToSr (v : Word) (s : State) : Host.Outcome State Fault Refusal := runBody (immToSr v (· &&& ·)) s

/-- EOR (R336). -/
def execEor (sz : Size) (rx : RegNo) (ea : EA) (s : State) : Host.Outcome State Fault Refusal :=
  runBody (dregToEA sz rx ea eorOp) s

/-- EORI (R337). -/
def execEori (sz : Size) (v : Long) (ea : EA) (s : State) : Host.Outcome State Fault Refusal :=
  runBody (immToEA sz v ea eorOp) s

/-- EORI to CCR (R338). -/
def execEoriToCcr (v : Byte) (s : State) : Host.Outcome State Fault Refusal := runBody (immToCcr v (· ^^^ ·)) s

/-- EORI to SR (R339). -/
def execEoriToSr (v : Word) (s : State) : Host.Outcome State Fault Refusal := runBody (immToSr v (· ^^^ ·)) s

/-- OR, register to memory (R340). -/
def execOrToMem (sz : Size) (rx : RegNo) (ea : EA) (s : State) : Host.Outcome State Fault Refusal :=
  runBody (dregToEA sz rx ea orOp) s

/-- OR, to register (R341). -/
def execOrToReg (sz : Size) (ea : EA) (rx : RegNo) (s : State) : Host.Outcome State Fault Refusal :=
  runBody (eaToDreg sz ea rx orOp) s

/-- ORI (R342). -/
def execOri (sz : Size) (v : Long) (ea : EA) (s : State) : Host.Outcome State Fault Refusal :=
  runBody (immToEA sz v ea orOp) s

/-- ORI to CCR (R343). -/
def execOriToCcr (v : Byte) (s : State) : Host.Outcome State Fault Refusal := runBody (immToCcr v (· ||| ·)) s

/-- ORI to SR (R344). -/
def execOriToSr (v : Word) (s : State) : Host.Outcome State Fault Refusal := runBody (immToSr v (· ||| ·)) s

/-- NOT (R345). -/
def execNot (sz : Size) (ea : EA) (s : State) : Host.Outcome State Fault Refusal :=
  runBody (modifyEA sz ea notOp) s

end Sys2Proof.Machine
end

