-- ==== Sys2Proof/Machine/Shift.lean ====
section
/-! DEFINITION. The shift and rotate instructions (43_shift_rotate.md). -/

namespace Sys2Proof.Machine

/-- The eight operations (R370). -/
inductive ShiftOp where
  | asl | asr | lsl | lsr | rol | ror | roxl | roxr
deriving DecidableEq, Repr

/-- A shift in progress: the operand, C as the bits shifted out so far leave it, X, and the sign change of ASL. -/
structure Shifting (n : Nat) where
  v     : BitVec n
  c     : Bool
  x     : Bool
  vflag : Bool
deriving DecidableEq, Repr

/-- The bit that leaves the operand: the top bit of a left shift, bit 0 of a right shift (R370). -/
def ShiftOp.out {n : Nat} (op : ShiftOp) (v : BitVec n) : Bool :=
  match op with
  | .asl | .lsl | .rol | .roxl => v.msb
  | .asr | .lsr | .ror | .roxr => v.getLsbD 0

/-- The bit that enters the operand (R370). -/
def ShiftOp.enter {n : Nat} (op : ShiftOp) (v : BitVec n) (x : Bool) : Bool :=
  match op with
  | .asl | .lsl | .lsr => false
  | .asr => v.msb
  | .rol => v.msb
  | .ror => v.getLsbD 0
  | .roxl | .roxr => x

/-- The operand shifted by one place, with the bit that enters (R370). -/
def ShiftOp.move {n : Nat} (op : ShiftOp) (v : BitVec n) (b : Bool) : BitVec n :=
  match op with
  | .asl | .lsl | .rol | .roxl => (v <<< 1) ||| (BitVec.ofBool b).setWidth n
  | .asr | .lsr | .ror | .roxr => (v >>> 1) ||| ((BitVec.ofBool b).setWidth n <<< (n - 1))

/-- One step (R370): C takes the bit that leaves; X takes it too, but in ROL and ROR (R371). -/
def ShiftOp.step {n : Nat} (op : ShiftOp) (st : Shifting n) : Shifting n :=
  let v := op.move st.v (op.enter st.v st.x)
  { v := v
    c := op.out st.v
    x := if op = .rol ∨ op = .ror then st.x else op.out st.v
    vflag := if op = .asl then st.vflag || (v.msb != st.v.msb) else false }

/-- The step taken `count` times (R370). -/
def ShiftOp.iterate {n : Nat} (op : ShiftOp) : Nat → Shifting n → Shifting n
  | 0, st => st
  | k + 1, st => op.iterate k (op.step st)

/-- Before the first step: C is what a count of zero leaves, X in the rotates through X and 0 in the others (R371). -/
def ShiftOp.start {n : Nat} (op : ShiftOp) (v : BitVec n) (sr : StatusReg) : Shifting n :=
  { v := v, c := if op = .roxl ∨ op = .roxr then sr.x else false, x := sr.x, vflag := false }

/-- `SHIFT` with the flags of R371. -/
def shiftOp {n : Nat} (op : ShiftOp) (count : Nat) (v : BitVec n) (sr : StatusReg) : BitVec n × StatusReg :=
  let st := op.iterate count (op.start v sr)
  (st.v, { sr with x := st.x, n := st.v.msb, z := st.v == 0, v := st.vflag, c := st.c })

/-- The immediate count: 1 to 7, and 0 for 8 (R372). -/
def shiftCount (q : BitVec 3) : Nat := if q = 0 then 8 else q.toNat

/-- A register form with a given count (R372). -/
def shiftReg (op : ShiftOp) (sz : Size) (count : Nat) (ry : RegNo) : Exec Unit := do
  let st ← get
  let (r, sr) := shiftOp op count ((st.dreg ry).setWidth sz.bits) st.sr
  set ({ st.putDreg ry r with sr := sr } : State)

/-- The register-count form: the count is `D[rx] mod 64` (R372). -/
def shiftByReg (op : ShiftOp) (sz : Size) (rx ry : RegNo) : Exec Unit := do
  shiftReg op sz (((← get).dreg rx).toNat % 64) ry

/-- The memory form: a word, shifted once (R373). -/
def shiftMem (op : ShiftOp) (ea : EA) : Exec Unit := modifyEA .w ea (shiftOp op 1)

/-- ASL, register count (R380). -/
def execAslReg (sz : Size) (rx ry : RegNo) (s : State) : Host.Outcome State Fault Refusal :=
  runBody (shiftByReg .asl sz rx ry) s

/-- ASL, immediate count (R381). -/
def execAslImm (sz : Size) (q : BitVec 3) (ry : RegNo) (s : State) : Host.Outcome State Fault Refusal :=
  runBody (shiftReg .asl sz (shiftCount q) ry) s

/-- ASL, memory (R382). -/
def execAslMem (ea : EA) (s : State) : Host.Outcome State Fault Refusal := runBody (shiftMem .asl ea) s

/-- ASR, register count (R383). -/
def execAsrReg (sz : Size) (rx ry : RegNo) (s : State) : Host.Outcome State Fault Refusal :=
  runBody (shiftByReg .asr sz rx ry) s

/-- ASR, immediate count (R384). -/
def execAsrImm (sz : Size) (q : BitVec 3) (ry : RegNo) (s : State) : Host.Outcome State Fault Refusal :=
  runBody (shiftReg .asr sz (shiftCount q) ry) s

/-- ASR, memory (R385). -/
def execAsrMem (ea : EA) (s : State) : Host.Outcome State Fault Refusal := runBody (shiftMem .asr ea) s

/-- LSL, register count (R386). -/
def execLslReg (sz : Size) (rx ry : RegNo) (s : State) : Host.Outcome State Fault Refusal :=
  runBody (shiftByReg .lsl sz rx ry) s

/-- LSL, immediate count (R387). -/
def execLslImm (sz : Size) (q : BitVec 3) (ry : RegNo) (s : State) : Host.Outcome State Fault Refusal :=
  runBody (shiftReg .lsl sz (shiftCount q) ry) s

/-- LSL, memory (R388). -/
def execLslMem (ea : EA) (s : State) : Host.Outcome State Fault Refusal := runBody (shiftMem .lsl ea) s

/-- LSR, register count (R389). -/
def execLsrReg (sz : Size) (rx ry : RegNo) (s : State) : Host.Outcome State Fault Refusal :=
  runBody (shiftByReg .lsr sz rx ry) s

/-- LSR, immediate count (R390). -/
def execLsrImm (sz : Size) (q : BitVec 3) (ry : RegNo) (s : State) : Host.Outcome State Fault Refusal :=
  runBody (shiftReg .lsr sz (shiftCount q) ry) s

/-- LSR, memory (R391). -/
def execLsrMem (ea : EA) (s : State) : Host.Outcome State Fault Refusal := runBody (shiftMem .lsr ea) s

/-- ROL, register count (R392). -/
def execRolReg (sz : Size) (rx ry : RegNo) (s : State) : Host.Outcome State Fault Refusal :=
  runBody (shiftByReg .rol sz rx ry) s

/-- ROL, immediate count (R393). -/
def execRolImm (sz : Size) (q : BitVec 3) (ry : RegNo) (s : State) : Host.Outcome State Fault Refusal :=
  runBody (shiftReg .rol sz (shiftCount q) ry) s

/-- ROL, memory (R394). -/
def execRolMem (ea : EA) (s : State) : Host.Outcome State Fault Refusal := runBody (shiftMem .rol ea) s

/-- ROR, register count (R395). -/
def execRorReg (sz : Size) (rx ry : RegNo) (s : State) : Host.Outcome State Fault Refusal :=
  runBody (shiftByReg .ror sz rx ry) s

/-- ROR, immediate count (R396). -/
def execRorImm (sz : Size) (q : BitVec 3) (ry : RegNo) (s : State) : Host.Outcome State Fault Refusal :=
  runBody (shiftReg .ror sz (shiftCount q) ry) s

/-- ROR, memory (R397). -/
def execRorMem (ea : EA) (s : State) : Host.Outcome State Fault Refusal := runBody (shiftMem .ror ea) s

/-- ROXL, register count (R398). -/
def execRoxlReg (sz : Size) (rx ry : RegNo) (s : State) : Host.Outcome State Fault Refusal :=
  runBody (shiftByReg .roxl sz rx ry) s

/-- ROXL, immediate count (R399). -/
def execRoxlImm (sz : Size) (q : BitVec 3) (ry : RegNo) (s : State) : Host.Outcome State Fault Refusal :=
  runBody (shiftReg .roxl sz (shiftCount q) ry) s

/-- ROXL, memory (R400). -/
def execRoxlMem (ea : EA) (s : State) : Host.Outcome State Fault Refusal := runBody (shiftMem .roxl ea) s

/-- ROXR, register count (R401). -/
def execRoxrReg (sz : Size) (rx ry : RegNo) (s : State) : Host.Outcome State Fault Refusal :=
  runBody (shiftByReg .roxr sz rx ry) s

/-- ROXR, immediate count (R402). -/
def execRoxrImm (sz : Size) (q : BitVec 3) (ry : RegNo) (s : State) : Host.Outcome State Fault Refusal :=
  runBody (shiftReg .roxr sz (shiftCount q) ry) s

/-- ROXR, memory (R403). -/
def execRoxrMem (ea : EA) (s : State) : Host.Outcome State Fault Refusal := runBody (shiftMem .roxr ea) s

end Sys2Proof.Machine
end

