-- ==== Sys2Proof/Machine/System.lean ====
section
/-! DEFINITION. The system control instructions (47_system_control.md), and the operation words that only raise an
exception (30_encoding.md R150). -/

namespace Sys2Proof.Machine

/-- RTE, privileged (R500). -/
def execRte (s : State) : Host.Outcome State Fault Refusal := runBody (privileged returnFromException) s

/-- STOP, privileged: it stops unless it is traced (R501, 60_exceptions.md R560). -/
def execStop (v : Word) (s : State) : Host.Outcome State Fault Refusal :=
  runBody (privileged do
    let t := (← get).sr.t
    fetchExt
    modify fun s => { s with sr := StatusReg.ofWord v, stopped := !t }) s

/-- RESET, privileged: the reset pin is driven and the platform's devices receive the pulse; nothing of the processor
changes but `PC` (R502, R583). -/
def execReset (s : State) : Host.Outcome State Fault Refusal :=
  runBody (privileged do modify fun s => { s.note .resetPulse with resetPulses := s.resetPulses + 1 }) s

/-- NOP (R503). -/
def execNop (s : State) : Host.Outcome State Fault Refusal := runBody (pure ()) s

/-- ILLEGAL and every other unmatched operation word: the illegal instruction exception (60_exceptions.md R527). -/
def execIllegal (s : State) : Host.Outcome State Fault Refusal := runBody (exceptionInstead 4) s

/-- An operation word of line A: the line 1010 emulator exception (60_exceptions.md R527). -/
def execLineA (s : State) : Host.Outcome State Fault Refusal := runBody (exceptionInstead 10) s

/-- An operation word of line F: the line 1111 emulator exception (60_exceptions.md R527). -/
def execLineF (s : State) : Host.Outcome State Fault Refusal := runBody (exceptionInstead 11) s

end Sys2Proof.Machine
end

