-- ==== Sys2Proof/Machine/Dispatch.lean ====
section
/-! DEFINITION. The meaning of every instruction: one arm per constructor, one call per arm. -/

namespace Sys2Proof.Machine

/-- Execute an instruction at its address: `PC` is the address of its operation word. -/
def exec (i : Instr) (s : State) : Host.Outcome State Fault Refusal :=
  match i with
  | .oriToCcr v => Sys2Proof.Machine.execOriToCcr v s
  | .oriToSr v => Sys2Proof.Machine.execOriToSr v s
  | .andiToCcr v => Sys2Proof.Machine.execAndiToCcr v s
  | .andiToSr v => Sys2Proof.Machine.execAndiToSr v s
  | .eoriToCcr v => Sys2Proof.Machine.execEoriToCcr v s
  | .eoriToSr v => Sys2Proof.Machine.execEoriToSr v s
  | .movepToReg sz ry d rx => Sys2Proof.Machine.execMovepToReg sz ry d rx s
  | .movepToMem sz rx ry d => Sys2Proof.Machine.execMovepToMem sz rx ry d s
  | .btstReg rx ea => Sys2Proof.Machine.execBtstReg rx ea s
  | .bchgReg rx ea => Sys2Proof.Machine.execBchgReg rx ea s
  | .bclrReg rx ea => Sys2Proof.Machine.execBclrReg rx ea s
  | .bsetReg rx ea => Sys2Proof.Machine.execBsetReg rx ea s
  | .btstImm n ea => Sys2Proof.Machine.execBtstImm n ea s
  | .bchgImm n ea => Sys2Proof.Machine.execBchgImm n ea s
  | .bclrImm n ea => Sys2Proof.Machine.execBclrImm n ea s
  | .bsetImm n ea => Sys2Proof.Machine.execBsetImm n ea s
  | .ori sz v ea => Sys2Proof.Machine.execOri sz v ea s
  | .andi sz v ea => Sys2Proof.Machine.execAndi sz v ea s
  | .subi sz v ea => Sys2Proof.Machine.execSubi sz v ea s
  | .addi sz v ea => Sys2Proof.Machine.execAddi sz v ea s
  | .eori sz v ea => Sys2Proof.Machine.execEori sz v ea s
  | .cmpi sz v ea => Sys2Proof.Machine.execCmpi sz v ea s
  | .movea sz src rx => Sys2Proof.Machine.execMovea sz src rx s
  | .move sz src dst => Sys2Proof.Machine.execMove sz src dst s
  | .reset => Sys2Proof.Machine.execReset s
  | .nop => Sys2Proof.Machine.execNop s
  | .stop v => Sys2Proof.Machine.execStop v s
  | .rte => Sys2Proof.Machine.execRte s
  | .rts => Sys2Proof.Machine.execRts s
  | .trapv => Sys2Proof.Machine.execTrapv s
  | .rtr => Sys2Proof.Machine.execRtr s
  | .illegal => Sys2Proof.Machine.execIllegal s
  | .trap n => Sys2Proof.Machine.execTrap n s
  | .link r d => Sys2Proof.Machine.execLink r d s
  | .unlk r => Sys2Proof.Machine.execUnlk r s
  | .moveToUsp r => Sys2Proof.Machine.execMoveToUsp r s
  | .moveFromUsp r => Sys2Proof.Machine.execMoveFromUsp r s
  | .jsr ea => Sys2Proof.Machine.execJsr ea s
  | .jmp ea => Sys2Proof.Machine.execJmp ea s
  | .swap r => Sys2Proof.Machine.execSwap r s
  | .ext sz r => Sys2Proof.Machine.execExt sz r s
  | .nbcd ea => Sys2Proof.Machine.execNbcd ea s
  | .pea ea => Sys2Proof.Machine.execPea ea s
  | .movemToMem sz mask ea => Sys2Proof.Machine.execMovemToMem sz mask ea s
  | .movemToReg sz mask ea => Sys2Proof.Machine.execMovemToReg sz mask ea s
  | .moveFromSr ea => Sys2Proof.Machine.execMoveFromSr ea s
  | .negx sz ea => Sys2Proof.Machine.execNegx sz ea s
  | .moveFromCcr _ => Sys2Proof.Machine.execMoveFromCcr s
  | .clr sz ea => Sys2Proof.Machine.execClr sz ea s
  | .moveToCcr ea => Sys2Proof.Machine.execMoveToCcr ea s
  | .neg sz ea => Sys2Proof.Machine.execNeg sz ea s
  | .moveToSr ea => Sys2Proof.Machine.execMoveToSr ea s
  | .not sz ea => Sys2Proof.Machine.execNot sz ea s
  | .tas ea => Sys2Proof.Machine.execTas ea s
  | .tst sz ea => Sys2Proof.Machine.execTst sz ea s
  | .chk ea rx => Sys2Proof.Machine.execChk ea rx s
  | .lea ea rx => Sys2Proof.Machine.execLea ea rx s
  | .dbcc c r d => Sys2Proof.Machine.execDbcc c r d s
  | .scc c ea => Sys2Proof.Machine.execScc c ea s
  | .addq sz q ea => Sys2Proof.Machine.execAddq sz q ea s
  | .subq sz q ea => Sys2Proof.Machine.execSubq sz q ea s
  | .bra d => Sys2Proof.Machine.execBra d s
  | .bsr d => Sys2Proof.Machine.execBsr d s
  | .bcc c d => Sys2Proof.Machine.execBcc c d s
  | .moveq v rx => Sys2Proof.Machine.execMoveq v rx s
  | .divu ea rx => Sys2Proof.Machine.execDivu ea rx s
  | .divs ea rx => Sys2Proof.Machine.execDivs ea rx s
  | .sbcdReg ry rx => Sys2Proof.Machine.execSbcdReg ry rx s
  | .sbcdMem ry rx => Sys2Proof.Machine.execSbcdMem ry rx s
  | .orToReg sz ea rx => Sys2Proof.Machine.execOrToReg sz ea rx s
  | .orToMem sz rx ea => Sys2Proof.Machine.execOrToMem sz rx ea s
  | .suba sz ea rx => Sys2Proof.Machine.execSuba sz ea rx s
  | .subxReg sz ry rx => Sys2Proof.Machine.execSubxReg sz ry rx s
  | .subxMem sz ry rx => Sys2Proof.Machine.execSubxMem sz ry rx s
  | .subToReg sz ea rx => Sys2Proof.Machine.execSubToReg sz ea rx s
  | .subToMem sz rx ea => Sys2Proof.Machine.execSubToMem sz rx ea s
  | .cmpa sz ea rx => Sys2Proof.Machine.execCmpa sz ea rx s
  | .cmpm sz ry rx => Sys2Proof.Machine.execCmpm sz ry rx s
  | .cmp sz ea rx => Sys2Proof.Machine.execCmp sz ea rx s
  | .eor sz rx ea => Sys2Proof.Machine.execEor sz rx ea s
  | .mulu ea rx => Sys2Proof.Machine.execMulu ea rx s
  | .muls ea rx => Sys2Proof.Machine.execMuls ea rx s
  | .abcdReg ry rx => Sys2Proof.Machine.execAbcdReg ry rx s
  | .abcdMem ry rx => Sys2Proof.Machine.execAbcdMem ry rx s
  | .exgDD rx ry => Sys2Proof.Machine.execExgDD rx ry s
  | .exgAA rx ry => Sys2Proof.Machine.execExgAA rx ry s
  | .exgDA rx ry => Sys2Proof.Machine.execExgDA rx ry s
  | .andToReg sz ea rx => Sys2Proof.Machine.execAndToReg sz ea rx s
  | .andToMem sz rx ea => Sys2Proof.Machine.execAndToMem sz rx ea s
  | .adda sz ea rx => Sys2Proof.Machine.execAdda sz ea rx s
  | .addxReg sz ry rx => Sys2Proof.Machine.execAddxReg sz ry rx s
  | .addxMem sz ry rx => Sys2Proof.Machine.execAddxMem sz ry rx s
  | .addToReg sz ea rx => Sys2Proof.Machine.execAddToReg sz ea rx s
  | .addToMem sz rx ea => Sys2Proof.Machine.execAddToMem sz rx ea s
  | .aslMem ea => Sys2Proof.Machine.execAslMem ea s
  | .asrMem ea => Sys2Proof.Machine.execAsrMem ea s
  | .lslMem ea => Sys2Proof.Machine.execLslMem ea s
  | .lsrMem ea => Sys2Proof.Machine.execLsrMem ea s
  | .roxlMem ea => Sys2Proof.Machine.execRoxlMem ea s
  | .roxrMem ea => Sys2Proof.Machine.execRoxrMem ea s
  | .rolMem ea => Sys2Proof.Machine.execRolMem ea s
  | .rorMem ea => Sys2Proof.Machine.execRorMem ea s
  | .aslReg sz rx ry => Sys2Proof.Machine.execAslReg sz rx ry s
  | .aslImm sz q ry => Sys2Proof.Machine.execAslImm sz q ry s
  | .asrReg sz rx ry => Sys2Proof.Machine.execAsrReg sz rx ry s
  | .asrImm sz q ry => Sys2Proof.Machine.execAsrImm sz q ry s
  | .lslReg sz rx ry => Sys2Proof.Machine.execLslReg sz rx ry s
  | .lslImm sz q ry => Sys2Proof.Machine.execLslImm sz q ry s
  | .lsrReg sz rx ry => Sys2Proof.Machine.execLsrReg sz rx ry s
  | .lsrImm sz q ry => Sys2Proof.Machine.execLsrImm sz q ry s
  | .roxlReg sz rx ry => Sys2Proof.Machine.execRoxlReg sz rx ry s
  | .roxlImm sz q ry => Sys2Proof.Machine.execRoxlImm sz q ry s
  | .roxrReg sz rx ry => Sys2Proof.Machine.execRoxrReg sz rx ry s
  | .roxrImm sz q ry => Sys2Proof.Machine.execRoxrImm sz q ry s
  | .rolReg sz rx ry => Sys2Proof.Machine.execRolReg sz rx ry s
  | .rolImm sz q ry => Sys2Proof.Machine.execRolImm sz q ry s
  | .rorReg sz rx ry => Sys2Proof.Machine.execRorReg sz rx ry s
  | .rorImm sz q ry => Sys2Proof.Machine.execRorImm sz q ry s
  | .lineA _ => Sys2Proof.Machine.execLineA s
  | .lineF _ => Sys2Proof.Machine.execLineF s

end Sys2Proof.Machine
end

