-- ==== Sys2Proof/Machine/Cycle.lean ====
section
/-! DEFINITION. The parts of a step around the meaning of an instruction: sampling the inputs, external reset,
interrupts, fetching and decoding, tracing, and the step relation of 60_exceptions.md R565. -/

namespace Sys2Proof.Machine

/-! ## Inputs -/

/-- The inputs of this step are at the pins. A transition of `ipl` to 7 is remembered (60_exceptions.md R541); a halted
processor changes nothing (R546). -/
def State.present (s : State) (p : Pins) : State :=
  { s with pins := p, nmiEdge := s.nmiEdge || (p.ipl == 7 && s.pins.ipl != 7 && !s.halted) }

/-- Sample the platform's inputs: the next entry, or idle when none is left (60_exceptions.md R565, log entry 5). -/
def State.sample (s : State) : State :=
  match s.inputs with
  | [] => s.present Pins.idle
  | p :: rest => { s.present p with inputs := rest }

/-! ## External reset and interrupts -/

/-- The two reset vectors, supervisor program reads (70_reset_and_hazards.md R580, 60_exceptions.md R523). -/
def loadResetVectors : Exec Unit := do
  let sp ← memRead .program .l 0
  modify fun s => { s with ssp := sp }
  let p ← memRead .program .l 4
  jump p

/-- External reset (70_reset_and_hazards.md R580); a fault on the way halts the processor (R582). The platform resets
its devices (R581): the reset is an event that the devices see, before the two vectors are read, and what it does to
their answers is free (DESIGN CHOICE, log entry 26). -/
def State.externalReset (s : State) : State :=
  let s1 := { s.note .externalReset with
    sr := { s.sr with s := true, t := false, i := 7 }
    stopped := false, halted := false, nmiEdge := false, prefetch := [], traceDue := false }
  match loadResetVectors s1 with
  | .ok _ s' => s'
  | .error _ s' => { s' with halted := true }

/-- An interrupt is pending: a request above the mask, or the edge of a level 7 request (60_exceptions.md R541). The
rule's other case, a mask lowered from 7 while the request stays at 7, is a request above the mask (log entry 13). -/
def State.pending (s : State) : Bool := decide (s.sr.i < s.pins.ipl) || (s.pins.ipl == 7 && s.nmiEdge)

/-- The vector number of an interrupt (60_exceptions.md R542). -/
def Ack.vectorNumber (ack : Ack) (level : BitVec 3) : Byte :=
  match ack with
  | .vector k => k
  | .auto     => 24 + level.setWidth 8
  | .busError => 24

/-- Take the pending interrupt (60_exceptions.md R541, R542): the devices see the acknowledge cycle before the frame is
stored (R530, DESIGN CHOICE that all of them do, log entry 26). A fault on the way is a group 0 exception that no
instruction caused (R545). -/
def State.takeInterrupt (s : State) : State :=
  let level := s.pins.ipl
  let s1 := { s.note (.acknowledge level) with stopped := false, nmiEdge := s.nmiEdge && level != 7 }
  match takeException (s.pins.ack.vectorNumber level) s.pc (some level) s1 with
  | .ok _ s' => s'
  | .error (.group0 f) s' => s'.takeGroup0 f none none
  | .error (.refuse _) s' => s'

/-! ## Fetch -/

/-- A write cycle into the byte of the given address. -/
def writesByte (x : Nat) : Config.BusEvent → Bool
  | .writeByte a _ => a == x
  | .writeWord a _ => a == x || a + 1 == x
  | _ => false

/-- A byte of a prefetched word where the store into it has not been seen: of a memory cell the byte as it was; of a
device the byte as it was if it has been written to since, and otherwise what the device answers in its place
(20_memory.md R64, R73, log entry 7). -/
def State.olderByte (s : State) (x : Long) (seen : Nat) (old now : Byte) : Byte :=
  if !s.deviceAt x || (s.deviceLog.take (s.deviceLog.length - seen)).any (writesByte (addrOf x)) then old else now

/-- What a fetch answers where the stores into a prefetched word have not been seen, `now` being what `MEM` answers. -/
def State.olderWord (s : State) (a : Long) (c : Prefetched) (now : Word) : Word :=
  s.olderByte a c.seen (c.word.extractLsb' 8 8) (now.extractLsb' 8 8) ++
    s.olderByte (a + 1#32) c.seen (c.word.extractLsb' 0 8) (now.extractLsb' 0 8)

/-- The word a fetch answers, `w` so far: what `MEM` answers (`now`), or what any prefetched word of that address lets it
answer; a free bit chooses wherever they differ (20_memory.md R73, log entry 7). It answers the word and the count of
draws, one for each prefetched word of the address. -/
def State.chooseWord (s : State) (a : Long) (now : Word) : List Prefetched → Word → Nat → Word × Nat
  | [], w, n => (w, n)
  | c :: rest, w, n =>
    if c.addr = addrOf a then
      let older := s.olderWord a c now
      s.chooseWord a now rest (if older ≠ w ∧ Config.freeBit n = true then older else w) (n + 1)
    else s.chooseWord a now rest w n

/-- The words that some number of fetches one after the other answer, from an address up (20_memory.md R64), and the
count of draws: a device that answers one of them has seen the fetches before it. -/
def State.fetchWords (s : State) : Nat → Long → Nat → List Word × Nat
  | 0, _, n => ([], n)
  | count + 1, a, n =>
    let (m, s1) := s.readWordCycle a
    let (w, n1) := s.chooseWord a m s.prefetch m n
    let (ws, n2) := s1.fetchWords count (a + 2#32) n1
    (w :: ws, n2)

/-- The longest instruction has five words (30_encoding.md R100). -/
def maxWords : Nat := 5

/-- The words that may be prefetched while an instruction of `n` words runs: the two words after it
(20_memory.md R73), as `MEM` answers them now, and older ones of the same addresses. -/
def State.prefetchAfter (s : State) (n : Nat) : List Prefetched :=
  let a := s.pc + BitVec.ofNat 32 (2 * n)
  let ahead := fun (x : Long) => ({ addr := addrOf x, word := (s.readWordCycle x).1, seen := s.deviceLog.length } : Prefetched)
  [ahead a, ahead (a + 2#32)] ++ s.prefetch.filter fun c => c.addr == addrOf a || c.addr == addrOf (a + 2#32)

/-- The state in which a fetched operation word begins to execute: it is in the instruction register, and `T` is
remembered (60_exceptions.md R565 step 5). -/
def State.begin (s : State) (w : Word) (draws : Nat) : State :=
  { s with ir := w, traceDue := s.sr.t, draws := draws }

/-- The words an instruction is decoded from, and the count of draws: what the fetches of 20_memory.md R64 answer in
their places. All of an instruction's fetches come one after the other, but for the extension words of the destination
of MOVE: they come after its source has been read (30_encoding.md R125), which a device that answers them may have
seen (log entry 8). -/
def State.instrWords (s : State) : List Word × Nat :=
  let all := s.fetchWords maxWords s.pc s.draws
  match decodeWords all.1 with
  | .ok (.move sz src _, _) =>
    let first := 1 + eaExtCount sz src
    match readEA sz src { (s.readWordCycle s.pc).2.begin (all.1.headD 0) all.2 with pc := s.pc + 2#32 } with
    | .ok _ t =>
      let source := s.fetchWords first s.pc s.draws
      (source.1 ++ (t.fetchWords (maxWords - first) t.pc source.2).1, all.2)
    | .error _ _ => all
  | _ => all

/-! ## Execution -/

/-- The trace exception after the instruction that began at `i` (60_exceptions.md R552). -/
def State.takeTrace (s : State) (i : Long) : State :=
  match takeException 9 s.pc none { s with traceDue := false, stopped := false } with
  | .ok _ s' => s'
  | .error (.group0 f) s' => s'.takeGroup0 f (some i) (some s'.ir)
  | .error (.refuse _) s' => s'

/-- Step 9 of 60_exceptions.md R565: trace an instruction that is due. -/
def traced (i : Long) : Host.Outcome State Fault Refusal → Host.Outcome State Fault Refusal
  | .next s => if s.traceDue then .next (s.takeTrace i) else .next s
  | .fault f => .fault f
  | .refused r => .refused r

/-- Steps 5 to 9 of 60_exceptions.md R565: fetch an operation word, decode it, execute it, trace it. -/
def State.runInstruction (s : State) : Host.Outcome State Fault Refusal :=
  if s.accessOk .w s.pc then
    let (ws, draws) := s.instrWords
    let s1 := (s.readWordCycle s.pc).2.begin (ws.headD 0) draws
    match decodeWords ws with
    | .ok (i, _) => traced s.pc (exec i { s1 with prefetch := s.prefetchAfter i.length })
    | .error (.unmatched _) => execIllegal s1
    | .error _ => .fault .truncated
  else .next (s.takeGroup0 (s.accessFault .program .w s.pc true) (some s.pc) none)

/-- One step (60_exceptions.md R565). -/
def State.cycle (s0 : State) : Host.Outcome State Fault Refusal :=
  let s := s0.sample
  if s.pins.resetIn then .next s.externalReset
  else if s.halted then .next s
  else if s.pending then .next s.takeInterrupt
  else if s.stopped then .next s
  else s.runInstruction

/-! ## Placing an instruction -/

/-- Write bytes at rising addresses. -/
def State.placeBytes (s : State) : List Byte → Long → State
  | [], _ => s
  | b :: bs, a => (s.writeByte a b).placeBytes bs (a + 1#32)

/-- Some of `n` bytes from `a` up lie in a range. -/
def Region.touches (r : Region) (a : Long) (n : Nat) : Bool :=
  (List.range n).any fun k => r.covers (a + BitVec.ofNat 32 k)

/-- The bytes of an instruction stored where the next step fetches, and that step free to fetch them: `PC` even, the
addresses answered and memory cells, nothing prefetched, no reset and no interrupt in that step, not stopped and not
halted. It stands for a program's being loaded from outside the machine (log entry 3). -/
def State.placeAtPc (s : State) (bs : List Byte) : State :=
  let a := s.pc &&& ~~~1#32
  State.placeBytes { s with
    pc := a, stopped := false, halted := false, prefetch := [], inputs := Pins.idle :: s.inputs
    silent := s.silent.filter fun r => !r.touches a bs.length
    devices := s.devices.filter fun r => !r.touches a bs.length } bs a

end Sys2Proof.Machine
end

