-- ==== Sys2Proof/Safety.lean ====
section
/-! DEFINITION. The terms in which claims speak: the invariant every step keeps, the conditions under which a step
executes an instruction to its end, the values and places of operands as plain functions of a state, and frames. -/

namespace Sys2Proof.Machine

/-- The invariant of every state a run reaches: memory has its canonical form. -/
def State.Inv (s : State) : Prop := Memory.wf s.mem = true

/-- The step executes an instruction: no reset, no interrupt, neither stopped nor halted (60_exceptions.md R565). -/
def State.ready (s : State) : Bool :=
  !s.sample.pins.resetIn && !s.halted && !s.sample.pending && !s.stopped

/-- An access raises nothing and is one to memory cells: the platform has no device there (92_eei_decisions.md D2). -/
def State.cellsOk (s : State) (sz : Size) (a : Long) : Bool := s.accessOk sz a && s.isCells sz a

/-- The `n` words from an address up can be fetched, from memory cells: the address is even and every word is
answered. -/
def State.fetchable (s : State) (a : Long) (n : Nat) : Bool :=
  (List.range n).all fun k => s.cellsOk .w (a + BitVec.ofNat 32 (2 * k))

/-- The words that some number of reads one after the other answer, from an address up: a device that answers one of
them has seen those before it. -/
def State.wordsAt (s : State) : Nat → Long → List Word
  | 0, _ => []
  | count + 1, a => (s.busRead .w a).1 :: (s.busRead .w a).2.wordsAt count (a + 2#32)

/-- The state with `PC` moved past `n` words, all else the same. -/
def State.pastWords (s : State) (n : Nat) : State := { s with pc := s.pc + BitVec.ofNat 32 (2 * n) }

/-- The state once an effective address at `PC` is resolved: past its extension words, its register stepped. -/
def State.resolved (s : State) (sz : Size) (ea : EA) : State := eaUpdate sz ea (s.pastWords (eaExtCount sz ea))

/-- A location can be read without a fault. -/
def Loc.readable (sz : Size) (s : State) : Loc → Bool
  | .dreg _ => true
  | .areg _ => true
  | .imm _ => true
  | .mem _ a => s.accessOk sz a

/-- A location can be written without a fault. -/
def Loc.writable (sz : Size) (s : State) : Loc → Bool
  | .dreg _ => true
  | .areg _ => true
  | .imm _ => false
  | .mem .data a => s.accessOk sz a
  | .mem .program _ => false

/-- The value at a location, as a read of it answers. -/
def Loc.value (sz : Size) (s : State) : Loc → BitVec sz.bits
  | .dreg r => (s.dreg r).setWidth sz.bits
  | .areg r => (s.areg r).setWidth sz.bits
  | .imm v => v.setWidth sz.bits
  | .mem _ a => (s.busRead sz a).1

/-- The state after a read of a location, which a device may have seen. -/
def Loc.afterRead (sz : Size) (s : State) : Loc → State
  | .mem _ a => (s.busRead sz a).2
  | _ => s

/-- The state with a value stored at a location. -/
def Loc.put (sz : Size) (s : State) (loc : Loc) (v : BitVec sz.bits) : State :=
  match loc with
  | .dreg r => s.putDreg r v
  | .areg r => s.setAreg r (v.signExtend 32)
  | .imm _ => s
  | .mem _ a => s.busWrite sz a v

/-! ## Exceptions -/

/-- Exception processing that meets no fault and no device: the state it leaves, as stores of the frame and a load of
the vector (60_exceptions.md R530, R534). -/
def State.excepted (s : State) (k : Byte) (p : Long) (level : Option (BitVec 3)) : State :=
  let s1 := { s.enterSupervisor with sr := { s.enterSupervisor.sr with i := level.getD s.sr.i } }
  let s2 := (s1.setSp (s.ssp - 4#32)).writeLong (s.ssp - 4#32) p
  let s3 := (s2.setSp (s.ssp - 4#32 - 2#32)).writeWord (s.ssp - 4#32 - 2#32) s.sr.toWord
  { s3 with pc := s3.readLong (vectorAddress k), prefetch := [] }

/-- The accesses of exception processing, the frame's two stores and the vector's load, as a condition on each. -/
def State.frameAccesses (s : State) (k : Byte) (ok : State → Size → Long → Bool) : Bool :=
  ok s .l (s.ssp - 4#32) && ok s .w (s.ssp - 4#32 - 2#32) && ok s .l (vectorAddress k)

/-- Exception processing raises nothing, its stack and its vector being memory cells. -/
def State.canExcept (s : State) (k : Byte) : Bool := s.frameAccesses k State.cellsOk

/-- The privileged instructions (47_system_control.md R504). -/
def Privileged (i : Instr) : Prop :=
  (∃ ea, i = .moveToSr ea) ∨ (∃ r, i = .moveFromUsp r) ∨ (∃ r, i = .moveToUsp r) ∨ (∃ w, i = .andiToSr w) ∨
    (∃ w, i = .eoriToSr w) ∨ (∃ w, i = .oriToSr w) ∨ i = .rte ∨ i = .reset ∨ (∃ w, i = .stop w)

/-- The operation words whose only effect is the exception that takes the place of an instruction (30_encoding.md
R150). -/
def Unimplemented (i : Instr) : Prop :=
  i = .illegal ∨ (∃ low, i = .moveFromCcr low) ∨ (∃ low, i = .lineA low) ∨ (∃ low, i = .lineF low)

/-- An exception takes the instruction's place: it is not executed, and so not traced (60_exceptions.md R538 b, R552). -/
def TrapsInstead (i : Instr) (s : State) : Prop := Unimplemented i ∨ (Privileged i ∧ s.sr.s = false)

/-! ## Frames -/

/-- What a frame lets change: data registers, address registers and bytes of memory. -/
structure Changes where
  dregs : List RegNo
  aregs : List RegNo
  bytes : List Nat

/-- All but the named registers and bytes is as before; so are the inactive stack pointer, the supervisor part of the
status register, the hidden state, whether a trace is due, and the platform. The condition codes, `PC` and what the
devices have seen are the statement's own matter; a byte of memory is a cell. -/
structure State.Keeps (s t : State) (c : Changes) : Prop where
  dregs : ∀ r, r ∉ c.dregs → t.dreg r = s.dreg r
  aregs : ∀ r, r ∉ c.aregs → t.areg r = s.areg r
  bytes : ∀ x, addrOf x ∉ c.bytes → t.readByte x = s.readByte x
  otherSp : if s.sr.s then t.usp = s.usp else t.ssp = s.ssp
  trace : t.sr.t = s.sr.t
  supervisor : t.sr.s = s.sr.s
  mask : t.sr.i = s.sr.i
  stopped : t.stopped = s.stopped
  halted : t.halted = s.halted
  nmiEdge : t.nmiEdge = s.nmiEdge
  ir : t.ir = s.ir
  pins : t.pins = s.pins
  inputs : t.inputs = s.inputs
  silent : t.silent = s.silent
  devices : t.devices = s.devices
  resetPulses : t.resetPulses = s.resetPulses
  traceDue : t.traceDue = s.traceDue

/-- An instruction executes to its end: `exec` answers the next state `t`, and nothing but `c`, the condition codes and
`PC` differs between `s` and `t`. -/
def State.Completes (s : State) (i : Instr) (t : State) (c : Changes) : Prop :=
  exec i s = .next t ∧ s.Keeps t c

/-- No register and no byte may change. -/
def Changes.none : Changes := { dregs := [], aregs := [], bytes := [] }

/-- The register an effective address steps, if any (30_encoding.md R114, R115). -/
def eaStepped : EA → List RegNo
  | .postInc r => [r]
  | .preDec r => [r]
  | _ => []

/-- The data register a location is, if it is one. -/
def Loc.dregs : Loc → List RegNo
  | .dreg r => [r]
  | _ => []

/-- The address register a location is, if it is one. -/
def Loc.aregs : Loc → List RegNo
  | .areg r => [r]
  | _ => []

/-- The bytes of memory a location of a size is. -/
def Loc.bytes (sz : Size) : Loc → List Nat
  | .mem _ a => bytesAt a sz.bytes
  | _ => []

/-! ## Values claims speak of -/

/-- A branch displacement as a 32-bit offset (30_encoding.md R141). -/
def dispOffset : Disp → Long
  | .byte d => d.signExtend 32
  | .word d => d.signExtend 32

/-- The number of words of a branch: its operation word, and a displacement word if it has one. -/
def dispWords : Disp → Nat
  | .byte _ => 1
  | .word _ => 2

/-- How many registers a MOVEM mask names below bit `i`: the place of that bit's register in the list. -/
def maskRank (mask : Word) (i : Nat) : Nat := ((List.range i).filter fun j => mask.getLsbD j).length

/-- The address `k` places of a size above another. -/
def placeAfter (a : Long) (sz : Size) (k : Nat) : Long := a + BitVec.ofNat 32 (k * sz.bytes)

/-- The address `k` places of a size below another. -/
def placeBefore (a : Long) (sz : Size) (k : Nat) : Long := a - BitVec.ofNat 32 (k * sz.bytes)

/-- The data registers a MOVEM mask names, bit 0 being `D0`. -/
def maskDregs (mask : Word) : List RegNo := ((List.range 8).filter fun j => mask.getLsbD j).map (BitVec.ofNat 3)

/-- The address registers a MOVEM mask names, bit 8 being `A0`. -/
def maskAregs (mask : Word) : List RegNo := ((List.range 8).filter fun j => mask.getLsbD (8 + j)).map (BitVec.ofNat 3)

end Sys2Proof.Machine
end

