-- ==== Sys2Proof/Certificates/Slice0/Obligations.lean ====
section
/-! DEFINITION. The statements for the provers: the encoding, the step, memory and exceptions, the flags, and for
every instruction its result, its completion and its frame. -/

open Sys2Proof Sys2Proof.Machine

/-! ## Encoding -/

/-- Words written out from the spec's encodings decode to the instructions they stand for: SUB (41_integer_arithmetic.md
R272), MOVE (40_data_movement.md R201), MOVEM (R210), RTE (47_system_control.md R500), MOVE to CCR (R204), BTST
(44_bit_manipulation.md R422, R424), Bcc (46_program_control.md R461), a word that matches nothing (30_encoding.md R135,
R150) and one of line A (R150): a check of the decoder on a few words. -/
def Obligations.SampleWordsDecode : Prop :=
  decodeWords [0x9551] = .ok (.subToMem .w 2 (.ind 1), []) ∧
  decodeWords [0x1542, 0x0004] = .ok (.move .b (.dn 2) (.disp 2 4), []) ∧
  decodeWords [0x21FC, 0x4888, 0xFFAA, 0x2000] = .ok (.move .l (.imm 0x4888FFAA) (.absW 0x2000), []) ∧
  decodeWords [0x48E7, 0xFFFF] = .ok (.movemToMem .l 0xFFFF (.preDec 7), []) ∧
  decodeWords [0x4E73] = .ok (.rte, []) ∧
  decodeWords [0x44FC, 0x0000] = .ok (.moveToCcr (.imm 0), []) ∧
  decodeWords [0x0801, 0x0004] = .ok (.btstImm 4 (.dn 1), []) ∧
  decodeWords [0x6702] = .ok (.bcc .eq (.byte 2), []) ∧
  decodeWords [0x7100] = .error (.unmatched 0x7100) ∧
  decodeWords [0xA123] = .ok (.lineA 0x123, [])

/-- Decoding an encoded well-formed instruction gives it back, with the words that follow it left over: no operand bit
of any encoding is dropped (30_encoding.md R100 to R150). -/
def Obligations.DecodeEncode : Prop :=
  ∀ (i : Instr) (rest : List Word), i.wf = true → decodeWords (encode i ++ rest) = .ok (i, rest)

/-- What decodes is well formed, has the operation word it was decoded from, and takes as many words as its encoding
has (30_encoding.md R100, R151): an operation word outside the encodings is never read as an instruction. -/
def Obligations.DecodedInstruction : Prop :=
  ∀ (w : Word) (ws : List Word) (i : Instr) (rest : List Word), decodeWords (w :: ws) = .ok (i, rest) →
    i.wf = true ∧ i.opWord = w ∧ ws.length = i.extWords.length + rest.length ∧ rest = ws.drop i.extWords.length

/-! ## The step -/

/-- A step that is neither a reset, an interrupt, a stopped nor a halted one runs the instruction its words decode to
(60_exceptions.md R565): `exec` of it, in the state with the inputs sampled, the operation word in the instruction
register and T remembered, then the trace exception if one is due. On a platform without devices, where nothing was
prefetched, the words are those of memory; what they are otherwise, `FetchedWords` says. How prefetched words are kept
is the model's choice (log entry 7). -/
def Obligations.StepRunsDecoded : Prop :=
  ∀ (s : State) (ws rest : List Word) (n : Nat) (i : Instr),
    let s1 := s.sample
    let u : State := { (s1.busRead .w s1.pc).2 with
      ir := ws.headD 0, traceDue := s1.sr.t, draws := n, prefetch := s1.prefetchAfter i.length }
    s.ready = true → s1.accessOk .w s1.pc = true → s1.instrWords = (ws, n) →
    decodeWords ws = .ok (i, rest) →
    step s = traced s1.pc (exec i u) ∧
    (s1.prefetch = [] → s1.devices = [] →
      ws = (List.range maxWords).map (fun k => s1.readWord (s1.pc + BitVec.ofNat 32 (2 * k))) ∧ n = s1.draws)

/-- The words of an instruction are what its fetches answer in their places (20_memory.md R64, R73). A fetch answers
what `MEM` answers, a device having seen the fetches before it, or an older word of that address that was prefetched,
of which a device's byte is older only where it has been written to since. An extension word is what `MemRead(PC, 2)`
answers where the meaning fetches it: after the words before it and, for the destination of MOVE, after the source is
read (30_encoding.md R125). How prefetched words are kept is the model's choice (log entry 7). -/
def Obligations.FetchedWords : Prop :=
  ∀ (s : State),
    let all := s.fetchWords maxWords s.pc s.draws
    let begun : State := { (s.busRead .w s.pc).2 with
      ir := all.1.headD 0, traceDue := s.sr.t, draws := all.2, pc := s.pc + 2#32 }
    (∀ (count : Nat) (a : Long) (n m : Nat) (ws : List Word), s.fetchWords count a n = (ws, m) →
      ws.length = count ∧
      (∀ k w, ws[k]? = some w → ∃ now, (s.wordsAt count a)[k]? = some now ∧ (w = now ∨
        ∃ c ∈ s.prefetch, c.addr = addrOf (a + BitVec.ofNat 32 (2 * k)) ∧
          w = s.olderWord (a + BitVec.ofNat 32 (2 * k)) c now)) ∧
      (s.prefetch = [] → ws = s.wordsAt count a ∧ m = n)) ∧
    (∀ (count k : Nat) (w : Word) (t : State), fetchExts count s = .ok () t → (s.wordsAt count s.pc)[k]? = some w →
      ∃ u u', fetchExts k s = .ok () u ∧ memRead .program .w u.pc u = .ok w u') ∧
    (∀ x, s.isCells .w x = true → (s.busRead .w x).1 = s.readWord x ∧ ∀ c now, s.olderWord x c now = c.word) ∧
    (∀ x c now, s.deviceAt x = true → s.deviceAt (x + 1#32) = true → c.seen = s.deviceLog.length →
      s.olderWord x c now = now) ∧
    (∀ x c now, s.deviceAt x = false → s.deviceAt (x + 1#32) = true → c.seen = s.deviceLog.length →
      s.olderWord x c now = c.word.extractLsb' 8 8 ++ now.extractLsb' 0 8) ∧
    ((∀ sz src dst rest, decodeWords all.1 ≠ .ok (.move sz src dst, rest)) → s.instrWords = all) ∧
    (∀ (sz : Size) (src dst : EA) (rest : List Word) (v : BitVec sz.bits) (t : State),
      decodeWords all.1 = .ok (.move sz src dst, rest) → readEA sz src begun = .ok v t →
      let first := 1 + eaExtCount sz src
      ∃ ws, s.instrWords = (ws, all.2) ∧ ws.take first = all.1.take first ∧
        (∃ dst' rest', decodeWords ws = .ok (.move sz src dst', rest')) ∧
        (s.prefetch = [] → ws.drop first = t.wordsAt (maxWords - first) t.pc))

/-- The trace exception follows an instruction that began with T set and was executed, and no other
(60_exceptions.md R552): vector 9, with the address the instruction left in `PC`; a STOP does not stay stopped. An
instruction that began with T set leaves a trace due unless an exception took its place (R538 b) or a group 0 exception
ended it (R538 c); one that began with T clear never does. A group 0 exception in the processing of a group 2
exception is taken to end it too (the model's choice, log entry 27). -/
def Obligations.TraceFollows : Prop :=
  ∀ (s t : State) (ws rest : List Word) (n : Nat) (i : Instr),
    let s1 := s.sample
    let u : State := { (s1.busRead .w s1.pc).2 with
      ir := ws.headD 0, traceDue := s1.sr.t, draws := n, prefetch := s1.prefetchAfter i.length }
    s.ready = true → s1.accessOk .w s1.pc = true → s1.instrWords = (ws, n) →
    decodeWords ws = .ok (i, rest) → exec i u = .next t →
    (t.traceDue = false → step s = .next t) ∧
    (t.traceDue = true → t.canExcept 9 = true →
      step s = .next (State.excepted { t with traceDue := false, stopped := false } 9 t.pc none)) ∧
    (s1.sr.t = false → t.traceDue = false) ∧
    (TrapsInstead i s1 → t.traceDue = false) ∧
    (s1.sr.t = true → ¬ TrapsInstead i s1 →
      t.traceDue = true ∨ (t.traceDue = false ∧
        ∃ (f : AccessFault) (v : State), t = v.takeGroup0 f (some s1.pc) (some u.ir)))

/-- A step answers a next state, unless the instruction it fetched is LINK or UNLK with `A7`; it never ends in a fault
of the model (the machine's own faults are exceptions it takes). -/
def Obligations.StepAnswersNext : Prop :=
  ∀ (s : State),
    (∀ f, step s ≠ .fault f) ∧
    (∀ r, step s = .refused r →
      ∃ ws n rest, s.sample.instrWords = (ws, n) ∧
        ((r = .linkA7 ∧ ∃ d, decodeWords ws = .ok (.link 7#3 d, rest)) ∨
          (r = .unlkA7 ∧ decodeWords ws = .ok (.unlk 7#3, rest))))

/-- Every step, from every state whose memory is in canonical form, leaves memory in canonical form: addresses strictly
rising, in the 24-bit space, no entry equal to what an unlisted address reads as (the model's form, log entry 2). -/
def Obligations.StepKeepsInv : Prop := ∀ (s t : State), s.Inv → step s = .next t → t.Inv

/-- The invariant, memory in canonical form (the model's form, log entry 2), holds right after reset. -/
def Obligations.ResetInv : Prop := State.reset.Inv

/-- A step that begins and ends in user state leaves the supervisor stack pointer, the trace bit, the interrupt mask,
the stopped and halted states and the reset pin as they were: only exception processing leads to supervisor state, and
no user-state instruction writes the system part (60_exceptions.md R520, 10_state.md R26). -/
def Obligations.UserStateIsolation : Prop :=
  ∀ (s t : State), s.sr.s = false → step s = .next t → t.sr.s = false →
    t.ssp = s.ssp ∧ t.sr.t = s.sr.t ∧ t.sr.i = s.sr.i ∧ t.stopped = s.stopped ∧ t.halted = s.halted ∧
      t.resetPulses = s.resetPulses ∧ t.silent = s.silent ∧ t.devices = s.devices

/-- A step from user state to supervisor state is exception processing, of the reset, an interrupt, an instruction's
exception or a trace, or of a bus or address error (60_exceptions.md R520, R530): T is clear after it, nothing is
prefetched, the mask is as it was unless a reset or an interrupt raised it, and the 6-byte frame lies at the supervisor
stack, below that of the instruction's own exception where a trace follows one. -/
def Obligations.SupervisorEntry : Prop :=
  ∀ (s t : State), s.sr.s = false → step s = .next t → t.sr.s = true →
    t.sr.t = false ∧ t.prefetch = [] ∧
    (s.sample.pins.resetIn = false → s.sample.pending = false → t.sr.i = s.sr.i) ∧
    ((s.sample.pins.resetIn = true ∧ t = s.sample.externalReset) ∨
      (∃ (k : Byte) (p : Long) (level : Option (BitVec 3)) (v : State), takeException k p level v = .ok () t ∧
        (v.ssp = s.ssp ∨ v.ssp = s.ssp - 6#32) ∧ t.ssp = v.ssp - 6#32 ∧ v.silent = s.silent ∧ v.devices = s.devices) ∨
      (∃ (f : AccessFault) (concerned : Option Long) (ir : Option Word) (v : State),
        t = v.takeGroup0 f concerned ir ∧ v.silent = s.silent ∧ v.devices = s.devices))

/-- Right after reset (70_reset_and_hazards.md R581): supervisor state, T clear, mask 7, not stopped, not halted, no
level 7 edge, nothing prefetched, and the stack pointer and `PC` at the long words of addresses 0 and 4. -/
def Obligations.ResetState : Prop :=
  let r := State.reset
  r.sr.toWord &&& 0xFF00#16 = 0x2700#16 ∧ r.stopped = false ∧ r.halted = false ∧ r.nmiEdge = false ∧
    r.prefetch = [] ∧ r.ssp = r.readLong 0 ∧ r.pc = r.readLong 4

/-- External reset (70_reset_and_hazards.md R580, R582) comes before anything else: the status register's system part,
the stack pointer and `PC` from the two vectors (in memory cells), and nothing pushed; if a vector cannot be read the
machine halts. That the devices see the reset as an event is the model's choice (log entry 26). -/
def Obligations.ExternalReset : Prop :=
  ∀ (s : State), s.sample.pins.resetIn = true →
    (s.cellsOk .l 0 = true → s.cellsOk .l 4 = true →
      step s = .next { s.sample with
        ssp := s.readLong 0, pc := s.readLong 4, sr := { s.sr with s := true, t := false, i := 7 }
        stopped := false, halted := false, nmiEdge := false, prefetch := [], traceDue := false
        deviceLog := .externalReset :: s.deviceLog }) ∧
    (s.accessOk .l 0 = false ∨ s.accessOk .l 4 = false → ∃ t, step s = .next t ∧ t.halted = true ∧ t.mem = s.mem)

/-- A halted machine only samples its inputs until it is reset, and a stopped one until a reset or an interrupt above
the mask (60_exceptions.md R546, R560). What sampling does (10_state.md R30 c, R541): the next inputs, or idle ones when
none are left, are at the pins, and a change of the level to 7 is remembered, but not by a halted machine. That the
inputs are a list, and that a halted machine still takes them, is the model's choice (log entries 5 and 25). -/
def Obligations.HaltedOrStoppedWaits : Prop :=
  ∀ (s : State),
    (s.sample.pins.resetIn = false →
      (s.halted = true → step s = .next s.sample) ∧
      (s.stopped = true → s.sample.pending = false → step s = .next s.sample)) ∧
    (∃ e, s.sample = { s with pins := s.inputs.headD Pins.idle, inputs := s.inputs.tail, nmiEdge := e } ∧
      (e = true ↔ s.nmiEdge = true ∨
        (s.halted = false ∧ (s.inputs.headD Pins.idle).ipl = 7 ∧ s.pins.ipl ≠ 7)))

/-- An interrupt is taken when the level asked for is above the mask, or at a level 7 edge, one remembered or one that
these inputs make, before any instruction (60_exceptions.md R541, R542): the edge is spent, the mask becomes the
level, the address of the next instruction is saved, and the vector number is the device's, the autovector's (24 +
level) or, unanswered, 24. The pins, and that
the devices see the acknowledge, are the model's (log entries 5, 13 and 26). -/
def Obligations.InterruptTaken : Prop :=
  ∀ (s : State),
    let s1 := s.sample
    let level := s1.pins.ipl
    let k : Byte := match s1.pins.ack with
      | .vector v => v
      | .auto => 24 + level.setWidth 8
      | .busError => 24
    (s1.pending = true ↔ s.sr.i.toNat < level.toNat ∨
      (level = 7 ∧ (s.nmiEdge = true ∨ (s.halted = false ∧ s.pins.ipl ≠ 7)))) ∧
    (s1.pins.resetIn = false → s.halted = false → s1.pending = true → s1.canExcept k = true →
      step s = .next (State.excepted
        { s1 with stopped := false, nmiEdge := s.nmiEdge && level != 7
                  deviceLog := .acknowledge level :: s1.deviceLog } k s.pc (some level)))

/-- An operation word that matches no instruction takes vector 4 in a step, with its own address saved and no trace
after it (60_exceptions.md R527, R538 b). -/
def Obligations.UnmatchedWordTraps : Prop :=
  ∀ (s : State) (ws : List Word) (n : Nat) (w : Word),
    let s1 := s.sample
    s.ready = true → s1.accessOk .w s1.pc = true → s1.instrWords = (ws, n) →
    decodeWords ws = .error (.unmatched w) → s1.canExcept 4 = true →
    step s = .next (State.excepted
      { (s1.busRead .w s1.pc).2.pastWords 1 with ir := ws.headD 0, traceDue := false, draws := n } 4 s1.pc none)

/-- Accesses that cannot be made lead to group 0 exception processing (60_exceptions.md R524, R525): the fetch of an
operation word in a step; in an instruction, whatever access its rule ends at, the changes so far staying: shown for
the fetch of any extension word and the read of an operand by TST, the write of an operand by MOVE from a data register,
and the push of BSR; and an access of the exception processing of TRAP, of the trace or of an interrupt (R545). The
reported address is the access's, also where half of a long one is refused, and I/N is 0 outside exception processing
(the model's choices, log entries 12 and 24); a half of a long access may have been made (log entry 9); the saved `PC` is
free within its range, and a fault of the trace concerns the traced instruction (log entry 11). -/
def Obligations.AccessFaultsAreTaken : Prop :=
  (∀ s : State, s.ready = true → s.sample.accessOk .w s.sample.pc = false →
    step s = .next (s.sample.takeGroup0
      { kind := if s.pc.getLsbD 0 then .addressError else .busError, addr := s.pc, read := true
        fc := if s.sr.s then 6 else 2, inException := false } (some s.pc) none)) ∧
  (∀ (body : Exec Unit) (s t : State) (f : AccessFault), body (s.pastWords 1) = .error (.group0 f) t →
    runBody body s = .next (t.takeGroup0 f (some s.pc) (some t.ir))) ∧
  (∀ (sz : Size) (ea : EA) (m : Nat) (s : State),
    let a := s.pc + BitVec.ofNat 32 (2 * (1 + m))
    m < eaExtCount sz ea → s.fetchable s.pc (1 + m) = true → s.accessOk .w a = false →
    exec (.tst sz ea) s = .next ((s.pastWords (1 + m)).takeGroup0
      { kind := if a.getLsbD 0 then .addressError else .busError, addr := a, read := true
        fc := if s.sr.s then 6 else 2, inException := false } (some s.pc) (some s.ir))) ∧
  (∀ (sz : Size) (ea : EA) (s : State) (sp : Space) (a : Long),
    let s1 := s.pastWords 1
    let s2 := s1.resolved sz ea
    s.fetchable s.pc (1 + eaExtCount sz ea) = true → eaLoc sz ea s1 = .mem sp a → s.accessOk sz a = false →
    exec (.tst sz ea) s = .next ((s2.halfRead sz a).takeGroup0
      { kind := if sz ≠ .b ∧ a.getLsbD 0 then .addressError else .busError, addr := a, read := true
        fc := s.functionCode sp, inException := false } (some s.pc) (some s.ir))) ∧
  (∀ (sz : Size) (r : RegNo) (ea : EA) (s : State) (a : Long),
    let s1 := s.pastWords 1
    let s2 := s1.resolved sz ea
    s.fetchable s.pc (1 + eaExtCount sz ea) = true → eaLoc sz ea s1 = .mem .data a → s.accessOk sz a = false →
    exec (.move sz (.dn r) ea) s = .next ((s2.halfWritten sz a ((s.dreg r).setWidth sz.bits)).takeGroup0
      { kind := if sz ≠ .b ∧ a.getLsbD 0 then .addressError else .busError, addr := a, read := false
        fc := s.functionCode .data, inException := false } (some s.pc) (some s.ir))) ∧
  (∀ (d : Byte) (s : State),
    let top := s.sp - 4#32
    s.accessOk .l top = false →
    exec (.bsr (.byte d)) s = .next ((((s.pastWords 1).setSp top).halfWritten .l top (s.pc + 2#32)).takeGroup0
      { kind := if top.getLsbD 0 then .addressError else .busError, addr := top, read := false
        fc := s.functionCode .data, inException := false } (some s.pc) (some s.ir))) ∧
  (∀ (n : BitVec 4) (s t : State) (f : AccessFault),
    takeException (32 + n.setWidth 8) (s.pc + 2#32) none (s.pastWords 1) = .error (.group0 f) t →
    exec (.trap n) s = .next (t.takeGroup0 f (some s.pc) (some t.ir)) ∧ f.inException = true) ∧
  (∀ (i : Long) (s t : State) (f : AccessFault), s.traceDue = true →
    takeException 9 s.pc none { s with traceDue := false, stopped := false } = .error (.group0 f) t →
    traced i (.next s) = .next (t.takeGroup0 f (some i) (some t.ir)) ∧ f.inException = true) ∧
  (∀ (s t : State) (f : AccessFault),
    let s1 := s.sample
    let level := s1.pins.ipl
    s1.pins.resetIn = false → s.halted = false → s1.pending = true →
    takeException (s1.pins.ack.vectorNumber level) s.pc (some level)
      { s1 with stopped := false, nmiEdge := s1.nmiEdge && level != 7
                deviceLog := .acknowledge level :: s1.deviceLog } = .error (.group0 f) t →
    step s = .next (t.takeGroup0 f none none) ∧ f.inException = true)

/-! ## Memory, the stack and exception frames -/

/-- `MemRead` (20_memory.md R62): an odd address raises an address error for a word or a long word, a byte at which
nothing answers a bus error, and otherwise there is a result. Memory cells answer their bytes from the address up, the
first the most significant, and nothing changes; where a device is reached nothing changes but what the devices have
seen and the count of draws. The reported address is the access's and I/N is 0 (log entries 12, 24 and 26). -/
def Obligations.MemoryRead : Prop :=
  ∀ (sp : Space) (sz : Size) (a : Long) (s : State),
    let fault := fun (k : FaultKind) => Abort.group0
      { kind := k, addr := a, read := true, fc := s.functionCode sp, inException := false }
    (sz ≠ .b → a.getLsbD 0 = true → memRead sp sz a s = .error (fault .addressError) s) ∧
    (sz = .b ∨ a.getLsbD 0 = false → (∃ k < sz.bytes, s.answersAt (a + BitVec.ofNat 32 k) = false) →
      ∃ t, memRead sp sz a s = .error (fault .busError) t ∧ t = { s with deviceLog := t.deviceLog, draws := t.draws } ∧
        ((∀ k < sz.bytes, s.deviceAt (a + BitVec.ofNat 32 k) = false) → t = s)) ∧
    (sz = .b ∨ a.getLsbD 0 = false → (∀ k < sz.bytes, s.answersAt (a + BitVec.ofNat 32 k) = true) →
      ∃ (v : BitVec sz.bits) (t : State), memRead sp sz a s = .ok v t ∧
        t = { s with deviceLog := t.deviceLog, draws := t.draws } ∧
        ((∀ k < sz.bytes, s.deviceAt (a + BitVec.ofNat 32 k) = false) → t = s ∧
          ∀ k < sz.bytes, v.extractLsb' (8 * (sz.bytes - 1 - k)) 8 =
            Memory.read s.mem ((a.toNat + k) % 2 ^ 32 % 2 ^ 24)))

/-- `MemWrite` (20_memory.md R63): an odd address raises an address error for a word or a long word and stores nothing;
a byte at which nothing answers raises a bus error; otherwise the bytes are stored in memory cells from the address up,
the most significant first, and what was stored is read back. No register and no byte outside the access changes, and
a device has no byte to change: it sees the access. The reported address is the access's and I/N is 0 (log entries 12,
24 and 26). -/
def Obligations.MemoryWrite : Prop :=
  ∀ (sz : Size) (a : Long) (v : BitVec sz.bits) (s : State),
    let fault := fun (k : FaultKind) => Abort.group0
      { kind := k, addr := a, read := false, fc := s.functionCode .data, inException := false }
    (sz ≠ .b → a.getLsbD 0 = true → memWrite sz a v s = .error (fault .addressError) s) ∧
    (sz = .b ∨ a.getLsbD 0 = false → (∃ k < sz.bytes, s.answersAt (a + BitVec.ofNat 32 k) = false) →
      ∃ t, memWrite sz a v s = .error (fault .busError) t ∧
        t = { s with mem := t.mem, deviceLog := t.deviceLog, draws := t.draws } ∧
        ((∀ k < sz.bytes, s.deviceAt (a + BitVec.ofNat 32 k) = false) → t.deviceLog = s.deviceLog) ∧
        ∀ y, addrOf y ∉ bytesAt a sz.bytes ∨ s.deviceAt y = true → t.readByte y = s.readByte y) ∧
    (sz = .b ∨ a.getLsbD 0 = false → (∀ k < sz.bytes, s.answersAt (a + BitVec.ofNat 32 k) = true) →
      ∃ t, memWrite sz a v s = .ok () t ∧ t = { s with mem := t.mem, deviceLog := t.deviceLog, draws := t.draws } ∧
        ((∀ k < sz.bytes, s.deviceAt (a + BitVec.ofNat 32 k) = false) →
          t = { s with mem := t.mem } ∧ t.readSized sz a = v) ∧
        (∀ k < sz.bytes, s.deviceAt (a + BitVec.ofNat 32 k) = false →
          t.readByte (a + BitVec.ofNat 32 k) = v.extractLsb' (8 * (sz.bytes - 1 - k)) 8) ∧
        ∀ y, addrOf y ∉ bytesAt a sz.bytes ∨ s.deviceAt y = true → t.readByte y = s.readByte y)

/-- What the platform's devices see and answer (00_scope.md R6, 92_eei_decisions.md D2, 20_memory.md R66, R76): a byte or
a word cycle that reaches a device becomes part of what the devices have seen, and a read answers the device's bytes,
any function of that; a long access is two word cycles in an order that a free bit chooses; CLR, which reads a location
before it writes it, makes two accesses; RESET gives the devices a pulse (47_system_control.md R502). Devices as a
function of what they have seen are the model's form (log entries 4, 9 and 26). -/
def Obligations.DeviceAccesses : Prop :=
  ∀ (s : State) (a : Long),
    let x := addrOf a
    let y := addrOf (a + 1#32)
    let seen := fun (e : Config.BusEvent) => e :: s.deviceLog
    (∀ sp, s.deviceAt a = true → s.accessOk .b a = true →
      memRead sp .b a s =
        .ok (Config.deviceByte (seen (.readByte x)) x) { s with deviceLog := seen (.readByte x) } ∧
      ∀ v, memWrite .b a v s = .ok () { s with deviceLog := seen (.writeByte x v) }) ∧
    (∀ sp, s.deviceAt a = true → s.deviceAt (a + 1#32) = true → s.accessOk .w a = true →
      memRead sp .w a s =
        .ok (Config.deviceByte (seen (.readWord x)) x ++ Config.deviceByte (seen (.readWord x)) y)
          { s with deviceLog := seen (.readWord x) } ∧
      ∀ v, memWrite .w a v s = .ok () { s with deviceLog := seen (.writeWord x v) }) ∧
    (∀ sp (v : Long), s.isCells .l a = false → s.accessOk .l a = true →
      let s0 : State := { s with draws := s.draws + 1 }
      let highFirst := Config.freeBit s.draws
      let first := if highFirst then a else a + 2#32
      let second := if highFirst then a + 2#32 else a
      (∃ (w1 w2 : Word) (s1 s2 : State), memRead sp .w first s0 = .ok w1 s1 ∧ memRead sp .w second s1 = .ok w2 s2 ∧
        memRead sp .l a s = .ok (if highFirst then w1 ++ w2 else w2 ++ w1) s2) ∧
      (∃ (s1 s2 : State),
        memWrite .w first (if highFirst then v.extractLsb' 16 16 else v.extractLsb' 0 16) s0 = .ok () s1 ∧
        memWrite .w second (if highFirst then v.extractLsb' 0 16 else v.extractLsb' 16 16) s1 = .ok () s2 ∧
        memWrite .l a v s = .ok () s2)) ∧
    (∀ r, s.areg r = a → s.deviceAt a = true → s.accessOk .b a = true →
      exec (.clr .b (.ind r)) s = .next { s.pastWords 1 with
        deviceLog := .writeByte x 0 :: .readByte x :: s.deviceLog
        sr := { s.sr with n := false, z := true, v := false, c := false } }) ∧
    (s.sr.s = true →
      exec .reset s = .next { s.pastWords 1 with
        deviceLog := seen .resetPulse, resetPulses := s.resetPulses + 1 })

/-- The stack primitives (20_memory.md R67): the stack grows toward lower addresses, `SP` points at the last item; a
push decrements `SP` and then stores, and has decremented it even if the store faults, as it does where `SP` is odd; a
pop reads and then increments `SP`, and leaves it where the read faults. Each is the access it makes and the change of
`SP`, no register but `SP` changes, and `PC` and the status register stay. A fault (R62, R63, R65) reports the address
of the whole access, also where only its second half is refused (the model's choice, log entry 12). -/
def Obligations.StackPrimitives : Prop :=
  ∀ (s : State),
    let kept := fun (t : State) (c : Changes) => s.Keeps t c ∧ t.pc = s.pc ∧ t.sr = s.sr ∧ t.prefetch = s.prefetch
    let popped := fun (t : State) => t = { s with deviceLog := t.deviceLog, draws := t.draws }
    (∀ v : Long,
      let top := s.sp - 4#32
      push32 v s = memWrite .l top v (s.setSp top) ∧
      (s.accessOk .l top = true → ∃ t, push32 v s = .ok () t ∧ t.sp = top ∧
        (s.isCells .l top = true → t.readLong top = v ∧ t.deviceLog = s.deviceLog) ∧
        kept t { dregs := [], aregs := [7#3], bytes := bytesAt top 4 }) ∧
      (s.accessOk .l top = false → ∃ f t, push32 v s = .error (.group0 f) t ∧ f.addr = top ∧ f.read = false ∧ t.sp = top ∧
        kept t { dregs := [], aregs := [7#3], bytes := bytesAt top 4 })) ∧
    (∀ v : Word,
      let top := s.sp - 2#32
      push16 v s = memWrite .w top v (s.setSp top) ∧
      (s.accessOk .w top = true → ∃ t, push16 v s = .ok () t ∧ t.sp = top ∧
        (s.isCells .w top = true → t.readWord top = v ∧ t.deviceLog = s.deviceLog) ∧
        kept t { dregs := [], aregs := [7#3], bytes := bytesAt top 2 }) ∧
      (s.accessOk .w top = false → ∃ f t, push16 v s = .error (.group0 f) t ∧ f.addr = top ∧ f.read = false ∧ t.sp = top ∧
        kept t { dregs := [], aregs := [7#3], bytes := [] })) ∧
    (s.accessOk .w s.sp = true → ∃ v t, memRead .data .w s.sp s = .ok v t ∧ pop16 s = .ok v (t.setSp (s.sp + 2#32)) ∧
      popped t ∧ (s.isCells .w s.sp = true → v = s.readWord s.sp ∧ t = s)) ∧
    (s.accessOk .l s.sp = true → ∃ v t, memRead .data .l s.sp s = .ok v t ∧ pop32 s = .ok v (t.setSp (s.sp + 4#32)) ∧
      popped t ∧ (s.isCells .l s.sp = true → v = s.readLong s.sp ∧ t = s)) ∧
    (s.accessOk .w s.sp = false → ∃ f, pop16 s = .error (.group0 f) s ∧ f.addr = s.sp ∧ f.read = true) ∧
    (s.accessOk .l s.sp = false → ∃ f t, pop32 s = .error (.group0 f) t ∧ f.addr = s.sp ∧ f.read = true ∧ popped t) ∧
    (s.sp.getLsbD 0 = true →
      s.accessOk .l (s.sp - 4#32) = false ∧ s.accessOk .w (s.sp - 2#32) = false ∧ s.accessOk .w s.sp = false ∧
        s.accessOk .l s.sp = false)

/-- Exception processing of groups 1 and 2 (60_exceptions.md R530, R533, R534, R545): supervisor state, T clear, the
mask raised for an interrupt, the 6-byte frame of the old status register and the saved address on the supervisor
stack, `PC` from the vector, both in memory cells, and nothing else changed; an access that cannot be made on the way is
reported as one of exception processing (I/N = 1 for every exception, the model's choice, log entry 24). -/
def Obligations.ExceptionEntry : Prop :=
  ∀ (k : Byte) (p : Long) (level : Option (BitVec 3)) (s : State),
    (s.canExcept k = true →
      let t := s.excepted k p level
      takeException k p level s = .ok () t ∧
      t.sr = { s.sr with s := true, t := false, i := level.getD s.sr.i } ∧
      t.ssp = s.ssp - 6#32 ∧ t.readWord t.ssp = s.sr.toWord ∧ t.readLong (t.ssp + 2#32) = p ∧
      t.pc = t.readLong (BitVec.ofNat 32 (4 * k.toNat)) ∧
      t = { s with
        sr := t.sr, ssp := t.ssp, pc := t.pc, mem := t.mem, prefetch := [] } ∧
      ∀ y, addrOf y ∉ bytesAt t.ssp 6 → t.readByte y = s.readByte y) ∧
    (s.frameAccesses k State.accessOk = false →
      ∃ f t, takeException k p level s = .error (.group0 f) t ∧ f.inException = true ∧ t.sr.s = true ∧ t.sr.t = false)

/-- Group 0 exception processing (60_exceptions.md R530, R535, R546): the 14-byte frame with the access information, the
faulting address, the instruction register, the old status register and a saved address from `I + 2` to `I + 10`, and
`PC` from the vector, stack and vector in memory cells; an access that cannot be made on the way halts the machine. The
order of the stores and what is free are the model's choices (log entries 10 and 11). -/
def Obligations.GroupZeroEntry : Prop :=
  ∀ (s : State) (f : AccessFault) (concerned : Option Long) (ir : Option Word),
    let t := s.takeGroup0 f concerned ir
    let top := s.ssp - 14#32
    let reachable := fun (ok : State → Size → Long → Bool) => ok s .l (top + 10#32) && ok s .w (top + 8#32) &&
      ok s .w (top + 6#32) && ok s .l (top + 2#32) && ok s .w top && ok s .l (vectorAddress f.kind.vector)
    (reachable State.cellsOk = true →
      t.ssp = top ∧ t.sr = { s.sr with s := true, t := false } ∧ t.halted = s.halted ∧
      t.pc = t.readLong (if f.kind = .busError then 8#32 else 12#32) ∧
      (t.readWord top).extractLsb' 0 5 = BitVec.ofBool f.read ++ BitVec.ofBool f.inException ++ f.fc ∧
      t.readLong (top + 2#32) = f.addr ∧ (∀ w, ir = some w → t.readWord (top + 6#32) = w) ∧
      t.readWord (top + 8#32) = s.sr.toWord ∧
      (∀ i, concerned = some i → ∃ k ≤ 8, t.readLong (top + 10#32) = i + 2#32 + BitVec.ofNat 32 k) ∧
      t = { s with
        ssp := t.ssp, sr := t.sr, pc := t.pc, mem := t.mem, prefetch := [], traceDue := false, draws := t.draws } ∧
      ∀ y, addrOf y ∉ bytesAt top 14 → t.readByte y = s.readByte y) ∧
    (reachable State.accessOk = false → t.halted = true)

/-! ## Registers and flags -/

/-- The register file (00_scope.md R9, 10_state.md R22): a sized write of a data register keeps the bits above the size
and every other register; `A7` is the supervisor stack pointer in supervisor state and the user stack pointer in user
state, and a write of it leaves the other one alone. -/
def Obligations.RegisterFile : Prop :=
  ∀ (s : State),
    (∀ (sz : Size) (r : RegNo) (v : BitVec sz.bits),
      let t := s.putDreg r v
      (t.dreg r).setWidth sz.bits = v ∧ (∀ j, sz.bits ≤ j → (t.dreg r).getLsbD j = (s.dreg r).getLsbD j) ∧
        (∀ q, q ≠ r → t.dreg q = s.dreg q) ∧ t = { s with d := t.d }) ∧
    (∀ (r : RegNo) (v : Long),
      let t := s.setAreg r v
      t.areg r = v ∧ (∀ q, q ≠ r → t.areg q = s.areg q) ∧
        t = { s with a := t.a, usp := t.usp, ssp := t.ssp } ∧ (r ≠ 7#3 → t.usp = s.usp ∧ t.ssp = s.ssp)) ∧
    (s.sr.s = true → s.areg 7#3 = s.ssp ∧ ∀ v, s.setAreg 7#3 v = { s with ssp := v }) ∧
    (s.sr.s = false → s.areg 7#3 = s.usp ∧ ∀ v, s.setAreg 7#3 v = { s with usp := v })

/-- `SR` as a word (10_state.md R24, R25): the ten named bits at their places; a word written keeps only those
(`and $A71F`), a byte written to `CCR` only the low five (`and $1F`), and the system byte then stays. -/
def Obligations.StatusRegisterWord : Prop :=
  (∀ w : Word, (StatusReg.ofWord w).toWord = w &&& 0xA71F#16) ∧
  (∀ r : StatusReg, StatusReg.ofWord r.toWord = r ∧
    r.toWord.getLsbD 15 = r.t ∧ r.toWord.getLsbD 13 = r.s ∧ r.toWord.extractLsb' 8 3 = r.i ∧ r.toWord.getLsbD 4 = r.x ∧
    r.toWord.getLsbD 3 = r.n ∧ r.toWord.getLsbD 2 = r.z ∧ r.toWord.getLsbD 1 = r.v ∧ r.toWord.getLsbD 0 = r.c ∧
    ∀ b : Byte, (r.withCcr b).ccr = b &&& 0x1F#8 ∧ (r.withCcr b).toWord.extractLsb' 8 8 = r.toWord.extractLsb' 8 8)

/-- The flags of an addition, with or without X (00_scope.md R11): C and X are the carry out of the exact unsigned
sum, V says that the exact signed sum does not fit, N is the sign of the result, Z is set for zero (ADD) or only
cleared (ADDX). -/
def Obligations.AdditionFlags : Prop :=
  ∀ (sz : Size) (v d : BitVec sz.bits) (sr : StatusReg) (x : Bool),
    let n := sz.bits
    let r := d + v + (if x then 1 else 0)
    let carry := decide (2 ^ n ≤ d.toNat + v.toNat + x.toNat)
    let exact_ := d.toInt + v.toInt + x.toNat
    let ovf := decide (exact_ < -2 ^ (n - 1) ∨ 2 ^ (n - 1) ≤ exact_)
    sr.ofAdd v d r = { sr with x := carry, c := carry, v := ovf, n := decide (r.toInt < 0), z := decide (r = 0) } ∧
    sr.ofAddX v d r = { sr with x := carry, c := carry, v := ovf, n := decide (r.toInt < 0), z := sr.z && decide (r = 0) }

/-- The flags of a subtraction, with or without X (00_scope.md R12): C is the borrow of the exact unsigned difference, V
says that the exact signed difference does not fit; a compare leaves X alone, SUB and SUBX set it to the borrow. -/
def Obligations.SubtractionFlags : Prop :=
  ∀ (sz : Size) (v d : BitVec sz.bits) (sr : StatusReg) (x : Bool),
    let n := sz.bits
    let r := d - v - (if x then 1 else 0)
    let borrow := decide (d.toNat < v.toNat + x.toNat)
    let exact_ := d.toInt - v.toInt - x.toNat
    let ovf := decide (exact_ < -2 ^ (n - 1) ∨ 2 ^ (n - 1) ≤ exact_)
    sr.ofSub v d r = { sr with x := borrow, c := borrow, v := ovf, n := decide (r.toInt < 0), z := decide (r = 0) } ∧
    sr.ofSubX v d r = { sr with x := borrow, c := borrow, v := ovf, n := decide (r.toInt < 0), z := sr.z && decide (r = 0) } ∧
    sr.ofCmp v d r = { sr with c := borrow, v := ovf, n := decide (r.toInt < 0), z := decide (r = 0) }

/-- The conditions (30_encoding.md R140): the codes 0 to 15, the test each makes on the flags, and what it says after a
compare of `d` with `v`: HI, CC, CS, LS unsigned, GT, GE, LT, LE signed, EQ, NE. -/
def Obligations.Conditions : Prop :=
  (∀ sr : StatusReg, (List.range 16).map (fun k => sr.holds (condOf (BitVec.ofNat 4 k))) =
    [true, false, !sr.c && !sr.z, sr.c || sr.z, !sr.c, sr.c, !sr.z, sr.z, !sr.v, sr.v, !sr.n, sr.n,
      decide (sr.n = sr.v), decide (sr.n ≠ sr.v), !sr.z && decide (sr.n = sr.v), sr.z || decide (sr.n ≠ sr.v)]) ∧
  (List.range 16).map (fun k => condOf (BitVec.ofNat 4 k)) =
    [.t, .f, .hi, .ls, .cc, .cs, .ne, .eq, .vc, .vs, .pl, .mi, .ge, .lt, .gt, .le] ∧
  (∀ (sz : Size) (v d : BitVec sz.bits) (sr : StatusReg),
    let r := sr.ofCmp v d (d - v)
    r.holds .hi = decide (v.toNat < d.toNat) ∧ r.holds .cc = decide (v.toNat ≤ d.toNat) ∧
    r.holds .cs = decide (d.toNat < v.toNat) ∧ r.holds .ls = decide (d.toNat ≤ v.toNat) ∧
    r.holds .gt = decide (v.toInt < d.toInt) ∧ r.holds .ge = decide (v.toInt ≤ d.toInt) ∧
    r.holds .lt = decide (d.toInt < v.toInt) ∧ r.holds .le = decide (d.toInt ≤ v.toInt) ∧
    r.holds .eq = decide (d = v) ∧ r.holds .ne = decide (d ≠ v))

/-- The shifts in closed form (43_shift_rotate.md R370, R371), for every count: the result, C as the last bit shifted
out (clear for a count of zero), X the same but kept for a count of zero, V for ASL whether the sign ever changed. -/
def Obligations.ShiftResults : Prop :=
  ∀ (sz : Size) (count : Nat) (v : BitVec sz.bits) (sr : StatusReg),
    let n := sz.bits
    let done := fun (r : BitVec sz.bits) (c ovf : Bool) =>
      (r, ({ sr with x := if count = 0 then sr.x else c, n := r.msb, z := decide (r = 0), v := ovf, c := c } : StatusReg))
    let leftOut := decide (0 < count) && decide (count ≤ n) && v.getLsbD (n - count)
    shiftOp .lsl count v sr = done (v <<< count) leftOut false ∧
    shiftOp .asl count v sr =
      done (v <<< count) leftOut ((List.range (count + 1)).any fun j => (v <<< j).msb != v.msb) ∧
    shiftOp .lsr count v sr = done (v >>> count) (decide (0 < count) && v.getLsbD (count - 1)) false ∧
    shiftOp .asr count v sr =
      done (v.sshiftRight count) (decide (0 < count) && (if count ≤ n then v.getLsbD (count - 1) else v.msb)) false

/-- The rotates in closed form (43_shift_rotate.md R370, R371), for every count: ROL and ROR keep X and leave the last
bit moved in C (clear for a count of zero); ROXL and ROXR rotate X and the operand together, and C ends as X. -/
def Obligations.RotateResults : Prop :=
  ∀ (sz : Size) (count : Nat) (v : BitVec sz.bits) (sr : StatusReg),
    let n := sz.bits
    let done := fun (r : BitVec sz.bits) (x c : Bool) =>
      (r, ({ sr with x := x, n := r.msb, z := decide (r = 0), v := false, c := c } : StatusReg))
    let joined : BitVec (1 + n) := BitVec.ofBool sr.x ++ v
    let left := joined.rotateLeft count
    let right := joined.rotateRight count
    shiftOp .rol count v sr =
      done (v.rotateLeft count) sr.x (decide (0 < count) && (v.rotateLeft count).getLsbD 0) ∧
    shiftOp .ror count v sr =
      done (v.rotateRight count) sr.x (decide (0 < count) && (v.rotateRight count).msb) ∧
    shiftOp .roxl count v sr = done (left.setWidth n) left.msb left.msb ∧
    shiftOp .roxr count v sr = done (right.setWidth n) right.msb right.msb

/-! ## Data movement, arithmetic and logic -/

/-- ADD, SUB, AND and OR to a data register (41_integer_arithmetic.md R262, R273, 42_logical.md R332, R341): the sized
part of the register is combined with the source, the rest of it kept, and nothing else changes but the flags and the
register that the source's mode steps. -/
def Obligations.BinaryToRegister : Prop :=
  ∀ (sz : Size) (ea : EA) (rx : RegNo) (s : State),
    let s1 := s.pastWords 1
    let s2 := s1.resolved sz ea
    let loc := eaLoc sz ea s1
    let s3 := loc.afterRead sz s2
    let v := loc.value sz s2
    let d := (s.dreg rx).setWidth sz.bits
    let done := fun (r : BitVec sz.bits) (sr : StatusReg) => ({ s3.putDreg rx r with sr := sr } : State)
    let frame : Changes := { dregs := [rx], aregs := eaStepped ea, bytes := [] }
    s.fetchable s.pc (1 + eaExtCount sz ea) = true → loc.readable sz s2 = true →
    s.Completes (.addToReg sz ea rx) (done (d + v) (s.sr.ofAdd v d (d + v))) frame ∧
    s.Completes (.subToReg sz ea rx) (done (d - v) (s.sr.ofSub v d (d - v))) frame ∧
    s.Completes (.andToReg sz ea rx) (done (d &&& v) (s.sr.logic (d &&& v))) frame ∧
    s.Completes (.orToReg sz ea rx) (done (d ||| v) (s.sr.logic (d ||| v))) frame

/-- ADD, SUB, AND, OR and EOR of a data register into an effective address (R261, R272, R331, R336, R340): the store
goes to the location the effective address resolves to, and to no other byte. -/
def Obligations.BinaryToMemory : Prop :=
  ∀ (sz : Size) (rx : RegNo) (ea : EA) (s : State),
    let s1 := s.pastWords 1
    let s2 := s1.resolved sz ea
    let loc := eaLoc sz ea s1
    let s3 := loc.afterRead sz s2
    let v := (s.dreg rx).setWidth sz.bits
    let d := loc.value sz s2
    let done := fun (r : BitVec sz.bits) (sr : StatusReg) => ({ loc.put sz s3 r with sr := sr } : State)
    let frame : Changes := { dregs := loc.dregs, aregs := eaStepped ea ++ loc.aregs, bytes := loc.bytes sz }
    s.fetchable s.pc (1 + eaExtCount sz ea) = true → loc.writable sz s2 = true →
    s.Completes (.addToMem sz rx ea) (done (d + v) (s.sr.ofAdd v d (d + v))) frame ∧
    s.Completes (.subToMem sz rx ea) (done (d - v) (s.sr.ofSub v d (d - v))) frame ∧
    s.Completes (.andToMem sz rx ea) (done (d &&& v) (s.sr.logic (d &&& v))) frame ∧
    s.Completes (.orToMem sz rx ea) (done (d ||| v) (s.sr.logic (d ||| v))) frame ∧
    s.Completes (.eor sz rx ea) (done (d ^^^ v) (s.sr.logic (d ^^^ v))) frame

/-- ADDI, SUBI, ANDI, ORI and EORI (R264, R275, R333, R337, R342): the immediate's words come before the effective
address's, and the result goes to the location the effective address resolves to. -/
def Obligations.ImmediateOperations : Prop :=
  ∀ (sz : Size) (imm : Long) (ea : EA) (s : State),
    let k := if sz = .l then 2 else 1
    let s1 := s.pastWords (1 + k)
    let s2 := s1.resolved sz ea
    let loc := eaLoc sz ea s1
    let s3 := loc.afterRead sz s2
    let v := imm.setWidth sz.bits
    let d := loc.value sz s2
    let done := fun (r : BitVec sz.bits) (sr : StatusReg) => ({ loc.put sz s3 r with sr := sr } : State)
    let frame : Changes := { dregs := loc.dregs, aregs := eaStepped ea ++ loc.aregs, bytes := loc.bytes sz }
    s.fetchable s.pc (1 + (k + eaExtCount sz ea)) = true → loc.writable sz s2 = true →
    s.Completes (.addi sz imm ea) (done (d + v) (s.sr.ofAdd v d (d + v))) frame ∧
    s.Completes (.subi sz imm ea) (done (d - v) (s.sr.ofSub v d (d - v))) frame ∧
    s.Completes (.andi sz imm ea) (done (d &&& v) (s.sr.logic (d &&& v))) frame ∧
    s.Completes (.ori sz imm ea) (done (d ||| v) (s.sr.logic (d ||| v))) frame ∧
    s.Completes (.eori sz imm ea) (done (d ^^^ v) (s.sr.logic (d ^^^ v))) frame

/-- CMP, CMPA, TST, CMPI and CMPM (R285 to R288, R294) set flags alone: no register and no byte changes but the
registers the operands' modes step. CMPA compares all 32 bits with the source sign-extended. CMPM reads its source and
steps that register, then its destination; with one register for both, the second operand is the one after the first. -/
def Obligations.CompareAndTest : Prop :=
  (∀ (sz : Size) (ea : EA) (rx : RegNo) (s : State),
    let s1 := s.pastWords 1
    let s2 := s1.resolved sz ea
    let loc := eaLoc sz ea s1
    let s3 := loc.afterRead sz s2
    let v := loc.value sz s2
    let d := (s.dreg rx).setWidth sz.bits
    let frame : Changes := { dregs := [], aregs := eaStepped ea, bytes := [] }
    s.fetchable s.pc (1 + eaExtCount sz ea) = true → loc.readable sz s2 = true →
    s.Completes (.cmp sz ea rx) { s3 with sr := s.sr.ofCmp v d (d - v) } frame ∧
    s.Completes (.tst sz ea) { s3 with sr := s.sr.logic v } frame) ∧
  (∀ (sz : SizeWL) (ea : EA) (rx : RegNo) (s : State),
    let s1 := s.pastWords 1
    let s2 := s1.resolved sz.size ea
    let loc := eaLoc sz.size ea s1
    let s3 := loc.afterRead sz.size s2
    let v := (loc.value sz.size s2).signExtend 32
    let d := s2.areg rx
    s.fetchable s.pc (1 + eaExtCount sz.size ea) = true → loc.readable sz.size s2 = true →
    s.Completes (.cmpa sz ea rx) { s3 with sr := s.sr.ofCmp v d (d - v) }
      { dregs := [], aregs := eaStepped ea, bytes := [] }) ∧
  (∀ (sz : Size) (imm : Long) (ea : EA) (s : State),
    let k := if sz = .l then 2 else 1
    let s1 := s.pastWords (1 + k)
    let s2 := s1.resolved sz ea
    let loc := eaLoc sz ea s1
    let s3 := loc.afterRead sz s2
    let v := imm.setWidth sz.bits
    let d := loc.value sz s2
    s.fetchable s.pc (1 + (k + eaExtCount sz ea)) = true → loc.readable sz s2 = true →
    s.Completes (.cmpi sz imm ea) { s3 with sr := s.sr.ofCmp v d (d - v) }
      { dregs := [], aregs := eaStepped ea, bytes := [] }) ∧
  (∀ (sz : Size) (ry rx : RegNo) (s : State),
      let s1 := s.pastWords 1
      let src := s1.busRead sz (s.areg ry)
      let s2 := src.2.setAreg ry (s.areg ry + eaStep sz ry)
      let dst := s2.busRead sz (s2.areg rx)
      let s3 := dst.2.setAreg rx (s2.areg rx + eaStep sz rx)
      s.accessOk sz (s.areg ry) = true → s.accessOk sz (s2.areg rx) = true →
      s.Completes (.cmpm sz ry rx) { s3 with sr := s.sr.ofCmp src.1 dst.1 (dst.1 - src.1) }
        { dregs := [], aregs := [ry, rx], bytes := [] })

/-- ADDA, SUBA, MOVEA (R263, R274, R203) and LEA (R217) write all 32 bits of the address register, a word source
sign-extended, and change no flag; LEA makes no access at all. -/
def Obligations.AddressRegisterResults : Prop :=
  (∀ (sz : SizeWL) (ea : EA) (rx : RegNo) (s : State),
    let s1 := s.pastWords 1
    let s2 := s1.resolved sz.size ea
    let loc := eaLoc sz.size ea s1
    let s3 := loc.afterRead sz.size s2
    let v := (loc.value sz.size s2).signExtend 32
    let frame : Changes := { dregs := [], aregs := rx :: eaStepped ea, bytes := [] }
    s.fetchable s.pc (1 + eaExtCount sz.size ea) = true → loc.readable sz.size s2 = true →
    s.Completes (.adda sz ea rx) (s3.setAreg rx (s2.areg rx + v)) frame ∧
    s.Completes (.suba sz ea rx) (s3.setAreg rx (s2.areg rx - v)) frame ∧
    s.Completes (.movea sz ea rx) (s3.setAreg rx v) frame) ∧
  (∀ (ea : EA) (rx : RegNo) (s : State) (sp : Space) (a : Long),
    let s1 := s.pastWords 1
    s.fetchable s.pc (1 + eaExtCount .l ea) = true → eaLoc .l ea s1 = .mem sp a →
    s.Completes (.lea ea rx) ((s1.resolved .l ea).setAreg rx a)
      { dregs := [], aregs := rx :: eaStepped ea, bytes := [] })

/-- ADDQ and SUBQ (R265, R276): 1 to 8, a field of 0 meaning 8. On an address register all 32 bits change and no flag;
elsewhere the sized operand changes, with the flags of ADD and SUB. -/
def Obligations.QuickAddSubtract : Prop :=
  ∀ (sz : Size) (q : BitVec 3) (s : State),
    let n : Nat := if q = 0 then 8 else q.toNat
    let s1 := s.pastWords 1
    (∀ r : RegNo,
      s.Completes (.addq sz q (.an r)) (s1.setAreg r (s.areg r + BitVec.ofNat 32 n)) { dregs := [], aregs := [r], bytes := [] } ∧
      s.Completes (.subq sz q (.an r)) (s1.setAreg r (s.areg r - BitVec.ofNat 32 n)) { dregs := [], aregs := [r], bytes := [] }) ∧
    (∀ ea : EA, (∀ r, ea ≠ .an r) →
      let s2 := s1.resolved sz ea
      let loc := eaLoc sz ea s1
      let s3 := loc.afterRead sz s2
      let v := BitVec.ofNat sz.bits n
      let d := loc.value sz s2
      let done := fun (r : BitVec sz.bits) (sr : StatusReg) => ({ loc.put sz s3 r with sr := sr } : State)
      let frame : Changes := { dregs := loc.dregs, aregs := eaStepped ea ++ loc.aregs, bytes := loc.bytes sz }
      s.fetchable s.pc (1 + eaExtCount sz ea) = true → loc.writable sz s2 = true →
      s.Completes (.addq sz q ea) (done (d + v) (s.sr.ofAdd v d (d + v))) frame ∧
      s.Completes (.subq sz q ea) (done (d - v) (s.sr.ofSub v d (d - v))) frame)

/-- ADDX and SUBX, registers and memory (R270, R271, R277, R278): X takes part, Z is only ever cleared; the memory form
steps the source register down and reads, then the destination register, and stores where that one then points. -/
def Obligations.ExtendedAddSubtract : Prop :=
  ∀ (sz : Size) (ry rx : RegNo) (s : State),
    let s1 := s.pastWords 1
    let x : BitVec sz.bits := if s.sr.x then 1 else 0
    (let v := (s.dreg ry).setWidth sz.bits
     let d := (s.dreg rx).setWidth sz.bits
     let frame : Changes := { dregs := [rx], aregs := [], bytes := [] }
     s.Completes (.addxReg sz ry rx) { s1.putDreg rx (d + v + x) with sr := s.sr.ofAddX v d (d + v + x) } frame ∧
     s.Completes (.subxReg sz ry rx) { s1.putDreg rx (d - v - x) with sr := s.sr.ofSubX v d (d - v - x) } frame) ∧
    (let src := s.areg ry - eaStep sz ry
     let first := (s1.setAreg ry src).busRead sz src
     let dst := first.2.areg rx - eaStep sz rx
     let second := (first.2.setAreg rx dst).busRead sz dst
     let v := first.1
     let d := second.1
     let frame : Changes := { dregs := [], aregs := [ry, rx], bytes := bytesAt dst sz.bytes }
     s.accessOk sz src = true → s.accessOk sz dst = true →
     s.Completes (.addxMem sz ry rx) { second.2.busWrite sz dst (d + v + x) with sr := s.sr.ofAddX v d (d + v + x) } frame ∧
     s.Completes (.subxMem sz ry rx) { second.2.busWrite sz dst (d - v - x) with sr := s.sr.ofSubX v d (d - v - x) } frame)

/-- NEG, NEGX, NOT, CLR and TAS (R292, R293, R345, R290, R299) on any location that can be written; TAS sets its flags
from the byte before it sets bit 7. -/
def Obligations.SingleOperand : Prop :=
  ∀ (sz : Size) (ea : EA) (s : State),
    let s1 := s.pastWords 1
    let x : BitVec sz.bits := if s.sr.x then 1 else 0
    (let s2 := s1.resolved sz ea
     let loc := eaLoc sz ea s1
     let s3 := loc.afterRead sz s2
     let d := loc.value sz s2
     let done := fun (r : BitVec sz.bits) (sr : StatusReg) => ({ loc.put sz s3 r with sr := sr } : State)
     let frame : Changes := { dregs := loc.dregs, aregs := eaStepped ea ++ loc.aregs, bytes := loc.bytes sz }
     s.fetchable s.pc (1 + eaExtCount sz ea) = true → loc.writable sz s2 = true →
     s.Completes (.neg sz ea) (done (-d) (s.sr.ofSub d 0 (-d))) frame ∧
     s.Completes (.negx sz ea) (done (-d - x) (s.sr.ofSubX d 0 (-d - x))) frame ∧
     s.Completes (.not sz ea) (done (~~~d) (s.sr.logic (~~~d))) frame ∧
     s.Completes (.clr sz ea) (done 0 { s.sr with n := false, z := true, v := false, c := false }) frame) ∧
    (let s2 := s1.resolved .b ea
     let loc := eaLoc .b ea s1
     let s3 := loc.afterRead .b s2
     let d : Byte := loc.value .b s2
     s.fetchable s.pc (1 + eaExtCount .b ea) = true → loc.writable .b s2 = true →
     s.Completes (.tas ea) { loc.put .b s3 (d ||| 0x80#8) with sr := s.sr.logic d }
       { dregs := loc.dregs, aregs := eaStepped ea ++ loc.aregs, bytes := loc.bytes .b })

/-- MULS and MULU (R280, R281): the register takes the exact product of the two 16-bit numbers, signed or unsigned, in
all its 32 bits, with N and Z from it, V and C clear and X kept. -/
def Obligations.Multiply : Prop :=
  ∀ (ea : EA) (rx : RegNo) (s : State),
    let s1 := s.pastWords 1
    let s2 := s1.resolved .w ea
    let loc := eaLoc .w ea s1
    let s3 := loc.afterRead .w s2
    let v : Word := loc.value .w s2
    let d : Word := (s.dreg rx).setWidth 16
    let frame : Changes := { dregs := [rx], aregs := eaStepped ea, bytes := [] }
    s.fetchable s.pc (1 + eaExtCount .w ea) = true → loc.readable .w s2 = true →
    (∃ p : Long, p.toInt = d.toInt * v.toInt ∧
      s.Completes (.muls ea rx) { s3.setDreg rx p with sr := s.sr.logic p } frame) ∧
    (∃ p : Long, p.toNat = d.toNat * v.toNat ∧
      s.Completes (.mulu ea rx) { s3.setDreg rx p with sr := s.sr.logic p } frame)

/-- DIVU and DIVS by a divisor that is not zero (R282, R283): a quotient that fits goes to the low word and the
remainder, of the dividend's sign, to the high word, with C and V clear; one that does not fit leaves the register as
it was, with V set and C clear. X is kept, and the address registers are as the divisor's mode leaves them. -/
def Obligations.Divide : Prop :=
  ∀ (ea : EA) (rx : RegNo) (s : State),
    let s1 := s.pastWords 1
    let s2 := s1.resolved .w ea
    let loc := eaLoc .w ea s1
    let s3 := loc.afterRead .w s2
    let v : Word := loc.value .w s2
    let d := s.dreg rx
    let frame : Changes := { dregs := [rx], aregs := eaStepped ea, bytes := [] }
    s.fetchable s.pc (1 + eaExtCount .w ea) = true → loc.readable .w s2 = true → v ≠ 0 →
    (∃ t, s.Completes (.divu ea rx) t frame ∧ t.pc = s2.pc ∧ (∀ q, t.areg q = s2.areg q) ∧ t.deviceLog = s3.deviceLog ∧
      t.sr.x = s.sr.x ∧ t.sr.c = false ∧
      (d.toNat / v.toNat < 2 ^ 16 →
        t.dreg rx = BitVec.ofNat 16 (d.toNat % v.toNat) ++ BitVec.ofNat 16 (d.toNat / v.toNat) ∧ t.sr.v = false ∧
        t.sr.n = decide (2 ^ 15 ≤ d.toNat / v.toNat) ∧ t.sr.z = decide (d.toNat / v.toNat = 0)) ∧
      (2 ^ 16 ≤ d.toNat / v.toNat → t.dreg rx = d ∧ t.sr.v = true)) ∧
    (∃ t, s.Completes (.divs ea rx) t frame ∧ t.pc = s2.pc ∧ (∀ q, t.areg q = s2.areg q) ∧ t.deviceLog = s3.deviceLog ∧
      t.sr.x = s.sr.x ∧ t.sr.c = false ∧
      (∀ q r : Int, d.toInt = q * v.toInt + r → r.natAbs < v.toInt.natAbs → (r = 0 ∨ (r < 0 ↔ d.toInt < 0)) →
        (-2 ^ 15 ≤ q ∧ q < 2 ^ 15 →
          t.dreg rx = BitVec.ofInt 16 r ++ BitVec.ofInt 16 q ∧ t.sr.v = false ∧ t.sr.n = decide (q < 0) ∧
          t.sr.z = decide (q = 0)) ∧
        (¬ (-2 ^ 15 ≤ q ∧ q < 2 ^ 15) → t.dreg rx = d ∧ t.sr.v = true)))

/-- MOVEQ, EXT, SWAP and the three forms of EXG (R214, R291, R216, R215), which touch data and address registers alone. -/
def Obligations.RegisterMoves : Prop :=
  ∀ (s : State),
    let s1 := s.pastWords 1
    (∀ (v : Byte) (rx : RegNo), s.Completes (.moveq v rx)
      { s1.setDreg rx (v.signExtend 32) with sr := s.sr.logic (v.signExtend 32) } { dregs := [rx], aregs := [], bytes := [] }) ∧
    (∀ r : RegNo,
      let w : Word := ((s.dreg r).setWidth 8).signExtend 16
      let l : Long := ((s.dreg r).setWidth 16).signExtend 32
      let x : Long := (s.dreg r).rotateLeft 16
      let frame : Changes := { dregs := [r], aregs := [], bytes := [] }
      s.Completes (.ext .w r) { s1.putDreg r w with sr := s.sr.logic w } frame ∧
      s.Completes (.ext .l r) { s1.setDreg r l with sr := s.sr.logic l } frame ∧
      s.Completes (.swap r) { s1.setDreg r x with sr := s.sr.logic x } frame) ∧
    (∀ rx ry : RegNo,
      (∃ t, s.Completes (.exgDD rx ry) t { dregs := [rx, ry], aregs := [], bytes := [] } ∧ t.sr = s.sr ∧ t.pc = s1.pc ∧
        t.deviceLog = s.deviceLog ∧ t.dreg rx = s.dreg ry ∧ t.dreg ry = s.dreg rx) ∧
      (∃ t, s.Completes (.exgAA rx ry) t { dregs := [], aregs := [rx, ry], bytes := [] } ∧ t.sr = s.sr ∧ t.pc = s1.pc ∧
        t.deviceLog = s.deviceLog ∧ t.areg rx = s.areg ry ∧ t.areg ry = s.areg rx) ∧
      (∃ t, s.Completes (.exgDA rx ry) t { dregs := [rx], aregs := [ry], bytes := [] } ∧ t.sr = s.sr ∧ t.pc = s1.pc ∧
        t.deviceLog = s.deviceLog ∧ t.dreg rx = s.areg ry ∧ t.areg ry = s.dreg rx))

/-- MOVE (R201): the source is resolved and read before the destination is resolved; the value is stored there, and the
flags are those of LOGIC. -/
def Obligations.Move : Prop :=
  ∀ (sz : Size) (src dst : EA) (s : State),
    let s1 := s.pastWords 1
    let s2 := s1.resolved sz src
    let from_ := eaLoc sz src s1
    let v := from_.value sz s2
    let s2' := from_.afterRead sz s2
    let s3 := s2'.resolved sz dst
    let to_ := eaLoc sz dst s2'
    s.fetchable s.pc (1 + (eaExtCount sz src + eaExtCount sz dst)) = true →
    from_.readable sz s2 = true → to_.writable sz s3 = true →
    s.Completes (.move sz src dst) { to_.put sz s3 v with sr := s.sr.logic v }
      { dregs := to_.dregs, aregs := eaStepped src ++ (eaStepped dst ++ to_.aregs), bytes := to_.bytes sz }

/-- MOVEM, registers to memory (R210). In the control modes the register of mask bit `i` (`D0` to `D7`, `A0` to `A7`)
is stored at the address its place in the list gives, rising; with `-(An)` bit `i` names the register counted from
`A7` down, addresses fall, and `An` ends at the last one stored while its own stored value is the one it began with.
The operands are memory cells. -/
def Obligations.MovemStore : Prop :=
  ∀ (sz : SizeWL) (mask : Word) (s : State),
    let n := maskRank mask 16
    let s1 := s.pastWords 2
    (∀ (ea : EA) (sp : Space) (a : Long), (∀ r, ea ≠ .preDec r) → eaLoc sz.size ea s1 = .mem sp a →
      s.fetchable s.pc (2 + eaExtCount sz.size ea) = true →
      (∀ k < n, s.cellsOk sz.size (placeAfter a sz.size k) = true) →
      ∃ t, s.Completes (.movemToMem sz mask ea) t
          { dregs := [], aregs := eaStepped ea, bytes := bytesAt a (n * sz.size.bytes) } ∧
        t.sr = s.sr ∧ t.pc = (s1.resolved sz.size ea).pc ∧ t.deviceLog = s.deviceLog ∧
        ∀ i < 16, mask.getLsbD i = true →
          t.readSized sz.size (placeAfter a sz.size (maskRank mask i)) =
            ((s1.resolved sz.size ea).reg i).setWidth sz.size.bits) ∧
    (∀ r : RegNo, s.fetchable s.pc 2 = true →
      (∀ k < n, s.cellsOk sz.size (placeBefore (s.areg r) sz.size (k + 1)) = true) →
      ∃ t, s.Completes (.movemToMem sz mask (.preDec r)) t
          { dregs := [], aregs := [r], bytes := bytesAt (placeBefore (s.areg r) sz.size n) (n * sz.size.bytes) } ∧
        t.sr = s.sr ∧ t.pc = s1.pc ∧ t.deviceLog = s.deviceLog ∧ t.areg r = placeBefore (s.areg r) sz.size n ∧
        ∀ i < 16, mask.getLsbD i = true →
          t.readSized sz.size (placeBefore (s.areg r) sz.size (maskRank mask i + 1)) =
            (s.reg (15 - i)).setWidth sz.size.bits)

/-- MOVEM, memory to registers (R211): the register of mask bit `i` is loaded from the address its place in the list
gives, a word sign-extended to 32 bits; with `(An)+` the register ends past the last operand even if the list names it.
One more word is read after the last operand, unless the list is empty: where that read cannot be made, the instruction
ends in a group 0 exception, the registers loaded, and `(An)+` not yet stepped (log entry 14). The operands are memory
cells; the word after them may be a device's, which sees the read. -/
def Obligations.MovemLoad : Prop :=
  ∀ (sz : SizeWL) (mask : Word) (s : State),
    let n := maskRank mask 16
    let s1 := s.pastWords 2
    let frame := fun (stepped : List RegNo) =>
      ({ dregs := maskDregs mask, aregs := maskAregs mask ++ stepped, bytes := [] } : Changes)
    let extraFault := fun (sp : Space) (a : Long) =>
      ({ kind := if a.getLsbD 0 then .addressError else .busError, addr := a, read := true
         fc := s.functionCode sp, inException := false } : AccessFault)
    let seen := fun (a : Long) => if n = 0 then s.deviceLog else (s.busRead .w a).2.deviceLog
    (∀ (ea : EA) (sp : Space) (a : Long), (∀ r, ea ≠ .postInc r) → eaLoc sz.size ea s1 = .mem sp a →
      s.fetchable s.pc (2 + eaExtCount sz.size ea) = true →
      (∀ k < n, s.cellsOk sz.size (placeAfter a sz.size k) = true) →
      let loaded := fun (t : State) => t.sr = s.sr ∧ t.pc = (s1.resolved sz.size ea).pc ∧
        ∀ i < 16, mask.getLsbD i = true →
          t.reg i = (s.readSized sz.size (placeAfter a sz.size (maskRank mask i))).signExtend 32
      ((n ≠ 0 → s.accessOk .w (placeAfter a sz.size n) = true) →
        ∃ t, s.Completes (.movemToReg sz mask ea) t (frame (eaStepped ea)) ∧
          t.deviceLog = seen (placeAfter a sz.size n) ∧ loaded t) ∧
      (n ≠ 0 → s.accessOk .w (placeAfter a sz.size n) = false →
        ∃ t, exec (.movemToReg sz mask ea) s =
            .next (t.takeGroup0 (extraFault sp (placeAfter a sz.size n)) (some s.pc) (some s.ir)) ∧
          s.Keeps t (frame (eaStepped ea)) ∧ loaded t)) ∧
    (∀ r : RegNo, s.fetchable s.pc 2 = true →
      (∀ k < n, s.cellsOk sz.size (placeAfter (s.areg r) sz.size k) = true) →
      let value := fun (i : Nat) =>
        ((s.readSized sz.size (placeAfter (s.areg r) sz.size (maskRank mask i))).signExtend 32 : Long)
      ((n ≠ 0 → s.accessOk .w (placeAfter (s.areg r) sz.size n) = true) →
        ∃ t, s.Completes (.movemToReg sz mask (.postInc r)) t (frame [r]) ∧
          t.deviceLog = seen (placeAfter (s.areg r) sz.size n) ∧ t.sr = s.sr ∧ t.pc = s1.pc ∧
          t.areg r = placeAfter (s.areg r) sz.size n ∧
          ∀ i < 16, mask.getLsbD i = true → i ≠ 8 + r.toNat → t.reg i = value i) ∧
      (n ≠ 0 → s.accessOk .w (placeAfter (s.areg r) sz.size n) = false →
        ∃ t, exec (.movemToReg sz mask (.postInc r)) s =
            .next (t.takeGroup0 (extraFault .data (placeAfter (s.areg r) sz.size n)) (some s.pc) (some s.ir)) ∧
          s.Keeps t (frame []) ∧ t.sr = s.sr ∧ t.pc = s1.pc ∧
          ∀ i < 16, mask.getLsbD i = true → t.reg i = value i))

/-- MOVEP (R212, R213): the bytes at every other address, the lowest the most significant, are the low word or all of
the data register; memory cells or a device's, which sees byte accesses in the order of the addresses. No flag changes. -/
def Obligations.MovePeripheral : Prop :=
  ∀ (rx ry : RegNo) (d : Word) (s : State),
    let s1 := s.pastWords 2
    let a := s.areg ry + d.signExtend 32
    let r0 := s1.busRead .b a
    let r1 := r0.2.busRead .b (a + 2#32)
    let r2 := r1.2.busRead .b (a + 4#32)
    let r3 := r2.2.busRead .b (a + 6#32)
    let lane := fun (k : Nat) => ((s.dreg rx).extractLsb' (8 * k) 8 : Byte)
    s.fetchable s.pc 2 = true →
    (s.accessOk .b a = true → s.accessOk .b (a + 2#32) = true →
      s.Completes (.movepToReg .w ry d rx) (r1.2.putDreg rx ((r0.1 : Byte) ++ (r1.1 : Byte)))
        { dregs := [rx], aregs := [], bytes := [] } ∧
      s.Completes (.movepToMem .w rx ry d) ((s1.busWrite .b a (lane 1)).busWrite .b (a + 2#32) (lane 0))
        { dregs := [], aregs := [], bytes := [addrOf a, addrOf (a + 2#32)] }) ∧
    (s.accessOk .b a = true → s.accessOk .b (a + 2#32) = true → s.accessOk .b (a + 4#32) = true → s.accessOk .b (a + 6#32) = true →
      s.Completes (.movepToReg .l ry d rx)
        (r3.2.setDreg rx ((r0.1 : Byte) ++ (r1.1 : Byte) ++ (r2.1 : Byte) ++ (r3.1 : Byte)))
        { dregs := [rx], aregs := [], bytes := [] } ∧
      s.Completes (.movepToMem .l rx ry d)
        ((((s1.busWrite .b a (lane 3)).busWrite .b (a + 2#32) (lane 2)).busWrite .b (a + 4#32) (lane 1)).busWrite
          .b (a + 6#32) (lane 0))
        { dregs := [], aregs := [], bytes := [addrOf a, addrOf (a + 2#32), addrOf (a + 4#32), addrOf (a + 6#32)] })

/-- PEA, LINK and UNLK (R218, R219, R220) on the active stack, of memory cells for LINK and UNLK, which take any register
but `A7`. -/
def Obligations.StackFrames : Prop :=
  ∀ (s : State),
    (∀ (ea : EA) (sp : Space) (a : Long),
      let s1 := s.pastWords 1
      let s2 := s1.resolved .l ea
      let top := s2.sp - 4#32
      s.fetchable s.pc (1 + eaExtCount .l ea) = true → eaLoc .l ea s1 = .mem sp a → s.accessOk .l top = true →
      s.Completes (.pea ea) ((s2.setSp top).busWrite .l top a)
        { dregs := [], aregs := 7#3 :: eaStepped ea, bytes := bytesAt top 4 }) ∧
    (∀ (r : RegNo) (d : Word), r ≠ 7#3 →
      let top := s.sp - 4#32
      s.fetchable s.pc 2 = true → s.cellsOk .l top = true →
      ∃ t, s.Completes (.link r d) t { dregs := [], aregs := [r, 7#3], bytes := bytesAt top 4 } ∧
        t.sr = s.sr ∧ t.pc = s.pc + 4#32 ∧ t.deviceLog = s.deviceLog ∧ t.readLong top = s.areg r ∧ t.areg r = top ∧
          t.sp = top + d.signExtend 32) ∧
    (∀ r : RegNo, r ≠ 7#3 → s.cellsOk .l (s.areg r) = true →
      ∃ t, s.Completes (.unlk r) t { dregs := [], aregs := [r, 7#3], bytes := [] } ∧
        t.sr = s.sr ∧ t.pc = s.pc + 2#32 ∧ t.deviceLog = s.deviceLog ∧ t.areg r = s.readLong (s.areg r) ∧
          t.sp = s.areg r + 4#32)

/-- LINK and UNLK with `A7`, whose result the spec leaves undefined and tells a model to refuse (R219, R220), are
refused by name (log entry 16). -/
def Obligations.LinkUnlkStackPointer : Prop :=
  ∀ (d : Word) (s : State),
    exec (.link 7#3 d) s = .refused .linkA7 ∧ exec (.unlk 7#3) s = .refused .unlkA7

/-! ## Shifts, bits and decimal arithmetic -/

/-- The sixteen register shifts and rotates (43_shift_rotate.md R380 to R402): the count is the count register's value
modulo 64, or 1 to 8; the sized part of the register changes, with the flags of R371; and the eight memory forms
(R382 to R403), a word shifted once in place. -/
def Obligations.ShiftInstructions : Prop :=
  (∀ (sz : Size) (rx ry : RegNo) (q : BitVec 3) (s : State),
    let byReg := (s.dreg rx).toNat % 64
    let byImm := if q = 0 then 8 else q.toNat
    let shifted := fun (i : Instr) (op : ShiftOp) (count : Nat) =>
      let p := shiftOp op count ((s.dreg ry).setWidth sz.bits) s.sr
      s.Completes i { (s.pastWords 1).putDreg ry p.1 with sr := p.2 } { dregs := [ry], aregs := [], bytes := [] }
    shifted (.aslReg sz rx ry) .asl byReg ∧ shifted (.aslImm sz q ry) .asl byImm ∧
    shifted (.asrReg sz rx ry) .asr byReg ∧ shifted (.asrImm sz q ry) .asr byImm ∧
    shifted (.lslReg sz rx ry) .lsl byReg ∧ shifted (.lslImm sz q ry) .lsl byImm ∧
    shifted (.lsrReg sz rx ry) .lsr byReg ∧ shifted (.lsrImm sz q ry) .lsr byImm ∧
    shifted (.rolReg sz rx ry) .rol byReg ∧ shifted (.rolImm sz q ry) .rol byImm ∧
    shifted (.rorReg sz rx ry) .ror byReg ∧ shifted (.rorImm sz q ry) .ror byImm ∧
    shifted (.roxlReg sz rx ry) .roxl byReg ∧ shifted (.roxlImm sz q ry) .roxl byImm ∧
    shifted (.roxrReg sz rx ry) .roxr byReg ∧ shifted (.roxrImm sz q ry) .roxr byImm) ∧
  (∀ (ea : EA) (s : State),
    let s1 := s.pastWords 1
    let s2 := s1.resolved .w ea
    let loc := eaLoc .w ea s1
    let s3 := loc.afterRead .w s2
    let shifted := fun (i : Instr) (op : ShiftOp) =>
      let p := shiftOp op 1 (loc.value .w s2) s.sr
      s.Completes i { loc.put .w s3 p.1 with sr := p.2 }
        { dregs := loc.dregs, aregs := eaStepped ea ++ loc.aregs, bytes := loc.bytes .w }
    s.fetchable s.pc (1 + eaExtCount .w ea) = true → loc.writable .w s2 = true →
    shifted (.aslMem ea) .asl ∧ shifted (.asrMem ea) .asr ∧ shifted (.lslMem ea) .lsl ∧ shifted (.lsrMem ea) .lsr ∧
    shifted (.rolMem ea) .rol ∧ shifted (.rorMem ea) .ror ∧ shifted (.roxlMem ea) .roxl ∧ shifted (.roxrMem ea) .roxr)

/-- BTST, BCHG, BCLR and BSET, with the number in a register or in a word (44_bit_manipulation.md R423 to R430): the
number is taken modulo the operand's width, Z is the complement of the bit as it was, no other flag changes, and one
bit of the operand at most. -/
def Obligations.BitInstructions : Prop :=
  ∀ (ea : EA) (s : State),
    let sz := ea.bitSize
    let form := fun (tst chg clr set : Instr) (number words : Nat) =>
      let s1 := s.pastWords words
      let s2 := s1.resolved sz ea
      let loc := eaLoc sz ea s1
      let s3 := loc.afterRead sz s2
      let v := loc.value sz s2
      let k := number % sz.bits
      let sr : StatusReg := { s.sr with z := !v.getLsbD k }
      let done := fun (r : BitVec sz.bits) => ({ loc.put sz s3 r with sr := sr } : State)
      let frame : Changes := { dregs := loc.dregs, aregs := eaStepped ea ++ loc.aregs, bytes := loc.bytes sz }
      s.fetchable s.pc (words + eaExtCount sz ea) = true →
      (loc.readable sz s2 = true → s.Completes tst { s3 with sr := sr } { dregs := [], aregs := eaStepped ea, bytes := [] }) ∧
      (loc.writable sz s2 = true →
        (∃ r, (∀ j < sz.bits, r.getLsbD j = if j = k then !v.getLsbD j else v.getLsbD j) ∧
          s.Completes chg (done r) frame) ∧
        (∃ r, (∀ j < sz.bits, r.getLsbD j = if j = k then false else v.getLsbD j) ∧ s.Completes clr (done r) frame) ∧
        (∃ r, (∀ j < sz.bits, r.getLsbD j = if j = k then true else v.getLsbD j) ∧ s.Completes set (done r) frame))
    (∀ rx : RegNo, form (.btstReg rx ea) (.bchgReg rx ea) (.bclrReg rx ea) (.bsetReg rx ea) (s.dreg rx).toNat 1) ∧
    (∀ n : Byte, form (.btstImm n ea) (.bchgImm n ea) (.bclrImm n ea) (.bsetImm n ea) n.toNat 2)

/-- ABCD, SBCD and NBCD (45_bcd.md R441 to R445) run on every operand. Where both operands are decimal the byte stored
is the decimal result modulo 100, C and X the decimal carry or borrow, and Z is only ever cleared; N and V are free, as
is all but the frame where an operand is not decimal (log entries 6 and 20). -/
def Obligations.DecimalArithmetic : Prop :=
  ∀ (ry rx : RegNo) (ea : EA) (s : State),
    let s1 := s.pastWords 1
    let x : Int := if s.sr.x then 1 else 0
    let right := fun (v d : Byte) (total : Int) (r : Byte) (t : State) =>
      bcdValid v = true → bcdValid d = true →
        r = bcdByte (total % 100).toNat ∧ t.sr.c = decide (total < 0 ∨ 99 < total) ∧ t.sr.x = t.sr.c ∧
        t.sr.z = (s.sr.z && r == 0)
    (let v : Byte := (s.dreg ry).setWidth 8
     let d : Byte := (s.dreg rx).setWidth 8
     let frame : Changes := { dregs := [rx], aregs := [], bytes := [] }
     (∃ t r, s.Completes (.abcdReg ry rx) t frame ∧ t.pc = s1.pc ∧ t.deviceLog = s.deviceLog ∧
       t.dreg rx = merge (s.dreg rx) r ∧
       right v d (bcdValue d + bcdValue v + x) r t) ∧
     (∃ t r, s.Completes (.sbcdReg ry rx) t frame ∧ t.pc = s1.pc ∧ t.deviceLog = s.deviceLog ∧
       t.dreg rx = merge (s.dreg rx) r ∧
       right v d (bcdValue d - bcdValue v - x) r t)) ∧
    (let src := s.areg ry - eaStep .b ry
     let first := (s1.setAreg ry src).busRead .b src
     let dst := first.2.areg rx - eaStep .b rx
     let second := (first.2.setAreg rx dst).busRead .b dst
     let s3 := second.2
     let v : Byte := first.1
     let d : Byte := second.1
     let frame : Changes := { dregs := [], aregs := [ry, rx], bytes := [addrOf dst] }
     s.accessOk .b src = true → s.accessOk .b dst = true →
     (∃ t r, s.Completes (.abcdMem ry rx) t frame ∧ t.pc = s1.pc ∧ (∀ q, t.areg q = s3.areg q) ∧
       t.mem = (s3.busWrite .b dst r).mem ∧ t.deviceLog = (s3.busWrite .b dst r).deviceLog ∧
       right v d (bcdValue d + bcdValue v + x) r t) ∧
     (∃ t r, s.Completes (.sbcdMem ry rx) t frame ∧ t.pc = s1.pc ∧ (∀ q, t.areg q = s3.areg q) ∧
       t.mem = (s3.busWrite .b dst r).mem ∧ t.deviceLog = (s3.busWrite .b dst r).deviceLog ∧
       right v d (bcdValue d - bcdValue v - x) r t)) ∧
    (let s2 := s1.resolved .b ea
     let loc := eaLoc .b ea s1
     let s3 := loc.afterRead .b s2
     let d : Byte := loc.value .b s2
     s.fetchable s.pc (1 + eaExtCount .b ea) = true → loc.writable .b s2 = true →
     ∃ t r, s.Completes (.nbcd ea) t { dregs := loc.dregs, aregs := eaStepped ea ++ loc.aregs, bytes := loc.bytes .b } ∧
       t.pc = s2.pc ∧ t.d = (loc.put .b s3 r).d ∧ (∀ q, t.areg q = (loc.put .b s3 r).areg q) ∧
         t.mem = (loc.put .b s3 r).mem ∧
       t.deviceLog = (loc.put .b s3 r).deviceLog ∧
       right d 0 (0 - bcdValue d - x) r t)

/-! ## Program control -/

/-- BRA, Bcc, DBcc and JMP (46_program_control.md R464, R461, R462, R466): the base of a displacement is the address of
the operation word + 2; no flag changes; DBcc counts down the low word of its register and branches unless the condition
holds or the count has passed zero. -/
def Obligations.Branches : Prop :=
  ∀ (s : State),
    let at_ := fun (a : Long) => ({ s with pc := a, prefetch := [] } : State)
    (∀ d : Disp, s.fetchable s.pc (dispWords d) = true →
      s.Completes (.bra d) (at_ (s.pc + 2#32 + dispOffset d)) .none ∧
      ∀ c : Cond,
        s.Completes (.bcc c d) (if s.sr.holds c then at_ (s.pc + 2#32 + dispOffset d) else s.pastWords (dispWords d)) .none) ∧
    (∀ (c : Cond) (r : RegNo) (d : Word), s.fetchable s.pc 2 = true →
      let count : Word := (s.dreg r).setWidth 16 - 1#16
      (s.sr.holds c = true → s.Completes (.dbcc c r d) (s.pastWords 2) .none) ∧
      (s.sr.holds c = false →
        s.Completes (.dbcc c r d)
          (if count = 0xFFFF#16 then (s.pastWords 2).putDreg r count
            else (at_ (s.pc + 2#32 + d.signExtend 32)).putDreg r count) { dregs := [r], aregs := [], bytes := [] })) ∧
    (∀ (ea : EA) (sp : Space) (a : Long),
      s.fetchable s.pc (1 + eaExtCount .l ea) = true → eaLoc .l ea (s.pastWords 1) = .mem sp a →
      s.Completes (.jmp ea) { (s.pastWords 1).resolved .l ea with pc := a, prefetch := [] }
        { dregs := [], aregs := eaStepped ea, bytes := [] })

/-- BSR, JSR, RTS and RTR (R465, R467, R469, R468), on a stack of memory cells: a call pushes the address of the next
instruction and a return pops it; RTR first takes the condition codes from the low byte of a word, and leaves the
system byte alone. -/
def Obligations.CallsAndReturns : Prop :=
  ∀ (s : State),
    (∀ d : Disp, s.fetchable s.pc (dispWords d) = true → s.cellsOk .l (s.sp - 4#32) = true →
      ∃ t, s.Completes (.bsr d) t { dregs := [], aregs := [7#3], bytes := bytesAt (s.sp - 4#32) 4 } ∧ t.sr = s.sr ∧
        t.deviceLog = s.deviceLog ∧
        t.pc = s.pc + 2#32 + dispOffset d ∧ t.sp = s.sp - 4#32 ∧ t.readLong t.sp = (s.pastWords (dispWords d)).pc) ∧
    (∀ (ea : EA) (sp : Space) (a : Long),
      let s2 := (s.pastWords 1).resolved .l ea
      s.fetchable s.pc (1 + eaExtCount .l ea) = true → eaLoc .l ea (s.pastWords 1) = .mem sp a →
      s.cellsOk .l (s2.sp - 4#32) = true →
      ∃ t, s.Completes (.jsr ea) t { dregs := [], aregs := 7#3 :: eaStepped ea, bytes := bytesAt (s2.sp - 4#32) 4 } ∧
        t.sr = s.sr ∧ t.deviceLog = s.deviceLog ∧ t.pc = a ∧ t.sp = s2.sp - 4#32 ∧ t.readLong t.sp = s2.pc) ∧
    (s.cellsOk .l s.sp = true →
      ∃ t, s.Completes .rts t { dregs := [], aregs := [7#3], bytes := [] } ∧ t.sr = s.sr ∧
        t.deviceLog = s.deviceLog ∧ t.pc = s.readLong s.sp ∧
        t.sp = s.sp + 4#32) ∧
    (s.cellsOk .w s.sp = true → s.cellsOk .l (s.sp + 2#32) = true →
      ∃ t, s.Completes .rtr t { dregs := [], aregs := [7#3], bytes := [] } ∧
        t.deviceLog = s.deviceLog ∧ t.sr = s.sr.withCcr ((s.readWord s.sp).setWidth 8) ∧
          t.pc = s.readLong (s.sp + 2#32) ∧ t.sp = s.sp + 6#32)

/-- Scc and MOVE from SR (R463, 40_data_movement.md R206): the byte of all ones or zeros, or the whole status
register, is stored at the location the effective address resolves to. No flag changes. That location is read first
(log entry 15). -/
def Obligations.ConditionAndStatusStores : Prop :=
  (∀ (c : Cond) (ea : EA) (s : State),
    let s1 := s.pastWords 1
    let s2 := s1.resolved .b ea
    let loc := eaLoc .b ea s1
    let s3 := loc.afterRead .b s2
    s.fetchable s.pc (1 + eaExtCount .b ea) = true → loc.writable .b s2 = true →
    s.Completes (.scc c ea) (loc.put .b s3 (if s.sr.holds c then 0xFF#8 else 0x00#8))
      { dregs := loc.dregs, aregs := eaStepped ea ++ loc.aregs, bytes := loc.bytes .b }) ∧
  (∀ (ea : EA) (s : State),
    let s1 := s.pastWords 1
    let s2 := s1.resolved .w ea
    let loc := eaLoc .w ea s1
    let s3 := loc.afterRead .w s2
    s.fetchable s.pc (1 + eaExtCount .w ea) = true → loc.writable .w s2 = true →
    s.Completes (.moveFromSr ea) (loc.put .w s3 s.sr.toWord)
      { dregs := loc.dregs, aregs := eaStepped ea ++ loc.aregs, bytes := loc.bytes .w })

/-! ## Traps and system control -/

/-- TRAP, TRAPV, ILLEGAL, MOVE from CCR and the words of lines A and F (60_exceptions.md R532, R531, R527): which vector
each takes and which address it saves; TRAPV with V clear does nothing. -/
def Obligations.TrapInstructions : Prop :=
  ∀ (s : State),
    let instead := { s.pastWords 1 with traceDue := false }
    (∀ n : BitVec 4, s.canExcept (32 + n.setWidth 8) = true →
      exec (.trap n) s = .next ((s.pastWords 1).excepted (32 + n.setWidth 8) (s.pc + 2#32) none)) ∧
    (s.sr.v = false → s.Completes .trapv (s.pastWords 1) .none) ∧
    (s.sr.v = true → s.canExcept 7 = true → exec .trapv s = .next ((s.pastWords 1).excepted 7 (s.pc + 2#32) none)) ∧
    (s.canExcept 4 = true → exec .illegal s = .next (instead.excepted 4 s.pc none)) ∧
    (s.canExcept 4 = true → ∀ low, exec (.moveFromCcr low) s = .next (instead.excepted 4 s.pc none)) ∧
    (s.canExcept 10 = true → ∀ low, exec (.lineA low) s = .next (instead.excepted 10 s.pc none)) ∧
    (s.canExcept 11 = true → ∀ low, exec (.lineF low) s = .next (instead.excepted 11 s.pc none))

/-- CHK (46_program_control.md R472): the low word of the register is compared, signed, with the bound. Inside 0 to the
bound the instruction completes and changes flags alone (X kept, the others free); outside it takes vector 6 with N set
for a negative value and clear for one above the bound, the saved address that of the next instruction. -/
def Obligations.CheckBounds : Prop :=
  ∀ (ea : EA) (rx : RegNo) (s : State),
    let s1 := s.pastWords 1
    let s2 := s1.resolved .w ea
    let loc := eaLoc .w ea s1
    let s3 := loc.afterRead .w s2
    let b : Word := loc.value .w s2
    let d : Word := (s.dreg rx).setWidth 16
    s.fetchable s.pc (1 + eaExtCount .w ea) = true → loc.readable .w s2 = true →
    (0 ≤ d.toInt ∧ d.toInt ≤ b.toInt →
      ∃ t, s.Completes (.chk ea rx) t { dregs := [], aregs := eaStepped ea, bytes := [] } ∧ t.pc = s2.pc ∧
        (∀ q, t.areg q = s2.areg q) ∧ t.deviceLog = s3.deviceLog ∧ t.sr.x = s.sr.x) ∧
    (d.toInt < 0 ∨ b.toInt < d.toInt → s2.canExcept 6 = true →
      ∃ t, exec (.chk ea rx) s = .next (t.excepted 6 t.pc none) ∧
        s.Keeps t { dregs := [], aregs := eaStepped ea, bytes := [] } ∧ t.pc = s2.pc ∧
        (∀ q, t.areg q = s2.areg q) ∧ t.deviceLog = s3.deviceLog ∧ t.sr.x = s.sr.x ∧
        (d.toInt < 0 ∧ d.toInt ≤ b.toInt → t.sr.n = true) ∧ (0 ≤ d.toInt ∧ b.toInt < d.toInt → t.sr.n = false))

/-- DIVU and DIVS by zero (41_integer_arithmetic.md R282, R283, 60_exceptions.md R528): the divisor has been read, the
register is unchanged, the address registers are as its mode leaves them, C is clear, and vector 5 is taken with the
address of the next instruction saved. -/
def Obligations.ZeroDivide : Prop :=
  ∀ (ea : EA) (rx : RegNo) (s : State),
    let s1 := s.pastWords 1
    let s2 := s1.resolved .w ea
    let loc := eaLoc .w ea s1
    let s3 := loc.afterRead .w s2
    s.fetchable s.pc (1 + eaExtCount .w ea) = true → loc.readable .w s2 = true → loc.value .w s2 = 0#16 →
    s2.canExcept 5 = true →
    ∃ t, exec (.divu ea rx) s = .next (t.excepted 5 t.pc none) ∧ exec (.divs ea rx) s = .next (t.excepted 5 t.pc none) ∧
      s.Keeps t { dregs := [], aregs := eaStepped ea, bytes := [] } ∧ t.pc = s2.pc ∧
      (∀ q, t.areg q = s2.areg q) ∧ t.deviceLog = s3.deviceLog ∧ t.sr.x = s.sr.x ∧ t.sr.c = false

/-- The instructions that write the condition codes whole (40_data_movement.md R204, 42_logical.md R334, R338, R343): MOVE
to CCR and ANDI, EORI, ORI to CCR, in either privilege state; the system byte of the status register stays. -/
def Obligations.ConditionCodeWrites : Prop :=
  ∀ (s : State),
    (∀ ea : EA,
      let s1 := s.pastWords 1
      let s2 := s1.resolved .w ea
      let loc := eaLoc .w ea s1
      let s3 := loc.afterRead .w s2
      let v : Word := loc.value .w s2
      s.fetchable s.pc (1 + eaExtCount .w ea) = true → loc.readable .w s2 = true →
      s.Completes (.moveToCcr ea)
        { s3 with sr := { s.sr with x := v.getLsbD 4, n := v.getLsbD 3, z := v.getLsbD 2, v := v.getLsbD 1, c := v.getLsbD 0 } }
        { dregs := [], aregs := eaStepped ea, bytes := [] }) ∧
    (∀ b : Byte, s.fetchable s.pc 2 = true →
      let done := fun (f : Bool → Bool → Bool) => ({ s.pastWords 2 with sr := { s.sr with
        x := f s.sr.x (b.getLsbD 4), n := f s.sr.n (b.getLsbD 3), z := f s.sr.z (b.getLsbD 2)
        v := f s.sr.v (b.getLsbD 1), c := f s.sr.c (b.getLsbD 0) } } : State)
      s.Completes (.andiToCcr b) (done (· && ·)) .none ∧
      s.Completes (.oriToCcr b) (done (· || ·)) .none ∧
      s.Completes (.eoriToCcr b) (done Bool.xor) .none)

/-- The nine privileged instructions in supervisor state (47_system_control.md R500 to R504, 40_data_movement.md R205,
R208, R209, 42_logical.md R335, R339, R344), each as one update of the state, all else as it was; RESET drives
the reset pin, which the devices see (log entries 4 and 26). The stack of RTE is of memory cells. -/
def Obligations.PrivilegedInSupervisorState : Prop :=
  ∀ (s : State), s.sr.s = true →
    (∀ ea : EA,
      let s1 := s.pastWords 1
      let s2 := s1.resolved .w ea
      let loc := eaLoc .w ea s1
      let s3 := loc.afterRead .w s2
      s.fetchable s.pc (1 + eaExtCount .w ea) = true → loc.readable .w s2 = true →
      exec (.moveToSr ea) s = .next { s3 with sr := StatusReg.ofWord (loc.value .w s2) } ∧
      s.Keeps s3 { dregs := [], aregs := eaStepped ea, bytes := [] }) ∧
    (∀ w : Word, s.fetchable s.pc 2 = true →
      let done := fun (v : Word) => ({ s.pastWords 2 with sr := StatusReg.ofWord v } : State)
      exec (.andiToSr w) s = .next (done (s.sr.toWord &&& w)) ∧
      exec (.oriToSr w) s = .next (done (s.sr.toWord ||| w)) ∧
      exec (.eoriToSr w) s = .next (done (s.sr.toWord ^^^ w)) ∧
      exec (.stop w) s = .next { done w with stopped := !s.sr.t }) ∧
    (∀ r : RegNo,
      s.Completes (.moveFromUsp r) ((s.pastWords 1).setAreg r s.usp) { dregs := [], aregs := [r], bytes := [] } ∧
      exec (.moveToUsp r) s = .next { s.pastWords 1 with usp := s.areg r }) ∧
    exec .reset s = .next { s.pastWords 1 with
      deviceLog := .resetPulse :: s.deviceLog, resetPulses := s.resetPulses + 1 } ∧
    (s.cellsOk .w s.ssp = true → s.cellsOk .l (s.ssp + 2#32) = true →
      exec .rte s = .next { s with
        ssp := s.ssp + 6#32, sr := StatusReg.ofWord (s.readWord s.ssp), pc := s.readLong (s.ssp + 2#32), prefetch := [] })

/-- The nine privileged instructions in user state (60_exceptions.md R526): vector 8, the instruction's own address saved,
no extension word fetched, nothing else touched. -/
def Obligations.PrivilegeViolation : Prop :=
  ∀ (s : State) (i : Instr), s.sr.s = false → s.canExcept 8 = true → Privileged i →
    exec i s = .next ({ s.pastWords 1 with traceDue := false }.excepted 8 s.pc none)

/-- NOP (47_system_control.md R503): `PC` moves to the next instruction and nothing else changes. -/
def Obligations.NoOperation : Prop :=
  ∀ (s : State) (rest : List Word), decodeWords (0x4E71 :: rest) = .ok (.nop, rest) ∧
    exec .nop s = .next { s with pc := s.pc + 2#32 }
end

