-- ==== Sys2Proof/Laws/State.lean ====
section
/-! SUPPORT. One lemma per field per update of the state, and what the register accessors read after the register
updates. -/

namespace Sys2Proof.Machine

@[simp] theorem State.setDreg_a (s : State) (r : RegNo) (v : Long) : (s.setDreg r v).a = s.a := rfl
@[simp] theorem State.setDreg_usp (s : State) (r : RegNo) (v : Long) : (s.setDreg r v).usp = s.usp := rfl
@[simp] theorem State.setDreg_ssp (s : State) (r : RegNo) (v : Long) : (s.setDreg r v).ssp = s.ssp := rfl
@[simp] theorem State.setDreg_pc (s : State) (r : RegNo) (v : Long) : (s.setDreg r v).pc = s.pc := rfl
@[simp] theorem State.setDreg_sr (s : State) (r : RegNo) (v : Long) : (s.setDreg r v).sr = s.sr := rfl
@[simp] theorem State.setDreg_mem (s : State) (r : RegNo) (v : Long) : (s.setDreg r v).mem = s.mem := rfl
@[simp] theorem State.setDreg_stopped (s : State) (r : RegNo) (v : Long) : (s.setDreg r v).stopped = s.stopped := rfl
@[simp] theorem State.setDreg_halted (s : State) (r : RegNo) (v : Long) : (s.setDreg r v).halted = s.halted := rfl
@[simp] theorem State.setDreg_nmiEdge (s : State) (r : RegNo) (v : Long) : (s.setDreg r v).nmiEdge = s.nmiEdge := rfl
@[simp] theorem State.setDreg_ir (s : State) (r : RegNo) (v : Long) : (s.setDreg r v).ir = s.ir := rfl
@[simp] theorem State.setDreg_prefetch (s : State) (r : RegNo) (v : Long) : (s.setDreg r v).prefetch = s.prefetch := rfl
@[simp] theorem State.setDreg_pins (s : State) (r : RegNo) (v : Long) : (s.setDreg r v).pins = s.pins := rfl
@[simp] theorem State.setDreg_inputs (s : State) (r : RegNo) (v : Long) : (s.setDreg r v).inputs = s.inputs := rfl
@[simp] theorem State.setDreg_silent (s : State) (r : RegNo) (v : Long) : (s.setDreg r v).silent = s.silent := rfl
@[simp] theorem State.setDreg_devices (s : State) (r : RegNo) (v : Long) : (s.setDreg r v).devices = s.devices := rfl
@[simp] theorem State.setDreg_deviceLog (s : State) (r : RegNo) (v : Long) : (s.setDreg r v).deviceLog = s.deviceLog := rfl
@[simp] theorem State.setDreg_resetPulses (s : State) (r : RegNo) (v : Long) : (s.setDreg r v).resetPulses = s.resetPulses := rfl
@[simp] theorem State.setDreg_traceDue (s : State) (r : RegNo) (v : Long) : (s.setDreg r v).traceDue = s.traceDue := rfl
@[simp] theorem State.setDreg_draws (s : State) (r : RegNo) (v : Long) : (s.setDreg r v).draws = s.draws := rfl

@[simp] theorem State.putDreg_a (s : State) {n : Nat} (r : RegNo) (v : BitVec n) : (s.putDreg r v).a = s.a := rfl
@[simp] theorem State.putDreg_usp (s : State) {n : Nat} (r : RegNo) (v : BitVec n) : (s.putDreg r v).usp = s.usp := rfl
@[simp] theorem State.putDreg_ssp (s : State) {n : Nat} (r : RegNo) (v : BitVec n) : (s.putDreg r v).ssp = s.ssp := rfl
@[simp] theorem State.putDreg_pc (s : State) {n : Nat} (r : RegNo) (v : BitVec n) : (s.putDreg r v).pc = s.pc := rfl
@[simp] theorem State.putDreg_sr (s : State) {n : Nat} (r : RegNo) (v : BitVec n) : (s.putDreg r v).sr = s.sr := rfl
@[simp] theorem State.putDreg_mem (s : State) {n : Nat} (r : RegNo) (v : BitVec n) : (s.putDreg r v).mem = s.mem := rfl
@[simp] theorem State.putDreg_stopped (s : State) {n : Nat} (r : RegNo) (v : BitVec n) : (s.putDreg r v).stopped = s.stopped := rfl
@[simp] theorem State.putDreg_halted (s : State) {n : Nat} (r : RegNo) (v : BitVec n) : (s.putDreg r v).halted = s.halted := rfl
@[simp] theorem State.putDreg_nmiEdge (s : State) {n : Nat} (r : RegNo) (v : BitVec n) : (s.putDreg r v).nmiEdge = s.nmiEdge := rfl
@[simp] theorem State.putDreg_ir (s : State) {n : Nat} (r : RegNo) (v : BitVec n) : (s.putDreg r v).ir = s.ir := rfl
@[simp] theorem State.putDreg_prefetch (s : State) {n : Nat} (r : RegNo) (v : BitVec n) : (s.putDreg r v).prefetch = s.prefetch := rfl
@[simp] theorem State.putDreg_pins (s : State) {n : Nat} (r : RegNo) (v : BitVec n) : (s.putDreg r v).pins = s.pins := rfl
@[simp] theorem State.putDreg_inputs (s : State) {n : Nat} (r : RegNo) (v : BitVec n) : (s.putDreg r v).inputs = s.inputs := rfl
@[simp] theorem State.putDreg_silent (s : State) {n : Nat} (r : RegNo) (v : BitVec n) : (s.putDreg r v).silent = s.silent := rfl
@[simp] theorem State.putDreg_devices (s : State) {n : Nat} (r : RegNo) (v : BitVec n) : (s.putDreg r v).devices = s.devices := rfl
@[simp] theorem State.putDreg_deviceLog (s : State) {n : Nat} (r : RegNo) (v : BitVec n) : (s.putDreg r v).deviceLog = s.deviceLog := rfl
@[simp] theorem State.putDreg_resetPulses (s : State) {n : Nat} (r : RegNo) (v : BitVec n) : (s.putDreg r v).resetPulses = s.resetPulses := rfl
@[simp] theorem State.putDreg_traceDue (s : State) {n : Nat} (r : RegNo) (v : BitVec n) : (s.putDreg r v).traceDue = s.traceDue := rfl
@[simp] theorem State.putDreg_draws (s : State) {n : Nat} (r : RegNo) (v : BitVec n) : (s.putDreg r v).draws = s.draws := rfl

@[simp] theorem State.setSp_d (s : State) (v : Long) : (s.setSp v).d = s.d := by unfold State.setSp; split <;> rfl
@[simp] theorem State.setSp_a (s : State) (v : Long) : (s.setSp v).a = s.a := by unfold State.setSp; split <;> rfl
@[simp] theorem State.setSp_pc (s : State) (v : Long) : (s.setSp v).pc = s.pc := by unfold State.setSp; split <;> rfl
@[simp] theorem State.setSp_sr (s : State) (v : Long) : (s.setSp v).sr = s.sr := by unfold State.setSp; split <;> rfl
@[simp] theorem State.setSp_mem (s : State) (v : Long) : (s.setSp v).mem = s.mem := by unfold State.setSp; split <;> rfl
@[simp] theorem State.setSp_stopped (s : State) (v : Long) : (s.setSp v).stopped = s.stopped := by unfold State.setSp; split <;> rfl
@[simp] theorem State.setSp_halted (s : State) (v : Long) : (s.setSp v).halted = s.halted := by unfold State.setSp; split <;> rfl
@[simp] theorem State.setSp_nmiEdge (s : State) (v : Long) : (s.setSp v).nmiEdge = s.nmiEdge := by unfold State.setSp; split <;> rfl
@[simp] theorem State.setSp_ir (s : State) (v : Long) : (s.setSp v).ir = s.ir := by unfold State.setSp; split <;> rfl
@[simp] theorem State.setSp_prefetch (s : State) (v : Long) : (s.setSp v).prefetch = s.prefetch := by unfold State.setSp; split <;> rfl
@[simp] theorem State.setSp_pins (s : State) (v : Long) : (s.setSp v).pins = s.pins := by unfold State.setSp; split <;> rfl
@[simp] theorem State.setSp_inputs (s : State) (v : Long) : (s.setSp v).inputs = s.inputs := by unfold State.setSp; split <;> rfl
@[simp] theorem State.setSp_silent (s : State) (v : Long) : (s.setSp v).silent = s.silent := by unfold State.setSp; split <;> rfl
@[simp] theorem State.setSp_devices (s : State) (v : Long) : (s.setSp v).devices = s.devices := by unfold State.setSp; split <;> rfl
@[simp] theorem State.setSp_deviceLog (s : State) (v : Long) : (s.setSp v).deviceLog = s.deviceLog := by unfold State.setSp; split <;> rfl
@[simp] theorem State.setSp_resetPulses (s : State) (v : Long) : (s.setSp v).resetPulses = s.resetPulses := by unfold State.setSp; split <;> rfl
@[simp] theorem State.setSp_traceDue (s : State) (v : Long) : (s.setSp v).traceDue = s.traceDue := by unfold State.setSp; split <;> rfl
@[simp] theorem State.setSp_draws (s : State) (v : Long) : (s.setSp v).draws = s.draws := by unfold State.setSp; split <;> rfl

@[simp] theorem State.setAreg_d (s : State) (r : RegNo) (v : Long) : (s.setAreg r v).d = s.d := by unfold State.setAreg; split <;> simp
@[simp] theorem State.setAreg_pc (s : State) (r : RegNo) (v : Long) : (s.setAreg r v).pc = s.pc := by unfold State.setAreg; split <;> simp
@[simp] theorem State.setAreg_sr (s : State) (r : RegNo) (v : Long) : (s.setAreg r v).sr = s.sr := by unfold State.setAreg; split <;> simp
@[simp] theorem State.setAreg_mem (s : State) (r : RegNo) (v : Long) : (s.setAreg r v).mem = s.mem := by unfold State.setAreg; split <;> simp
@[simp] theorem State.setAreg_stopped (s : State) (r : RegNo) (v : Long) : (s.setAreg r v).stopped = s.stopped := by unfold State.setAreg; split <;> simp
@[simp] theorem State.setAreg_halted (s : State) (r : RegNo) (v : Long) : (s.setAreg r v).halted = s.halted := by unfold State.setAreg; split <;> simp
@[simp] theorem State.setAreg_nmiEdge (s : State) (r : RegNo) (v : Long) : (s.setAreg r v).nmiEdge = s.nmiEdge := by unfold State.setAreg; split <;> simp
@[simp] theorem State.setAreg_ir (s : State) (r : RegNo) (v : Long) : (s.setAreg r v).ir = s.ir := by unfold State.setAreg; split <;> simp
@[simp] theorem State.setAreg_prefetch (s : State) (r : RegNo) (v : Long) : (s.setAreg r v).prefetch = s.prefetch := by unfold State.setAreg; split <;> simp
@[simp] theorem State.setAreg_pins (s : State) (r : RegNo) (v : Long) : (s.setAreg r v).pins = s.pins := by unfold State.setAreg; split <;> simp
@[simp] theorem State.setAreg_inputs (s : State) (r : RegNo) (v : Long) : (s.setAreg r v).inputs = s.inputs := by unfold State.setAreg; split <;> simp
@[simp] theorem State.setAreg_silent (s : State) (r : RegNo) (v : Long) : (s.setAreg r v).silent = s.silent := by unfold State.setAreg; split <;> simp
@[simp] theorem State.setAreg_devices (s : State) (r : RegNo) (v : Long) : (s.setAreg r v).devices = s.devices := by unfold State.setAreg; split <;> simp
@[simp] theorem State.setAreg_deviceLog (s : State) (r : RegNo) (v : Long) : (s.setAreg r v).deviceLog = s.deviceLog := by unfold State.setAreg; split <;> simp
@[simp] theorem State.setAreg_resetPulses (s : State) (r : RegNo) (v : Long) : (s.setAreg r v).resetPulses = s.resetPulses := by unfold State.setAreg; split <;> simp
@[simp] theorem State.setAreg_traceDue (s : State) (r : RegNo) (v : Long) : (s.setAreg r v).traceDue = s.traceDue := by unfold State.setAreg; split <;> simp
@[simp] theorem State.setAreg_draws (s : State) (r : RegNo) (v : Long) : (s.setAreg r v).draws = s.draws := by unfold State.setAreg; split <;> simp

@[simp] theorem State.writeByte_d (s : State) (x : Long) (v : Byte) : (s.writeByte x v).d = s.d := rfl
@[simp] theorem State.writeByte_a (s : State) (x : Long) (v : Byte) : (s.writeByte x v).a = s.a := rfl
@[simp] theorem State.writeByte_usp (s : State) (x : Long) (v : Byte) : (s.writeByte x v).usp = s.usp := rfl
@[simp] theorem State.writeByte_ssp (s : State) (x : Long) (v : Byte) : (s.writeByte x v).ssp = s.ssp := rfl
@[simp] theorem State.writeByte_pc (s : State) (x : Long) (v : Byte) : (s.writeByte x v).pc = s.pc := rfl
@[simp] theorem State.writeByte_sr (s : State) (x : Long) (v : Byte) : (s.writeByte x v).sr = s.sr := rfl
@[simp] theorem State.writeByte_stopped (s : State) (x : Long) (v : Byte) : (s.writeByte x v).stopped = s.stopped := rfl
@[simp] theorem State.writeByte_halted (s : State) (x : Long) (v : Byte) : (s.writeByte x v).halted = s.halted := rfl
@[simp] theorem State.writeByte_nmiEdge (s : State) (x : Long) (v : Byte) : (s.writeByte x v).nmiEdge = s.nmiEdge := rfl
@[simp] theorem State.writeByte_ir (s : State) (x : Long) (v : Byte) : (s.writeByte x v).ir = s.ir := rfl
@[simp] theorem State.writeByte_prefetch (s : State) (x : Long) (v : Byte) : (s.writeByte x v).prefetch = s.prefetch := rfl
@[simp] theorem State.writeByte_pins (s : State) (x : Long) (v : Byte) : (s.writeByte x v).pins = s.pins := rfl
@[simp] theorem State.writeByte_inputs (s : State) (x : Long) (v : Byte) : (s.writeByte x v).inputs = s.inputs := rfl
@[simp] theorem State.writeByte_silent (s : State) (x : Long) (v : Byte) : (s.writeByte x v).silent = s.silent := rfl
@[simp] theorem State.writeByte_devices (s : State) (x : Long) (v : Byte) : (s.writeByte x v).devices = s.devices := rfl
@[simp] theorem State.writeByte_deviceLog (s : State) (x : Long) (v : Byte) : (s.writeByte x v).deviceLog = s.deviceLog := rfl
@[simp] theorem State.writeByte_resetPulses (s : State) (x : Long) (v : Byte) : (s.writeByte x v).resetPulses = s.resetPulses := rfl
@[simp] theorem State.writeByte_traceDue (s : State) (x : Long) (v : Byte) : (s.writeByte x v).traceDue = s.traceDue := rfl
@[simp] theorem State.writeByte_draws (s : State) (x : Long) (v : Byte) : (s.writeByte x v).draws = s.draws := rfl

@[simp] theorem State.writeWord_d (s : State) (x : Long) (v : Word) : (s.writeWord x v).d = s.d := by simp [State.writeWord]
@[simp] theorem State.writeWord_a (s : State) (x : Long) (v : Word) : (s.writeWord x v).a = s.a := by simp [State.writeWord]
@[simp] theorem State.writeWord_usp (s : State) (x : Long) (v : Word) : (s.writeWord x v).usp = s.usp := by simp [State.writeWord]
@[simp] theorem State.writeWord_ssp (s : State) (x : Long) (v : Word) : (s.writeWord x v).ssp = s.ssp := by simp [State.writeWord]
@[simp] theorem State.writeWord_pc (s : State) (x : Long) (v : Word) : (s.writeWord x v).pc = s.pc := by simp [State.writeWord]
@[simp] theorem State.writeWord_sr (s : State) (x : Long) (v : Word) : (s.writeWord x v).sr = s.sr := by simp [State.writeWord]
@[simp] theorem State.writeWord_stopped (s : State) (x : Long) (v : Word) : (s.writeWord x v).stopped = s.stopped := by simp [State.writeWord]
@[simp] theorem State.writeWord_halted (s : State) (x : Long) (v : Word) : (s.writeWord x v).halted = s.halted := by simp [State.writeWord]
@[simp] theorem State.writeWord_nmiEdge (s : State) (x : Long) (v : Word) : (s.writeWord x v).nmiEdge = s.nmiEdge := by simp [State.writeWord]
@[simp] theorem State.writeWord_ir (s : State) (x : Long) (v : Word) : (s.writeWord x v).ir = s.ir := by simp [State.writeWord]
@[simp] theorem State.writeWord_prefetch (s : State) (x : Long) (v : Word) : (s.writeWord x v).prefetch = s.prefetch := by simp [State.writeWord]
@[simp] theorem State.writeWord_pins (s : State) (x : Long) (v : Word) : (s.writeWord x v).pins = s.pins := by simp [State.writeWord]
@[simp] theorem State.writeWord_inputs (s : State) (x : Long) (v : Word) : (s.writeWord x v).inputs = s.inputs := by simp [State.writeWord]
@[simp] theorem State.writeWord_silent (s : State) (x : Long) (v : Word) : (s.writeWord x v).silent = s.silent := by simp [State.writeWord]
@[simp] theorem State.writeWord_devices (s : State) (x : Long) (v : Word) : (s.writeWord x v).devices = s.devices := by simp [State.writeWord]
@[simp] theorem State.writeWord_deviceLog (s : State) (x : Long) (v : Word) : (s.writeWord x v).deviceLog = s.deviceLog := by simp [State.writeWord]
@[simp] theorem State.writeWord_resetPulses (s : State) (x : Long) (v : Word) : (s.writeWord x v).resetPulses = s.resetPulses := by simp [State.writeWord]
@[simp] theorem State.writeWord_traceDue (s : State) (x : Long) (v : Word) : (s.writeWord x v).traceDue = s.traceDue := by simp [State.writeWord]
@[simp] theorem State.writeWord_draws (s : State) (x : Long) (v : Word) : (s.writeWord x v).draws = s.draws := by simp [State.writeWord]

@[simp] theorem State.writeLong_d (s : State) (x : Long) (v : Long) : (s.writeLong x v).d = s.d := by simp [State.writeLong]
@[simp] theorem State.writeLong_a (s : State) (x : Long) (v : Long) : (s.writeLong x v).a = s.a := by simp [State.writeLong]
@[simp] theorem State.writeLong_usp (s : State) (x : Long) (v : Long) : (s.writeLong x v).usp = s.usp := by simp [State.writeLong]
@[simp] theorem State.writeLong_ssp (s : State) (x : Long) (v : Long) : (s.writeLong x v).ssp = s.ssp := by simp [State.writeLong]
@[simp] theorem State.writeLong_pc (s : State) (x : Long) (v : Long) : (s.writeLong x v).pc = s.pc := by simp [State.writeLong]
@[simp] theorem State.writeLong_sr (s : State) (x : Long) (v : Long) : (s.writeLong x v).sr = s.sr := by simp [State.writeLong]
@[simp] theorem State.writeLong_stopped (s : State) (x : Long) (v : Long) : (s.writeLong x v).stopped = s.stopped := by simp [State.writeLong]
@[simp] theorem State.writeLong_halted (s : State) (x : Long) (v : Long) : (s.writeLong x v).halted = s.halted := by simp [State.writeLong]
@[simp] theorem State.writeLong_nmiEdge (s : State) (x : Long) (v : Long) : (s.writeLong x v).nmiEdge = s.nmiEdge := by simp [State.writeLong]
@[simp] theorem State.writeLong_ir (s : State) (x : Long) (v : Long) : (s.writeLong x v).ir = s.ir := by simp [State.writeLong]
@[simp] theorem State.writeLong_prefetch (s : State) (x : Long) (v : Long) : (s.writeLong x v).prefetch = s.prefetch := by simp [State.writeLong]
@[simp] theorem State.writeLong_pins (s : State) (x : Long) (v : Long) : (s.writeLong x v).pins = s.pins := by simp [State.writeLong]
@[simp] theorem State.writeLong_inputs (s : State) (x : Long) (v : Long) : (s.writeLong x v).inputs = s.inputs := by simp [State.writeLong]
@[simp] theorem State.writeLong_silent (s : State) (x : Long) (v : Long) : (s.writeLong x v).silent = s.silent := by simp [State.writeLong]
@[simp] theorem State.writeLong_devices (s : State) (x : Long) (v : Long) : (s.writeLong x v).devices = s.devices := by simp [State.writeLong]
@[simp] theorem State.writeLong_deviceLog (s : State) (x : Long) (v : Long) : (s.writeLong x v).deviceLog = s.deviceLog := by simp [State.writeLong]
@[simp] theorem State.writeLong_resetPulses (s : State) (x : Long) (v : Long) : (s.writeLong x v).resetPulses = s.resetPulses := by simp [State.writeLong]
@[simp] theorem State.writeLong_traceDue (s : State) (x : Long) (v : Long) : (s.writeLong x v).traceDue = s.traceDue := by simp [State.writeLong]
@[simp] theorem State.writeLong_draws (s : State) (x : Long) (v : Long) : (s.writeLong x v).draws = s.draws := by simp [State.writeLong]

@[simp] theorem State.writeSized_d (s : State) (sz : Size) (x : Long) (v : BitVec sz.bits) : (s.writeSized sz x v).d = s.d := by cases sz <;> simp [State.writeSized]
@[simp] theorem State.writeSized_a (s : State) (sz : Size) (x : Long) (v : BitVec sz.bits) : (s.writeSized sz x v).a = s.a := by cases sz <;> simp [State.writeSized]
@[simp] theorem State.writeSized_usp (s : State) (sz : Size) (x : Long) (v : BitVec sz.bits) : (s.writeSized sz x v).usp = s.usp := by cases sz <;> simp [State.writeSized]
@[simp] theorem State.writeSized_ssp (s : State) (sz : Size) (x : Long) (v : BitVec sz.bits) : (s.writeSized sz x v).ssp = s.ssp := by cases sz <;> simp [State.writeSized]
@[simp] theorem State.writeSized_pc (s : State) (sz : Size) (x : Long) (v : BitVec sz.bits) : (s.writeSized sz x v).pc = s.pc := by cases sz <;> simp [State.writeSized]
@[simp] theorem State.writeSized_sr (s : State) (sz : Size) (x : Long) (v : BitVec sz.bits) : (s.writeSized sz x v).sr = s.sr := by cases sz <;> simp [State.writeSized]
@[simp] theorem State.writeSized_stopped (s : State) (sz : Size) (x : Long) (v : BitVec sz.bits) : (s.writeSized sz x v).stopped = s.stopped := by cases sz <;> simp [State.writeSized]
@[simp] theorem State.writeSized_halted (s : State) (sz : Size) (x : Long) (v : BitVec sz.bits) : (s.writeSized sz x v).halted = s.halted := by cases sz <;> simp [State.writeSized]
@[simp] theorem State.writeSized_nmiEdge (s : State) (sz : Size) (x : Long) (v : BitVec sz.bits) : (s.writeSized sz x v).nmiEdge = s.nmiEdge := by cases sz <;> simp [State.writeSized]
@[simp] theorem State.writeSized_ir (s : State) (sz : Size) (x : Long) (v : BitVec sz.bits) : (s.writeSized sz x v).ir = s.ir := by cases sz <;> simp [State.writeSized]
@[simp] theorem State.writeSized_prefetch (s : State) (sz : Size) (x : Long) (v : BitVec sz.bits) : (s.writeSized sz x v).prefetch = s.prefetch := by cases sz <;> simp [State.writeSized]
@[simp] theorem State.writeSized_pins (s : State) (sz : Size) (x : Long) (v : BitVec sz.bits) : (s.writeSized sz x v).pins = s.pins := by cases sz <;> simp [State.writeSized]
@[simp] theorem State.writeSized_inputs (s : State) (sz : Size) (x : Long) (v : BitVec sz.bits) : (s.writeSized sz x v).inputs = s.inputs := by cases sz <;> simp [State.writeSized]
@[simp] theorem State.writeSized_silent (s : State) (sz : Size) (x : Long) (v : BitVec sz.bits) : (s.writeSized sz x v).silent = s.silent := by cases sz <;> simp [State.writeSized]
@[simp] theorem State.writeSized_devices (s : State) (sz : Size) (x : Long) (v : BitVec sz.bits) : (s.writeSized sz x v).devices = s.devices := by cases sz <;> simp [State.writeSized]
@[simp] theorem State.writeSized_deviceLog (s : State) (sz : Size) (x : Long) (v : BitVec sz.bits) : (s.writeSized sz x v).deviceLog = s.deviceLog := by cases sz <;> simp [State.writeSized]
@[simp] theorem State.writeSized_resetPulses (s : State) (sz : Size) (x : Long) (v : BitVec sz.bits) : (s.writeSized sz x v).resetPulses = s.resetPulses := by cases sz <;> simp [State.writeSized]
@[simp] theorem State.writeSized_traceDue (s : State) (sz : Size) (x : Long) (v : BitVec sz.bits) : (s.writeSized sz x v).traceDue = s.traceDue := by cases sz <;> simp [State.writeSized]
@[simp] theorem State.writeSized_draws (s : State) (sz : Size) (x : Long) (v : BitVec sz.bits) : (s.writeSized sz x v).draws = s.draws := by cases sz <;> simp [State.writeSized]

/-! ## What registers read after updates -/

@[simp] theorem State.dreg_setDreg_self (s : State) (r : RegNo) (v : Long) : (s.setDreg r v).dreg r = v := by
  simp [State.dreg, State.setDreg]

theorem State.dreg_setDreg_of_ne (s : State) {r q : RegNo} (v : Long) (h : q ≠ r) : (s.setDreg r v).dreg q = s.dreg q := by
  have : r.toNat ≠ q.toNat := fun e => h (BitVec.eq_of_toNat_eq e.symm)
  simp [State.dreg, State.setDreg, Vector.getElem_set_ne _ _ this]

@[simp] theorem State.dreg_putDreg_self {n : Nat} (s : State) (r : RegNo) (v : BitVec n) :
    (s.putDreg r v).dreg r = merge (s.dreg r) v := by simp [State.putDreg]

theorem State.dreg_putDreg_of_ne {n : Nat} (s : State) {r q : RegNo} (v : BitVec n) (h : q ≠ r) :
    (s.putDreg r v).dreg q = s.dreg q := State.dreg_setDreg_of_ne s _ h

theorem State.dreg_congr {s t : State} (h : s.d = t.d) (r : RegNo) : s.dreg r = t.dreg r := by
  simp [State.dreg, h]

@[simp] theorem State.sp_setSp (s : State) (v : Long) : (s.setSp v).sp = v := by
  unfold State.setSp State.sp; split <;> simp_all

/-- Only the three address-register fields and S matter to what an address register reads. -/
theorem State.areg_congr {s t : State} (ha : s.a = t.a) (hu : s.usp = t.usp) (hs : s.ssp = t.ssp)
    (hsr : s.sr.s = t.sr.s) (r : RegNo) : s.areg r = t.areg r := by
  simp [State.areg, State.sp, ha, hu, hs, hsr]

@[simp] theorem State.areg_seven (s : State) : s.areg 7#3 = s.sp := by simp [State.areg]

@[simp] theorem State.areg_setAreg_self (s : State) (r : RegNo) (v : Long) : (s.setAreg r v).areg r = v := by
  unfold State.setAreg State.areg; split <;> simp

theorem State.areg_setAreg_of_ne (s : State) {r q : RegNo} (v : Long) (h : q ≠ r) : (s.setAreg r v).areg q = s.areg q := by
  have hn : r.toNat ≠ q.toNat := fun e => h (BitVec.eq_of_toNat_eq e.symm)
  unfold State.setAreg State.areg
  split
  · split
    · simp [Vector.getElem_set_ne _ _ hn]
    · simp
  · split
    · rfl
    · have := r.isLt; have := q.isLt; omega

@[simp] theorem State.dreg_setAreg (s : State) (r q : RegNo) (v : Long) : (s.setAreg r v).dreg q = s.dreg q :=
  State.dreg_congr (by simp) q

@[simp] theorem State.dreg_setSp (s : State) (q : RegNo) (v : Long) : (s.setSp v).dreg q = s.dreg q :=
  State.dreg_congr (by simp) q

@[simp] theorem State.areg_setDreg (s : State) (r q : RegNo) (v : Long) : (s.setDreg r v).areg q = s.areg q := rfl

@[simp] theorem State.areg_putDreg {n : Nat} (s : State) (r q : RegNo) (v : BitVec n) :
    (s.putDreg r v).areg q = s.areg q := rfl

@[simp] theorem State.sp_setDreg (s : State) (r : RegNo) (v : Long) : (s.setDreg r v).sp = s.sp := rfl

@[simp] theorem State.sp_putDreg {n : Nat} (s : State) (r : RegNo) (v : BitVec n) : (s.putDreg r v).sp = s.sp := rfl

@[simp] theorem State.dreg_writeSized (s : State) (sz : Size) (x : Long) (v : BitVec sz.bits) (q : RegNo) :
    (s.writeSized sz x v).dreg q = s.dreg q := State.dreg_congr (by simp) q

@[simp] theorem State.areg_writeSized (s : State) (sz : Size) (x : Long) (v : BitVec sz.bits) (q : RegNo) :
    (s.writeSized sz x v).areg q = s.areg q := State.areg_congr (by simp) (by simp) (by simp) (by simp) q

@[simp] theorem State.sp_writeSized (s : State) (sz : Size) (x : Long) (v : BitVec sz.bits) :
    (s.writeSized sz x v).sp = s.sp := by simp [State.sp]

/-- The inactive stack pointer is not what a write of the active one changes (10_state.md R22). -/
theorem State.setSp_usp_of_supervisor {s : State} (h : s.sr.s = true) (v : Long) : (s.setSp v).usp = s.usp := by
  simp [State.setSp, h]

theorem State.setSp_ssp_of_user {s : State} (h : s.sr.s = false) (v : Long) : (s.setSp v).ssp = s.ssp := by
  simp [State.setSp, h]

/-! ## What memory reads after register updates -/

/-- Only memory matters to what a byte reads. -/
theorem State.readByte_congr {s t : State} (h : s.mem = t.mem) (x : Long) : s.readByte x = t.readByte x := by
  simp [State.readByte, h]

theorem State.readSized_congr {s t : State} (h : s.mem = t.mem) (sz : Size) (x : Long) :
    s.readSized sz x = t.readSized sz x := by
  cases sz <;> simp [State.readSized, State.readLong, State.readWord, State.readByte, h]

@[simp] theorem State.readSized_setAreg (s : State) (r : RegNo) (v : Long) (sz : Size) (x : Long) :
    (s.setAreg r v).readSized sz x = s.readSized sz x := State.readSized_congr (by simp) sz x

@[simp] theorem State.readSized_setSp (s : State) (v : Long) (sz : Size) (x : Long) :
    (s.setSp v).readSized sz x = s.readSized sz x := State.readSized_congr (by simp) sz x

@[simp] theorem State.readSized_setDreg (s : State) (r : RegNo) (v : Long) (sz : Size) (x : Long) :
    (s.setDreg r v).readSized sz x = s.readSized sz x := State.readSized_congr (by simp) sz x

/-! ## Which accesses are answered depends on the platform alone -/

theorem State.answers_congr {s t : State} (h : s.silent = t.silent) (sz : Size) (x : Long) :
    s.answers sz x = t.answers sz x := by
  cases sz <;> simp [State.answers, State.wordAnswers, State.answersAt, h]

/-- Which bytes are memory cells depends on the platform's map alone. -/
theorem State.isCells_congr {s t : State} (h : s.devices = t.devices) (sz : Size) (x : Long) :
    s.isCells sz x = t.isCells sz x := by
  cases sz <;> simp [State.isCells, State.wordDevice, State.deviceAt, h]

theorem State.accessOk_congr {s t : State} (h : s.silent = t.silent) (sz : Size) (x : Long) :
    s.accessOk sz x = t.accessOk sz x := by
  simp [State.accessOk, State.answers_congr h]

theorem State.accessOk_of_no_silent {s : State} (h : s.silent = []) {sz : Size} {x : Long}
    (hx : misaligned sz x = false) : s.accessOk sz x = true := by
  cases sz <;> simp_all [State.accessOk, State.answers, State.wordAnswers, State.answersAt]

end Sys2Proof.Machine
end

