-- ==== Sys2Proof/Laws/Memory.lean ====
section
/-! SUPPORT. Memory: a read after a write, and the canonical form that every memory operation keeps. -/

namespace Sys2Proof.Machine

/-! ## Read after write -/

theorem Memory.read_erase (m : List Host.Cell) (a b : Nat) :
    Memory.read (Memory.erase m a) b = if b = a then Memory.unlisted else Memory.read m b := by
  induction m with
  | nil => simp [Memory.erase, Memory.read]
  | cons c rest ih =>
    obtain ⟨k, v⟩ := c
    simp only [Memory.erase] at ih ⊢
    by_cases hk : k = a
    · subst hk; simp only [List.filter_cons, ne_eq, not_true_eq_false, decide_false, Bool.false_eq_true, ↓reduceIte, ih,
        Memory.read]
      split
      · rfl
      · rw [if_neg (by omega)]
    · simp only [List.filter_cons, ne_eq, hk, not_false_eq_true, decide_true, ↓reduceIte, Memory.read, ih]
      by_cases hb : k = b
      · subst hb; simp [hk]
      · simp [hb]

theorem Memory.read_insert (m : List Host.Cell) (a : Nat) (v : Byte) (b : Nat) :
    Memory.read (Memory.insert m a v) b = if b = a then v else Memory.read m b := by
  induction m with
  | nil =>
    by_cases h : b = a
    · simp [Memory.insert, Memory.read, h]
    · simp [Memory.insert, Memory.read, h, Ne.symm h]
  | cons c rest ih =>
    obtain ⟨k, u⟩ := c
    simp only [Memory.insert]
    split
    · by_cases h : b = a
      · simp [Memory.read, h]
      · simp only [Memory.read, if_neg h, if_neg (Ne.symm h)]
    · split
      · rename_i h1 h2; subst h2
        by_cases h : b = a
        · simp [Memory.read, h]
        · simp only [Memory.read, if_neg h, if_neg (Ne.symm h)]
      · rename_i h1 h2
        simp only [Memory.read, ih]
        by_cases hk : k = b
        · subst hk; simp [Ne.symm h2]
        · simp [hk]

/-- A byte read after a byte written: the value written at its address, what was there at any other. -/
theorem Memory.read_write (m : List Host.Cell) (a : Nat) (v : Byte) (b : Nat) :
    Memory.read (Memory.write m a v) b = if b = a then v else Memory.read m b := by
  unfold Memory.write
  split
  · rename_i h; simp [Memory.read_erase, h]
  · exact Memory.read_insert m a v b

theorem State.readByte_writeByte (s : State) (x y : Long) (v : Byte) :
    (s.writeByte x v).readByte y = if addrOf y = addrOf x then v else s.readByte y := by
  simp [State.readByte, State.writeByte, Memory.read_write]

theorem State.readByte_writeByte_self (s : State) (x : Long) (v : Byte) : (s.writeByte x v).readByte x = v := by
  simp [State.readByte_writeByte]

theorem State.readByte_writeByte_of_ne (s : State) {x y : Long} (v : Byte) (h : addrOf y ≠ addrOf x) :
    (s.writeByte x v).readByte y = s.readByte y := by
  simp [State.readByte_writeByte, h]

/-! ## Addresses -/

/-- Addresses a few bytes apart are different bytes of the 24-bit space. -/
theorem addrOf_add_ne (x : Long) {i j : Nat} (hi : i < 2 ^ 24) (hj : j < 2 ^ 24) (h : i ≠ j) :
    addrOf (x + BitVec.ofNat 32 i) ≠ addrOf (x + BitVec.ofNat 32 j) := by
  simp only [addrOf, addrBits, BitVec.toNat_add, BitVec.toNat_ofNat]
  have := x.isLt
  omega

theorem bytesAt_one (x : Long) : bytesAt x 1 = [addrOf x] := by simp [bytesAt]

theorem bytesAt_two (x : Long) : bytesAt x 2 = [addrOf x, addrOf (x + 1#32)] := by simp [bytesAt, List.range_succ]

theorem bytesAt_four (x : Long) : bytesAt x 4 = [addrOf x, addrOf (x + 1#32), addrOf (x + 2#32), addrOf (x + 2#32 + 1#32)] := by
  have e3 : x + 2#32 + 1#32 = x + 3#32 := by bv_omega
  simp only [e3]
  simp [bytesAt, List.range_succ]

theorem State.readByte_writeWord_of_notMem (s : State) {x y : Long} (v : Word) (h : addrOf y ∉ bytesAt x 2) :
    (s.writeWord x v).readByte y = s.readByte y := by
  simp only [bytesAt_two, List.mem_cons, List.not_mem_nil, or_false, not_or] at h
  rw [State.writeWord, State.readByte_writeByte_of_ne _ _ h.2, State.readByte_writeByte_of_ne _ _ h.1]

theorem State.readByte_writeLong_of_notMem (s : State) {x y : Long} (v : Long) (h : addrOf y ∉ bytesAt x 4) :
    (s.writeLong x v).readByte y = s.readByte y := by
  simp only [bytesAt_four, List.mem_cons, List.not_mem_nil, or_false, not_or] at h
  rw [State.writeLong, State.readByte_writeWord_of_notMem, State.readByte_writeWord_of_notMem] <;>
    simp [bytesAt_two, h]

/-- A store changes no byte outside the bytes stored. -/
theorem State.readByte_writeSized_of_notMem (s : State) (sz : Size) {x y : Long} (v : BitVec sz.bits)
    (h : addrOf y ∉ bytesAt x sz.bytes) : (s.writeSized sz x v).readByte y = s.readByte y := by
  cases sz with
  | b => exact State.readByte_writeByte_of_ne s v (by simpa [bytesAt, Size.bytes] using h)
  | w => exact State.readByte_writeWord_of_notMem s v h
  | l => exact State.readByte_writeLong_of_notMem s v h

/-- The four bytes of a long word are different bytes of the space. -/
theorem addrOf_four_ne (x : Long) : addrOf x ≠ addrOf (x + 1#32) ∧ addrOf x ≠ addrOf (x + 2#32) ∧ addrOf x ≠ addrOf (x + 2#32 + 1#32) ∧
    addrOf (x + 1#32) ≠ addrOf (x + 2#32) ∧ addrOf (x + 1#32) ≠ addrOf (x + 2#32 + 1#32) ∧ addrOf (x + 2#32) ≠ addrOf (x + 2#32 + 1#32) := by
  have := x.isLt
  refine ⟨?_, ?_, ?_, ?_, ?_, ?_⟩ <;> simp only [addrOf, addrBits, BitVec.toNat_add, BitVec.toNat_ofNat] <;> omega

/-- The two bytes of a word are the word. -/
theorem append_bytes (v : Word) : v.extractLsb' 8 8 ++ v.extractLsb' 0 8 = v := by
  ext i hi
  rw [BitVec.getElem_append]
  split
  · simp [BitVec.getLsbD_eq_getElem, hi]
  · simp [show 8 + (i - 8) = i by omega, BitVec.getLsbD_eq_getElem, hi]

/-- The two words of a long word are the long word. -/
theorem append_words (v : Long) : v.extractLsb' 16 16 ++ v.extractLsb' 0 16 = v := by
  ext i hi
  rw [BitVec.getElem_append]
  split
  · simp [BitVec.getLsbD_eq_getElem, hi]
  · simp [show 16 + (i - 16) = i by omega, BitVec.getLsbD_eq_getElem, hi]

theorem State.readWord_writeWord_self (s : State) (x : Long) (v : Word) : (s.writeWord x v).readWord x = v := by
  rw [State.readWord, State.writeWord, State.readByte_writeByte_of_ne _ _ (addrOf_four_ne x).1,
    State.readByte_writeByte_self, State.readByte_writeByte_self, append_bytes]

theorem State.readLong_writeLong_self (s : State) (x : Long) (v : Long) : (s.writeLong x v).readLong x = v := by
  obtain ⟨-, h1, h2, h3, h4, -⟩ := addrOf_four_ne x
  have hw : ((s.writeWord x (v.extractLsb' 16 16)).writeWord (x + 2#32) (v.extractLsb' 0 16)).readWord x =
      (s.writeWord x (v.extractLsb' 16 16)).readWord x := by
    have e0 := State.readByte_writeWord_of_notMem (s.writeWord x (v.extractLsb' 16 16)) (x := x + 2#32) (y := x)
      (v.extractLsb' 0 16) (by simp [bytesAt_two, h1, h2])
    have e1 := State.readByte_writeWord_of_notMem (s.writeWord x (v.extractLsb' 16 16)) (x := x + 2#32) (y := x + 1#32)
      (v.extractLsb' 0 16) (by simp [bytesAt_two, h3, h4])
    simp only [State.readWord, e0, e1]
  rw [State.readLong, State.writeLong, hw, State.readWord_writeWord_self, State.readWord_writeWord_self, append_words]

/-- A value read after it was stored at the same address is that value. -/
theorem State.readSized_writeSized_self (s : State) (sz : Size) (x : Long) (v : BitVec sz.bits) :
    (s.writeSized sz x v).readSized sz x = v := by
  cases sz with
  | b => exact State.readByte_writeByte_self s x v
  | w => exact State.readWord_writeWord_self s x v
  | l => exact State.readLong_writeLong_self s x v

/-! ## The canonical form -/

theorem Memory.wfFrom_mono {m : List Host.Cell} {lo lo' : Nat} (h : lo ≤ lo') (hm : Memory.wfFrom lo' m = true) :
    Memory.wfFrom lo m = true := by
  cases m with
  | nil => rfl
  | cons c rest =>
    obtain ⟨k, v⟩ := c
    simp only [Memory.wfFrom, Bool.and_eq_true, decide_eq_true_eq] at hm ⊢
    exact ⟨⟨⟨by omega, hm.1.1.2⟩, hm.1.2⟩, hm.2⟩

theorem Memory.wfFrom_erase {m : List Host.Cell} {lo : Nat} (a : Nat) (h : Memory.wfFrom lo m = true) :
    Memory.wfFrom lo (Memory.erase m a) = true := by
  induction m generalizing lo with
  | nil => rfl
  | cons c rest ih =>
    obtain ⟨k, v⟩ := c
    simp only [Memory.wfFrom, Bool.and_eq_true, decide_eq_true_eq] at h
    obtain ⟨⟨⟨h1, h2⟩, h3⟩, h4⟩ := h
    have ih' := ih h4
    unfold Memory.erase at ih' ⊢
    rw [List.filter_cons]
    split
    · simp only [Memory.wfFrom, Bool.and_eq_true, decide_eq_true_eq]
      exact ⟨⟨⟨h1, h2⟩, h3⟩, ih'⟩
    · exact Memory.wfFrom_mono (by omega) ih'

theorem Memory.wfFrom_insert {m : List Host.Cell} {lo a : Nat} {v : Byte} (hlo : lo ≤ a) (ha : a < 2 ^ addrBits)
    (hv : v ≠ Memory.unlisted) (h : Memory.wfFrom lo m = true) : Memory.wfFrom lo (Memory.insert m a v) = true := by
  induction m generalizing lo with
  | nil => simp [Memory.insert, Memory.wfFrom, hlo, ha, hv]
  | cons c rest ih =>
    obtain ⟨k, u⟩ := c
    simp only [Memory.wfFrom, Bool.and_eq_true, decide_eq_true_eq] at h
    obtain ⟨⟨⟨h1, h2⟩, h3⟩, h4⟩ := h
    simp only [Memory.insert]
    split
    · simp only [Memory.wfFrom, Bool.and_eq_true, decide_eq_true_eq]
      exact ⟨⟨⟨hlo, ha⟩, by simpa using hv⟩, ⟨⟨⟨by omega, h2⟩, h3⟩, h4⟩⟩
    · split
      · rename_i hk; subst hk
        simp only [Memory.wfFrom, Bool.and_eq_true, decide_eq_true_eq]
        exact ⟨⟨⟨hlo, ha⟩, by simpa using hv⟩, h4⟩
      · simp only [Memory.wfFrom, Bool.and_eq_true, decide_eq_true_eq]
        exact ⟨⟨⟨h1, h2⟩, h3⟩, ih (by omega) h4⟩

/-- A write keeps the canonical form. -/
theorem Memory.wf_write {m : List Host.Cell} {a : Nat} (v : Byte) (ha : a < 2 ^ addrBits) (h : Memory.wf m = true) :
    Memory.wf (Memory.write m a v) = true := by
  unfold Memory.write
  split
  · exact Memory.wfFrom_erase a h
  · exact Memory.wfFrom_insert (Nat.zero_le _) ha ‹_› h

theorem addrOf_lt (x : Long) : addrOf x < 2 ^ addrBits := Nat.mod_lt _ (by decide)

theorem State.wf_writeByte {s : State} (x : Long) (v : Byte) (h : Memory.wf s.mem = true) :
    Memory.wf (s.writeByte x v).mem = true := Memory.wf_write v (addrOf_lt x) h

theorem State.wf_writeWord {s : State} (x : Long) (v : Word) (h : Memory.wf s.mem = true) :
    Memory.wf (s.writeWord x v).mem = true := State.wf_writeByte _ _ (State.wf_writeByte _ _ h)

theorem State.wf_writeLong {s : State} (x : Long) (v : Long) (h : Memory.wf s.mem = true) :
    Memory.wf (s.writeLong x v).mem = true := State.wf_writeWord _ _ (State.wf_writeWord _ _ h)

/-- Every store keeps the canonical form. -/
theorem State.wf_writeSized {s : State} (sz : Size) (x : Long) (v : BitVec sz.bits) (h : Memory.wf s.mem = true) :
    Memory.wf (s.writeSized sz x v).mem = true := by
  cases sz with
  | b => exact State.wf_writeByte x v h
  | w => exact State.wf_writeWord x v h
  | l => exact State.wf_writeLong x v h

theorem Memory.wf_nil : Memory.wf [] = true := rfl

end Sys2Proof.Machine
end

