-- ==== Sys2Proof/Laws/Bus.lean ====
section
/-! SUPPORT. The bus: what an access does to the state, to memory cells and to what the devices have seen. -/

namespace Sys2Proof.Machine

/-! ## What a cycle can change -/

theorem State.readByteCycle_state (s : State) (x : Long) :
    ∃ l, (s.readByteCycle x).2 = { s with deviceLog := l } := by
  simp only [State.readByteCycle]
  split
  · exact ⟨_, rfl⟩
  · exact ⟨s.deviceLog, rfl⟩

theorem State.readWordCycle_state (s : State) (x : Long) :
    ∃ l, (s.readWordCycle x).2 = { s with deviceLog := l } := by
  simp only [State.readWordCycle]
  split
  · exact ⟨_, rfl⟩
  · exact ⟨s.deviceLog, rfl⟩

theorem State.readHalves_state (s : State) (x : Long) (b : Bool) :
    ∃ l, (s.readHalves x b).2 = { s with deviceLog := l } := by
  cases b with
  | true =>
    obtain ⟨l1, h1⟩ := s.readWordCycle_state x
    obtain ⟨l2, h2⟩ := State.readWordCycle_state { s with deviceLog := l1 } (x + 2#32)
    exact ⟨l2, by simp [State.readHalves, h1, h2]⟩
  | false =>
    obtain ⟨l1, h1⟩ := s.readWordCycle_state (x + 2#32)
    obtain ⟨l2, h2⟩ := State.readWordCycle_state { s with deviceLog := l1 } x
    exact ⟨l2, by simp [State.readHalves, h1, h2]⟩

/-- A read changes nothing but what the devices have seen and the count of draws. -/
theorem State.busRead_state (s : State) (sz : Size) (x : Long) :
    ∃ l n, (s.busRead sz x).2 = { s with deviceLog := l, draws := n } := by
  cases sz with
  | b =>
    obtain ⟨l, h⟩ := s.readByteCycle_state x
    exact ⟨l, s.draws, by simp [State.busRead, h]⟩
  | w =>
    obtain ⟨l, h⟩ := s.readWordCycle_state x
    exact ⟨l, s.draws, by simp [State.busRead, h]⟩
  | l =>
    simp only [State.busRead, State.readLongCycles]
    split
    · exact ⟨s.deviceLog, s.draws, rfl⟩
    · obtain ⟨l, h⟩ := s.drawn.2.readHalves_state x s.drawn.1
      exact ⟨l, s.draws + 1, h⟩

theorem State.halfRead_state (s : State) (sz : Size) (x : Long) :
    ∃ l n, s.halfRead sz x = { s with deviceLog := l, draws := n } := by
  simp only [State.halfRead, State.drawn]
  split
  · exact ⟨s.deviceLog, s.draws, rfl⟩
  · rename_i h _
    split
    · obtain ⟨l, e⟩ := State.readWordCycle_state { s with draws := s.draws + 1 } h
      cases Config.freeBit s.draws with
      | true => exact ⟨l, s.draws + 1, e⟩
      | false => exact ⟨s.deviceLog, s.draws + 1, rfl⟩
    · exact ⟨s.deviceLog, s.draws, rfl⟩

theorem State.writeCell_state (s : State) (x : Long) (v : Byte) :
    ∃ m, s.writeCell x v = { s with mem := m } := by
  simp only [State.writeCell]
  split
  · exact ⟨s.mem, rfl⟩
  · exact ⟨_, rfl⟩

theorem State.writeWordCycle_state (s : State) (x : Long) (v : Word) :
    ∃ m l, s.writeWordCycle x v = { s with mem := m, deviceLog := l } := by
  simp only [State.writeWordCycle]
  obtain ⟨m1, h1⟩ := s.writeCell_state x (v.extractLsb' 8 8)
  obtain ⟨m2, h2⟩ := State.writeCell_state { s with mem := m1 } (x + 1#32) (v.extractLsb' 0 8)
  rw [h1, h2]
  split
  · exact ⟨m2, _, rfl⟩
  · exact ⟨m2, s.deviceLog, rfl⟩

theorem State.writeHalves_state (s : State) (x : Long) (v : Long) (b : Bool) :
    ∃ m l, s.writeHalves x v b = { s with mem := m, deviceLog := l } := by
  cases b with
  | true =>
    obtain ⟨m1, l1, h1⟩ := s.writeWordCycle_state x (v.extractLsb' 16 16)
    obtain ⟨m2, l2, h2⟩ := State.writeWordCycle_state { s with mem := m1, deviceLog := l1 } (x + 2#32) (v.extractLsb' 0 16)
    exact ⟨m2, l2, by rw [State.writeHalves, h1, h2]⟩
  | false =>
    obtain ⟨m1, l1, h1⟩ := s.writeWordCycle_state (x + 2#32) (v.extractLsb' 0 16)
    obtain ⟨m2, l2, h2⟩ := State.writeWordCycle_state { s with mem := m1, deviceLog := l1 } x (v.extractLsb' 16 16)
    exact ⟨m2, l2, by rw [State.writeHalves, h1, h2]⟩

/-- A write changes nothing but memory, what the devices have seen and the count of draws. -/
theorem State.busWrite_state (s : State) (sz : Size) (x : Long) (v : BitVec sz.bits) :
    ∃ m l n, s.busWrite sz x v = { s with mem := m, deviceLog := l, draws := n } := by
  cases sz with
  | b =>
    simp only [State.busWrite, State.writeByteCycle]
    split
    · exact ⟨s.mem, _, s.draws, rfl⟩
    · exact ⟨_, s.deviceLog, s.draws, rfl⟩
  | w =>
    obtain ⟨m, l, h⟩ := s.writeWordCycle_state x v
    exact ⟨m, l, s.draws, by simp [State.busWrite, h]⟩
  | l =>
    simp only [State.busWrite, State.writeLongCycles]
    split
    · exact ⟨_, s.deviceLog, s.draws, rfl⟩
    · obtain ⟨m, l, h⟩ := s.drawn.2.writeHalves_state x v s.drawn.1
      exact ⟨m, l, s.draws + 1, h⟩

theorem State.halfWritten_state (s : State) (sz : Size) (x : Long) (v : BitVec sz.bits) :
    ∃ m l n, s.halfWritten sz x v = { s with mem := m, deviceLog := l, draws := n } := by
  simp only [State.halfWritten, State.drawn]
  split
  · exact ⟨s.mem, s.deviceLog, s.draws, rfl⟩
  · rename_i h _
    cases Config.freeBit s.draws with
    | true =>
      obtain ⟨m, l, e⟩ := State.writeWordCycle_state { s with draws := s.draws + 1 } h
        (if h = x then v.extractLsb' 16 16 else v.extractLsb' 0 16)
      exact ⟨m, l, s.draws + 1, e⟩
    | false => exact ⟨s.mem, s.deviceLog, s.draws + 1, rfl⟩

/-! ## One lemma per field -/

@[simp] theorem State.busRead_d (s : State) (sz : Size) (x : Long) : (s.busRead sz x).2.d = s.d := by
  obtain ⟨l, n, h⟩ := s.busRead_state sz x; rw [h]
@[simp] theorem State.busRead_a (s : State) (sz : Size) (x : Long) : (s.busRead sz x).2.a = s.a := by
  obtain ⟨l, n, h⟩ := s.busRead_state sz x; rw [h]
@[simp] theorem State.busRead_usp (s : State) (sz : Size) (x : Long) : (s.busRead sz x).2.usp = s.usp := by
  obtain ⟨l, n, h⟩ := s.busRead_state sz x; rw [h]
@[simp] theorem State.busRead_ssp (s : State) (sz : Size) (x : Long) : (s.busRead sz x).2.ssp = s.ssp := by
  obtain ⟨l, n, h⟩ := s.busRead_state sz x; rw [h]
@[simp] theorem State.busRead_pc (s : State) (sz : Size) (x : Long) : (s.busRead sz x).2.pc = s.pc := by
  obtain ⟨l, n, h⟩ := s.busRead_state sz x; rw [h]
@[simp] theorem State.busRead_sr (s : State) (sz : Size) (x : Long) : (s.busRead sz x).2.sr = s.sr := by
  obtain ⟨l, n, h⟩ := s.busRead_state sz x; rw [h]
@[simp] theorem State.busRead_stopped (s : State) (sz : Size) (x : Long) : (s.busRead sz x).2.stopped = s.stopped := by
  obtain ⟨l, n, h⟩ := s.busRead_state sz x; rw [h]
@[simp] theorem State.busRead_halted (s : State) (sz : Size) (x : Long) : (s.busRead sz x).2.halted = s.halted := by
  obtain ⟨l, n, h⟩ := s.busRead_state sz x; rw [h]
@[simp] theorem State.busRead_nmiEdge (s : State) (sz : Size) (x : Long) : (s.busRead sz x).2.nmiEdge = s.nmiEdge := by
  obtain ⟨l, n, h⟩ := s.busRead_state sz x; rw [h]
@[simp] theorem State.busRead_ir (s : State) (sz : Size) (x : Long) : (s.busRead sz x).2.ir = s.ir := by
  obtain ⟨l, n, h⟩ := s.busRead_state sz x; rw [h]
@[simp] theorem State.busRead_prefetch (s : State) (sz : Size) (x : Long) : (s.busRead sz x).2.prefetch = s.prefetch := by
  obtain ⟨l, n, h⟩ := s.busRead_state sz x; rw [h]
@[simp] theorem State.busRead_pins (s : State) (sz : Size) (x : Long) : (s.busRead sz x).2.pins = s.pins := by
  obtain ⟨l, n, h⟩ := s.busRead_state sz x; rw [h]
@[simp] theorem State.busRead_inputs (s : State) (sz : Size) (x : Long) : (s.busRead sz x).2.inputs = s.inputs := by
  obtain ⟨l, n, h⟩ := s.busRead_state sz x; rw [h]
@[simp] theorem State.busRead_silent (s : State) (sz : Size) (x : Long) : (s.busRead sz x).2.silent = s.silent := by
  obtain ⟨l, n, h⟩ := s.busRead_state sz x; rw [h]
@[simp] theorem State.busRead_devices (s : State) (sz : Size) (x : Long) : (s.busRead sz x).2.devices = s.devices := by
  obtain ⟨l, n, h⟩ := s.busRead_state sz x; rw [h]
@[simp] theorem State.busRead_resetPulses (s : State) (sz : Size) (x : Long) : (s.busRead sz x).2.resetPulses = s.resetPulses := by
  obtain ⟨l, n, h⟩ := s.busRead_state sz x; rw [h]
@[simp] theorem State.busRead_traceDue (s : State) (sz : Size) (x : Long) : (s.busRead sz x).2.traceDue = s.traceDue := by
  obtain ⟨l, n, h⟩ := s.busRead_state sz x; rw [h]
@[simp] theorem State.busRead_mem (s : State) (sz : Size) (x : Long) : (s.busRead sz x).2.mem = s.mem := by
  obtain ⟨l, n, h⟩ := s.busRead_state sz x; rw [h]

@[simp] theorem State.busWrite_d (s : State) (sz : Size) (x : Long) (v : BitVec sz.bits) : (s.busWrite sz x v).d = s.d := by
  obtain ⟨m, l, n, h⟩ := s.busWrite_state sz x v; rw [h]
@[simp] theorem State.busWrite_a (s : State) (sz : Size) (x : Long) (v : BitVec sz.bits) : (s.busWrite sz x v).a = s.a := by
  obtain ⟨m, l, n, h⟩ := s.busWrite_state sz x v; rw [h]
@[simp] theorem State.busWrite_usp (s : State) (sz : Size) (x : Long) (v : BitVec sz.bits) : (s.busWrite sz x v).usp = s.usp := by
  obtain ⟨m, l, n, h⟩ := s.busWrite_state sz x v; rw [h]
@[simp] theorem State.busWrite_ssp (s : State) (sz : Size) (x : Long) (v : BitVec sz.bits) : (s.busWrite sz x v).ssp = s.ssp := by
  obtain ⟨m, l, n, h⟩ := s.busWrite_state sz x v; rw [h]
@[simp] theorem State.busWrite_pc (s : State) (sz : Size) (x : Long) (v : BitVec sz.bits) : (s.busWrite sz x v).pc = s.pc := by
  obtain ⟨m, l, n, h⟩ := s.busWrite_state sz x v; rw [h]
@[simp] theorem State.busWrite_sr (s : State) (sz : Size) (x : Long) (v : BitVec sz.bits) : (s.busWrite sz x v).sr = s.sr := by
  obtain ⟨m, l, n, h⟩ := s.busWrite_state sz x v; rw [h]
@[simp] theorem State.busWrite_stopped (s : State) (sz : Size) (x : Long) (v : BitVec sz.bits) : (s.busWrite sz x v).stopped = s.stopped := by
  obtain ⟨m, l, n, h⟩ := s.busWrite_state sz x v; rw [h]
@[simp] theorem State.busWrite_halted (s : State) (sz : Size) (x : Long) (v : BitVec sz.bits) : (s.busWrite sz x v).halted = s.halted := by
  obtain ⟨m, l, n, h⟩ := s.busWrite_state sz x v; rw [h]
@[simp] theorem State.busWrite_nmiEdge (s : State) (sz : Size) (x : Long) (v : BitVec sz.bits) : (s.busWrite sz x v).nmiEdge = s.nmiEdge := by
  obtain ⟨m, l, n, h⟩ := s.busWrite_state sz x v; rw [h]
@[simp] theorem State.busWrite_ir (s : State) (sz : Size) (x : Long) (v : BitVec sz.bits) : (s.busWrite sz x v).ir = s.ir := by
  obtain ⟨m, l, n, h⟩ := s.busWrite_state sz x v; rw [h]
@[simp] theorem State.busWrite_prefetch (s : State) (sz : Size) (x : Long) (v : BitVec sz.bits) : (s.busWrite sz x v).prefetch = s.prefetch := by
  obtain ⟨m, l, n, h⟩ := s.busWrite_state sz x v; rw [h]
@[simp] theorem State.busWrite_pins (s : State) (sz : Size) (x : Long) (v : BitVec sz.bits) : (s.busWrite sz x v).pins = s.pins := by
  obtain ⟨m, l, n, h⟩ := s.busWrite_state sz x v; rw [h]
@[simp] theorem State.busWrite_inputs (s : State) (sz : Size) (x : Long) (v : BitVec sz.bits) : (s.busWrite sz x v).inputs = s.inputs := by
  obtain ⟨m, l, n, h⟩ := s.busWrite_state sz x v; rw [h]
@[simp] theorem State.busWrite_silent (s : State) (sz : Size) (x : Long) (v : BitVec sz.bits) : (s.busWrite sz x v).silent = s.silent := by
  obtain ⟨m, l, n, h⟩ := s.busWrite_state sz x v; rw [h]
@[simp] theorem State.busWrite_devices (s : State) (sz : Size) (x : Long) (v : BitVec sz.bits) : (s.busWrite sz x v).devices = s.devices := by
  obtain ⟨m, l, n, h⟩ := s.busWrite_state sz x v; rw [h]
@[simp] theorem State.busWrite_resetPulses (s : State) (sz : Size) (x : Long) (v : BitVec sz.bits) : (s.busWrite sz x v).resetPulses = s.resetPulses := by
  obtain ⟨m, l, n, h⟩ := s.busWrite_state sz x v; rw [h]
@[simp] theorem State.busWrite_traceDue (s : State) (sz : Size) (x : Long) (v : BitVec sz.bits) : (s.busWrite sz x v).traceDue = s.traceDue := by
  obtain ⟨m, l, n, h⟩ := s.busWrite_state sz x v; rw [h]

@[simp] theorem State.dreg_busRead (s : State) (sz : Size) (x : Long) (r : RegNo) :
    (s.busRead sz x).2.dreg r = s.dreg r := State.dreg_congr (by simp) r

@[simp] theorem State.areg_busRead (s : State) (sz : Size) (x : Long) (r : RegNo) :
    (s.busRead sz x).2.areg r = s.areg r := State.areg_congr (by simp) (by simp) (by simp) (by simp) r

@[simp] theorem State.sp_busRead (s : State) (sz : Size) (x : Long) : (s.busRead sz x).2.sp = s.sp := by simp [State.sp]

@[simp] theorem State.dreg_busWrite (s : State) (sz : Size) (x : Long) (v : BitVec sz.bits) (r : RegNo) :
    (s.busWrite sz x v).dreg r = s.dreg r := State.dreg_congr (by simp) r

@[simp] theorem State.areg_busWrite (s : State) (sz : Size) (x : Long) (v : BitVec sz.bits) (r : RegNo) :
    (s.busWrite sz x v).areg r = s.areg r := State.areg_congr (by simp) (by simp) (by simp) (by simp) r

@[simp] theorem State.sp_busWrite (s : State) (sz : Size) (x : Long) (v : BitVec sz.bits) :
    (s.busWrite sz x v).sp = s.sp := by simp [State.sp]

/-! ## An access to memory cells -/

/-- A read of memory cells answers their bytes and changes nothing. -/
theorem State.busRead_cells {s : State} {sz : Size} {x : Long} (h : s.isCells sz x = true) :
    s.busRead sz x = (s.readSized sz x, s) := by
  cases sz with
  | b =>
    simp only [State.isCells, Bool.not_eq_true'] at h
    simp [State.busRead, State.readByteCycle, State.answer, h, State.readSized]
  | w =>
    simp only [State.isCells, State.wordDevice, Bool.not_eq_true', Bool.or_eq_false_iff] at h
    simp [State.busRead, State.readWordCycle, State.wordDevice, State.answer, h, State.readSized, State.readWord]
  | l => simp [State.busRead, State.readLongCycles, h, State.readSized]

/-- A write of memory cells stores the bytes and does nothing else. -/
theorem State.busWrite_cells {s : State} {sz : Size} {x : Long} (v : BitVec sz.bits) (h : s.isCells sz x = true) :
    s.busWrite sz x v = s.writeSized sz x v := by
  cases sz with
  | b =>
    simp only [State.isCells, Bool.not_eq_true'] at h
    simp [State.busWrite, State.writeByteCycle, h, State.writeSized]
  | w =>
    simp only [State.isCells, State.wordDevice, Bool.not_eq_true', Bool.or_eq_false_iff] at h
    have h' : (s.writeByte x (v.extractLsb' 8 8)).deviceAt (x + 1#32) = false := h.2
    simp [State.busWrite, State.writeWordCycle, State.wordDevice, State.writeCell, h, h', State.writeSized, State.writeWord]
  | l => simp [State.busWrite, State.writeLongCycles, h, State.writeSized]

/-! ## The cells a write changes, and the canonical form -/

theorem State.readByte_writeCell_of_ne (s : State) {x y : Long} (v : Byte) (h : addrOf y ≠ addrOf x) :
    (s.writeCell x v).readByte y = s.readByte y := by
  simp only [State.writeCell]
  split
  · rfl
  · exact s.readByte_writeByte_of_ne v h

theorem State.readByte_writeWordCycle_of_notMem (s : State) {x y : Long} (v : Word) (h : addrOf y ∉ bytesAt x 2) :
    (s.writeWordCycle x v).readByte y = s.readByte y := by
  simp only [bytesAt_two, List.mem_cons, List.not_mem_nil, or_false, not_or] at h
  have key : ((s.writeCell x (v.extractLsb' 8 8)).writeCell (x + 1#32) (v.extractLsb' 0 8)).readByte y = s.readByte y := by
    rw [State.readByte_writeCell_of_ne _ _ h.2, State.readByte_writeCell_of_ne _ _ h.1]
  simp only [State.writeWordCycle]
  split <;> exact key

/-- A write changes no cell outside the bytes of the access, whatever answers there. -/
theorem State.readByte_busWrite_of_notMem (s : State) (sz : Size) {x y : Long} (v : BitVec sz.bits)
    (h : addrOf y ∉ bytesAt x sz.bytes) : (s.busWrite sz x v).readByte y = s.readByte y := by
  cases sz with
  | b =>
    simp only [State.busWrite, State.writeByteCycle]
    split
    · rfl
    · exact s.readByte_writeSized_of_notMem .b v h
  | w => exact s.readByte_writeWordCycle_of_notMem v h
  | l =>
    have h4 : addrOf y ∉ bytesAt x 4 := h
    have h1 : addrOf y ∉ bytesAt x 2 := fun m => h4 (by simp only [bytesAt_two, bytesAt_four] at *; aesop)
    have h2 : addrOf y ∉ bytesAt (x + 2#32) 2 := fun m => h4 (by simp only [bytesAt_two, bytesAt_four] at *; aesop)
    simp only [State.busWrite, State.writeLongCycles]
    split
    · exact s.readByte_writeLong_of_notMem v h4
    · cases s.drawn.1 with
      | true => exact (State.readByte_writeWordCycle_of_notMem _ _ h2).trans (State.readByte_writeWordCycle_of_notMem _ _ h1)
      | false => exact (State.readByte_writeWordCycle_of_notMem _ _ h1).trans (State.readByte_writeWordCycle_of_notMem _ _ h2)

theorem State.wf_writeCell {s : State} (x : Long) (v : Byte) (h : Memory.wf s.mem = true) :
    Memory.wf (s.writeCell x v).mem = true := by
  simp only [State.writeCell]
  split
  · exact h
  · exact State.wf_writeByte x v h

theorem State.wf_writeWordCycle {s : State} (x : Long) (v : Word) (h : Memory.wf s.mem = true) :
    Memory.wf (s.writeWordCycle x v).mem = true := by
  simp only [State.writeWordCycle]
  split <;> exact State.wf_writeCell _ _ (State.wf_writeCell _ _ h)

/-- Every write keeps the canonical form. -/
theorem State.wf_busWrite {s : State} (sz : Size) (x : Long) (v : BitVec sz.bits) (h : Memory.wf s.mem = true) :
    Memory.wf (s.busWrite sz x v).mem = true := by
  cases sz with
  | b =>
    simp only [State.busWrite, State.writeByteCycle]
    split
    · exact h
    · exact State.wf_writeByte x v h
  | w => exact State.wf_writeWordCycle x v h
  | l =>
    simp only [State.busWrite, State.writeLongCycles]
    split
    · exact State.wf_writeLong x v h
    · have h' : Memory.wf s.drawn.2.mem = true := h
      cases s.drawn.1 with
      | true => exact State.wf_writeWordCycle _ _ (State.wf_writeWordCycle _ _ h')
      | false => exact State.wf_writeWordCycle _ _ (State.wf_writeWordCycle _ _ h')

theorem State.wf_halfWritten {s : State} (sz : Size) (x : Long) (v : BitVec sz.bits) (h : Memory.wf s.mem = true) :
    Memory.wf (s.halfWritten sz x v).mem = true := by
  simp only [State.halfWritten, State.drawn]
  split
  · exact h
  · cases Config.freeBit s.draws with
    | true => exact State.wf_writeWordCycle (s := { s with draws := s.draws + 1 }) _ _ h
    | false => exact h

/-! ## What an access depends on -/

/-- The value a read answers depends on memory, the platform's devices and the count of draws alone. -/
theorem State.busRead_congr {s t : State} (hm : s.mem = t.mem) (hd : s.devices = t.devices)
    (hl : s.deviceLog = t.deviceLog) (hn : s.draws = t.draws) (sz : Size) (x : Long) :
    (s.busRead sz x).1 = (t.busRead sz x).1 ∧ (s.busRead sz x).2.deviceLog = (t.busRead sz x).2.deviceLog ∧
      (s.busRead sz x).2.draws = (t.busRead sz x).2.draws := by
  have word : ∀ (u v : State) (y : Long), u.mem = v.mem → u.devices = v.devices → u.deviceLog = v.deviceLog →
      (u.readWordCycle y).1 = (v.readWordCycle y).1 ∧
        (u.readWordCycle y).2.deviceLog = (v.readWordCycle y).2.deviceLog := by
    intro u v y h1 h2 h3
    have hdev : ∀ z, u.deviceAt z = v.deviceAt z := fun z => by simp [State.deviceAt, h2]
    have ha : ∀ e z, u.answer e z = v.answer e z := fun e z => by
      simp only [State.answer, hdev, h3, State.readByte_congr h1]
    have hw : u.wordDevice y = v.wordDevice y := by simp [State.wordDevice, hdev]
    simp only [State.readWordCycle, hw, ha, true_and]
    split <;> simp [State.note, h3]
  have keep : ∀ (u : State) (y : Long), (u.readWordCycle y).2.mem = u.mem ∧ (u.readWordCycle y).2.devices = u.devices ∧
      (u.readWordCycle y).2.draws = u.draws := by
    intro u y
    obtain ⟨l, h⟩ := u.readWordCycle_state y
    simp [h]
  cases sz with
  | b =>
    have hdev : s.deviceAt x = t.deviceAt x := by simp [State.deviceAt, hd]
    simp only [State.busRead, State.readByteCycle, State.answer, hdev, hl, State.readByte_congr hm, true_and]
    split <;> simp [State.note, hl, hn]
  | w =>
    obtain ⟨h1, h2⟩ := word s t x hm hd hl
    exact ⟨h1, h2, by simp [State.busRead, keep, hn]⟩
  | l =>
    have hc : s.isCells .l x = t.isCells .l x := State.isCells_congr hd .l x
    have hb : s.drawn.1 = t.drawn.1 := by simp [State.drawn, hn]
    simp only [State.busRead, State.readLongCycles, hc, hb]
    split
    · simp [State.readLong, State.readWord, State.readByte, hm, hl, hn]
    · cases t.drawn.1 with
      | true =>
        obtain ⟨a1, a2⟩ := word s.drawn.2 t.drawn.2 x hm hd hl
        obtain ⟨b1, b2⟩ := word _ _ (x + 2#32) (by rw [(keep _ _).1, (keep _ _).1]; exact hm)
          (by rw [(keep _ _).2.1, (keep _ _).2.1]; exact hd) a2
        exact ⟨by simp only [State.readHalves]; rw [a1, b1], b2, by simp [State.readHalves, keep, State.drawn, hn]⟩
      | false =>
        obtain ⟨a1, a2⟩ := word s.drawn.2 t.drawn.2 (x + 2#32) hm hd hl
        obtain ⟨b1, b2⟩ := word _ _ x (by rw [(keep _ _).1, (keep _ _).1]; exact hm)
          (by rw [(keep _ _).2.1, (keep _ _).2.1]; exact hd) a2
        exact ⟨by simp only [State.readHalves]; rw [a1, b1], b2, by simp [State.readHalves, keep, State.drawn, hn]⟩

/-- What a write stores and what the devices see of it depend on the same parts of the state. -/
theorem State.busWrite_congr {s t : State} (hm : s.mem = t.mem) (hd : s.devices = t.devices)
    (hl : s.deviceLog = t.deviceLog) (hn : s.draws = t.draws) (sz : Size) (x : Long) (v : BitVec sz.bits) :
    (s.busWrite sz x v).mem = (t.busWrite sz x v).mem ∧ (s.busWrite sz x v).deviceLog = (t.busWrite sz x v).deviceLog ∧
      (s.busWrite sz x v).draws = (t.busWrite sz x v).draws := by
  have cell : ∀ (u w : State) (y : Long) (b : Byte), u.mem = w.mem → u.devices = w.devices →
      (u.writeCell y b).mem = (w.writeCell y b).mem := by
    intro u w y b h1 h2
    have hdev : u.deviceAt y = w.deviceAt y := by simp [State.deviceAt, h2]
    simp only [State.writeCell, hdev]
    split
    · exact h1
    · simp [State.writeByte, h1]
  have keepCell : ∀ (u : State) (y : Long) (b : Byte), (u.writeCell y b).devices = u.devices ∧
      (u.writeCell y b).deviceLog = u.deviceLog ∧ (u.writeCell y b).draws = u.draws := by
    intro u y b
    obtain ⟨m, h⟩ := u.writeCell_state y b
    simp [h]
  have word : ∀ (u w : State) (y : Long) (b : Word), u.mem = w.mem → u.devices = w.devices → u.deviceLog = w.deviceLog →
      (u.writeWordCycle y b).mem = (w.writeWordCycle y b).mem ∧
        (u.writeWordCycle y b).deviceLog = (w.writeWordCycle y b).deviceLog := by
    intro u w y b h1 h2 h3
    have hw : u.wordDevice y = w.wordDevice y := by simp [State.wordDevice, State.deviceAt, h2]
    have hc := cell _ _ (y + 1#32) (b.extractLsb' 0 8) (cell u w y (b.extractLsb' 8 8) h1 h2)
      (by rw [(keepCell _ _ _).1, (keepCell _ _ _).1]; exact h2)
    have hl : ∀ z : State, ((z.writeCell y (b.extractLsb' 8 8)).writeCell (y + 1#32) (b.extractLsb' 0 8)).deviceLog =
        z.deviceLog := fun z => by rw [(keepCell _ _ _).2.1, (keepCell _ _ _).2.1]
    simp only [State.writeWordCycle, hw]
    split
    · exact ⟨hc, by simp [State.note, hl, h3]⟩
    · exact ⟨hc, by rw [hl, hl, h3]⟩
  have keep : ∀ (u : State) (y : Long) (b : Word), (u.writeWordCycle y b).devices = u.devices ∧
      (u.writeWordCycle y b).draws = u.draws := by
    intro u y b
    obtain ⟨m, l, h⟩ := u.writeWordCycle_state y b
    simp [h]
  cases sz with
  | b =>
    have hdev : s.deviceAt x = t.deviceAt x := by simp [State.deviceAt, hd]
    simp only [State.busWrite, State.writeByteCycle, hdev]
    split <;> simp [State.note, State.writeByte, hm, hl, hn]
  | w =>
    obtain ⟨h1, h2⟩ := word s t x v hm hd hl
    exact ⟨h1, h2, by simp [State.busWrite, keep, hn]⟩
  | l =>
    have hc : s.isCells .l x = t.isCells .l x := State.isCells_congr hd .l x
    have hb : s.drawn.1 = t.drawn.1 := by simp [State.drawn, hn]
    simp only [State.busWrite, State.writeLongCycles, hc, hb]
    split
    · simp [State.writeLong, State.writeWord, State.writeByte, hm, hl, hn]
    · cases t.drawn.1 with
      | true =>
        obtain ⟨a1, a2⟩ := word s.drawn.2 t.drawn.2 x (v.extractLsb' 16 16) hm hd hl
        obtain ⟨b1, b2⟩ := word _ _ (x + 2#32) (v.extractLsb' 0 16) a1
          (by rw [(keep _ _ _).1, (keep _ _ _).1]; exact hd) a2
        exact ⟨b1, b2, by simp [State.writeHalves, keep, State.drawn, hn]⟩
      | false =>
        obtain ⟨a1, a2⟩ := word s.drawn.2 t.drawn.2 (x + 2#32) (v.extractLsb' 0 16) hm hd hl
        obtain ⟨b1, b2⟩ := word _ _ x (v.extractLsb' 16 16) a1 (by rw [(keep _ _ _).1, (keep _ _ _).1]; exact hd) a2
        exact ⟨b1, b2, by simp [State.writeHalves, keep, State.drawn, hn]⟩

/-- A read from a state that differs only where no access looks. -/
theorem State.busRead_update {s t : State} (hm : s.mem = t.mem) (hd : s.devices = t.devices)
    (hl : s.deviceLog = t.deviceLog) (hn : s.draws = t.draws) (sz : Size) (x : Long) :
    t.busRead sz x = ((s.busRead sz x).1,
      { t with deviceLog := (s.busRead sz x).2.deviceLog, draws := (s.busRead sz x).2.draws }) := by
  obtain ⟨h1, h2, h3⟩ := State.busRead_congr hm hd hl hn sz x
  obtain ⟨l, n, h⟩ := t.busRead_state sz x
  refine Prod.ext h1.symm ?_
  rw [h2, h3, h]

/-- A write from a state that differs only where no access looks. -/
theorem State.busWrite_update {s t : State} (hm : s.mem = t.mem) (hd : s.devices = t.devices)
    (hl : s.deviceLog = t.deviceLog) (hn : s.draws = t.draws) (sz : Size) (x : Long) (v : BitVec sz.bits) :
    t.busWrite sz x v = { t with
      mem := (s.busWrite sz x v).mem, deviceLog := (s.busWrite sz x v).deviceLog, draws := (s.busWrite sz x v).draws } := by
  obtain ⟨h1, h2, h3⟩ := State.busWrite_congr hm hd hl hn sz x v
  obtain ⟨m, l, n, h⟩ := t.busWrite_state sz x v
  rw [h1, h2, h3, h]

/-- A write and a change of the status register do not meet. -/
theorem State.busWrite_withFlags (s : State) (sr : StatusReg) (sz : Size) (x : Long) (v : BitVec sz.bits) :
    ({ s with sr := sr } : State).busWrite sz x v = { s.busWrite sz x v with sr := sr } := by
  rw [State.busWrite_update (s := s) (t := { s with sr := sr }) rfl rfl rfl rfl,
    State.busWrite_update (s := s) (t := s) rfl rfl rfl rfl]

end Sys2Proof.Machine
end

