-- ==== Sys2Proof/Laws/Ops.lean ====
section
/-! SUPPORT. What each shared operation does, once: sequencing, accesses, instruction fetch, operands, the stack. -/

namespace Sys2Proof.Machine

/-! ## Sequencing -/

theorem Exec.bind_apply {α β : Type} (x : Exec α) (f : α → Exec β) (s : State) :
    (x >>= f) s = match x s with
      | .ok a s' => f a s'
      | .error e s' => .error e s' := by
  change EStateM.bind x f s = _
  unfold EStateM.bind
  cases x s <;> rfl

theorem Exec.map_apply {α β : Type} (f : α → β) (x : Exec α) (s : State) :
    (f <$> x) s = match x s with
      | .ok a s' => .ok (f a) s'
      | .error e s' => .error e s' := by
  change EStateM.map f x s = _
  unfold EStateM.map
  cases x s <;> rfl

theorem Exec.bind_ok {α β : Type} {x : Exec α} {f : α → Exec β} {s s' : State} {a : α} (h : x s = .ok a s') :
    (x >>= f) s = f a s' := by rw [Exec.bind_apply, h]

theorem Exec.bind_error {α β : Type} {x : Exec α} {f : α → Exec β} {s s' : State} {e : Abort} (h : x s = .error e s') :
    (x >>= f) s = .error e s' := by rw [Exec.bind_apply, h]

/-- A sequence that ends well: both parts end well. -/
theorem Exec.of_bind_ok {α β : Type} {x : Exec α} {f : α → Exec β} {s s'' : State} {b : β}
    (h : (x >>= f) s = .ok b s'') : ∃ a s', x s = .ok a s' ∧ f a s' = .ok b s'' := by
  rw [Exec.bind_apply] at h
  split at h
  · exact ⟨_, _, ‹_›, h⟩
  · cases h

@[simp] theorem Exec.pure_apply {α : Type} (a : α) (s : State) : (pure a : Exec α) s = .ok a s := rfl

@[simp] theorem Exec.get_apply (s : State) : (get : Exec State) s = .ok s s := rfl

@[simp] theorem Exec.set_apply (t s : State) : (set t : Exec PUnit) s = .ok ⟨⟩ t := rfl

@[simp] theorem Exec.modify_apply (f : State → State) (s : State) : (modify f : Exec PUnit) s = .ok ⟨⟩ (f s) := rfl

@[simp] theorem Exec.throw_apply {α : Type} (e : Abort) (s : State) : (throw e : Exec α) s = .error e s := rfl

theorem Exec.if_pos {α : Type} {c : Prop} [Decidable c] (h : c) (m n : Exec α) (s : State) :
    (if c then m else n) s = m s := by simp [h]

theorem Exec.if_neg {α : Type} {c : Prop} [Decidable c] (h : ¬ c) (m n : Exec α) (s : State) :
    (if c then m else n) s = n s := by simp [h]

@[simp] theorem setFlags_apply (f : StatusReg → StatusReg) (s : State) : setFlags f s = .ok () { s with sr := f s.sr } := rfl

@[simp] theorem jump_apply (a : Long) (s : State) : jump a s = .ok () { s with pc := a, prefetch := [] } := rfl

@[simp] theorem drawBit_apply (s : State) : drawBit s = .ok (Config.freeBit s.draws) { s with draws := s.draws + 1 } := rfl

@[simp] theorem drawByte_apply (s : State) : drawByte s = .ok (Config.freeByte s.draws) { s with draws := s.draws + 1 } := rfl

/-! ## Accesses -/

theorem memRead_ok {sp : Space} {sz : Size} {a : Long} {s : State} (h : s.accessOk sz a = true) :
    memRead sp sz a s = .ok (s.busRead sz a).1 (s.busRead sz a).2 := by simp [memRead, h]

theorem memRead_fault {sp : Space} {sz : Size} {a : Long} {s : State} (h : s.accessOk sz a = false) :
    memRead sp sz a s = .error (.group0 (s.accessFault sp sz a true)) (s.halfRead sz a) := by simp [memRead, h]

theorem memWrite_ok {sz : Size} {a : Long} {v : BitVec sz.bits} {s : State} (h : s.accessOk sz a = true) :
    memWrite sz a v s = .ok () (s.busWrite sz a v) := by simp [memWrite, h]

theorem memWrite_fault {sz : Size} {a : Long} {v : BitVec sz.bits} {s : State} (h : s.accessOk sz a = false) :
    memWrite sz a v s = .error (.group0 (s.accessFault .data sz a false)) (s.halfWritten sz a v) := by simp [memWrite, h]

theorem State.accessOk_of_cellsOk {s : State} {sz : Size} {a : Long} (h : s.cellsOk sz a = true) :
    s.accessOk sz a = true := by
  simp only [State.cellsOk, Bool.and_eq_true] at h
  exact h.1

theorem State.isCells_of_cellsOk {s : State} {sz : Size} {a : Long} (h : s.cellsOk sz a = true) :
    s.isCells sz a = true := by
  simp only [State.cellsOk, Bool.and_eq_true] at h
  exact h.2

theorem State.cellsOk_congr {s t : State} (hs : s.silent = t.silent) (hd : s.devices = t.devices) (sz : Size) (a : Long) :
    s.cellsOk sz a = t.cellsOk sz a := by
  simp [State.cellsOk, State.accessOk_congr hs, State.isCells_congr hd]

/-- A read of memory cells answers their bytes and changes nothing. -/
theorem memRead_cells {sp : Space} {sz : Size} {a : Long} {s : State} (h : s.cellsOk sz a = true) :
    memRead sp sz a s = .ok (s.readSized sz a) s := by
  rw [memRead_ok (State.accessOk_of_cellsOk h), State.busRead_cells (State.isCells_of_cellsOk h)]

/-- A write of memory cells stores the bytes. -/
theorem memWrite_cells {sz : Size} {a : Long} {v : BitVec sz.bits} {s : State} (h : s.cellsOk sz a = true) :
    memWrite sz a v s = .ok () (s.writeSized sz a v) := by
  rw [memWrite_ok (State.accessOk_of_cellsOk h), State.busWrite_cells v (State.isCells_of_cellsOk h)]

/-- A byte access is never misaligned (20_memory.md R65). -/
@[simp] theorem misaligned_byte (a : Long) : misaligned .b a = false := rfl

/-! ## Instruction fetch -/

theorem fetchExt_ok {s : State} (h : s.cellsOk .w s.pc = true) : fetchExt s = .ok () { s with pc := s.pc + 2#32 } := by
  simp [fetchExt, Exec.bind_apply, memRead_cells h]

/-- The state with `PC` moved past some number of words. -/
theorem State.pastWords_zero (s : State) : s.pastWords 0 = s := by simp [State.pastWords]

theorem State.pastWords_pastWords (s : State) (m n : Nat) : (s.pastWords m).pastWords n = s.pastWords (m + n) := by
  simp only [State.pastWords]
  congr 1
  rw [BitVec.add_assoc, ← BitVec.ofNat_add]
  congr 2
  omega

theorem State.fetchable_succ {s : State} {a : Long} {n : Nat} (h : s.fetchable a (n + 1) = true) :
    s.cellsOk .w a = true ∧ s.fetchable (a + 2#32) n = true := by
  simp only [State.fetchable, List.all_eq_true, List.mem_range] at h ⊢
  refine ⟨by simpa using h 0 (by omega), fun k hk => ?_⟩
  have := h (k + 1) (by omega)
  rwa [show a + BitVec.ofNat 32 (2 * (k + 1)) = a + 2#32 + BitVec.ofNat 32 (2 * k) by
    rw [BitVec.add_assoc, show 2 * (k + 1) = 2 + 2 * k by ring, BitVec.ofNat_add]] at this

theorem State.fetchable_congr {s t : State} (hs : s.silent = t.silent) (hd : s.devices = t.devices) (a : Long) (n : Nat) :
    s.fetchable a n = t.fetchable a n := by
  simp only [State.fetchable, State.cellsOk_congr hs hd]

/-- Words further on can be fetched if all of them from the start can. -/
theorem State.fetchable_drop {s : State} {a : Long} (m n : Nat) (h : s.fetchable a (m + n) = true) :
    s.fetchable (a + BitVec.ofNat 32 (2 * m)) n = true := by
  simp only [State.fetchable, List.all_eq_true, List.mem_range] at h ⊢
  intro k hk
  have := h (m + k) (by omega)
  rwa [show a + BitVec.ofNat 32 (2 * (m + k)) = a + BitVec.ofNat 32 (2 * m) + BitVec.ofNat 32 (2 * k) by
    rw [BitVec.add_assoc, ← BitVec.ofNat_add, Nat.mul_add]] at this

theorem State.fetchable_take {s : State} {a : Long} {m n : Nat} (hmn : m ≤ n) (h : s.fetchable a n = true) :
    s.fetchable a m = true := by
  simp only [State.fetchable, List.all_eq_true, List.mem_range] at h ⊢
  exact fun k hk => h k (by omega)

/-- Fetching extension words that can be fetched moves `PC` past them and does nothing else. -/
theorem fetchExts_ok {n : Nat} {s : State} (h : s.fetchable s.pc n = true) : fetchExts n s = .ok () (s.pastWords n) := by
  induction n generalizing s with
  | zero => simp [fetchExts, State.pastWords]
  | succ n ih =>
    obtain ⟨h0, h1⟩ := State.fetchable_succ h
    rw [fetchExts, Exec.bind_ok (fetchExt_ok h0), ih]
    · simp only [State.pastWords]
      congr 2
      rw [BitVec.add_assoc, show 2 * (n + 1) = 2 + 2 * n by ring, BitVec.ofNat_add]
    · exact (State.fetchable_congr (s := s) rfl rfl _ _).symm.trans h1

/-! ## Operands -/

/-- Resolving an effective address whose extension words can be fetched answers its location, past the words and with
the register change made. -/
theorem resolveEA_ok {sz : Size} {ea : EA} {s : State} (h : s.fetchable s.pc (eaExtCount sz ea) = true) :
    resolveEA sz ea s = .ok (eaLoc sz ea s) (s.resolved sz ea) := by
  simp [resolveEA, Exec.bind_apply, Exec.map_apply, fetchExts_ok h, State.resolved]

/-- Reading a readable location answers its value; only a device sees it. -/
theorem readLoc_ok {sz : Size} {loc : Loc} {s : State} (h : loc.readable sz s = true) :
    readLoc sz loc s = .ok (loc.value sz s) (loc.afterRead sz s) := by
  cases loc with
  | mem sp a => exact memRead_ok h
  | _ => rfl

/-- Writing a writable location stores the value there. -/
theorem writeLoc_ok {sz : Size} {loc : Loc} {v : BitVec sz.bits} {s : State} (h : loc.writable sz s = true) :
    writeLoc sz loc v s = .ok () (loc.put sz s v) := by
  cases loc with
  | mem sp a =>
    cases sp with
    | data => exact memWrite_ok h
    | program => simp [Loc.writable] at h
  | imm v => simp [Loc.writable] at h
  | _ => rfl

theorem readEA_ok {sz : Size} {ea : EA} {s : State} (h : s.fetchable s.pc (eaExtCount sz ea) = true)
    (hr : (eaLoc sz ea s).readable sz (s.resolved sz ea) = true) :
    readEA sz ea s = .ok ((eaLoc sz ea s).value sz (s.resolved sz ea))
      ((eaLoc sz ea s).afterRead sz (s.resolved sz ea)) := by
  rw [readEA, Exec.bind_ok (resolveEA_ok h), readLoc_ok hr]

theorem Loc.writable_readable {sz : Size} {s : State} {loc : Loc} (h : loc.writable sz s = true) :
    loc.readable sz s = true := by
  cases loc with
  | mem sp a => cases sp <;> simp_all [Loc.writable, Loc.readable]
  | _ => rfl

theorem discardRead_ok {sz : Size} {loc : Loc} {s : State} (h : loc.readable sz s = true) :
    discardRead sz loc s = .ok () (loc.afterRead sz s) := by
  cases loc with
  | mem sp a => simp only [discardRead]; rw [Exec.bind_ok (memRead_ok h)]; rfl
  | _ => rfl

/-! ## The stack -/

theorem push16_ok {s : State} {v : Word} (h : s.cellsOk .w (s.sp - 2#32) = true) :
    push16 v s = .ok () ((s.setSp (s.sp - 2#32)).writeWord (s.sp - 2#32) v) := by
  have h' : (s.setSp (s.sp - 2#32)).cellsOk .w (s.sp - 2#32) = true := by
    rwa [State.cellsOk_congr (t := s) (by simp) (by simp)]
  simp [push16, Exec.bind_apply, memWrite_cells h', State.writeSized]

theorem push32_ok {s : State} {v : Long} (h : s.cellsOk .l (s.sp - 4#32) = true) :
    push32 v s = .ok () ((s.setSp (s.sp - 4#32)).writeLong (s.sp - 4#32) v) := by
  have h' : (s.setSp (s.sp - 4#32)).cellsOk .l (s.sp - 4#32) = true := by
    rwa [State.cellsOk_congr (t := s) (by simp) (by simp)]
  simp [push32, Exec.bind_apply, memWrite_cells h', State.writeSized]

theorem pop16_ok {s : State} (h : s.cellsOk .w s.sp = true) :
    pop16 s = .ok (s.readWord s.sp) (s.setSp (s.sp + 2#32)) := by
  simp [pop16, Exec.bind_apply, Exec.map_apply, memRead_cells h, State.readSized]

theorem pop32_ok {s : State} (h : s.cellsOk .l s.sp = true) :
    pop32 s = .ok (s.readLong s.sp) (s.setSp (s.sp + 4#32)) := by
  simp [pop32, Exec.bind_apply, Exec.map_apply, memRead_cells h, State.readSized]

/-! ## The outcome of an instruction -/

/-- An instruction whose rule ends well, from the state with `PC` past its operation word. -/
theorem runBody_ok {body : Exec Unit} {s t : State} (h : body (s.pastWords 1) = .ok () t) : runBody body s = .next t := by
  have : ({ s with pc := s.pc + 2#32 } : State) = s.pastWords 1 := rfl
  simp [runBody, this, h, conclude]

/-- Whatever an instruction's rule does, its outcome is no fault of the model. -/
theorem runBody_ne_fault (body : Exec Unit) (s : State) (f : Fault) : runBody body s ≠ .fault f := by
  unfold runBody
  cases body { s with pc := s.pc + 2#32 } with
  | ok => simp [conclude]
  | error e => cases e <;> simp [conclude]

end Sys2Proof.Machine
end

