-- ==== Sys2Proof/Laws/Operands.lean ====
section
/-! SUPPORT. What each operand form that several families share does when nothing faults, and which parts of the state
resolving an operand leaves alone. -/

namespace Sys2Proof.Machine

/-! ## Past the words of an instruction -/

@[simp] theorem State.pastWords_pc (s : State) (n : Nat) : (s.pastWords n).pc = s.pc + BitVec.ofNat 32 (2 * n) := rfl
@[simp] theorem State.pastWords_d (s : State) (n : Nat) : (s.pastWords n).d = s.d := rfl
@[simp] theorem State.pastWords_a (s : State) (n : Nat) : (s.pastWords n).a = s.a := rfl
@[simp] theorem State.pastWords_usp (s : State) (n : Nat) : (s.pastWords n).usp = s.usp := rfl
@[simp] theorem State.pastWords_ssp (s : State) (n : Nat) : (s.pastWords n).ssp = s.ssp := rfl
@[simp] theorem State.pastWords_sr (s : State) (n : Nat) : (s.pastWords n).sr = s.sr := rfl
@[simp] theorem State.pastWords_mem (s : State) (n : Nat) : (s.pastWords n).mem = s.mem := rfl
@[simp] theorem State.pastWords_silent (s : State) (n : Nat) : (s.pastWords n).silent = s.silent := rfl
@[simp] theorem State.pastWords_devices (s : State) (n : Nat) : (s.pastWords n).devices = s.devices := rfl
@[simp] theorem State.pastWords_deviceLog (s : State) (n : Nat) : (s.pastWords n).deviceLog = s.deviceLog := rfl
@[simp] theorem State.pastWords_draws (s : State) (n : Nat) : (s.pastWords n).draws = s.draws := rfl
@[simp] theorem State.pastWords_dreg (s : State) (n : Nat) (r : RegNo) : (s.pastWords n).dreg r = s.dreg r := rfl
@[simp] theorem State.pastWords_areg (s : State) (n : Nat) (r : RegNo) : (s.pastWords n).areg r = s.areg r := rfl
@[simp] theorem State.pastWords_sp (s : State) (n : Nat) : (s.pastWords n).sp = s.sp := rfl
@[simp] theorem State.pastWords_readByte (s : State) (n : Nat) (x : Long) :
    (s.pastWords n).readByte x = s.readByte x := rfl
@[simp] theorem State.pastWords_stopped (s : State) (n : Nat) : (s.pastWords n).stopped = s.stopped := rfl
@[simp] theorem State.pastWords_halted (s : State) (n : Nat) : (s.pastWords n).halted = s.halted := rfl
@[simp] theorem State.pastWords_nmiEdge (s : State) (n : Nat) : (s.pastWords n).nmiEdge = s.nmiEdge := rfl
@[simp] theorem State.pastWords_ir (s : State) (n : Nat) : (s.pastWords n).ir = s.ir := rfl
@[simp] theorem State.pastWords_prefetch (s : State) (n : Nat) : (s.pastWords n).prefetch = s.prefetch := rfl
@[simp] theorem State.pastWords_pins (s : State) (n : Nat) : (s.pastWords n).pins = s.pins := rfl
@[simp] theorem State.pastWords_inputs (s : State) (n : Nat) : (s.pastWords n).inputs = s.inputs := rfl
@[simp] theorem State.pastWords_resetPulses (s : State) (n : Nat) : (s.pastWords n).resetPulses = s.resetPulses := rfl
@[simp] theorem State.pastWords_traceDue (s : State) (n : Nat) : (s.pastWords n).traceDue = s.traceDue := rfl
@[simp] theorem State.pastWords_readWord (s : State) (n : Nat) (x : Long) :
    (s.pastWords n).readWord x = s.readWord x := rfl
@[simp] theorem State.pastWords_readLong (s : State) (n : Nat) (x : Long) :
    (s.pastWords n).readLong x = s.readLong x := rfl
@[simp] theorem State.pastWords_readSized (s : State) (n : Nat) (sz : Size) (x : Long) :
    (s.pastWords n).readSized sz x = s.readSized sz x := State.readSized_congr rfl sz x

/-- The words after the first `m` can be fetched from the state past them. -/
theorem State.fetchable_past {s : State} (m n : Nat) (h : s.fetchable s.pc (m + n) = true) :
    (s.pastWords m).fetchable (s.pastWords m).pc n = true :=
  (State.fetchable_congr (s := s) rfl rfl _ _).symm.trans (State.fetchable_drop m n h)

/-! ## Resolving an operand -/

@[simp] theorem eaUpdate_pc (sz : Size) (ea : EA) (s : State) : (eaUpdate sz ea s).pc = s.pc := by
  cases ea <;> simp [eaUpdate]
@[simp] theorem eaUpdate_d (sz : Size) (ea : EA) (s : State) : (eaUpdate sz ea s).d = s.d := by
  cases ea <;> simp [eaUpdate]
@[simp] theorem eaUpdate_sr (sz : Size) (ea : EA) (s : State) : (eaUpdate sz ea s).sr = s.sr := by
  cases ea <;> simp [eaUpdate]
@[simp] theorem eaUpdate_mem (sz : Size) (ea : EA) (s : State) : (eaUpdate sz ea s).mem = s.mem := by
  cases ea <;> simp [eaUpdate]
@[simp] theorem eaUpdate_silent (sz : Size) (ea : EA) (s : State) : (eaUpdate sz ea s).silent = s.silent := by
  cases ea <;> simp [eaUpdate]
@[simp] theorem eaUpdate_devices (sz : Size) (ea : EA) (s : State) : (eaUpdate sz ea s).devices = s.devices := by
  cases ea <;> simp [eaUpdate]
@[simp] theorem eaUpdate_deviceLog (sz : Size) (ea : EA) (s : State) : (eaUpdate sz ea s).deviceLog = s.deviceLog := by
  cases ea <;> simp [eaUpdate]
@[simp] theorem eaUpdate_draws (sz : Size) (ea : EA) (s : State) : (eaUpdate sz ea s).draws = s.draws := by
  cases ea <;> simp [eaUpdate]
@[simp] theorem eaUpdate_stopped (sz : Size) (ea : EA) (s : State) : (eaUpdate sz ea s).stopped = s.stopped := by
  cases ea <;> simp [eaUpdate]
@[simp] theorem eaUpdate_halted (sz : Size) (ea : EA) (s : State) : (eaUpdate sz ea s).halted = s.halted := by
  cases ea <;> simp [eaUpdate]
@[simp] theorem eaUpdate_nmiEdge (sz : Size) (ea : EA) (s : State) : (eaUpdate sz ea s).nmiEdge = s.nmiEdge := by
  cases ea <;> simp [eaUpdate]
@[simp] theorem eaUpdate_ir (sz : Size) (ea : EA) (s : State) : (eaUpdate sz ea s).ir = s.ir := by
  cases ea <;> simp [eaUpdate]
@[simp] theorem eaUpdate_prefetch (sz : Size) (ea : EA) (s : State) : (eaUpdate sz ea s).prefetch = s.prefetch := by
  cases ea <;> simp [eaUpdate]
@[simp] theorem eaUpdate_pins (sz : Size) (ea : EA) (s : State) : (eaUpdate sz ea s).pins = s.pins := by
  cases ea <;> simp [eaUpdate]
@[simp] theorem eaUpdate_inputs (sz : Size) (ea : EA) (s : State) : (eaUpdate sz ea s).inputs = s.inputs := by
  cases ea <;> simp [eaUpdate]
@[simp] theorem eaUpdate_resetPulses (sz : Size) (ea : EA) (s : State) : (eaUpdate sz ea s).resetPulses = s.resetPulses := by
  cases ea <;> simp [eaUpdate]
@[simp] theorem eaUpdate_traceDue (sz : Size) (ea : EA) (s : State) : (eaUpdate sz ea s).traceDue = s.traceDue := by
  cases ea <;> simp [eaUpdate]
@[simp] theorem eaUpdate_dreg (sz : Size) (ea : EA) (s : State) (r : RegNo) : (eaUpdate sz ea s).dreg r = s.dreg r :=
  State.dreg_congr (by simp) r

/-- Only the register an effective address steps changes. -/
theorem eaUpdate_areg_of_notMem (sz : Size) {ea : EA} (s : State) {r : RegNo} (h : r ∉ eaStepped ea) :
    (eaUpdate sz ea s).areg r = s.areg r := by
  cases ea <;> simp only [eaStepped, List.mem_singleton] at h <;> simp [eaUpdate, State.areg_setAreg_of_ne, h]

@[simp] theorem State.resolved_pc (s : State) (sz : Size) (ea : EA) :
    (s.resolved sz ea).pc = s.pc + BitVec.ofNat 32 (2 * eaExtCount sz ea) := by simp [State.resolved]
@[simp] theorem State.resolved_d (s : State) (sz : Size) (ea : EA) : (s.resolved sz ea).d = s.d := by
  simp [State.resolved]
@[simp] theorem State.resolved_sr (s : State) (sz : Size) (ea : EA) : (s.resolved sz ea).sr = s.sr := by
  simp [State.resolved]
@[simp] theorem State.resolved_mem (s : State) (sz : Size) (ea : EA) : (s.resolved sz ea).mem = s.mem := by
  simp [State.resolved]
@[simp] theorem State.resolved_silent (s : State) (sz : Size) (ea : EA) : (s.resolved sz ea).silent = s.silent := by
  simp [State.resolved]
@[simp] theorem State.resolved_devices (s : State) (sz : Size) (ea : EA) : (s.resolved sz ea).devices = s.devices := by
  simp [State.resolved]
@[simp] theorem State.resolved_deviceLog (s : State) (sz : Size) (ea : EA) : (s.resolved sz ea).deviceLog = s.deviceLog := by
  simp [State.resolved]
@[simp] theorem State.resolved_draws (s : State) (sz : Size) (ea : EA) : (s.resolved sz ea).draws = s.draws := by
  simp [State.resolved]
@[simp] theorem State.resolved_stopped (s : State) (sz : Size) (ea : EA) : (s.resolved sz ea).stopped = s.stopped := by
  simp [State.resolved]
@[simp] theorem State.resolved_halted (s : State) (sz : Size) (ea : EA) : (s.resolved sz ea).halted = s.halted := by
  simp [State.resolved]
@[simp] theorem State.resolved_nmiEdge (s : State) (sz : Size) (ea : EA) : (s.resolved sz ea).nmiEdge = s.nmiEdge := by
  simp [State.resolved]
@[simp] theorem State.resolved_ir (s : State) (sz : Size) (ea : EA) : (s.resolved sz ea).ir = s.ir := by
  simp [State.resolved]
@[simp] theorem State.resolved_prefetch (s : State) (sz : Size) (ea : EA) : (s.resolved sz ea).prefetch = s.prefetch := by
  simp [State.resolved]
@[simp] theorem State.resolved_pins (s : State) (sz : Size) (ea : EA) : (s.resolved sz ea).pins = s.pins := by
  simp [State.resolved]
@[simp] theorem State.resolved_inputs (s : State) (sz : Size) (ea : EA) : (s.resolved sz ea).inputs = s.inputs := by
  simp [State.resolved]
@[simp] theorem State.resolved_resetPulses (s : State) (sz : Size) (ea : EA) : (s.resolved sz ea).resetPulses = s.resetPulses := by
  simp [State.resolved]
@[simp] theorem State.resolved_traceDue (s : State) (sz : Size) (ea : EA) : (s.resolved sz ea).traceDue = s.traceDue := by
  simp [State.resolved]
theorem State.resolved_busRead (s : State) (sz : Size) (ea : EA) (sz' : Size) (x : Long) :
    ((s.resolved sz ea).busRead sz' x).1 = (s.busRead sz' x).1 :=
  (State.busRead_congr (by simp) (by simp) (by simp) (by simp) sz' x).1
@[simp] theorem State.resolved_readSized (s : State) (sz : Size) (ea : EA) (sz' : Size) (x : Long) :
    (s.resolved sz ea).readSized sz' x = s.readSized sz' x := State.readSized_congr (by simp) sz' x
@[simp] theorem State.resolved_dreg (s : State) (sz : Size) (ea : EA) (r : RegNo) :
    (s.resolved sz ea).dreg r = s.dreg r := by simp [State.resolved]

theorem State.resolved_areg_of_notMem (s : State) (sz : Size) {ea : EA} {r : RegNo} (h : r ∉ eaStepped ea) :
    (s.resolved sz ea).areg r = s.areg r := by simp [State.resolved, eaUpdate_areg_of_notMem sz _ h]

/-- Whether a location can be read or written depends on the platform alone. -/
theorem Loc.readable_congr {s t : State} (h : s.silent = t.silent) (sz : Size) (loc : Loc) :
    loc.readable sz s = loc.readable sz t := by
  cases loc <;> simp [Loc.readable, State.accessOk_congr h]

theorem Loc.writable_congr {s t : State} (h : s.silent = t.silent) (sz : Size) (loc : Loc) :
    loc.writable sz s = loc.writable sz t := by
  cases loc with
  | mem sp a => cases sp <;> simp [Loc.writable, State.accessOk_congr h]
  | _ => rfl

theorem Loc.writable_afterRead {sz : Size} {loc : Loc} {s : State} (h : loc.writable sz s = true) :
    loc.writable sz (loc.afterRead sz s) = true := by
  rw [← h]
  exact Loc.writable_congr (by cases loc <;> simp [Loc.afterRead]) sz loc

/-- A read of a location changes nothing but what the devices have seen and the count of draws. -/
theorem Loc.afterRead_state (sz : Size) (s : State) (loc : Loc) :
    ∃ l n, loc.afterRead sz s = { s with deviceLog := l, draws := n } := by
  cases loc with
  | mem sp a => exact s.busRead_state sz a
  | _ => exact ⟨s.deviceLog, s.draws, rfl⟩

@[simp] theorem Loc.afterRead_sr (sz : Size) (s : State) (loc : Loc) : (loc.afterRead sz s).sr = s.sr := by
  cases loc <;> simp [Loc.afterRead]
@[simp] theorem Loc.afterRead_pc (sz : Size) (s : State) (loc : Loc) : (loc.afterRead sz s).pc = s.pc := by
  cases loc <;> simp [Loc.afterRead]
@[simp] theorem Loc.afterRead_mem (sz : Size) (s : State) (loc : Loc) : (loc.afterRead sz s).mem = s.mem := by
  cases loc <;> simp [Loc.afterRead]
@[simp] theorem Loc.afterRead_silent (sz : Size) (s : State) (loc : Loc) : (loc.afterRead sz s).silent = s.silent := by
  cases loc <;> simp [Loc.afterRead]
@[simp] theorem Loc.afterRead_devices (sz : Size) (s : State) (loc : Loc) : (loc.afterRead sz s).devices = s.devices := by
  cases loc <;> simp [Loc.afterRead]
@[simp] theorem Loc.afterRead_dreg (sz : Size) (s : State) (loc : Loc) (r : RegNo) :
    (loc.afterRead sz s).dreg r = s.dreg r := by
  cases loc <;> simp [Loc.afterRead]
@[simp] theorem Loc.afterRead_areg (sz : Size) (s : State) (loc : Loc) (r : RegNo) :
    (loc.afterRead sz s).areg r = s.areg r := by
  cases loc <;> simp [Loc.afterRead]

@[simp] theorem Loc.put_sr (sz : Size) (s : State) (loc : Loc) (v : BitVec sz.bits) : (loc.put sz s v).sr = s.sr := by
  cases loc <;> simp [Loc.put]
@[simp] theorem Loc.put_pc (sz : Size) (s : State) (loc : Loc) (v : BitVec sz.bits) : (loc.put sz s v).pc = s.pc := by
  cases loc <;> simp [Loc.put]
@[simp] theorem Loc.put_silent (sz : Size) (s : State) (loc : Loc) (v : BitVec sz.bits) :
    (loc.put sz s v).silent = s.silent := by
  cases loc <;> simp [Loc.put]
@[simp] theorem Loc.put_devices (sz : Size) (s : State) (loc : Loc) (v : BitVec sz.bits) :
    (loc.put sz s v).devices = s.devices := by
  cases loc <;> simp [Loc.put]

/-- Storing in a location and writing the flags do not meet. -/
theorem Loc.put_withFlags (sz : Size) (s : State) (loc : Loc) (v : BitVec sz.bits) (sr : StatusReg)
    (h : sr.s = s.sr.s) : loc.put sz { s with sr := sr } v = { loc.put sz s v with sr := sr } := by
  cases loc with
  | dreg r => rfl
  | areg r => by_cases hr : r.toNat < 7 <;> by_cases hs : s.sr.s <;> simp [Loc.put, State.setAreg, hr, State.setSp, h, hs]
  | imm w => rfl
  | mem sp a => exact s.busWrite_withFlags sr sz a v

/-! ## The shared forms -/

theorem eaToDreg_ok {sz : Size} {ea : EA} {rx : RegNo}
    {f : BitVec sz.bits → BitVec sz.bits → StatusReg → BitVec sz.bits × StatusReg} {s : State}
    (h : s.fetchable s.pc (eaExtCount sz ea) = true)
    (hr : (eaLoc sz ea s).readable sz (s.resolved sz ea) = true) :
    eaToDreg sz ea rx f s = .ok () (
      let s2 := s.resolved sz ea
      let s3 := (eaLoc sz ea s).afterRead sz s2
      let p := f ((eaLoc sz ea s).value sz s2) ((s3.dreg rx).setWidth sz.bits) s3.sr
      { s3.putDreg rx p.1 with sr := p.2 }) := by
  rw [eaToDreg, Exec.bind_ok (readEA_ok h hr)]
  rfl

theorem modifyLoc_ok {sz : Size} {loc : Loc} {f : BitVec sz.bits → StatusReg → BitVec sz.bits × StatusReg} {s : State}
    (h : loc.writable sz s = true) :
    modifyLoc sz loc f s = .ok () (
      let s1 := loc.afterRead sz s
      let p := f (loc.value sz s) s1.sr
      { loc.put sz s1 p.1 with sr := p.2 }) := by
  rw [modifyLoc, Exec.bind_ok (readLoc_ok (Loc.writable_readable h))]
  simp only [Exec.bind_apply, Exec.get_apply, writeLoc_ok (Loc.writable_afterRead h), setFlags_apply]

theorem modifyEA_ok {sz : Size} {ea : EA} {f : BitVec sz.bits → StatusReg → BitVec sz.bits × StatusReg} {s : State}
    (h : s.fetchable s.pc (eaExtCount sz ea) = true)
    (hw : (eaLoc sz ea s).writable sz (s.resolved sz ea) = true) :
    modifyEA sz ea f s = .ok () (
      let s2 := s.resolved sz ea
      let s3 := (eaLoc sz ea s).afterRead sz s2
      let p := f ((eaLoc sz ea s).value sz s2) s3.sr
      { (eaLoc sz ea s).put sz s3 p.1 with sr := p.2 }) := by
  rw [modifyEA, Exec.bind_ok (resolveEA_ok h), modifyLoc_ok hw]

theorem dregToEA_ok {sz : Size} {rx : RegNo} {ea : EA}
    {f : BitVec sz.bits → BitVec sz.bits → StatusReg → BitVec sz.bits × StatusReg} {s : State}
    (h : s.fetchable s.pc (eaExtCount sz ea) = true)
    (hw : (eaLoc sz ea s).writable sz (s.resolved sz ea) = true) :
    dregToEA sz rx ea f s = .ok () (
      let s2 := s.resolved sz ea
      let s3 := (eaLoc sz ea s).afterRead sz s2
      let p := f ((s3.dreg rx).setWidth sz.bits) ((eaLoc sz ea s).value sz s2) s3.sr
      { (eaLoc sz ea s).put sz s3 p.1 with sr := p.2 }) := by
  rw [dregToEA, Exec.bind_ok (resolveEA_ok h), Exec.bind_ok (readLoc_ok (Loc.writable_readable hw))]
  simp only [Exec.bind_apply, Exec.get_apply, writeLoc_ok (Loc.writable_afterRead hw), setFlags_apply]

/-- The number of immediate words at a size. -/
theorem fetchImm_ok {sz : Size} {v : Long} {s : State} {k : Nat} (hk : k = if sz = .l then 2 else 1)
    (h : s.fetchable s.pc k = true) : fetchImm sz v s = .ok (v.setWidth sz.bits) (s.pastWords k) := by
  subst hk
  simp only [fetchImm, Exec.bind_apply, fetchExts_ok h, Exec.pure_apply]

theorem immToEA_ok {sz : Size} {v : Long} {ea : EA}
    {f : BitVec sz.bits → BitVec sz.bits → StatusReg → BitVec sz.bits × StatusReg} {s : State} {k : Nat}
    (hk : k = if sz = .l then 2 else 1) (h : s.fetchable s.pc (k + eaExtCount sz ea) = true)
    (hw : (eaLoc sz ea (s.pastWords k)).writable sz ((s.pastWords k).resolved sz ea) = true) :
    immToEA sz v ea f s = .ok () (
      let s1 := s.pastWords k
      let s2 := s1.resolved sz ea
      let s3 := (eaLoc sz ea s1).afterRead sz s2
      let p := f (v.setWidth sz.bits) ((eaLoc sz ea s1).value sz s2) s3.sr
      { (eaLoc sz ea s1).put sz s3 p.1 with sr := p.2 }) := by
  rw [immToEA, Exec.bind_ok (fetchImm_ok hk (State.fetchable_take (by omega) h)), modifyEA_ok (State.fetchable_past k _ h) hw]

theorem dregPair_ok (sz : Size) (ry rx : RegNo)
    (f : BitVec sz.bits → BitVec sz.bits → StatusReg → BitVec sz.bits × StatusReg) (s : State) :
    dregPair sz ry rx f s = .ok () (
      let p := f ((s.dreg ry).setWidth sz.bits) ((s.dreg rx).setWidth sz.bits) s.sr
      { s.putDreg rx p.1 with sr := p.2 }) := rfl

/-- Reading where a register points once it has stepped down. -/
theorem readPreDec_ok {sz : Size} {r : RegNo} {s : State} (h : s.accessOk sz (s.areg r - eaStep sz r) = true) :
    readPreDec sz r s = (
      let s1 := s.setAreg r (s.areg r - eaStep sz r)
      .ok (s1.busRead sz (s.areg r - eaStep sz r)).1 (s1.busRead sz (s.areg r - eaStep sz r)).2) := by
  have h' : (s.setAreg r (s.areg r - eaStep sz r)).accessOk sz (s.areg r - eaStep sz r) = true := by
    rwa [State.accessOk_congr (t := s) (by simp)]
  simp [readPreDec, Exec.bind_apply, memRead_ok h']

/-- Reading where a register points, and stepping it up. -/
theorem readPostInc_ok {sz : Size} {r : RegNo} {s : State} (h : s.accessOk sz (s.areg r) = true) :
    readPostInc sz r s = (
      let s1 := (s.busRead sz (s.areg r)).2
      .ok (s.busRead sz (s.areg r)).1 (s1.setAreg r (s1.areg r + eaStep sz r))) := by
  simp [readPostInc, Exec.bind_apply, Exec.map_apply, memRead_ok h]

/-- Both operands of `-(Ay),-(Ax)` in order, then the store where the destination register points. -/
theorem memPair_ok {sz : Size} {ry rx : RegNo}
    {f : BitVec sz.bits → BitVec sz.bits → StatusReg → BitVec sz.bits × StatusReg} {s : State}
    (h1 : s.accessOk sz (s.areg ry - eaStep sz ry) = true)
    (h2 : s.accessOk sz ((s.setAreg ry (s.areg ry - eaStep sz ry)).areg rx - eaStep sz rx) = true) :
    memPair sz ry rx f s = .ok () (
      let src := s.areg ry - eaStep sz ry
      let first := (s.setAreg ry src).busRead sz src
      let dst := first.2.areg rx - eaStep sz rx
      let second := (first.2.setAreg rx dst).busRead sz dst
      let p := f first.1 second.1 s.sr
      { second.2.busWrite sz dst p.1 with sr := p.2 }) := by
  have a2 : ∀ u : State, u.silent = s.silent →
      u.accessOk sz ((s.setAreg ry (s.areg ry - eaStep sz ry)).areg rx - eaStep sz rx) = true :=
    fun u hu => (State.accessOk_congr hu _ _).trans h2
  rw [memPair, Exec.bind_ok (readPreDec_ok h1),
    Exec.bind_ok (readPreDec_ok (by rw [State.areg_busRead]; exact a2 _ (by simp))), Exec.bind_ok (Exec.get_apply _)]
  simp only [State.busRead_sr, State.setAreg_sr, State.areg_busRead]
  rw [Exec.bind_ok (Exec.get_apply _), State.areg_busRead, State.areg_setAreg_self,
    Exec.bind_ok (memWrite_ok (a2 _ (by simp)))]
  rfl

/-- The address of a memory location, or none of the other locations. -/
theorem addressEA_ok {sz : Size} {ea : EA} {s : State} {sp : Space} {a : Long}
    (h : s.fetchable s.pc (eaExtCount sz ea) = true) (ha : eaLoc sz ea s = .mem sp a) :
    addressEA sz ea s = .ok a (s.resolved sz ea) := by
  rw [addressEA, Exec.bind_ok (resolveEA_ok h), ha]
  rfl

/-- In supervisor state a privileged instruction has its effect. -/
theorem privileged_of_supervisor {body : Exec Unit} {s : State} (h : s.sr.s = true) : privileged body s = body s := by
  simp [privileged, Exec.bind_apply, h]

/-- In user state the privilege violation takes its place. -/
theorem privileged_of_user {body : Exec Unit} {s : State} (h : s.sr.s = false) :
    privileged body s = exceptionInstead 8 s := by
  simp [privileged, Exec.bind_apply, h]

end Sys2Proof.Machine
end

