-- ==== Sys2Proof/Laws/Exceptions.lean ====
section
/-! SUPPORT. What taking an exception does, once: the frame stacked, the status register, the handler's address. -/

namespace Sys2Proof.Machine

theorem takeException_ok {k : Byte} {p : Long} {level : Option (BitVec 3)} {s : State} (h : s.canExcept k = true) :
    takeException k p level s = .ok () (s.excepted k p level) := by
  simp only [State.canExcept, State.frameAccesses, Bool.and_eq_true] at h
  obtain ⟨⟨h1, h2⟩, h3⟩ := h
  have key : ∀ s1 : State, s1.sr.s = true → s1.ssp = s.ssp → s1.silent = s.silent → s1.devices = s.devices →
      (do push32 p; push16 s.sr.toWord; loadVector k : Exec Unit) s1 = .ok () (
        let s2 := (s1.setSp (s.ssp - 4#32)).writeLong (s.ssp - 4#32) p
        let s3 := (s2.setSp (s.ssp - 4#32 - 2#32)).writeWord (s.ssp - 4#32 - 2#32) s.sr.toWord
        { s3 with pc := s3.readLong (vectorAddress k), prefetch := [] }) := by
    intro s1 hs hsp hsil hdev
    have e1 : s1.sp = s.ssp := by simp [State.sp, hs, hsp]
    have a1 : s1.cellsOk .l (s1.sp - 4#32) = true := by rw [e1, State.cellsOk_congr hsil hdev]; exact h1
    rw [Exec.bind_ok (push32_ok a1), e1]
    have e2 : ((s1.setSp (s.ssp - 4#32)).writeLong (s.ssp - 4#32) p).sp = s.ssp - 4#32 := by
      simp [State.sp, State.setSp, hs]
    have a2 : ((s1.setSp (s.ssp - 4#32)).writeLong (s.ssp - 4#32) p).cellsOk .w
        (((s1.setSp (s.ssp - 4#32)).writeLong (s.ssp - 4#32) p).sp - 2#32) = true := by
      rw [e2, State.cellsOk_congr (t := s) (by simp [hsil]) (by simp [hdev])]; exact h2
    rw [Exec.bind_ok (push16_ok a2), e2]
    have a3 : ((((s1.setSp (s.ssp - 4#32)).writeLong (s.ssp - 4#32) p).setSp (s.ssp - 4#32 - 2#32)).writeWord
        (s.ssp - 4#32 - 2#32) s.sr.toWord).cellsOk .l (vectorAddress k) = true := by
      rw [State.cellsOk_congr (t := s) (by simp [hsil]) (by simp [hdev])]; exact h3
    rw [loadVector, Exec.bind_ok (memRead_cells a3)]
    rfl
  cases level with
  | none =>
    have := key s.enterSupervisor rfl rfl rfl rfl
    simp only [takeException, processing, Exec.bind_apply, Exec.get_apply, Exec.modify_apply] at this ⊢
    rw [this]
    rfl
  | some l =>
    have := key { s.enterSupervisor with sr := { s.enterSupervisor.sr with i := l } } rfl rfl rfl rfl
    simp only [takeException, processing, Exec.bind_apply, Exec.get_apply, Exec.modify_apply] at this ⊢
    rw [this]
    rfl

/-- An exception in an instruction's place: the saved program counter is the instruction's address. -/
theorem exceptionInstead_ok {k : Byte} {s : State} (h : s.canExcept k = true) :
    exceptionInstead k s = .ok () ({ s with traceDue := false }.excepted k (s.pc - 2#32) none) := by
  have h' : ({ s with traceDue := false } : State).canExcept k = true := h
  simp only [exceptionInstead, Exec.bind_apply, Exec.modify_apply, Exec.get_apply]
  exact takeException_ok h'

/-- A group 2 exception: the saved program counter is the next instruction's address. -/
theorem trapNext_ok {k : Byte} {s : State} (h : s.canExcept k = true) :
    trapNext k s = .ok () (s.excepted k s.pc none) := by
  simp only [trapNext, Exec.bind_apply, Exec.get_apply]
  exact takeException_ok h

/-- Returning from an exception whose frame can be read. -/
theorem returnFromException_ok {s : State} (h1 : s.cellsOk .w s.sp = true) (h2 : s.cellsOk .l (s.sp + 2#32) = true) :
    returnFromException s = .ok () (
      let s1 := (s.setSp (s.sp + 2#32)).setSp (s.sp + 2#32 + 4#32)
      { s1 with sr := StatusReg.ofWord (s.readWord s.sp), pc := s.readLong (s.sp + 2#32), prefetch := [] }) := by
  have a2 : (s.setSp (s.sp + 2#32)).cellsOk .l (s.setSp (s.sp + 2#32)).sp = true := by
    rw [State.sp_setSp, State.cellsOk_congr (t := s) (by simp) (by simp)]; exact h2
  have e : (s.setSp (s.sp + 2#32)).readLong (s.sp + 2#32) = s.readLong (s.sp + 2#32) :=
    State.readSized_setSp s (s.sp + 2#32) .l (s.sp + 2#32)
  rw [returnFromException, Exec.bind_ok (pop16_ok h1), Exec.bind_ok (pop32_ok a2), State.sp_setSp, e]
  rfl

end Sys2Proof.Machine
end

