-- ==== Sys2Proof/Laws/Frames.lean ====
section
/-! SUPPORT. Frames: how the frame of an instruction is put together from the frames of the updates it makes. -/

namespace Sys2Proof.Machine

/-- A frame that lets more change. -/
theorem State.Keeps.mono {s t : State} {c c' : Changes} (h : s.Keeps t c) (hd : c.dregs ⊆ c'.dregs)
    (ha : c.aregs ⊆ c'.aregs) (hb : c.bytes ⊆ c'.bytes) : s.Keeps t c' :=
  { h with
    dregs := fun r hr => h.dregs r fun m => hr (hd m)
    aregs := fun r hr => h.aregs r fun m => hr (ha m)
    bytes := fun x hx => h.bytes x fun m => hx (hb m) }

theorem State.Keeps.refl (s : State) (c : Changes) : s.Keeps s c where
  dregs _ _ := rfl
  aregs _ _ := rfl
  bytes _ _ := rfl
  otherSp := by split <;> rfl
  trace := rfl
  supervisor := rfl
  mask := rfl
  stopped := rfl
  halted := rfl
  nmiEdge := rfl
  ir := rfl
  pins := rfl
  inputs := rfl
  silent := rfl
  devices := rfl
  resetPulses := rfl
  traceDue := rfl

/-- Two updates that each keep to one frame keep to it together. -/
theorem State.Keeps.trans {s t u : State} {c : Changes} (h1 : s.Keeps t c) (h2 : t.Keeps u c) : s.Keeps u c where
  dregs r hr := (h2.dregs r hr).trans (h1.dregs r hr)
  aregs r hr := (h2.aregs r hr).trans (h1.aregs r hr)
  bytes x hx := (h2.bytes x hx).trans (h1.bytes x hx)
  otherSp := by
    have a := h1.otherSp
    have b := h2.otherSp
    rw [h1.supervisor] at b
    split at a <;> simp_all
  trace := h2.trace.trans h1.trace
  supervisor := h2.supervisor.trans h1.supervisor
  mask := h2.mask.trans h1.mask
  stopped := h2.stopped.trans h1.stopped
  halted := h2.halted.trans h1.halted
  nmiEdge := h2.nmiEdge.trans h1.nmiEdge
  ir := h2.ir.trans h1.ir
  pins := h2.pins.trans h1.pins
  inputs := h2.inputs.trans h1.inputs
  silent := h2.silent.trans h1.silent
  devices := h2.devices.trans h1.devices
  resetPulses := h2.resetPulses.trans h1.resetPulses
  traceDue := h2.traceDue.trans h1.traceDue

/-- A change of `PC`, the condition codes, the prefetched words, what the devices have seen or the count of draws
alone. -/
theorem State.keeps_flags (s : State) (c : Changes) (pc : Long) (sr : StatusReg) (prefetch : List Prefetched)
    (log : List Config.BusEvent) (draws : Nat) (ht : sr.t = s.sr.t) (hs : sr.s = s.sr.s) (hi : sr.i = s.sr.i) :
    s.Keeps { s with pc := pc, sr := sr, prefetch := prefetch, deviceLog := log, draws := draws } c where
  dregs _ _ := rfl
  aregs r _ := by simp [State.areg, State.sp, hs]
  bytes _ _ := rfl
  otherSp := by split <;> rfl
  trace := ht
  supervisor := hs
  mask := hi
  stopped := rfl
  halted := rfl
  nmiEdge := rfl
  ir := rfl
  pins := rfl
  inputs := rfl
  silent := rfl
  devices := rfl
  resetPulses := rfl
  traceDue := rfl

theorem State.keeps_pastWords (s : State) (n : Nat) (c : Changes) : s.Keeps (s.pastWords n) c :=
  s.keeps_flags c _ s.sr _ _ _ rfl rfl rfl

theorem State.keeps_setDreg (s : State) (r : RegNo) (v : Long) {c : Changes} (h : r ∈ c.dregs) :
    s.Keeps (s.setDreg r v) c :=
  { State.Keeps.refl s c with
    dregs := fun _ hq => State.dreg_setDreg_of_ne s v fun e => hq (e ▸ h) }

theorem State.keeps_putDreg {n : Nat} (s : State) (r : RegNo) (v : BitVec n) {c : Changes} (h : r ∈ c.dregs) :
    s.Keeps (s.putDreg r v) c := s.keeps_setDreg r _ h

theorem State.keeps_setAreg (s : State) (r : RegNo) (v : Long) {c : Changes} (h : r ∈ c.aregs) :
    s.Keeps (s.setAreg r v) c where
  dregs _ _ := by simp
  aregs _ hq := State.areg_setAreg_of_ne s v fun e => hq (e ▸ h)
  bytes x _ := State.readByte_congr (by simp) x
  otherSp := by
    by_cases hr : r.toNat < 7
    · simp [State.setAreg, hr]
    · by_cases hs : s.sr.s = true
      · simp [State.setAreg, hr, hs, State.setSp]
      · simp [State.setAreg, hr, hs, State.setSp]
  trace := by simp
  supervisor := by simp
  mask := by simp
  stopped := by simp
  halted := by simp
  nmiEdge := by simp
  ir := by simp
  pins := by simp
  inputs := by simp
  silent := by simp
  devices := by simp
  resetPulses := by simp
  traceDue := by simp

/-- The active stack pointer is `A7`. -/
theorem State.setSp_eq_setAreg (s : State) (v : Long) : s.setSp v = s.setAreg 7#3 v := by simp [State.setAreg]

theorem State.keeps_setSp (s : State) (v : Long) {c : Changes} (h : 7#3 ∈ c.aregs) : s.Keeps (s.setSp v) c := by
  rw [State.setSp_eq_setAreg]
  exact s.keeps_setAreg 7#3 v h

theorem State.keeps_writeSized (s : State) (sz : Size) (x : Long) (v : BitVec sz.bits) {c : Changes}
    (h : bytesAt x sz.bytes ⊆ c.bytes) : s.Keeps (s.writeSized sz x v) c where
  dregs _ _ := by simp
  aregs _ _ := by simp
  bytes y hy := State.readByte_writeSized_of_notMem s sz v fun m => hy (h m)
  otherSp := by split <;> simp
  trace := by simp
  supervisor := by simp
  mask := by simp
  stopped := by simp
  halted := by simp
  nmiEdge := by simp
  ir := by simp
  pins := by simp
  inputs := by simp
  silent := by simp
  devices := by simp
  resetPulses := by simp
  traceDue := by simp

theorem State.keeps_writeWord (s : State) (x : Long) (v : Word) {c : Changes} (h : bytesAt x 2 ⊆ c.bytes) :
    s.Keeps (s.writeWord x v) c := s.keeps_writeSized .w x v h

theorem State.keeps_writeLong (s : State) (x : Long) (v : Long) {c : Changes} (h : bytesAt x 4 ⊆ c.bytes) :
    s.Keeps (s.writeLong x v) c := s.keeps_writeSized .l x v h

theorem State.keeps_writeByte (s : State) (x : Long) (v : Byte) {c : Changes} (h : bytesAt x 1 ⊆ c.bytes) :
    s.Keeps (s.writeByte x v) c := s.keeps_writeSized .b x v h

/-- A read, of memory cells or of a device. -/
theorem State.keeps_busRead (s : State) (sz : Size) (x : Long) (c : Changes) : s.Keeps (s.busRead sz x).2 c := by
  obtain ⟨l, n, h⟩ := s.busRead_state sz x
  rw [h]
  exact s.keeps_flags c s.pc s.sr s.prefetch l n rfl rfl rfl

theorem State.keeps_afterRead (s : State) (sz : Size) (loc : Loc) (c : Changes) : s.Keeps (loc.afterRead sz s) c := by
  cases loc with
  | mem sp x => exact s.keeps_busRead sz x c
  | _ => exact .refl s c

/-- A write, to memory cells or to a device. -/
theorem State.keeps_busWrite (s : State) (sz : Size) (x : Long) (v : BitVec sz.bits) {c : Changes}
    (h : bytesAt x sz.bytes ⊆ c.bytes) : s.Keeps (s.busWrite sz x v) c where
  dregs _ _ := by simp
  aregs _ _ := by simp
  bytes y hy := State.readByte_busWrite_of_notMem s sz v fun m => hy (h m)
  otherSp := by split <;> simp
  trace := by simp
  supervisor := by simp
  mask := by simp
  stopped := by simp
  halted := by simp
  nmiEdge := by simp
  ir := by simp
  pins := by simp
  inputs := by simp
  silent := by simp
  devices := by simp
  resetPulses := by simp
  traceDue := by simp

/-- A store into a location. -/
theorem State.keeps_put (s : State) (sz : Size) (loc : Loc) (v : BitVec sz.bits) {c : Changes}
    (hd : loc.dregs ⊆ c.dregs) (ha : loc.aregs ⊆ c.aregs) (hb : loc.bytes sz ⊆ c.bytes) : s.Keeps (loc.put sz s v) c := by
  cases loc with
  | dreg r => exact s.keeps_putDreg r v (hd (by simp [Loc.dregs]))
  | areg r => exact s.keeps_setAreg r _ (ha (by simp [Loc.aregs]))
  | mem sp x => exact s.keeps_busWrite sz x v hb
  | imm w => exact .refl s c

theorem State.keeps_eaUpdate (s : State) (sz : Size) (ea : EA) {c : Changes} (h : eaStepped ea ⊆ c.aregs) :
    s.Keeps (eaUpdate sz ea s) c := by
  cases ea with
  | postInc r => exact s.keeps_setAreg r _ (h (by simp [eaStepped]))
  | preDec r => exact s.keeps_setAreg r _ (h (by simp [eaStepped]))
  | _ => exact .refl s c

/-- Resolving an effective address changes the register it steps and `PC`. -/
theorem State.keeps_resolved (s : State) (sz : Size) (ea : EA) {c : Changes} (h : eaStepped ea ⊆ c.aregs) :
    s.Keeps (s.resolved sz ea) c := (s.keeps_pastWords _ c).trans (State.keeps_eaUpdate _ sz ea h)

/-! ## The supervisor part of the status register is not the flag operations' -/

/-- The parts of the status register that no flag operation touches. -/
def StatusReg.SameSystem (a b : StatusReg) : Prop := a.t = b.t ∧ a.s = b.s ∧ a.i = b.i

theorem State.Keeps.withFlags {s t : State} {c : Changes} (h : s.Keeps t c) (sr : StatusReg) (hsr : sr.SameSystem s.sr) :
    s.Keeps { t with sr := sr } c :=
  h.trans (t.keeps_flags c t.pc sr t.prefetch t.deviceLog t.draws (hsr.1.trans h.trace.symm)
    (hsr.2.1.trans h.supervisor.symm) (hsr.2.2.trans h.mask.symm))

theorem State.Keeps.withPc {s t : State} {c : Changes} (h : s.Keeps t c) (pc : Long) (pre : List Prefetched) :
    s.Keeps { t with pc := pc, prefetch := pre } c :=
  h.trans (t.keeps_flags c pc t.sr pre t.deviceLog t.draws rfl rfl rfl)

end Sys2Proof.Machine
end

