-- ==== Sys2Proof/Laws/Families.lean ====
section
/-! SUPPORT. What each operation that one family of instructions shares does, once, where nothing faults. -/

namespace Sys2Proof.Machine

/-! ## Control -/

theorem branchTarget_byte (d : Byte) (s : State) :
    branchTarget (.byte d) s = .ok (s.pc + d.signExtend 32) s := rfl

theorem branchTarget_word {d : Word} {s : State} (h : s.cellsOk .w s.pc = true) :
    branchTarget (.word d) s = .ok (s.pc + d.signExtend 32) { s with pc := s.pc + 2#32 } := by
  rw [branchTarget, Exec.bind_ok (Exec.get_apply _)]
  dsimp only
  rw [Exec.bind_ok (fetchExt_ok h)]
  rfl

theorem chkFlags_apply (d b : Int) (s : State) :
    chkFlags d b s = .ok () { s with
      sr := { s.sr with n := chkSign d b (Config.freeBit (s.draws + 3)), z := Config.freeBit s.draws
                        v := Config.freeBit (s.draws + 1), c := Config.freeBit (s.draws + 2) }
      draws := s.draws + 4 } := rfl

/-! ## Division -/

theorem storeQuotient_fits (rx : RegNo) (q m : Int) (negative : Bool) (s : State) :
    storeQuotient rx q m true negative s = .ok () { s.setDreg rx (BitVec.ofInt 16 m ++ BitVec.ofInt 16 q) with
      sr := { s.sr with n := negative, z := q == 0, v := false, c := false } } := rfl

theorem storeQuotient_overflow (rx : RegNo) (q m : Int) (negative : Bool) (s : State) :
    storeQuotient rx q m false negative s = .ok () { s with
      sr := { s.sr with n := Config.freeBit s.draws, z := Config.freeBit (s.draws + 1), v := true, c := false }
      draws := s.draws + 2 } := rfl

theorem zeroDivide_ok {s : State} (h : s.canExcept 5 = true) :
    zeroDivide s = .ok () (State.excepted { s with
      sr := { s.sr with n := Config.freeBit s.draws, z := Config.freeBit (s.draws + 1)
                        v := Config.freeBit (s.draws + 2), c := false }
      draws := s.draws + 3 } 5 s.pc none) :=
  trapNext_ok (s := { s with
      sr := { s.sr with n := Config.freeBit s.draws, z := Config.freeBit (s.draws + 1)
                        v := Config.freeBit (s.draws + 2), c := false }
      draws := s.draws + 3 }) h

/-! ## Logic -/

theorem immToCcr_ok {v : Byte} {f : Byte → Byte → Byte} {s : State} (h : s.cellsOk .w s.pc = true) :
    immToCcr v f s = .ok () { s with pc := s.pc + 2#32, sr := s.sr.withCcr (f s.sr.ccr v) } := by
  rw [immToCcr, Exec.bind_ok (fetchExt_ok h)]
  rfl

theorem immToSr_ok {v : Word} {f : Word → Word → Word} {s : State} (hs : s.sr.s = true) (h : s.cellsOk .w s.pc = true) :
    immToSr v f s = .ok () { s with pc := s.pc + 2#32, sr := StatusReg.ofWord (f s.sr.toWord v) } := by
  rw [immToSr, privileged_of_supervisor hs, Exec.bind_ok (fetchExt_ok h)]
  rfl

/-! ## Shifts -/

theorem shiftReg_apply (op : ShiftOp) (sz : Size) (count : Nat) (ry : RegNo) (s : State) :
    shiftReg op sz count ry s = .ok () (
      let p := shiftOp op count ((s.dreg ry).setWidth sz.bits) s.sr
      { s.putDreg ry p.1 with sr := p.2 }) := rfl

theorem shiftByReg_apply (op : ShiftOp) (sz : Size) (rx ry : RegNo) (s : State) :
    shiftByReg op sz rx ry s = shiftReg op sz ((s.dreg rx).toNat % 64) ry s := rfl

/-! ## Bits -/

theorem bitOp_tst_ok {b : Nat} {ea : EA} {s : State} (h : s.fetchable s.pc (eaExtCount ea.bitSize ea) = true)
    (hr : (eaLoc ea.bitSize ea s).readable ea.bitSize (s.resolved ea.bitSize ea) = true) :
    bitOp .tst b ea s = .ok () (
      let s2 := s.resolved ea.bitSize ea
      let v := (eaLoc ea.bitSize ea s).value ea.bitSize s2
      let s3 := (eaLoc ea.bitSize ea s).afterRead ea.bitSize s2
      { s3 with sr := { s3.sr with z := !v.getLsbD (b % ea.bitSize.bits) } }) := by
  simp only [bitOp]
  rw [Exec.bind_ok (resolveEA_ok h), Exec.bind_ok (readLoc_ok hr), Exec.bind_ok (setFlags_apply _ _)]
  rfl

theorem bitOp_write_ok {op : BitOp} {b : Nat} {ea : EA} {s : State} (hop : op ≠ .tst)
    (h : s.fetchable s.pc (eaExtCount ea.bitSize ea) = true)
    (hw : (eaLoc ea.bitSize ea s).writable ea.bitSize (s.resolved ea.bitSize ea) = true) :
    bitOp op b ea s = .ok () (
      let s2 := s.resolved ea.bitSize ea
      let loc := eaLoc ea.bitSize ea s
      let v := loc.value ea.bitSize s2
      let s3 := loc.afterRead ea.bitSize s2
      let k := b % ea.bitSize.bits
      { loc.put ea.bitSize s3 (op.apply v k) with sr := { s3.sr with z := !v.getLsbD k } }) := by
  have key : ∀ (u : State) (sr : StatusReg) (r : BitVec ea.bitSize.bits),
      (eaLoc ea.bitSize ea s).writable ea.bitSize u = true → sr.s = u.sr.s →
      writeLoc ea.bitSize (eaLoc ea.bitSize ea s) r { u with sr := sr } =
        .ok () { (eaLoc ea.bitSize ea s).put ea.bitSize u r with sr := sr } := by
    intro u sr r hu hs
    rw [← Loc.put_withFlags _ _ _ _ _ hs]
    exact writeLoc_ok ((Loc.writable_congr (s := { u with sr := sr }) (t := u) rfl _ _).trans hu)
  have hw' := Loc.writable_afterRead hw
  simp only [bitOp]
  rw [Exec.bind_ok (resolveEA_ok h), Exec.bind_ok (readLoc_ok (Loc.writable_readable hw)), Exec.bind_ok (setFlags_apply _ _)]
  cases op with
  | tst => exact absurd rfl hop
  | chg => exact key _ _ _ hw' rfl
  | clr => exact key _ _ _ hw' rfl
  | set => exact key _ _ _ hw' rfl

/-! ## Decimal -/

/-- What the decimal operations write: the result byte, Z, and the state with the other flags. -/
def bcdOutcome (valid : Bool) (t : Int) (s : State) : (Byte × Bool) × State :=
  let n := Config.freeBit s.draws
  let v := Config.freeBit (s.draws + 1)
  if valid then
    let carry := decide (t < 0) || decide (99 < t)
    ((bcdResult t, s.sr.z && bcdResult t == 0),
      { s with sr := { s.sr with x := carry, n := n, v := v, c := carry }, draws := s.draws + 2 })
  else
    ((Config.freeByte (s.draws + 2), Config.freeBit (s.draws + 5)),
      { s with sr := { s.sr with x := Config.freeBit (s.draws + 4), n := n, v := v, c := Config.freeBit (s.draws + 3) }
               draws := s.draws + 6 })

theorem bcdConclude_apply (valid : Bool) (t : Int) (s : State) :
    bcdConclude valid t s = .ok (bcdOutcome valid t s).1 (bcdOutcome valid t s).2 := by
  cases valid <;> rfl

theorem abcdOp_apply (v d : Byte) (s : State) :
    abcdOp v d s = (let o := bcdOutcome (bcdValid v && bcdValid d) (bcdValue d + bcdValue v + s.sr.xNat) s
      .ok o.1 o.2) := by
  rw [abcdOp, Exec.bind_ok (Exec.get_apply _), bcdConclude_apply]

theorem sbcdOp_apply (v d : Byte) (s : State) :
    sbcdOp v d s = (let o := bcdOutcome (bcdValid v && bcdValid d) ((bcdValue d : Int) - bcdValue v - s.sr.xNat) s
      .ok o.1 o.2) := by
  rw [sbcdOp, Exec.bind_ok (Exec.get_apply _), bcdConclude_apply]

/-- The decimal operations change the condition codes and the count of draws alone. -/
theorem bcdOutcome_state (valid : Bool) (t : Int) (s : State) : ∃ sr n, sr.SameSystem s.sr ∧
    (bcdOutcome valid t s).2 = { s with sr := sr, draws := n } := by
  refine ⟨(bcdOutcome valid t s).2.sr, (bcdOutcome valid t s).2.draws, ?_, ?_⟩ <;> cases valid <;>
    first | rfl | exact ⟨rfl, rfl, rfl⟩

/-! ## Moves of many registers -/

theorem storeUp_cons_ok {sz : Size} {i : Nat} {is : List Nat} {a : Long} {s : State} (h : s.accessOk sz a = true) :
    storeUp sz (i :: is) a s = storeUp sz is (a + sizeOffset sz) (s.busWrite sz a ((s.reg i).setWidth sz.bits)) := by
  rw [storeUp, Exec.bind_ok (Exec.get_apply _), Exec.bind_ok (memWrite_ok h)]

theorem storeDown_cons_ok {sz : Size} {i : Nat} {is : List Nat} {a : Long} {s : State}
    (h : s.accessOk sz (a - sizeOffset sz) = true) :
    storeDown sz (i :: is) a s = storeDown sz is (a - sizeOffset sz)
      (s.busWrite sz (a - sizeOffset sz) ((s.reg (15 - i)).setWidth sz.bits)) := by
  rw [storeDown, Exec.bind_ok (Exec.get_apply _), Exec.bind_ok (memWrite_ok h)]

theorem loadUp_cons_ok {sp : Space} {sz : Size} {i : Nat} {is : List Nat} {a : Long} {s : State}
    (h : s.accessOk sz a = true) :
    loadUp sp sz (i :: is) a s = loadUp sp sz is (a + sizeOffset sz)
      ((s.busRead sz a).2.setReg i ((s.busRead sz a).1.signExtend 32)) := by
  rw [loadUp, Exec.bind_ok (memRead_ok h), Exec.bind_ok (Exec.modify_apply _ _)]

theorem movepLoad_cons_ok {rx : RegNo} {k : Nat} {ks : List Nat} {a : Long} {s : State} (h : s.accessOk .b a = true) :
    movepLoad rx (k :: ks) a s = (
      let p := s.busRead .b a
      movepLoad rx ks (a + 2#32) (p.2.setDreg rx (putLane (p.2.dreg rx) k p.1))) := by
  rw [movepLoad, Exec.bind_ok (memRead_ok h)]
  rfl

theorem movepStore_cons_ok {rx : RegNo} {k : Nat} {ks : List Nat} {a : Long} {s : State} (h : s.accessOk .b a = true) :
    movepStore rx (k :: ks) a s =
      movepStore rx ks (a + 2#32) (s.busWrite .b a ((s.dreg rx).extractLsb' (8 * k) 8)) := by
  rw [movepStore, Exec.bind_ok (Exec.get_apply _), Exec.bind_ok (memWrite_ok h)]

end Sys2Proof.Machine
end

