-- ==== Sys2Proof/Laws/Fetch.lean ====
section
/-! SUPPORT. What fetching the words of an instruction answers: the choice among prefetched words, how many words there
are and how many draws they take. -/

namespace Sys2Proof.Machine

@[simp] theorem State.chooseWord_nil (s : State) (a : Long) (m w : Word) (n : Nat) :
    s.chooseWord a m [] w n = (w, n) := rfl

/-- Of memory cells, an unseen store leaves the whole word as it was. -/
theorem State.olderWord_cells (s : State) (a : Long) (c : Prefetched) (m : Word) (h : s.isCells .w a = true) :
    s.olderWord a c m = c.word := by
  have h' : s.deviceAt a = false ∧ s.deviceAt (a + 1#32) = false := by
    simpa [State.isCells, State.wordDevice] using h
  simp only [State.olderWord, State.olderByte, h'.1, h'.2, Bool.not_false, Bool.true_or, if_true]
  refine BitVec.eq_of_getLsbD_eq fun i hi => ?_
  simp only [BitVec.getLsbD_append, BitVec.getLsbD_extractLsb']
  by_cases h8 : i < 8
  · simp [h8]
  · have : i - 8 < 8 := by omega
    simp [h8, this, Nat.add_sub_cancel' (Nat.le_of_not_lt h8)]

/-- What a choice among prefetched words can answer: the word so far, or what one of them lets it answer. -/
theorem State.chooseWord_word (s : State) (a : Long) (m : Word) (l : List Prefetched) (w : Word) (n : Nat) :
    (s.chooseWord a m l w n).1 = w ∨
      ∃ c ∈ l, c.addr = addrOf a ∧ (s.chooseWord a m l w n).1 = s.olderWord a c m := by
  induction l generalizing w n with
  | nil => exact .inl rfl
  | cons c rest ih =>
    unfold State.chooseWord
    dsimp only
    split_ifs with h h1
    · obtain e | ⟨c', hc, h2⟩ := ih (s.olderWord a c m) (n + 1)
      · exact .inr ⟨c, List.mem_cons_self, h, e⟩
      · exact .inr ⟨c', List.mem_cons_of_mem _ hc, h2⟩
    · obtain e | ⟨c', hc, h2⟩ := ih w (n + 1)
      · exact .inl e
      · exact .inr ⟨c', List.mem_cons_of_mem _ hc, h2⟩
    · obtain e | ⟨c', hc, h2⟩ := ih w n
      · exact .inl e
      · exact .inr ⟨c', List.mem_cons_of_mem _ hc, h2⟩

/-- How many draws a choice takes depends on the addresses of the prefetched words alone. -/
theorem State.chooseWord_draws (s : State) (a : Long) (m : Word) (l : List Prefetched) (w : Word) (n : Nat) :
    (s.chooseWord a m l w n).2 = n + (l.filter fun c => c.addr = addrOf a).length := by
  induction l generalizing w n with
  | nil => rfl
  | cons c rest ih =>
    unfold State.chooseWord
    by_cases h : c.addr = addrOf a
    · simp only [h, if_true, ih, List.filter_cons, decide_true, List.length_cons]; omega
    · simp [h, ih]

@[simp] theorem State.readWordCycle_prefetch (s : State) (a : Long) : (s.readWordCycle a).2.prefetch = s.prefetch := by
  obtain ⟨l, h⟩ := s.readWordCycle_state a; rw [h]

@[simp] theorem State.readWordCycle_draws (s : State) (a : Long) : (s.readWordCycle a).2.draws = s.draws := by
  obtain ⟨l, h⟩ := s.readWordCycle_state a; rw [h]

@[simp] theorem State.fetchWords_zero (s : State) (a : Long) (n : Nat) : s.fetchWords 0 a n = ([], n) := rfl

/-- The words after the first are fetched in the state after its read, the draws going on. -/
theorem State.fetchWords_succ (s : State) (count : Nat) (a : Long) (n : Nat) :
    s.fetchWords (count + 1) a n =
      ((s.chooseWord a (s.readWordCycle a).1 s.prefetch (s.readWordCycle a).1 n).1 ::
          ((s.readWordCycle a).2.fetchWords count (a + 2#32) (s.chooseWord a (s.readWordCycle a).1 s.prefetch (s.readWordCycle a).1 n).2).1,
        ((s.readWordCycle a).2.fetchWords count (a + 2#32) (s.chooseWord a (s.readWordCycle a).1 s.prefetch (s.readWordCycle a).1 n).2).2) := rfl

@[simp] theorem State.fetchWords_length (s : State) (count : Nat) (a : Long) (n : Nat) :
    (s.fetchWords count a n).1.length = count := by
  induction count generalizing s a n with
  | zero => rfl
  | succ count ih => rw [State.fetchWords_succ]; simp [ih]

/-- How many draws a fetch of words takes depends on the prefetched addresses alone. -/
theorem State.fetchWords_draws (s t : State) (count : Nat) (a : Long) (n : Nat) (h : t.prefetch = s.prefetch) :
    (t.fetchWords count a n).2 = (s.fetchWords count a n).2 := by
  induction count generalizing s t a n with
  | zero => rfl
  | succ count ih =>
    rw [State.fetchWords_succ, State.fetchWords_succ]
    simp only [State.chooseWord_draws, h]
    exact ih _ _ _ _ (by simp [h])

end Sys2Proof.Machine
end

