-- ==== Sys2Proof/Laws/Invariant.lean ====
section
/-! SUPPORT. The shared operations keep the canonical form of memory, whether they end well or early. -/

namespace Sys2Proof.Machine

/-- The state a part of an instruction leaves, however it ends. -/
def Exec.final {α : Type} (m : Exec α) (s : State) : State :=
  match m s with
  | .ok _ t => t
  | .error _ t => t

/-- A part of an instruction keeps memory's canonical form, however it ends. -/
def Exec.KeepsInv {α : Type} (m : Exec α) : Prop := ∀ s, s.Inv → (m.final s).Inv

theorem Exec.KeepsInv.of_apply {α : Type} {m : Exec α} (h : ∀ s, s.Inv → (∀ a t, m s = .ok a t → t.Inv) ∧
    (∀ e t, m s = .error e t → t.Inv)) : m.KeepsInv := by
  intro s hs
  unfold Exec.final
  split
  · exact (h s hs).1 _ _ ‹_›
  · exact (h s hs).2 _ _ ‹_›

theorem Exec.KeepsInv.bind {α β : Type} {m : Exec α} {f : α → Exec β} (hm : m.KeepsInv) (hf : ∀ a, (f a).KeepsInv) :
    (m >>= f).KeepsInv := by
  intro s hs
  have h1 := hm s hs
  unfold Exec.final at h1 ⊢
  rw [Exec.bind_apply]
  revert h1
  cases m s with
  | ok a t => exact hf a t
  | error e t => exact id

theorem Exec.KeepsInv.map {α β : Type} {m : Exec α} (f : α → β) (hm : m.KeepsInv) : (f <$> m).KeepsInv := by
  intro s hs
  have h1 := hm s hs
  unfold Exec.final at h1 ⊢
  rw [Exec.map_apply]
  revert h1
  cases m s with
  | ok a t => exact id
  | error e t => exact id

theorem Exec.KeepsInv.pure {α : Type} (a : α) : (Pure.pure a : Exec α).KeepsInv := fun _ hs => hs

theorem Exec.KeepsInv.throw {α : Type} (e : Abort) : (throw e : Exec α).KeepsInv := fun _ hs => hs

theorem Exec.KeepsInv.get : (MonadState.get : Exec State).KeepsInv := fun _ hs => hs

theorem Exec.KeepsInv.modify {f : State → State} (h : ∀ s, (f s).mem = s.mem) : (modify f : Exec PUnit).KeepsInv := by
  intro s hs
  change (f s).Inv
  unfold State.Inv
  rw [h s]
  exact hs

theorem Exec.KeepsInv.ite {α : Type} {c : Prop} [Decidable c] {m n : Exec α} (hm : m.KeepsInv) (hn : n.KeepsInv) :
    (if c then m else n).KeepsInv := by split <;> assumption

theorem setFlags_keepsInv (f : StatusReg → StatusReg) : (setFlags f).KeepsInv := Exec.KeepsInv.modify fun _ => rfl

theorem jump_keepsInv (a : Long) : (jump a).KeepsInv := Exec.KeepsInv.modify fun _ => rfl

theorem drawBit_keepsInv : drawBit.KeepsInv := fun _ hs => hs

theorem drawByte_keepsInv : drawByte.KeepsInv := fun _ hs => hs

theorem memRead_keepsInv (sp : Space) (sz : Size) (a : Long) : (memRead sp sz a).KeepsInv := by
  intro s hs
  unfold Exec.final memRead
  split
  · rename_i h
    split at h
    · cases h; obtain ⟨l, n, e⟩ := s.busRead_state sz a; rw [e]; exact hs
    · cases h
  · rename_i h
    split at h
    · cases h
    · cases h; obtain ⟨l, n, e⟩ := s.halfRead_state sz a; rw [e]; exact hs

theorem memWrite_keepsInv (sz : Size) (a : Long) (v : BitVec sz.bits) : (memWrite sz a v).KeepsInv := by
  intro s hs
  unfold Exec.final memWrite
  by_cases h : s.accessOk sz a = true
  · simp only [h, if_true]; exact State.wf_busWrite sz a v hs
  · simp only [h]; exact State.wf_halfWritten sz a v hs

theorem fetchExt_keepsInv : fetchExt.KeepsInv :=
  .bind .get fun _ => .bind (memRead_keepsInv _ _ _) fun _ => .modify fun _ => rfl

theorem fetchExts_keepsInv (n : Nat) : (fetchExts n).KeepsInv := by
  induction n with
  | zero => exact .pure ()
  | succ n ih => exact .bind fetchExt_keepsInv fun _ => ih

theorem push16_keepsInv (v : Word) : (push16 v).KeepsInv :=
  .bind (.modify fun s => by simp) fun _ => .bind .get fun _ => memWrite_keepsInv _ _ _

theorem push32_keepsInv (v : Long) : (push32 v).KeepsInv :=
  .bind (.modify fun s => by simp) fun _ => .bind .get fun _ => memWrite_keepsInv _ _ _

theorem pop16_keepsInv : pop16.KeepsInv :=
  .bind .get fun _ => .bind (memRead_keepsInv _ _ _) fun _ => .bind (.modify fun s => by simp) fun _ => .pure _

theorem pop32_keepsInv : pop32.KeepsInv :=
  .bind .get fun _ => .bind (memRead_keepsInv _ _ _) fun _ => .bind (.modify fun s => by simp) fun _ => .pure _

theorem loadVector_keepsInv (k : Byte) : (loadVector k).KeepsInv :=
  .bind (memRead_keepsInv _ _ _) fun _ => jump_keepsInv _

theorem processing_keepsInv {m : Exec Unit} (h : m.KeepsInv) : (processing m).KeepsInv := by
  intro s hs
  have h1 := h s hs
  unfold Exec.final at h1
  unfold Exec.final processing
  cases hm : m s <;> simp_all

theorem takeException_keepsInv (k : Byte) (p : Long) (level : Option (BitVec 3)) : (takeException k p level).KeepsInv := by
  refine processing_keepsInv (.bind .get fun _ => .bind (.modify fun _ => rfl) fun _ => ?_)
  have rest : (do push32 p; push16 ‹State›.sr.toWord; loadVector k : Exec Unit).KeepsInv :=
    .bind (push32_keepsInv _) fun _ => .bind (push16_keepsInv _) fun _ => loadVector_keepsInv _
  cases level with
  | none => exact rest
  | some l => exact .bind (.modify fun _ => rfl) fun _ => rest

theorem returnFromException_keepsInv : returnFromException.KeepsInv :=
  .bind pop16_keepsInv fun _ => .bind pop32_keepsInv fun _ => .bind (.modify fun _ => rfl) fun _ => jump_keepsInv _

theorem exceptionInstead_keepsInv (k : Byte) : (exceptionInstead k).KeepsInv :=
  .bind (.modify fun _ => rfl) fun _ => .bind .get fun _ => takeException_keepsInv _ _ _

theorem trapNext_keepsInv (k : Byte) : (trapNext k).KeepsInv := .bind .get fun _ => takeException_keepsInv _ _ _

theorem privileged_keepsInv {body : Exec Unit} (h : body.KeepsInv) : (privileged body).KeepsInv :=
  .bind .get fun _ => .ite h (exceptionInstead_keepsInv _)

theorem group0Frame_keepsInv (f : AccessFault) (p : Long) (ir info : Word) : (group0Frame f p ir info).KeepsInv :=
  .bind .get fun _ => .bind (.modify fun _ => rfl) fun _ => .bind (push32_keepsInv _) fun _ =>
    .bind (push16_keepsInv _) fun _ => .bind (push16_keepsInv _) fun _ => .bind (push32_keepsInv _) fun _ =>
    .bind (push16_keepsInv _) fun _ => loadVector_keepsInv _

/-- Group 0 exception processing keeps the canonical form, halting or not. -/
theorem State.inv_takeGroup0 {s : State} (f : AccessFault) (i : Option Long) (ir : Option Word) (h : s.Inv) :
    (s.takeGroup0 f i ir).Inv := by
  have key := group0Frame_keepsInv f (group0Pc i s.draws) (ir.getD (Config.freeWord (s.draws + 1)))
    (f.info (Config.freeWord (s.draws + 2))) { s with draws := s.draws + 3, traceDue := false } h
  unfold Exec.final at key
  unfold State.takeGroup0
  dsimp only
  split at key
  · rename_i heq; rw [heq]; exact key
  · rename_i heq; rw [heq]; exact key

/-- An instruction whose rule keeps the canonical form keeps it in whatever next state it answers. -/
theorem runBody_inv {body : Exec Unit} (hb : body.KeepsInv) {s t : State} (hs : s.Inv) (h : runBody body s = .next t) :
    t.Inv := by
  have key := hb { s with pc := s.pc + 2#32 } hs
  unfold runBody at h
  unfold Exec.final at key
  split at key
  · rename_i heq; rw [heq] at h; simp only [conclude, Host.Outcome.next.injEq] at h; exact h ▸ key
  · rename_i e t' heq
    rw [heq] at h
    cases e with
    | group0 f => simp only [conclude, Host.Outcome.next.injEq] at h; exact h ▸ State.inv_takeGroup0 _ _ _ key
    | refuse r => simp [conclude] at h

theorem eaUpdate_keepsInv (sz : Size) (ea : EA) : (modify (eaUpdate sz ea) : Exec PUnit).KeepsInv :=
  .modify fun s => by simp

theorem resolveEA_keepsInv (sz : Size) (ea : EA) : (resolveEA sz ea).KeepsInv :=
  .bind .get fun _ => .bind (fetchExts_keepsInv _) fun _ => .bind (eaUpdate_keepsInv sz ea) fun _ => .pure _

theorem readLoc_keepsInv (sz : Size) (loc : Loc) : (readLoc sz loc).KeepsInv := by
  cases loc with
  | mem sp a => exact memRead_keepsInv _ _ _
  | imm v => exact .pure _
  | _ => exact .bind .get fun _ => .pure _

theorem writeLoc_keepsInv (sz : Size) (loc : Loc) (v : BitVec sz.bits) : (writeLoc sz loc v).KeepsInv := by
  cases loc with
  | dreg r => exact .modify fun _ => rfl
  | areg r => exact .modify fun s => by simp
  | imm v => exact .throw _
  | mem sp a =>
    cases sp with
    | data => exact memWrite_keepsInv _ _ _
    | program => exact .throw _

theorem readEA_keepsInv (sz : Size) (ea : EA) : (readEA sz ea).KeepsInv :=
  .bind (resolveEA_keepsInv sz ea) fun _ => readLoc_keepsInv sz _

theorem addressEA_keepsInv (sz : Size) (ea : EA) : (addressEA sz ea).KeepsInv :=
  .bind (resolveEA_keepsInv sz ea) fun loc => by
    cases loc with
    | mem sp a => exact .pure _
    | _ => exact .throw _

theorem readPreDec_keepsInv (sz : Size) (r : RegNo) : (readPreDec sz r).KeepsInv :=
  .bind (.modify fun s => by simp) fun _ => .bind .get fun _ => memRead_keepsInv _ _ _

theorem readPostInc_keepsInv (sz : Size) (r : RegNo) : (readPostInc sz r).KeepsInv :=
  .bind .get fun _ => .bind (memRead_keepsInv _ _ _) fun _ => .bind (.modify fun s => by simp) fun _ => .pure _

theorem discardRead_keepsInv (sz : Size) (loc : Loc) : (discardRead sz loc).KeepsInv := by
  cases loc with
  | mem sp a => exact .bind (memRead_keepsInv _ _ _) fun _ => .pure _
  | _ => exact .pure _

end Sys2Proof.Machine
end

