-- ==== Sys2Proof/Laws/PerInstr.lean ====
section
/-! SUPPORT. One lemma per instruction: its encoding begins with its operation word and has at most five words
(30_encoding.md R100). -/

namespace Sys2Proof.Laws

theorem immWords_length (sz : Size) (v : Long) : (immWords sz v).length ≤ 2 := by
  cases sz <;> simp [immWords, longWords]

theorem eaWords_length (sz : Size) (ea : EA) : (ea.words sz).length ≤ 2 := by
  cases ea with
  | imm v => exact immWords_length sz v
  | _ => simp [EA.words, longWords]

theorem append_length (sz : Size) {ws : List Word} (h : ws.length ≤ 2) (ea : EA) : (ws ++ ea.words sz).length ≤ 4 := by
  have := eaWords_length sz ea
  rw [List.length_append]
  omega

theorem dispWords_length (d : Disp) : d.words.length ≤ 1 := by cases d <;> simp [Disp.words]

/-- At most five words, the operation word among them (30_encoding.md R100). -/
def EncodingShape.Statement (i : Instr) : Prop := i.length ≤ 5 ∧ (encode i).head? = some i.opWord

theorem one_le_four : 1 ≤ 4 := by decide

theorem shape_of {i : Instr} (h : i.extWords.length ≤ 4) : EncodingShape.Statement i :=
  ⟨Nat.succ_le_succ h, rfl⟩

theorem EncodingShape.oriToCcr (v : Byte) : EncodingShape.Statement (.oriToCcr v) := shape_of one_le_four
theorem EncodingShape.oriToSr (v : Word) : EncodingShape.Statement (.oriToSr v) := shape_of one_le_four
theorem EncodingShape.andiToCcr (v : Byte) : EncodingShape.Statement (.andiToCcr v) := shape_of one_le_four
theorem EncodingShape.andiToSr (v : Word) : EncodingShape.Statement (.andiToSr v) := shape_of one_le_four
theorem EncodingShape.eoriToCcr (v : Byte) : EncodingShape.Statement (.eoriToCcr v) := shape_of one_le_four
theorem EncodingShape.eoriToSr (v : Word) : EncodingShape.Statement (.eoriToSr v) := shape_of one_le_four
theorem EncodingShape.movepToReg (sz : SizeWL) (ry : RegNo) (d : Word) (rx : RegNo) : EncodingShape.Statement (.movepToReg sz ry d rx) := shape_of one_le_four
theorem EncodingShape.movepToMem (sz : SizeWL) (rx : RegNo) (ry : RegNo) (d : Word) : EncodingShape.Statement (.movepToMem sz rx ry d) := shape_of one_le_four
theorem EncodingShape.btstReg (rx : RegNo) (ea : EA) : EncodingShape.Statement (.btstReg rx ea) :=
  shape_of ((eaWords_length _ ea).trans (by decide))
theorem EncodingShape.bchgReg (rx : RegNo) (ea : EA) : EncodingShape.Statement (.bchgReg rx ea) :=
  shape_of ((eaWords_length _ ea).trans (by decide))
theorem EncodingShape.bclrReg (rx : RegNo) (ea : EA) : EncodingShape.Statement (.bclrReg rx ea) :=
  shape_of ((eaWords_length _ ea).trans (by decide))
theorem EncodingShape.bsetReg (rx : RegNo) (ea : EA) : EncodingShape.Statement (.bsetReg rx ea) :=
  shape_of ((eaWords_length _ ea).trans (by decide))
theorem EncodingShape.btstImm (n : Byte) (ea : EA) : EncodingShape.Statement (.btstImm n ea) :=
  shape_of (Nat.succ_le_succ ((eaWords_length _ ea).trans (by decide)))
theorem EncodingShape.bchgImm (n : Byte) (ea : EA) : EncodingShape.Statement (.bchgImm n ea) :=
  shape_of (Nat.succ_le_succ ((eaWords_length _ ea).trans (by decide)))
theorem EncodingShape.bclrImm (n : Byte) (ea : EA) : EncodingShape.Statement (.bclrImm n ea) :=
  shape_of (Nat.succ_le_succ ((eaWords_length _ ea).trans (by decide)))
theorem EncodingShape.bsetImm (n : Byte) (ea : EA) : EncodingShape.Statement (.bsetImm n ea) :=
  shape_of (Nat.succ_le_succ ((eaWords_length _ ea).trans (by decide)))
theorem EncodingShape.ori (sz : Size) (v : Long) (ea : EA) : EncodingShape.Statement (.ori sz v ea) :=
  shape_of (append_length sz (immWords_length sz v) ea)
theorem EncodingShape.andi (sz : Size) (v : Long) (ea : EA) : EncodingShape.Statement (.andi sz v ea) :=
  shape_of (append_length sz (immWords_length sz v) ea)
theorem EncodingShape.subi (sz : Size) (v : Long) (ea : EA) : EncodingShape.Statement (.subi sz v ea) :=
  shape_of (append_length sz (immWords_length sz v) ea)
theorem EncodingShape.addi (sz : Size) (v : Long) (ea : EA) : EncodingShape.Statement (.addi sz v ea) :=
  shape_of (append_length sz (immWords_length sz v) ea)
theorem EncodingShape.eori (sz : Size) (v : Long) (ea : EA) : EncodingShape.Statement (.eori sz v ea) :=
  shape_of (append_length sz (immWords_length sz v) ea)
theorem EncodingShape.cmpi (sz : Size) (v : Long) (ea : EA) : EncodingShape.Statement (.cmpi sz v ea) :=
  shape_of (append_length sz (immWords_length sz v) ea)
theorem EncodingShape.movea (sz : SizeWL) (src : EA) (rx : RegNo) : EncodingShape.Statement (.movea sz src rx) :=
  shape_of ((eaWords_length _ src).trans (by decide))
theorem EncodingShape.move (sz : Size) (src : EA) (dst : EA) : EncodingShape.Statement (.move sz src dst) :=
  shape_of (append_length sz (eaWords_length sz src) dst)
theorem EncodingShape.reset : EncodingShape.Statement .reset := shape_of (Nat.zero_le _)
theorem EncodingShape.nop : EncodingShape.Statement .nop := shape_of (Nat.zero_le _)
theorem EncodingShape.stop (v : Word) : EncodingShape.Statement (.stop v) := shape_of one_le_four
theorem EncodingShape.rte : EncodingShape.Statement .rte := shape_of (Nat.zero_le _)
theorem EncodingShape.rts : EncodingShape.Statement .rts := shape_of (Nat.zero_le _)
theorem EncodingShape.trapv : EncodingShape.Statement .trapv := shape_of (Nat.zero_le _)
theorem EncodingShape.rtr : EncodingShape.Statement .rtr := shape_of (Nat.zero_le _)
theorem EncodingShape.illegal : EncodingShape.Statement .illegal := shape_of (Nat.zero_le _)
theorem EncodingShape.trap (n : BitVec 4) : EncodingShape.Statement (.trap n) := shape_of (Nat.zero_le _)
theorem EncodingShape.link (r : RegNo) (d : Word) : EncodingShape.Statement (.link r d) := shape_of one_le_four
theorem EncodingShape.unlk (r : RegNo) : EncodingShape.Statement (.unlk r) := shape_of (Nat.zero_le _)
theorem EncodingShape.moveToUsp (r : RegNo) : EncodingShape.Statement (.moveToUsp r) := shape_of (Nat.zero_le _)
theorem EncodingShape.moveFromUsp (r : RegNo) : EncodingShape.Statement (.moveFromUsp r) := shape_of (Nat.zero_le _)
theorem EncodingShape.jsr (ea : EA) : EncodingShape.Statement (.jsr ea) :=
  shape_of ((eaWords_length _ ea).trans (by decide))
theorem EncodingShape.jmp (ea : EA) : EncodingShape.Statement (.jmp ea) :=
  shape_of ((eaWords_length _ ea).trans (by decide))
theorem EncodingShape.swap (r : RegNo) : EncodingShape.Statement (.swap r) := shape_of (Nat.zero_le _)
theorem EncodingShape.ext (sz : SizeWL) (r : RegNo) : EncodingShape.Statement (.ext sz r) := shape_of (Nat.zero_le _)
theorem EncodingShape.nbcd (ea : EA) : EncodingShape.Statement (.nbcd ea) :=
  shape_of ((eaWords_length _ ea).trans (by decide))
theorem EncodingShape.pea (ea : EA) : EncodingShape.Statement (.pea ea) :=
  shape_of ((eaWords_length _ ea).trans (by decide))
theorem EncodingShape.movemToMem (sz : SizeWL) (mask : Word) (ea : EA) : EncodingShape.Statement (.movemToMem sz mask ea) :=
  shape_of (Nat.succ_le_succ ((eaWords_length _ ea).trans (by decide)))
theorem EncodingShape.movemToReg (sz : SizeWL) (mask : Word) (ea : EA) : EncodingShape.Statement (.movemToReg sz mask ea) :=
  shape_of (Nat.succ_le_succ ((eaWords_length _ ea).trans (by decide)))
theorem EncodingShape.moveFromSr (ea : EA) : EncodingShape.Statement (.moveFromSr ea) :=
  shape_of ((eaWords_length _ ea).trans (by decide))
theorem EncodingShape.negx (sz : Size) (ea : EA) : EncodingShape.Statement (.negx sz ea) :=
  shape_of ((eaWords_length _ ea).trans (by decide))
theorem EncodingShape.moveFromCcr (low : BitVec 6) : EncodingShape.Statement (.moveFromCcr low) := shape_of (Nat.zero_le _)
theorem EncodingShape.clr (sz : Size) (ea : EA) : EncodingShape.Statement (.clr sz ea) :=
  shape_of ((eaWords_length _ ea).trans (by decide))
theorem EncodingShape.moveToCcr (ea : EA) : EncodingShape.Statement (.moveToCcr ea) :=
  shape_of ((eaWords_length _ ea).trans (by decide))
theorem EncodingShape.neg (sz : Size) (ea : EA) : EncodingShape.Statement (.neg sz ea) :=
  shape_of ((eaWords_length _ ea).trans (by decide))
theorem EncodingShape.moveToSr (ea : EA) : EncodingShape.Statement (.moveToSr ea) :=
  shape_of ((eaWords_length _ ea).trans (by decide))
theorem EncodingShape.not (sz : Size) (ea : EA) : EncodingShape.Statement (.not sz ea) :=
  shape_of ((eaWords_length _ ea).trans (by decide))
theorem EncodingShape.tas (ea : EA) : EncodingShape.Statement (.tas ea) :=
  shape_of ((eaWords_length _ ea).trans (by decide))
theorem EncodingShape.tst (sz : Size) (ea : EA) : EncodingShape.Statement (.tst sz ea) :=
  shape_of ((eaWords_length _ ea).trans (by decide))
theorem EncodingShape.chk (ea : EA) (rx : RegNo) : EncodingShape.Statement (.chk ea rx) :=
  shape_of ((eaWords_length _ ea).trans (by decide))
theorem EncodingShape.lea (ea : EA) (rx : RegNo) : EncodingShape.Statement (.lea ea rx) :=
  shape_of ((eaWords_length _ ea).trans (by decide))
theorem EncodingShape.dbcc (c : Cond) (r : RegNo) (d : Word) : EncodingShape.Statement (.dbcc c r d) := shape_of one_le_four
theorem EncodingShape.scc (c : Cond) (ea : EA) : EncodingShape.Statement (.scc c ea) :=
  shape_of ((eaWords_length _ ea).trans (by decide))
theorem EncodingShape.addq (sz : Size) (q : BitVec 3) (ea : EA) : EncodingShape.Statement (.addq sz q ea) :=
  shape_of ((eaWords_length _ ea).trans (by decide))
theorem EncodingShape.subq (sz : Size) (q : BitVec 3) (ea : EA) : EncodingShape.Statement (.subq sz q ea) :=
  shape_of ((eaWords_length _ ea).trans (by decide))
theorem EncodingShape.bra (d : Disp) : EncodingShape.Statement (.bra d) :=
  shape_of ((dispWords_length d).trans (by decide))
theorem EncodingShape.bsr (d : Disp) : EncodingShape.Statement (.bsr d) :=
  shape_of ((dispWords_length d).trans (by decide))
theorem EncodingShape.bcc (c : Cond) (d : Disp) : EncodingShape.Statement (.bcc c d) :=
  shape_of ((dispWords_length d).trans (by decide))
theorem EncodingShape.moveq (v : Byte) (rx : RegNo) : EncodingShape.Statement (.moveq v rx) := shape_of (Nat.zero_le _)
theorem EncodingShape.divu (ea : EA) (rx : RegNo) : EncodingShape.Statement (.divu ea rx) :=
  shape_of ((eaWords_length _ ea).trans (by decide))
theorem EncodingShape.divs (ea : EA) (rx : RegNo) : EncodingShape.Statement (.divs ea rx) :=
  shape_of ((eaWords_length _ ea).trans (by decide))
theorem EncodingShape.sbcdReg (ry : RegNo) (rx : RegNo) : EncodingShape.Statement (.sbcdReg ry rx) := shape_of (Nat.zero_le _)
theorem EncodingShape.sbcdMem (ry : RegNo) (rx : RegNo) : EncodingShape.Statement (.sbcdMem ry rx) := shape_of (Nat.zero_le _)
theorem EncodingShape.orToReg (sz : Size) (ea : EA) (rx : RegNo) : EncodingShape.Statement (.orToReg sz ea rx) :=
  shape_of ((eaWords_length _ ea).trans (by decide))
theorem EncodingShape.orToMem (sz : Size) (rx : RegNo) (ea : EA) : EncodingShape.Statement (.orToMem sz rx ea) :=
  shape_of ((eaWords_length _ ea).trans (by decide))
theorem EncodingShape.suba (sz : SizeWL) (ea : EA) (rx : RegNo) : EncodingShape.Statement (.suba sz ea rx) :=
  shape_of ((eaWords_length _ ea).trans (by decide))
theorem EncodingShape.subxReg (sz : Size) (ry : RegNo) (rx : RegNo) : EncodingShape.Statement (.subxReg sz ry rx) := shape_of (Nat.zero_le _)
theorem EncodingShape.subxMem (sz : Size) (ry : RegNo) (rx : RegNo) : EncodingShape.Statement (.subxMem sz ry rx) := shape_of (Nat.zero_le _)
theorem EncodingShape.subToReg (sz : Size) (ea : EA) (rx : RegNo) : EncodingShape.Statement (.subToReg sz ea rx) :=
  shape_of ((eaWords_length _ ea).trans (by decide))
theorem EncodingShape.subToMem (sz : Size) (rx : RegNo) (ea : EA) : EncodingShape.Statement (.subToMem sz rx ea) :=
  shape_of ((eaWords_length _ ea).trans (by decide))
theorem EncodingShape.cmpa (sz : SizeWL) (ea : EA) (rx : RegNo) : EncodingShape.Statement (.cmpa sz ea rx) :=
  shape_of ((eaWords_length _ ea).trans (by decide))
theorem EncodingShape.cmpm (sz : Size) (ry : RegNo) (rx : RegNo) : EncodingShape.Statement (.cmpm sz ry rx) := shape_of (Nat.zero_le _)
theorem EncodingShape.cmp (sz : Size) (ea : EA) (rx : RegNo) : EncodingShape.Statement (.cmp sz ea rx) :=
  shape_of ((eaWords_length _ ea).trans (by decide))
theorem EncodingShape.eor (sz : Size) (rx : RegNo) (ea : EA) : EncodingShape.Statement (.eor sz rx ea) :=
  shape_of ((eaWords_length _ ea).trans (by decide))
theorem EncodingShape.mulu (ea : EA) (rx : RegNo) : EncodingShape.Statement (.mulu ea rx) :=
  shape_of ((eaWords_length _ ea).trans (by decide))
theorem EncodingShape.muls (ea : EA) (rx : RegNo) : EncodingShape.Statement (.muls ea rx) :=
  shape_of ((eaWords_length _ ea).trans (by decide))
theorem EncodingShape.abcdReg (ry : RegNo) (rx : RegNo) : EncodingShape.Statement (.abcdReg ry rx) := shape_of (Nat.zero_le _)
theorem EncodingShape.abcdMem (ry : RegNo) (rx : RegNo) : EncodingShape.Statement (.abcdMem ry rx) := shape_of (Nat.zero_le _)
theorem EncodingShape.exgDD (rx : RegNo) (ry : RegNo) : EncodingShape.Statement (.exgDD rx ry) := shape_of (Nat.zero_le _)
theorem EncodingShape.exgAA (rx : RegNo) (ry : RegNo) : EncodingShape.Statement (.exgAA rx ry) := shape_of (Nat.zero_le _)
theorem EncodingShape.exgDA (rx : RegNo) (ry : RegNo) : EncodingShape.Statement (.exgDA rx ry) := shape_of (Nat.zero_le _)
theorem EncodingShape.andToReg (sz : Size) (ea : EA) (rx : RegNo) : EncodingShape.Statement (.andToReg sz ea rx) :=
  shape_of ((eaWords_length _ ea).trans (by decide))
theorem EncodingShape.andToMem (sz : Size) (rx : RegNo) (ea : EA) : EncodingShape.Statement (.andToMem sz rx ea) :=
  shape_of ((eaWords_length _ ea).trans (by decide))
theorem EncodingShape.adda (sz : SizeWL) (ea : EA) (rx : RegNo) : EncodingShape.Statement (.adda sz ea rx) :=
  shape_of ((eaWords_length _ ea).trans (by decide))
theorem EncodingShape.addxReg (sz : Size) (ry : RegNo) (rx : RegNo) : EncodingShape.Statement (.addxReg sz ry rx) := shape_of (Nat.zero_le _)
theorem EncodingShape.addxMem (sz : Size) (ry : RegNo) (rx : RegNo) : EncodingShape.Statement (.addxMem sz ry rx) := shape_of (Nat.zero_le _)
theorem EncodingShape.addToReg (sz : Size) (ea : EA) (rx : RegNo) : EncodingShape.Statement (.addToReg sz ea rx) :=
  shape_of ((eaWords_length _ ea).trans (by decide))
theorem EncodingShape.addToMem (sz : Size) (rx : RegNo) (ea : EA) : EncodingShape.Statement (.addToMem sz rx ea) :=
  shape_of ((eaWords_length _ ea).trans (by decide))
theorem EncodingShape.aslMem (ea : EA) : EncodingShape.Statement (.aslMem ea) :=
  shape_of ((eaWords_length _ ea).trans (by decide))
theorem EncodingShape.asrMem (ea : EA) : EncodingShape.Statement (.asrMem ea) :=
  shape_of ((eaWords_length _ ea).trans (by decide))
theorem EncodingShape.lslMem (ea : EA) : EncodingShape.Statement (.lslMem ea) :=
  shape_of ((eaWords_length _ ea).trans (by decide))
theorem EncodingShape.lsrMem (ea : EA) : EncodingShape.Statement (.lsrMem ea) :=
  shape_of ((eaWords_length _ ea).trans (by decide))
theorem EncodingShape.roxlMem (ea : EA) : EncodingShape.Statement (.roxlMem ea) :=
  shape_of ((eaWords_length _ ea).trans (by decide))
theorem EncodingShape.roxrMem (ea : EA) : EncodingShape.Statement (.roxrMem ea) :=
  shape_of ((eaWords_length _ ea).trans (by decide))
theorem EncodingShape.rolMem (ea : EA) : EncodingShape.Statement (.rolMem ea) :=
  shape_of ((eaWords_length _ ea).trans (by decide))
theorem EncodingShape.rorMem (ea : EA) : EncodingShape.Statement (.rorMem ea) :=
  shape_of ((eaWords_length _ ea).trans (by decide))
theorem EncodingShape.aslReg (sz : Size) (rx : RegNo) (ry : RegNo) : EncodingShape.Statement (.aslReg sz rx ry) := shape_of (Nat.zero_le _)
theorem EncodingShape.aslImm (sz : Size) (q : BitVec 3) (ry : RegNo) : EncodingShape.Statement (.aslImm sz q ry) := shape_of (Nat.zero_le _)
theorem EncodingShape.asrReg (sz : Size) (rx : RegNo) (ry : RegNo) : EncodingShape.Statement (.asrReg sz rx ry) := shape_of (Nat.zero_le _)
theorem EncodingShape.asrImm (sz : Size) (q : BitVec 3) (ry : RegNo) : EncodingShape.Statement (.asrImm sz q ry) := shape_of (Nat.zero_le _)
theorem EncodingShape.lslReg (sz : Size) (rx : RegNo) (ry : RegNo) : EncodingShape.Statement (.lslReg sz rx ry) := shape_of (Nat.zero_le _)
theorem EncodingShape.lslImm (sz : Size) (q : BitVec 3) (ry : RegNo) : EncodingShape.Statement (.lslImm sz q ry) := shape_of (Nat.zero_le _)
theorem EncodingShape.lsrReg (sz : Size) (rx : RegNo) (ry : RegNo) : EncodingShape.Statement (.lsrReg sz rx ry) := shape_of (Nat.zero_le _)
theorem EncodingShape.lsrImm (sz : Size) (q : BitVec 3) (ry : RegNo) : EncodingShape.Statement (.lsrImm sz q ry) := shape_of (Nat.zero_le _)
theorem EncodingShape.roxlReg (sz : Size) (rx : RegNo) (ry : RegNo) : EncodingShape.Statement (.roxlReg sz rx ry) := shape_of (Nat.zero_le _)
theorem EncodingShape.roxlImm (sz : Size) (q : BitVec 3) (ry : RegNo) : EncodingShape.Statement (.roxlImm sz q ry) := shape_of (Nat.zero_le _)
theorem EncodingShape.roxrReg (sz : Size) (rx : RegNo) (ry : RegNo) : EncodingShape.Statement (.roxrReg sz rx ry) := shape_of (Nat.zero_le _)
theorem EncodingShape.roxrImm (sz : Size) (q : BitVec 3) (ry : RegNo) : EncodingShape.Statement (.roxrImm sz q ry) := shape_of (Nat.zero_le _)
theorem EncodingShape.rolReg (sz : Size) (rx : RegNo) (ry : RegNo) : EncodingShape.Statement (.rolReg sz rx ry) := shape_of (Nat.zero_le _)
theorem EncodingShape.rolImm (sz : Size) (q : BitVec 3) (ry : RegNo) : EncodingShape.Statement (.rolImm sz q ry) := shape_of (Nat.zero_le _)
theorem EncodingShape.rorReg (sz : Size) (rx : RegNo) (ry : RegNo) : EncodingShape.Statement (.rorReg sz rx ry) := shape_of (Nat.zero_le _)
theorem EncodingShape.rorImm (sz : Size) (q : BitVec 3) (ry : RegNo) : EncodingShape.Statement (.rorImm sz q ry) := shape_of (Nat.zero_le _)
theorem EncodingShape.lineA (low : BitVec 12) : EncodingShape.Statement (.lineA low) := shape_of (Nat.zero_le _)
theorem EncodingShape.lineF (low : BitVec 12) : EncodingShape.Statement (.lineF low) := shape_of (Nat.zero_le _)

end Sys2Proof.Laws
end

