-- ==== Sys2Proof/Tests/Slice0.lean ====
section
/-! SUPPORT. Tests: ill-formed terms that WellFormed refuses, words that decode, one-step checks whose expected results
are the vectors of 95_test_vectors.md and 96_test_vectors_2.md, and a witness for the hypotheses of every statement. -/

open Sys2Proof Sys2Proof.Machine

namespace Sys2Proof.Tests

/-! ## WellFormed: one ill-formed term for each check -/

theorem test_wf_byte_immediate_too_large : Instr.wf (.ori .b 0x100 (.dn 0)) = false := by decide
theorem test_wf_word_immediate_too_large : Instr.wf (.cmpi .w 0x10000 (.dn 0)) = false := by decide
theorem test_wf_source_immediate_too_large : Instr.wf (.addToReg .b (.imm 0x1FF) 0) = false := by decide
theorem test_wf_byte_from_address_register : Instr.wf (.move .b (.an 0) (.dn 0)) = false := by decide
theorem test_wf_byte_quick_on_address_register : Instr.wf (.addq .b 1 (.an 0)) = false := by decide
theorem test_wf_data_category : Instr.wf (.andToReg .w (.an 1) 0) = false := by decide
theorem test_wf_data_without_immediate : Instr.wf (.btstImm 0 (.imm 1)) = false := by decide
theorem test_wf_control_category :
    Instr.wf (.jmp (.dn 0)) = false ∧ Instr.wf (.lea (.postInc 0) 0) = false ∧ Instr.wf (.pea (.imm 0)) = false := by decide
theorem test_wf_alterable_category : Instr.wf (.subq .w 1 (.pcDisp 0)) = false := by decide
theorem test_wf_data_alterable_category :
    Instr.wf (.move .w (.dn 0) (.an 0)) = false ∧ Instr.wf (.clr .w (.imm 0)) = false ∧
    Instr.wf (.scc .eq (.pcIndex ⟨false, 0, false, 0⟩)) = false := by decide
theorem test_wf_memory_alterable_category :
    Instr.wf (.addToMem .w 0 (.dn 1)) = false ∧ Instr.wf (.aslMem (.dn 0)) = false := by decide
theorem test_wf_movem_store_category :
    Instr.wf (.movemToMem .w 1 (.postInc 0)) = false ∧ Instr.wf (.movemToMem .w 1 (.pcDisp 0)) = false := by decide
theorem test_wf_movem_load_category :
    Instr.wf (.movemToReg .w 1 (.preDec 0)) = false ∧ Instr.wf (.movemToReg .w 1 (.imm 0)) = false := by decide
theorem test_wf_zero_byte_displacement :
    Instr.wf (.bra (.byte 0)) = false ∧ Instr.wf (.bsr (.byte 0)) = false ∧ Instr.wf (.bcc .ne (.byte 0)) = false := by decide
theorem test_wf_branch_condition :
    Instr.wf (.bcc .t (.byte 2)) = false ∧ Instr.wf (.bcc .f (.word 2)) = false := by decide

/-! ## Decoding: a word of every instruction, its bits written out from the pattern of the instruction's rule -/

/-- The words decode to the instruction, which encodes to the words. -/
def reads (ws : List Word) (i : Instr) : Bool := decide (decodeWords ws = .ok (i, [])) && encode i == ws

/-- ORI #$FF,CCR; ORI #$FF,SR; ANDI #$FB,CCR; ANDI #$FF00,SR; EORI #$10,CCR; EORI #$4,SR; MOVEP.W $18(A5),D0; MOVEP.L
D3,1(A5); BTST D1,(A0); BCHG D3,8(A0); BCLR D0,D2; BSET D7,(A2); BTST #7,$10(PC); BCHG #1,D2; BCLR #2,D0; BSET
#0,-(A7). -/
theorem test_decode_immediate_and_bit_1 :
    reads [0b0000000000111100#16, 0x00FF#16] (.oriToCcr 0xFF) ∧
    reads [0b0000000001111100#16, 0x00FF#16] (.oriToSr 0x00FF) ∧
    reads [0b0000001000111100#16, 0x00FB#16] (.andiToCcr 0xFB) ∧
    reads [0b0000001001111100#16, 0xFF00#16] (.andiToSr 0xFF00) ∧
    reads [0b0000101000111100#16, 0x0010#16] (.eoriToCcr 0x10) ∧
    reads [0b0000101001111100#16, 0x0004#16] (.eoriToSr 0x0004) ∧
    reads [0b0000000100001101#16, 0x0018#16] (.movepToReg .w 5 0x18 0) ∧
    reads [0b0000011111001101#16, 0x0001#16] (.movepToMem .l 3 5 1) ∧
    reads [0b0000001100010000#16] (.btstReg 1 (.ind 0)) ∧
    reads [0b0000011101101000#16, 0x0008#16] (.bchgReg 3 (.disp 0 8)) ∧
    reads [0b0000000110000010#16] (.bclrReg 0 (.dn 2)) ∧
    reads [0b0000111111010010#16] (.bsetReg 7 (.ind 2)) ∧
    reads [0b0000100000111010#16, 0x0007#16, 0x0010#16] (.btstImm 7 (.pcDisp 0x10)) ∧
    reads [0b0000100001000010#16, 0x0001#16] (.bchgImm 1 (.dn 2)) ∧
    reads [0b0000100010000000#16, 0x0002#16] (.bclrImm 2 (.dn 0)) ∧
    reads [0b0000100011100111#16, 0x0000#16] (.bsetImm 0 (.preDec 7)) := by decide

/-- ORI #$FF00,4(A1,A2.L); ANDI.L #$FF00FF00,(A0); SUBI.W #10,D0; ADDI.L #$EA041,D7; EORI.B #$7F,$1000; CMPI.L
#5,$12F00. -/
theorem test_decode_immediate_and_bit_2 :
    reads [0b0000000001110001#16, 0xFF00#16, 0xA804#16] (.ori .w 0xFF00 (.index 1 ⟨true, 2, true, 4⟩)) ∧
    reads [0b0000001010010000#16, 0xFF00#16, 0xFF00#16] (.andi .l 0xFF00FF00 (.ind 0)) ∧
    reads [0b0000010001000000#16, 0x000A#16] (.subi .w 10 (.dn 0)) ∧
    reads [0b0000011010000111#16, 0x000E#16, 0xA041#16] (.addi .l 0xEA041 (.dn 7)) ∧
    reads [0b0000101000111000#16, 0x007F#16, 0x1000#16] (.eori .b 0x7F (.absW 0x1000)) ∧
    reads [0b0000110010111001#16, 0x0000#16, 0x0005#16, 0x0001#16, 0x2F00#16] (.cmpi .l 5 (.absL 0x12F00)) := by decide

/-- MOVEA.L #2000,A4; MOVE.B D2,$4(A2). -/
theorem test_decode_move :
    reads [0b0010100001111100#16, 0x0000#16, 0x07D0#16] (.movea .l (.imm 2000) 4) ∧
    reads [0b0001010101000010#16, 0x0004#16] (.move .b (.dn 2) (.disp 2 4)) := by decide

/-- RESET; NOP; STOP #$2000; RTE; RTS; TRAPV; RTR; ILLEGAL; TRAP #15; LINK A6,#-80; UNLK A6; MOVE A0,USP; MOVE USP,A5;
JSR $3000; JMP $12345678; SWAP D6. -/
theorem test_decode_group_four_1 :
    reads [0b0100111001110000#16] .reset ∧
    reads [0b0100111001110001#16] .nop ∧
    reads [0b0100111001110010#16, 0x2000#16] (.stop 0x2000) ∧
    reads [0b0100111001110011#16] .rte ∧
    reads [0b0100111001110101#16] .rts ∧
    reads [0b0100111001110110#16] .trapv ∧
    reads [0b0100111001110111#16] .rtr ∧
    reads [0b0100101011111100#16] .illegal ∧
    reads [0b0100111001001111#16] (.trap 15) ∧
    reads [0b0100111001010110#16, 0xFFB0#16] (.link 6 0xFFB0) ∧
    reads [0b0100111001011110#16] (.unlk 6) ∧
    reads [0b0100111001100000#16] (.moveToUsp 0) ∧
    reads [0b0100111001101101#16] (.moveFromUsp 5) ∧
    reads [0b0100111010111000#16, 0x3000#16] (.jsr (.absW 0x3000)) ∧
    reads [0b0100111011111001#16, 0x1234#16, 0x5678#16] (.jmp (.absL 0x12345678)) ∧
    reads [0b0100100001000110#16] (.swap 6) := by decide

/-- EXT.L D2; NBCD D2; PEA 20(A6); MOVEM.L D0-D1/A1,-(SP); MOVEM.L (SP)+,D0-D1/A1; MOVE SR,$1000; NEGX.L (A2)+; MOVE
CCR,D1 (68010); CLR.L $FF00; MOVE #$0015,CCR; NEG.B -(A0); MOVE (A0),SR; NOT.W (A0); TAS $12F00; TST.L (A0); CHK
(A2),D7. -/
theorem test_decode_group_four_2 :
    reads [0b0100100011000010#16] (.ext .l 2) ∧
    reads [0b0100100000000010#16] (.nbcd (.dn 2)) ∧
    reads [0b0100100001101110#16, 0x0014#16] (.pea (.disp 6 20)) ∧
    reads [0b0100100011100111#16, 0xC040#16] (.movemToMem .l 0xC040 (.preDec 7)) ∧
    reads [0b0100110011011111#16, 0x0203#16] (.movemToReg .l 0x0203 (.postInc 7)) ∧
    reads [0b0100000011111000#16, 0x1000#16] (.moveFromSr (.absW 0x1000)) ∧
    reads [0b0100000010011010#16] (.negx .l (.postInc 2)) ∧
    reads [0b0100001011000001#16] (.moveFromCcr 1) ∧
    reads [0b0100001010111001#16, 0x0000#16, 0xFF00#16] (.clr .l (.absL 0xFF00)) ∧
    reads [0b0100010011111100#16, 0x0015#16] (.moveToCcr (.imm 0x15)) ∧
    reads [0b0100010000100000#16] (.neg .b (.preDec 0)) ∧
    reads [0b0100011011010000#16] (.moveToSr (.ind 0)) ∧
    reads [0b0100011001010000#16] (.not .w (.ind 0)) ∧
    reads [0b0100101011111001#16, 0x0001#16, 0x2F00#16] (.tas (.absL 0x12F00)) ∧
    reads [0b0100101010010000#16] (.tst .l (.ind 0)) ∧
    reads [0b0100111110010010#16] (.chk (.ind 2) 7) := by decide

/-- LEA 4(PC),A1. -/
theorem test_decode_group_four_3 :
    reads [0b0100001111111010#16, 0x0004#16] (.lea (.pcDisp 4) 1) := by decide

/-- DBVC D5,*+$12; SGT D2; ADDQ.L #8,A2; SUBQ.L #5,D0; BRA *+$12; BSR.W *+$402; BPL *-4; MOVEQ #$4A,D5. -/
theorem test_decode_quick_conditional_branch :
    reads [0b0101100011001101#16, 0x0010#16] (.dbcc .vc 5 0x10) ∧
    reads [0b0101111011000010#16] (.scc .gt (.dn 2)) ∧
    reads [0b0101000010001010#16] (.addq .l 0 (.an 2)) ∧
    reads [0b0101101110000000#16] (.subq .l 5 (.dn 0)) ∧
    reads [0b0110000000010000#16] (.bra (.byte 0x10)) ∧
    reads [0b0110000100000000#16, 0x0400#16] (.bsr (.word 0x0400)) ∧
    reads [0b0110101011111010#16] (.bcc .pl (.byte 0xFA)) ∧
    reads [0b0111101001001010#16] (.moveq 0x4A 5) := by decide

/-- DIVU $2000,D4; DIVS (A0)+,D3; SBCD D2,D3; SBCD -(A2),-(A6); OR.L D2,D4; OR.W D2,(A1); SUBA.L #$FAD00,A5; SUBX.B
D1,D2; SUBX.L -(A1),-(A5); SUB.W D1,D0; SUB.L D3,(A0)+; CMPA.W (A2),A6; CMPM.B (A0)+,(A1)+; CMP.L $3A(A2,D4.L),D2;
EOR.W D2,D3; MULU (A3),D0. -/
theorem test_decode_dyadic_1 :
    reads [0b1000100011111000#16, 0x2000#16] (.divu (.absW 0x2000) 4) ∧
    reads [0b1000011111011000#16] (.divs (.postInc 0) 3) ∧
    reads [0b1000011100000010#16] (.sbcdReg 2 3) ∧
    reads [0b1000110100001010#16] (.sbcdMem 2 6) ∧
    reads [0b1000100010000010#16] (.orToReg .l (.dn 2) 4) ∧
    reads [0b1000010101010001#16] (.orToMem .w 2 (.ind 1)) ∧
    reads [0b1001101111111100#16, 0x000F#16, 0xAD00#16] (.suba .l (.imm 0xFAD00) 5) ∧
    reads [0b1001010100000001#16] (.subxReg .b 1 2) ∧
    reads [0b1001101110001001#16] (.subxMem .l 1 5) ∧
    reads [0b1001000001000001#16] (.subToReg .w (.dn 1) 0) ∧
    reads [0b1001011110011000#16] (.subToMem .l 3 (.postInc 0)) ∧
    reads [0b1011110011010010#16] (.cmpa .w (.ind 2) 6) ∧
    reads [0b1011001100001000#16] (.cmpm .b 0 1) ∧
    reads [0b1011010010110010#16, 0x483A#16] (.cmp .l (.index 2 ⟨false, 4, true, 0x3A⟩) 2) ∧
    reads [0b1011010101000011#16] (.eor .w 2 (.dn 3)) ∧
    reads [0b1100000011010011#16] (.mulu (.ind 3) 0) := by decide

/-- MULS 4(A4,A5.L),D3; ABCD D2,D4; ABCD -(A2),-(A6); EXG D0,D1; EXG A0,A1; EXG D2,A3; AND.W 2(PC,D1.W),D0; AND.B
D6,-(A7); ADDA.L A0,A6; ADDX.L D4,D7; ADDX.W -(A1),-(A2); ADD.W (A2)+,D0; ADD.W D1,(A0). -/
theorem test_decode_dyadic_2 :
    reads [0b1100011111110100#16, 0xD804#16] (.muls (.index 4 ⟨true, 5, true, 4⟩) 3) ∧
    reads [0b1100100100000010#16] (.abcdReg 2 4) ∧
    reads [0b1100110100001010#16] (.abcdMem 2 6) ∧
    reads [0b1100000101000001#16] (.exgDD 0 1) ∧
    reads [0b1100000101001001#16] (.exgAA 0 1) ∧
    reads [0b1100010110001011#16] (.exgDA 2 3) ∧
    reads [0b1100000001111011#16, 0x1002#16] (.andToReg .w (.pcIndex ⟨false, 1, false, 2⟩) 0) ∧
    reads [0b1100110100100111#16] (.andToMem .b 6 (.preDec 7)) ∧
    reads [0b1101110111001000#16] (.adda .l (.an 0) 6) ∧
    reads [0b1101111110000100#16] (.addxReg .l 4 7) ∧
    reads [0b1101010101001001#16] (.addxMem .w 1 2) ∧
    reads [0b1101000001011010#16] (.addToReg .w (.postInc 2) 0) ∧
    reads [0b1101001101010000#16] (.addToMem .w 1 (.ind 0)) := by decide

/-- ASL (A2)+; ASR (A2)+; LSL (A2)+; LSR (A2)+; ROXL (A2)+; ROXR (A2)+; ROL (A2)+; ROR (A2)+; ASL.W D2,D7; ASL.L
#4,D1; ASR.W D2,D7; ASR.L #4,D1; LSL.W D2,D7; LSL.L #4,D1; LSR.W D2,D7; LSR.L #4,D1. -/
theorem test_decode_shift_1 :
    reads [0b1110000111011010#16] (.aslMem (.postInc 2)) ∧
    reads [0b1110000011011010#16] (.asrMem (.postInc 2)) ∧
    reads [0b1110001111011010#16] (.lslMem (.postInc 2)) ∧
    reads [0b1110001011011010#16] (.lsrMem (.postInc 2)) ∧
    reads [0b1110010111011010#16] (.roxlMem (.postInc 2)) ∧
    reads [0b1110010011011010#16] (.roxrMem (.postInc 2)) ∧
    reads [0b1110011111011010#16] (.rolMem (.postInc 2)) ∧
    reads [0b1110011011011010#16] (.rorMem (.postInc 2)) ∧
    reads [0b1110010101100111#16] (.aslReg .w 2 7) ∧
    reads [0b1110100110000001#16] (.aslImm .l 4 1) ∧
    reads [0b1110010001100111#16] (.asrReg .w 2 7) ∧
    reads [0b1110100010000001#16] (.asrImm .l 4 1) ∧
    reads [0b1110010101101111#16] (.lslReg .w 2 7) ∧
    reads [0b1110100110001001#16] (.lslImm .l 4 1) ∧
    reads [0b1110010001101111#16] (.lsrReg .w 2 7) ∧
    reads [0b1110100010001001#16] (.lsrImm .l 4 1) := by decide

/-- ROXL.W D2,D7; ROXL.L #4,D1; ROXR.W D2,D7; ROXR.L #4,D1; ROL.W D2,D7; ROL.L #4,D1; ROR.W D2,D7; ROR.L #4,D1. -/
theorem test_decode_shift_2 :
    reads [0b1110010101110111#16] (.roxlReg .w 2 7) ∧
    reads [0b1110100110010001#16] (.roxlImm .l 4 1) ∧
    reads [0b1110010001110111#16] (.roxrReg .w 2 7) ∧
    reads [0b1110100010010001#16] (.roxrImm .l 4 1) ∧
    reads [0b1110010101111111#16] (.rolReg .w 2 7) ∧
    reads [0b1110100110011001#16] (.rolImm .l 4 1) ∧
    reads [0b1110010001111111#16] (.rorReg .w 2 7) ∧
    reads [0b1110100010011001#16] (.rorImm .l 4 1) := by decide

/-- line A; line F. -/
theorem test_decode_line :
    reads [0b1010000100100011#16] (.lineA 0x123) ∧
    reads [0b1111111111101101#16] (.lineF 0xFED) := by decide
/-- Ignored bits: the high byte of a byte immediate (vector E16), of an immediate to CCR (L16), of a bit number (R422),
and bits 10 to 8 of an index word (R116). -/
theorem test_decode_ignored_bits :
    decodeWords [0x103C#16, 0xFF7F#16] = .ok (.move .b (.imm 0x7F) (.dn 0), []) ∧
    decodeWords [0x023C#16, 0xFFEF#16] = .ok (.andiToCcr 0xEF, []) ∧
    decodeWords [0x0801#16, 0xAB04#16] = .ok (.btstImm 4 (.dn 1), []) ∧
    decodeWords [0x3030#16, 0x1F06#16] = .ok (.move .w (.index 0 ⟨false, 1, true, 6⟩) (.dn 0), []) := by decide

/-- The words that the vectors X19, X20, H96, H97, P31, P39, B22 and B23 call illegal match no instruction. -/
theorem test_decode_unmatched :
    [0x1008#16, 0x4E74#16, 0x4E7A#16, 0xE8D0#16, 0xE0C0#16, 0x50FC#16, 0x4EC0#16, 0x4ED8#16, 0x4EE0#16, 0x4EFC#16,
      0x0888#16, 0x087C#16, 0x7100#16].all (fun w => decide (decodeWords [w, 0, 0, 0, 0] = .error (.unmatched w))) := by decide

/-- The host's reading of a table word: BTST #7,$10(PC), 32 bits of it given, and the bits above them zero. -/
theorem test_decode_table_word :
    decodeTableWord 16 0x083A = some (.btstImm 0 (.pcDisp 0)) ∧
    decodeTableWord 32 0x0007083A = some (.btstImm 7 (.pcDisp 0)) := by decide

/-! ## One step -/

/-- Supervisor state at $1000, stacks at $8000 (SSP) and $6000 (USP), mask 7, flags clear, `A0` to `A6` at $2000, $3000,
and so on. -/
def base : State := { State.reset with
  pc := 0x1000, ssp := 0x8000, usp := 0x6000
  a := #v[0x2000, 0x3000, 0x4000, 0x5000, 0x5800, 0x5C00, 0x7000] }

/-- The state with the status register a word says. -/
def withSr (s : State) (w : Word) : State := { s with sr := StatusReg.ofWord w }

/-- `exec` answers a next state that meets `p`. -/
def after (i : Instr) (s : State) (p : State → Bool) : Bool :=
  match exec i s with
  | .next t => p t
  | _ => false

/-- X, N, Z, V, C. -/
def xnzvc (s : State) : BitVec 5 := s.sr.toWord.setWidth 5

/-- The stacked words of an exception frame at $7FFA. -/
def frame (s : State) : Word × Long := (s.readWord 0x7FFA, s.readLong 0x7FFC)

/-! ### Data movement -/

/-- Vectors E4, E17, E21, E22. -/
theorem test_move :
    after (.move .l (.imm 0xA1B2C3D4) (.ind 1)) base (fun t => t.readLong 0x3000 == 0xA1B2C3D4 && xnzvc t == 0b01000) ∧
    after (.move .b (.dn 0) (.preDec 7)) (base.setDreg 0 0x5A) (fun t => t.ssp == 0x7FFE && t.readByte 0x7FFE == 0x5A) ∧
    after (.move .l (.postInc 0) (.postInc 0)) (base.writeLong 0x2000 0x11223344)
      (fun t => t.readLong 0x2004 == 0x11223344 && t.areg 0 == 0x2008) ∧
    after (.move .l (.an 0) (.preDec 0)) base (fun t => t.areg 0 == 0x1FFC && t.readLong 0x1FFC == 0x2000) := by decide

/-- Vectors E10, E12, E13, E14: index, PC-relative and absolute operands. -/
theorem test_move_addressing :
    after (.move .w (.index 0 ⟨false, 1, false, 6⟩) (.dn 0)) ((base.setDreg 1 0x1FFFE).writeWord 0x2004 0x5566)
      (fun t => t.dreg 0 == 0x5566) ∧
    after (.move .w (.pcDisp 0x0FFE) (.dn 0)) (base.writeWord 0x2000 0x1122) (fun t => t.dreg 0 == 0x1122) ∧
    after (.move .w (.pcIndex ⟨false, 1, false, 2⟩) (.dn 0)) ((base.setDreg 1 0x0FFE).writeWord 0x2002 0x3344)
      (fun t => t.dreg 0 == 0x3344) ∧
    after (.move .w (.absW 0x8000) (.dn 0)) (base.writeWord 0xFF8000 0x7777) (fun t => t.dreg 0 == 0x7777) := by decide

/-- Vectors M5, E23. -/
theorem test_movea :
    after (.movea .w (.dn 0) 1) (base.setDreg 0 0x1234FFF0) (fun t => t.areg 1 == 0xFFFFFFF0 && xnzvc t == 0) ∧
    after (.movea .l (.postInc 0) 0) (base.writeLong 0x2000 0x11223344) (fun t => t.areg 0 == 0x11223344) := by decide

/-- Vectors M8, M10, M13. -/
theorem test_move_status :
    after (.moveToCcr (.imm 0xFFFF)) base (fun t => t.sr.toWord == 0x271F) ∧
    after (.moveToSr (.imm 0xFFFF)) (withSr base 0x2000) (fun t => t.sr.toWord == 0xA71F) ∧
    after (.moveFromSr (.dn 0)) ((withSr base 0x2704).setDreg 0 0xFFFFFFFF) (fun t => t.dreg 0 == 0xFFFF2704) := by decide

/-- Vectors M15, M16. -/
theorem test_move_usp :
    after (.moveToUsp 1) base (fun t => t.usp == 0x3000 && t.ssp == 0x8000) ∧
    after (.moveFromUsp 5) base (fun t => t.areg 5 == 0x6000) ∧
    after (.moveFromUsp 5) (withSr base 0) (fun t => frame t == (0, 0x1000) && t.sr.toWord == 0x2000) := by decide

/-- Vectors M40, M42: the two mask orders. -/
theorem test_movem_store :
    after (.movemToMem .l 0xC040 (.preDec 7)) ((base.setDreg 0 0xD0D0D0D0).setDreg 1 0xD1D1D1D1)
      (fun t => t.readLong 0x7FFC == 0x3000 && t.readLong 0x7FF8 == 0xD1D1D1D1 && t.readLong 0x7FF4 == 0xD0D0D0D0 &&
        t.ssp == 0x7FF4) ∧
    after (.movemToMem .w 0x0081 (.ind 1)) ((base.setDreg 0 0xD0D0D0D0).setDreg 7 0xD7D7D7D7)
      (fun t => t.readLong 0x3000 == 0xD0D0D7D7 && t.areg 1 == 0x3000) := by decide

/-- Vectors M43, M47. -/
theorem test_movem_load :
    after (.movemToReg .w 0x4001 (.ind 1)) (base.writeLong 0x3000 0x7FFF8000)
      (fun t => t.dreg 0 == 0x7FFF && t.areg 6 == 0xFFFF8000) ∧
    after (.movemToReg .l 0x0101 (.postInc 0)) (base.writeLong 0x2004 0x99999999) (fun t => t.areg 0 == 0x2008) := by decide

/-- Vectors M48, M49. -/
theorem test_movep :
    after (.movepToReg .w 5 0x18 0) (((base.setDreg 0 0xFFFFFFFF).writeByte 0x5C18 0x12).writeByte 0x5C1A 0x34)
      (fun t => t.dreg 0 == 0xFFFF1234) ∧
    after (.movepToMem .l 0 5 1) (base.setDreg 0 0xA1B2C3D4)
      (fun t => t.readByte 0x5C01 == 0xA1 && t.readByte 0x5C03 == 0xB2 && t.readByte 0x5C05 == 0xC3 &&
        t.readByte 0x5C07 == 0xD4 && t.readByte 0x5C02 == 0) := by decide

/-- Vectors M17, M20, M22, M23. -/
theorem test_register_moves :
    after (.moveq 0x80 0) base (fun t => t.dreg 0 == 0xFFFFFF80 && xnzvc t == 0b01000) ∧
    after (.exgDD 0 1) ((base.setDreg 0 1).setDreg 1 2) (fun t => t.dreg 0 == 2 && t.dreg 1 == 1) ∧
    after (.exgDA 2 3) (base.setDreg 2 0xDDDDDDDD) (fun t => t.dreg 2 == 0x5000 && t.areg 3 == 0xDDDDDDDD) ∧
    after (.swap 0) (base.setDreg 0 0x12348765) (fun t => t.dreg 0 == 0x87651234 && xnzvc t == 0b01000) := by decide

/-- Vectors M21, M25, M27, M30. -/
theorem test_addresses :
    after (.exgAA 0 1) base (fun t => t.areg 0 == 0x3000 && t.areg 1 == 0x2000) ∧
    after (.lea (.disp 6 20) 0) base (fun t => t.areg 0 == 0x7014) ∧
    after (.lea (.pcDisp 4) 0) base (fun t => t.areg 0 == 0x1006) ∧
    after (.pea (.ind 7)) base (fun t => t.ssp == 0x7FFC && t.readLong 0x7FFC == 0x8000) := by decide

/-- Vectors M31, M32. -/
theorem test_link_unlk :
    after (.link 6 0xFFB0) base (fun t => t.readLong 0x7FFC == 0x7000 && t.areg 6 == 0x7FFC && t.ssp == 0x7FAC) ∧
    after (.unlk 6) ((base.setAreg 6 0x7FFC).writeLong 0x7FFC 0x11111111)
      (fun t => t.ssp == 0x8000 && t.areg 6 == 0x11111111) := by decide

/-! ### Integer arithmetic -/

/-- Vectors A1, A6, A27. -/
theorem test_add :
    after (.addToReg .b (.dn 1) 0) ((base.setDreg 1 1).setDreg 0 0xAAAAAA7F)
      (fun t => t.dreg 0 == 0xAAAAAA80 && xnzvc t == 0b01010) ∧
    after (.addToReg .w (.dn 1) 0) ((base.setDreg 1 0xFFFF).setDreg 0 0xAAAAFFFF)
      (fun t => t.dreg 0 == 0xAAAAFFFE && xnzvc t == 0b11001) ∧
    after (.addToMem .w 1 (.ind 0)) ((base.setDreg 1 1).writeWord 0x2000 0xFFFF)
      (fun t => t.readWord 0x2000 == 0 && xnzvc t == 0b10101) := by decide

/-- Vectors A29, A38, A31, A40. -/
theorem test_adda_suba_immediate :
    after (.adda .w (.dn 0) 1) ((base.setDreg 0 0x8000).setAreg 1 0x10000) (fun t => t.areg 1 == 0x8000 && xnzvc t == 0) ∧
    after (.suba .w (.imm 0x8000) 0) (base.setAreg 0 0) (fun t => t.areg 0 == 0x8000) ∧
    after (.addi .l 0xEA041 (.dn 7)) (base.setDreg 7 0xFFF15FBF) (fun t => t.dreg 7 == 0 && xnzvc t == 0b10101) ∧
    after (.subi .w 10 (.dn 0)) (base.setDreg 0 5) (fun t => t.dreg 0 == 0xFFFB && xnzvc t == 0b11001) := by decide

/-- Vectors A34, A36, A41, A42. -/
theorem test_quick :
    after (.addq .w 1 (.an 2)) (base.setAreg 2 0xFFFF) (fun t => t.areg 2 == 0x10000 && xnzvc t == 0) ∧
    after (.addq .b 0 (.ind 0)) ((base.setAreg 0 0x2001).writeByte 0x2001 0x78)
      (fun t => t.readByte 0x2001 == 0x80 && xnzvc t == 0b01010) ∧
    after (.subq .l 5 (.dn 0)) (base.setDreg 0 5) (fun t => t.dreg 0 == 0 && xnzvc t == 0b00100) ∧
    after (.subq .w 0 (.an 0)) (base.setAreg 0 0x10004) (fun t => t.areg 0 == 0xFFFC) := by decide

/-- Vectors A17, A37. -/
theorem test_sub :
    after (.subToReg .w (.dn 1) 0) ((base.setDreg 1 0x8000).setDreg 0 0xAAAA7FFF)
      (fun t => t.dreg 0 == 0xAAAAFFFF && xnzvc t == 0b11011) ∧
    after (.subToMem .w 2 (.ind 1)) (base.setDreg 2 1) (fun t => t.readWord 0x3000 == 0xFFFF && xnzvc t == 0b11001) := by decide

/-- Vectors A52, A56, A60, A61. -/
theorem test_extended :
    after (.addxReg .w 1 0) ((withSr base 0x2710).setDreg 1 0xFFFF) (fun t => t.dreg 0 == 0 && xnzvc t == 0b10001) ∧
    after (.subxReg .b 1 0) (((withSr base 0x2714).setDreg 1 1).setDreg 0 2) (fun t => t.dreg 0 == 0 && xnzvc t == 0b00100) ∧
    after (.addxMem .w 0 1) ((((withSr base 0x2704).writeWord 0x1FFE 0xFFFF).writeWord 0x2FFE 1))
      (fun t => t.readWord 0x2FFE == 0 && t.areg 0 == 0x1FFE && t.areg 1 == 0x2FFE && xnzvc t == 0b10101) ∧
    after (.subxMem .l 0 1) ((withSr base 0x2714).writeLong 0x1FFC 1)
      (fun t => t.readLong 0x2FFC == 0xFFFFFFFE && xnzvc t == 0b11001) := by decide

/-- Vectors A45, A46, A47, A44, A22. -/
theorem test_compare :
    after (.cmpi .w 5 (.dn 0)) (base.setDreg 0 3) (fun t => t.dreg 0 == 3 && xnzvc t == 0b01001) ∧
    after (.cmpm .w 0 0) ((base.writeWord 0x2000 2).writeWord 0x2002 1)
      (fun t => t.areg 0 == 0x2004 && xnzvc t == 0b01001) ∧
    after (.cmpa .l (.imm 0x8000) 0) (base.setAreg 0 0xFFFF8000) (fun t => xnzvc t == 0b01000) ∧
    after (.cmp .b (.dn 1) 0) ((base.setDreg 1 0xFF).setDreg 0 0xAAAAAA7F) (fun t => xnzvc t == 0b01011) := by decide

/-- Vectors A62, A69, A71. -/
theorem test_negate :
    after (.neg .b (.dn 0)) (base.setDreg 0 0x80) (fun t => t.dreg 0 == 0x80 && xnzvc t == 0b11011) ∧
    after (.negx .b (.dn 0)) (base.setDreg 0 0x80) (fun t => t.dreg 0 == 0x80 && xnzvc t == 0b11011) ∧
    after (.negx .l (.dn 0)) ((withSr base 0x2714).setDreg 0 0xFFFFFFFF)
      (fun t => t.dreg 0 == 0 && xnzvc t == 0b10101) := by decide

/-- Vectors A72, A75, A77, A80, A82. -/
theorem test_single_operand :
    after (.clr .b (.dn 0)) ((withSr base 0x271B).setDreg 0 0x12345678) (fun t => t.dreg 0 == 0x12345600 && xnzvc t == 0b10100) ∧
    after (.ext .w 0) (base.setDreg 0 0x123456F0) (fun t => t.dreg 0 == 0x1234FFF0 && xnzvc t == 0b01000) ∧
    after (.ext .l 2) (base.setDreg 2 0x12348000) (fun t => t.dreg 2 == 0xFFFF8000) ∧
    after (.tst .w (.dn 0)) (base.setDreg 0 0x8000) (fun t => xnzvc t == 0b01000) ∧
    after (.tas (.ind 0)) (base.setAreg 0 0x2001) (fun t => t.readByte 0x2001 == 0x80 && xnzvc t == 0b00100) := by decide

/-- Vectors A89, A90. -/
theorem test_multiply :
    after (.muls (.dn 1) 0) ((base.setDreg 1 0x8000).setDreg 0 0x7FFF) (fun t => t.dreg 0 == 0xC0008000 && xnzvc t == 0b01000) ∧
    after (.mulu (.dn 1) 0) ((base.setDreg 1 0xFFFF).setDreg 0 0xFFFF) (fun t => t.dreg 0 == 0xFFFE0001 && xnzvc t == 0b01000) := by
  decide

/-- Vectors A94, A97, A100, A105. -/
theorem test_divide :
    after (.divu (.dn 1) 0) ((base.setDreg 1 2).setDreg 0 0x10003) (fun t => t.dreg 0 == 0x00018001 && xnzvc t == 0b01000) ∧
    after (.divu (.dn 1) 0) ((base.setDreg 1 0xFFFF).setDreg 0 0xFFFE0001) (fun t => t.dreg 0 == 0x0000FFFF) ∧
    after (.divs (.dn 1) 0) ((base.setDreg 1 2).setDreg 0 0xFFFFFFF9) (fun t => t.dreg 0 == 0xFFFFFFFD && xnzvc t == 0b01000) ∧
    after (.divs (.dn 1) 0) ((base.setDreg 1 0xFFFF).setDreg 0 0x8000) (fun t => t.dreg 0 == 0x00008000) := by decide

/-- Vectors A96, A103: overflow leaves the register, sets V and clears C; N and Z are free. -/
theorem test_divide_overflow :
    after (.divu (.dn 1) 0) ((base.setDreg 1 1).setDreg 0 0x10000) (fun t => t.dreg 0 == 0x10000 && t.sr.v && !t.sr.c) ∧
    after (.divs (.dn 1) 0) ((base.setDreg 1 0xFFFF).setDreg 0 0x80000000)
      (fun t => t.dreg 0 == 0x80000000 && t.sr.v && !t.sr.c) := by decide

/-- Vectors A99, A109. -/
theorem test_zero_divide :
    after (.divu (.postInc 0) 0) ((base.setDreg 0 0x64).writeLong 0x14 0x1A00)
      (fun t => t.dreg 0 == 0x64 && t.areg 0 == 0x2002 && t.ssp == 0x7FFA && !t.sr.c) ∧
    after (.divs (.dn 1) 0) ((base.setDreg 0 1).writeLong 0x14 0x1A00)
      (fun t => t.dreg 0 == 1 && t.ssp == 0x7FFA && !t.sr.c) := by decide

/-! ### Logic -/

/-- Vectors L1, L3, L4, L5, L6, L7. -/
theorem test_and_or :
    after (.andToReg .w (.dn 1) 2) (((withSr base 0x271F).setDreg 1 0xFF00).setDreg 2 0x1234F0F0)
      (fun t => t.dreg 2 == 0x1234F000 && xnzvc t == 0b11000) ∧
    after (.andToMem .w 0 (.ind 0)) ((base.setDreg 0 0xFF00).writeWord 0x2000 0xF0F0) (fun t => t.readWord 0x2000 == 0xF000) ∧
    after (.andi .w 0xFF00 (.dn 0)) (base.setDreg 0 0x12345678) (fun t => t.dreg 0 == 0x12345600 && xnzvc t == 0) ∧
    after (.orToReg .l (.dn 2) 4) ((base.setDreg 2 0x80000000).setDreg 4 1) (fun t => t.dreg 4 == 0x80000001) ∧
    after (.orToMem .b 2 (.ind 1)) (withSr base 0x271F) (fun t => xnzvc t == 0b10100) ∧
    after (.ori .w 0xFF (.dn 0)) (base.setDreg 0 0x1234ABCD) (fun t => t.dreg 0 == 0x1234ABFF) := by decide

/-- Vectors L8, L10, L12, L13. -/
theorem test_eor_not :
    after (.eor .l 3 (.dn 3)) (base.setDreg 3 0xDEADBEEF) (fun t => t.dreg 3 == 0 && xnzvc t == 0b00100) ∧
    after (.eori .b 0xFF (.dn 0)) (base.setDreg 0 0x12345678) (fun t => t.dreg 0 == 0x12345687 && xnzvc t == 0b01000) ∧
    after (.not .l (.dn 0)) (base.setDreg 0 0xFFFF) (fun t => t.dreg 0 == 0xFFFF0000) ∧
    after (.not .b (.postInc 0)) (base.writeByte 0x2000 0x7F) (fun t => t.readByte 0x2000 == 0x80 && t.areg 0 == 0x2001) := by decide

/-- Vectors L15, L17, L19. -/
theorem test_to_ccr :
    after (.andiToCcr 0xFB) (withSr base 0x001F) (fun t => t.sr.toWord == 0x001B) ∧
    after (.oriToCcr 0xFF) (withSr base 0x2000) (fun t => t.sr.toWord == 0x201F) ∧
    after (.eoriToCcr 0xFF) (withSr base 0x2715) (fun t => t.sr.toWord == 0x270A) := by decide

/-- Vectors L21, L24, L26, L29. -/
theorem test_to_sr :
    after (.andiToSr 0xF8FF) (withSr base 0x2715) (fun t => t.sr.toWord == 0x2015) ∧
    after (.oriToSr 0xFFFF) (withSr base 0x2000) (fun t => t.sr.toWord == 0xA71F) ∧
    after (.eoriToSr 0x2000) base (fun t => t.sr.toWord == 0x0700 && t.sp == 0x6000) ∧
    after (.oriToSr 0) (withSr base 0x0010) (fun t => frame t == (0x0010, 0x1000) && t.sr.toWord == 0x2010) := by decide

/-! ### Shifts, bits, BCD -/

/-- A register shift of `D0`, the flags before and the count in `D1` given. -/
def shifted (i : Instr) (sr : Word) (count d0 : Long) (result : Long) (flags : BitVec 5) : Bool :=
  after i (((withSr base sr).setDreg 1 count).setDreg 0 d0) (fun t => t.dreg 0 == result && xnzvc t == flags)

/-- A memory shift at `(A0)`. -/
def shiftedMem (i : EA → Instr) (sr : Word) (w : Word) (result : Word) (flags : BitVec 5) : Bool :=
  after (i (.ind 0)) ((withSr base sr).writeWord 0x2000 w) (fun t => t.readWord 0x2000 == result && xnzvc t == flags)

/-- Vectors H5, H9, H13, H17, H20. -/
theorem test_asl :
    shifted (.aslReg .b 1 0) 0x2700 8 0xAAAAAA01 0xAAAAAA00 0b10111 ∧
    shifted (.aslReg .l 1 0) 0x2710 33 1 0 0b00110 ∧
    shifted (.aslReg .w 1 0) 0x2700 2 0xAAAAC000 0xAAAA0000 0b10111 ∧
    shifted (.aslImm .w 4 0) 0x2700 0 0xAAAA0923 0xAAAA9230 0b01010 ∧
    shiftedMem .aslMem 0x2700 0xC000 0x8000 0b11001 := by decide

/-- Vectors H25, H27, H29, H31. -/
theorem test_asr :
    shifted (.asrReg .w 1 0) 0x2700 40 0xAAAA8000 0xAAAAFFFF 0b11001 ∧
    shifted (.asrReg .b 1 0) 0x2710 0 0xAAAAAA80 0xAAAAAA80 0b11000 ∧
    shifted (.asrImm .w 4 0) 0x2700 0 0xAAAAF0F8 0xAAAAFF0F 0b11001 ∧
    shiftedMem .asrMem 0x2700 0x8001 0xC000 0b11001 := by decide

/-- Vectors H34, H38, H40, H41, H46, H49. -/
theorem test_lsl_lsr :
    shifted (.lslReg .w 1 0) 0x2700 16 0xAAAA8001 0xAAAA0000 0b10101 ∧
    shifted (.lslImm .w 4 0) 0x2700 0 0xAAAA0F0F 0xAAAAF0F0 0b01000 ∧
    shiftedMem .lslMem 0x2700 0x8000 0x0000 0b10101 ∧
    shifted (.lsrReg .w 1 0) 0x2700 16 0xAAAA8000 0xAAAA0000 0b10101 ∧
    shifted (.lsrImm .w 4 0) 0x2700 0 0xAAAA8018 0xAAAA0801 0b10001 ∧
    shiftedMem .lsrMem 0x2710 0x8000 0x4000 0b00000 := by decide

/-- Vectors H53, H57, H59, H62, H64, H66. -/
theorem test_rol_ror :
    shifted (.rolReg .w 1 0) 0x2700 16 0xAAAA8001 0xAAAA8001 0b01001 ∧
    shifted (.rolImm .w 5 0) 0x2700 0 0xAAAA1234 0xAAAA4682 0b00000 ∧
    shiftedMem .rolMem 0x2710 0x8000 0x0001 0b10001 ∧
    shifted (.rorReg .w 1 0) 0x2710 32 0xAAAA0001 0xAAAA0001 0b10000 ∧
    shifted (.rorImm .w 2 0) 0x2710 0 0xAAAA0003 0xAAAAC000 0b11001 ∧
    shiftedMem .rorMem 0x2700 0x0001 0x8000 0b01001 := by decide

/-- Vectors H69, H73, H78, H81, H83, H88, H91. -/
theorem test_roxl_roxr :
    shifted (.roxlReg .w 1 0) 0x2710 0 0xAAAA0000 0xAAAA0000 0b10101 ∧
    shifted (.roxlReg .w 1 0) 0x2710 16 0xAAAA1234 0xAAAA891A 0b01000 ∧
    shifted (.roxlImm .w 4 0) 0x2710 0 0xAAAA00FF 0xAAAA0FF8 0b00000 ∧
    shiftedMem .roxlMem 0x2710 0x0000 0x0001 0b00000 ∧
    shifted (.roxrReg .w 1 0) 0x2710 1 0xAAAA0001 0xAAAA8000 0b11001 ∧
    shifted (.roxrImm .w 4 0) 0x2710 0 0xAAAAFF00 0xAAAA1FF0 0b00000 ∧
    shiftedMem .roxrMem 0x2710 0x0000 0x8000 0b01000 := by decide

/-- Vectors B3, B9, B10, B11, B12. -/
theorem test_bit_test_set :
    after (.btstReg 0 (.dn 1)) ((base.setDreg 0 0xFFFFFFFF).setDreg 1 0x80000000) (fun t => !t.sr.z) ∧
    after (.btstImm 7 (.pcDisp 0x10)) (base.writeByte 0x1014 0x80) (fun t => !t.sr.z) ∧
    after (.btstReg 0 (.imm 0x40)) (base.setDreg 0 6) (fun t => !t.sr.z) ∧
    after (.bsetReg 7 (.ind 2)) (base.setDreg 7 15) (fun t => t.readByte 0x4000 == 0x80 && t.sr.z) ∧
    after (.bsetImm 4 (.dn 0)) base (fun t => t.dreg 0 == 0x10 && t.sr.z) := by decide

/-- Vectors B15, B16, B18, B19. -/
theorem test_bit_clear_change :
    after (.bclrImm 2 (.dn 0)) (base.setDreg 0 0xFFFFFFFF) (fun t => t.dreg 0 == 0xFFFFFFFB && !t.sr.z) ∧
    after (.bclrReg 3 (.ind 0)) ((base.setDreg 3 0x107).writeByte 0x2000 0x7F) (fun t => t.readByte 0x2000 == 0x7F && t.sr.z) ∧
    after (.bchgImm 1 (.dn 2)) (base.setDreg 2 2) (fun t => t.dreg 2 == 0 && !t.sr.z) ∧
    after (.bchgReg 3 (.disp 0 8)) ((base.setDreg 3 3).writeByte 0x2008 8) (fun t => t.readByte 0x2008 == 0 && !t.sr.z) := by decide

/-- Vectors K2, K4, K23: N and V are free. -/
theorem test_abcd :
    after (.abcdReg 2 4) (((withSr base 0x2704).setDreg 4 0xFFFFFF99).setDreg 2 1)
      (fun t => t.dreg 4 == 0xFFFFFF00 && t.sr.x && t.sr.z && t.sr.c) ∧
    after (.abcdReg 2 4) (((withSr base 0x2714).setDreg 4 0x99).setDreg 2 0x99)
      (fun t => t.dreg 4 == 0x99 && t.sr.x && !t.sr.z && t.sr.c) ∧
    after (.abcdMem 0 0) ((((withSr base 0x2704).setAreg 0 0x2002).writeByte 0x2000 0x11).writeByte 0x2001 0x22)
      (fun t => t.readByte 0x2000 == 0x33 && t.areg 0 == 0x2000 && !t.sr.x && !t.sr.z) := by decide

/-- Vectors K8, K24, K16. -/
theorem test_sbcd_nbcd :
    after (.sbcdReg 2 3) (((withSr base 0x2704).setDreg 3 0x12).setDreg 2 0x34)
      (fun t => t.dreg 3 == 0x78 && t.sr.x && !t.sr.z && t.sr.c) ∧
    after (.sbcdMem 7 6) (((withSr base 0x2704).setAreg 6 0x3001).writeByte 0x7FFE 1)
      (fun t => t.readByte 0x3000 == 0x99 && t.ssp == 0x7FFE && t.sr.x) ∧
    after (.nbcd (.dn 2)) ((withSr base 0x2714).setDreg 2 0x25) (fun t => t.dreg 2 == 0x74 && t.sr.c) := by decide

/-! ### Program control and system control -/

/-- Vectors P1, P4, P5, P7, P12. -/
theorem test_branch :
    after (.bcc .eq (.byte 8)) (withSr base 0x2704) (fun t => t.pc == 0x100A) ∧
    after (.bcc .hi (.word 0x01FE)) (withSr base 0x2701) (fun t => t.pc == 0x1004) ∧
    after (.bcc .pl (.byte 0xFA)) base (fun t => t.pc == 0x0FFC) ∧
    after (.bcc .cc (.word 0x8000)) base (fun t => t.pc == 0xFFFF9002) ∧
    after (.bra (.word 0x1000)) base (fun t => t.pc == 0x2002) := by decide

/-- Vectors P17, P18, P20. -/
theorem test_dbcc :
    after (.dbcc .f 1 0xFFF8) (base.setDreg 1 0x10003) (fun t => t.dreg 1 == 0x10002 && t.pc == 0xFFA) ∧
    after (.dbcc .f 1 0xFFF8) (base.setDreg 1 0x10000) (fun t => t.dreg 1 == 0x1FFFF && t.pc == 0x1004) ∧
    after (.dbcc .eq 1 0xFFF8) ((withSr base 0x2704).setDreg 1 5) (fun t => t.dreg 1 == 5 && t.pc == 0x1004) := by decide

/-- Vectors P24, P30. -/
theorem test_scc :
    after (.scc .eq (.dn 0)) ((withSr base 0x2704).setDreg 0 0x12345678) (fun t => t.dreg 0 == 0x123456FF) ∧
    after (.scc .ne (.preDec 7)) base (fun t => t.ssp == 0x7FFE && t.readByte 0x7FFE == 0xFF) := by decide

/-- Vectors P15, P36, P43, P44, P46. -/
theorem test_calls :
    after (.bsr (.word 0x0400)) base (fun t => t.readLong 0x7FFC == 0x1004 && t.ssp == 0x7FFC && t.pc == 0x1402) ∧
    after (.jmp (.pcDisp 4)) base (fun t => t.pc == 0x1006) ∧
    after (.jsr (.ind 7)) base (fun t => t.pc == 0x8000 && t.readLong 0x7FFC == 0x1002 && t.ssp == 0x7FFC) ∧
    after .rts (base.writeLong 0x8000 0x1002) (fun t => t.pc == 0x1002 && t.ssp == 0x8004) ∧
    after .rtr ((base.writeWord 0x8000 0xFF15).writeLong 0x8002 0x1002)
      (fun t => t.sr.toWord == 0x2715 && t.pc == 0x1002 && t.ssp == 0x8006) := by decide

/-- Vectors P48, P50, P51. -/
theorem test_traps :
    after (.trap 0) ((withSr base 0x0015).writeLong 0x80 0x1100)
      (fun t => frame t == (0x0015, 0x1002) && t.ssp == 0x7FFA && t.sr.toWord == 0x2015 && t.pc == 0x1100) ∧
    after .trapv base (fun t => t.pc == 0x1002 && t.ssp == 0x8000) ∧
    after .trapv ((withSr base 0x2002).writeLong 0x1C 0x1200) (fun t => frame t == (0x2002, 0x1002) && t.pc == 0x1200) := by decide

/-- Vectors P53, P55, P56, P59. -/
theorem test_chk :
    after (.chk (.dn 0) 3) ((base.setDreg 0 0x64).setDreg 3 0x64) (fun t => t.pc == 0x1002 && t.ssp == 0x8000) ∧
    after (.chk (.dn 0) 3) ((base.setDreg 0 0x64).setDreg 3 0x1FFFF) (fun t => t.sr.n && t.ssp == 0x7FFA) ∧
    after (.chk (.imm 0x64) 3) ((base.setDreg 3 0x65).writeLong 0x18 0x2200)
      (fun t => !t.sr.n && t.ssp == 0x7FFA) := by decide

/-- Vectors X1, X2, X5, X9, X12. -/
theorem test_system :
    after .rte (((base.writeWord 0x7FFA 0).writeLong 0x7FFC 0x1000).setSp 0x7FFA)
      (fun t => t.sr.toWord == 0 && t.pc == 0x1000 && t.ssp == 0x8000 && t.sp == 0x6000) ∧
    after .rte (((base.writeWord 0x7FFA 0xFFFF).writeLong 0x7FFC 0x2000).setSp 0x7FFA) (fun t => t.sr.toWord == 0xA71F) ∧
    after (.stop 0x2000) base (fun t => t.stopped && t.pc == 0x1004 && t.sr.toWord == 0x2000) ∧
    after (.stop 0x2000) (withSr base 0xA000) (fun t => !t.stopped) ∧
    after .reset base (fun t => t.resetPulses == 1 && t.pc == 0x1002) ∧
    after .nop base (fun t => t.pc == 0x1002) := by decide

/-- Vectors X15, X16, X17, X18. -/
theorem test_illegal :
    after .illegal ((withSr base 0x0005).writeLong 0x10 0x1600)
      (fun t => frame t == (0x0005, 0x1000) && t.sr.toWord == 0x2005 && t.pc == 0x1600) ∧
    after (.lineA 0x123) (base.writeLong 0x28 0x1700) (fun t => t.readLong 0x7FFC == 0x1000 && t.pc == 0x1700) ∧
    after (.lineF 0) (base.writeLong 0x2C 0x1800) (fun t => t.readLong 0x7FFC == 0x1000 && t.pc == 0x1800) ∧
    after (.moveFromCcr 0) (base.writeLong 0x10 0x1600) (fun t => t.pc == 0x1600) := by decide

/-! ### Whole steps -/

/-- A step answers a next state that meets `p`. -/
def stepsTo (s : State) (p : State → Bool) : Bool :=
  match step s with
  | .next t => p t
  | _ => false

/-- Vector X22: 14 bytes on the stack. Their contents are a statement's matter: the saved `PC` among them is free. -/
theorem test_address_error :
    stepsTo (((withSr base 0x0000).setAreg 0 0x2001).writeWord 0x1000 0x3010)
      (fun t => t.ssp == 0x7FF2 && t.sr.toWord == 0x2000 && t.dreg 0 == 0 && !t.halted) := by decide

/-- Vector X24: an odd SSP on the way halts the processor. -/
theorem test_double_fault :
    stepsTo ({ (base.setAreg 0 0x2001).writeWord 0x1000 0x3010 with ssp := 0x7FFF }) (fun t => t.halted) := by decide +kernel

/-- Vectors X26, X28: trace after MOVEQ, and after a TRAP. -/
theorem test_trace :
    stepsTo (((withSr base 0x8000).writeWord 0x1000 0x7001).writeLong 0x24 0x1500)
      (fun t => t.dreg 0 == 1 && frame t == (0x8000, 0x1002) && t.sr.toWord == 0x2000 && t.pc == 0x1500) ∧
    stepsTo ((((withSr base 0x8000).writeWord 0x1000 0x4E40).writeLong 0x80 0x1100).writeLong 0x24 0x1500)
      (fun t => frame t == (0x8000, 0x1002) && t.readWord 0x7FF4 == 0x2000 && t.readLong 0x7FF6 == 0x1100 &&
        t.ssp == 0x7FF4 && t.pc == 0x1500) := by decide

/-- Vectors X29, X31, X32, X6. -/
theorem test_interrupt :
    stepsTo ({ (withSr base 0x2300).writeLong 0x70 0x1B00 with inputs := [⟨false, 4, .auto⟩] })
      (fun t => frame t == (0x2300, 0x1000) && t.sr.toWord == 0x2400 && t.pc == 0x1B00) ∧
    stepsTo ({ (withSr base 0).writeLong 0x100 0x1C00 with inputs := [⟨false, 1, .vector 0x40⟩] })
      (fun t => t.sr.toWord == 0x2100 && t.pc == 0x1C00) ∧
    stepsTo ({ (withSr base 0x2000).writeLong 0x60 0x1D00 with inputs := [⟨false, 2, .busError⟩] })
      (fun t => t.sr.toWord == 0x2200 && t.pc == 0x1D00) ∧
    stepsTo ({ (withSr base 0x2000).writeLong 0x6C 0x1400 with stopped := true, pc := 0x1004, inputs := [⟨false, 3, .auto⟩] })
      (fun t => !t.stopped && frame t == (0x2000, 0x1004) && t.pc == 0x1400) := by decide

/-- Vectors X34, X36. -/
theorem test_external_reset :
    stepsTo ({ ((withSr base 0).writeLong 0 0x8000).writeLong 4 0x400 with halted := true, inputs := [⟨true, 0, .auto⟩] })
      (fun t => t.ssp == 0x8000 && t.pc == 0x400 && t.sr.toWord == 0x2700 && !t.halted) := by decide

/-- CLR reads a location of a device before it writes it, MOVEP makes byte accesses, a word of a device is one access,
and RESET gives the devices a pulse: from 20_memory.md R66 and R76 and 47_system_control.md R502, by hand. -/
theorem test_device_accesses :
    after (.clr .b (.ind 0)) { base with devices := [⟨0x2000, 1⟩] }
      (fun t => t.deviceLog == [.writeByte 0x2000 0, .readByte 0x2000] && t.sr.z) ∧
    after (.movepToMem .w 0 0 1) ({ base with devices := [⟨0x2001, 8⟩] }.setDreg 0 0x1234)
      (fun t => t.deviceLog == [.writeByte 0x2003 0x34, .writeByte 0x2001 0x12]) ∧
    after (.move .w (.imm 0x1234) (.ind 0)) { base with devices := [⟨0x2001, 1⟩] }
      (fun t => t.deviceLog == [.writeWord 0x2000 0x1234] && t.readByte 0x2000 == 0x12 && t.readByte 0x2001 == 0) ∧
    after .reset { base with devices := [⟨0x2000, 1⟩] } (fun t => t.deviceLog == [.resetPulse] && t.resetPulses == 1) := by decide

/-- The devices see an external reset before its vectors are read, and an acknowledge with its level before the frame is
stored: from 70_reset_and_hazards.md R580 and 60_exceptions.md R530 and R542, by hand. -/
theorem test_device_inputs :
    stepsTo { base with inputs := [⟨true, 0, .auto⟩], devices := [⟨0x2000, 2⟩] } (fun t => t.deviceLog == [.externalReset]) ∧
    stepsTo { withSr base 0x2300 with inputs := [⟨false, 4, .auto⟩], devices := [⟨0x2000, 2⟩] }
      (fun t => t.deviceLog == [.acknowledge 4]) := by decide

/-- A word of a cell and a device that was prefetched: the cell's byte may be the older one with nothing seen by the
device, whose byte may be the older one only once it has been written to (20_memory.md R64, R73, by hand). -/
theorem test_prefetched_bytes :
    let s : State := { base with devices := [⟨0x1003, 1⟩] }
    s.olderWord 0x1002 ⟨0x1002, 0xAABB, 0⟩ 0x1122 = 0xAA22 ∧
    (s.note (.writeByte 0x1003 0)).olderWord 0x1002 ⟨0x1002, 0xAABB, 0⟩ 0x1122 = 0xAABB ∧
    (s.note (.writeByte 0x1003 0)).olderWord 0x1002 ⟨0x1002, 0xAABB, 1⟩ 0x1122 = 0xAA22 ∧
    base.olderWord 0x1002 ⟨0x1002, 0xAABB, 0⟩ 0x1122 = 0xAABB := by decide

/-- The first instruction after reset, placed as the host places it: MOVEQ #$4A,D5. -/
theorem test_first_instruction : stepsTo (State.reset.withFetchWord 16 0x7A4A) (fun t => t.dreg 5 == 0x4A && t.pc == 2) := by decide

/-! ## Witnesses: a state and operands that meet the hypotheses of each statement that has any -/

/-- Nothing answers at the byte addresses from `a` up. -/
def silentAt (s : State) (a n : Nat) : State := { s with silent := [⟨a, n⟩] }

/-- A device answers at the byte addresses from `a` up. -/
def deviceFrom (s : State) (a n : Nat) : State := { s with devices := [⟨a, n⟩] }

/-- A word stored at `PC`. -/
def placed (s : State) (w : Word) : State := s.writeWord s.pc w

/-- User state. -/
def user : State := withSr base 0

theorem witness_DecodeEncode :
    (Instr.move .l (.imm 0xFFFFFFFF) (.absL 0xFFFFFFFF)).wf = true ∧ (Instr.bcc .le (.byte 0xFF)).wf = true := by decide

theorem witness_DecodedInstruction :
    decodeWords (0x0801#16 :: [0xAB04#16, 0x4E71#16]) = .ok (.btstImm 4 (.dn 1), [0x4E71]) := by decide

theorem witness_StepRunsDecoded :
    let s := placed base 0x4E71
    s.ready = true ∧ s.sample.accessOk .w s.sample.pc = true ∧
    s.sample.instrWords = ([0x4E71, 0, 0, 0, 0], 0) ∧
    decodeWords [0x4E71, 0, 0, 0, 0] = .ok (.nop, [0, 0, 0, 0]) ∧ s.sample.prefetch = [] := by decide

theorem witness_FetchedWords :
    (placed base 0x4E71).fetchWords 2 0x1000 0 = ([0x4E71, 0], 0) ∧ [0x4E71#16, 0][1]? = some 0 ∧
    (placed base 0x4E71).prefetch = [] ∧
    ({ placed base 0x4E71 with prefetch := [⟨0x1000, 0x4E71, 0⟩] } : State).fetchWords 2 0x1000 0 = ([0x4E71, 0], 1) ∧
    base.isCells .w 0x1000 = true ∧ (deviceFrom base 0x1000 2).deviceAt 0x1000 = true ∧
    (deviceFrom base 0x1000 2).deviceAt (0x1000 + 1#32) = true ∧ (deviceFrom base 0x1001 2).deviceAt 0x1000 = false ∧
    (Prefetched.mk 0x1000 0x4E71 0).seen = base.deviceLog.length := by decide

/-- MOVE.W (A0),$10(A1), its source in a device: NOP is no MOVE. -/
theorem witness_FetchedWords_move :
    let s := deviceFrom ((placed base 0x3350).writeWord 0x1002 0x0010) 0x2000 2
    let begun : State := { (s.busRead .w s.pc).2 with ir := 0x3350, traceDue := s.sr.t, draws := 0, pc := s.pc + 2#32 }
    decodeWords (s.fetchWords maxWords s.pc s.draws).1 = .ok (.move .w (.ind 0) (.disp 1 0x10), [0, 0, 0]) ∧
    (match readEA .w (.ind 0) begun with | .ok _ t => t.deviceLog == [.readWord 0x2000] && t.pc == 0x1002 | _ => false) = true ∧
    (match fetchExts 1 s with | .ok () _ => true | _ => false) = true ∧
    decodeWords ((placed base 0x4E71).fetchWords maxWords 0x1000 0).1 = .ok (.nop, [0, 0, 0, 0]) := by decide

/-- The state in which a step at a word of the placed state runs the instruction. -/
def begun (s : State) (w : Word) : State :=
  { (s.sample.busRead .w s.sample.pc).2 with
    ir := w, traceDue := s.sample.sr.t, draws := 0, prefetch := s.sample.prefetchAfter 1 }

/-- A step at a word, with nothing placed after it, gets to the instruction. -/
abbrev Reaches (s : State) (w : Word) (i : Instr) : Prop :=
  s.ready = true ∧ s.sample.accessOk .w s.sample.pc = true ∧
    s.sample.instrWords = ([w, 0, 0, 0, 0], 0) ∧
    decodeWords [w, 0, 0, 0, 0] = .ok (i, [0, 0, 0, 0])

theorem witness_TraceFollows_without_T :
    Reaches (placed base 0x4E71) 0x4E71 .nop ∧ (placed base 0x4E71).sample.sr.t = false ∧
    after .nop (begun (placed base 0x4E71) 0x4E71) (fun t => !t.traceDue) := by decide

theorem witness_TraceFollows_with_T :
    Reaches (placed (withSr base 0xA000) 0x4E71) 0x4E71 .nop ∧ (placed (withSr base 0xA000) 0x4E71).sample.sr.t = true ∧
    after .nop (begun (placed (withSr base 0xA000) 0x4E71) 0x4E71) (fun t => t.traceDue && t.canExcept 9) ∧
    ¬ TrapsInstead .nop (placed (withSr base 0xA000) 0x4E71).sample :=
  ⟨by decide, by decide, by decide, by
    rintro (h | ⟨h, -⟩)
    · rcases h with h | ⟨_, h⟩ | ⟨_, h⟩ | ⟨_, h⟩ <;> cases h
    · rcases h with ⟨_, h⟩ | ⟨_, h⟩ | ⟨_, h⟩ | ⟨_, h⟩ | ⟨_, h⟩ | ⟨_, h⟩ | h | h | ⟨_, h⟩ <;> cases h⟩

/-- ILLEGAL, and RESET in user state, with T set; and an instruction with T set that a group 0 exception ends. -/
theorem witness_TraceFollows_trapped :
    (Reaches (placed (withSr base 0xA000) 0x4AFC) 0x4AFC .illegal ∧
      TrapsInstead .illegal (placed (withSr base 0xA000) 0x4AFC).sample) ∧
    (Reaches (placed (withSr base 0x8000) 0x4E70) 0x4E70 .reset ∧
      TrapsInstead .reset (placed (withSr base 0x8000) 0x4E70).sample) ∧
    (Reaches (placed ((withSr base 0xA000).setAreg 0 0x2001) 0x4A50) 0x4A50 (.tst .w (.ind 0)) ∧
      after (.tst .w (.ind 0)) (begun (placed ((withSr base 0xA000).setAreg 0 0x2001) 0x4A50) 0x4A50)
        (fun t => !t.traceDue && t.ssp == 0x7FF2)) :=
  ⟨⟨by decide, .inl (.inl rfl)⟩,
    ⟨by decide, .inr ⟨.inr (.inr (.inr (.inr (.inr (.inr (.inr (.inl rfl))))))), rfl⟩⟩, by decide⟩

theorem witness_StepAnswersNext :
    step (placed base 0x4E57) = .refused .linkA7 ∧ step (placed base 0x4E5F) = .refused .unlkA7 := ⟨rfl, rfl⟩

theorem witness_StepKeepsInv : (placed base 0x4E71).Inv ∧ stepsTo (placed base 0x4E71) (fun _ => true) :=
  ⟨rfl, by decide⟩

theorem witness_UserStateIsolation_SupervisorEntry :
    ((placed user 0x4E71).sr.s = false ∧ stepsTo (placed user 0x4E71) (fun t => !t.sr.s)) ∧
    ((placed user 0x4E40).sr.s = false ∧ stepsTo (placed user 0x4E40) (fun t => t.sr.s)) := by decide

theorem witness_ExternalReset :
    let s : State := { base with inputs := [⟨true, 0, .auto⟩] }
    s.sample.pins.resetIn = true ∧ s.cellsOk .l 0 = true ∧ s.cellsOk .l 4 = true ∧
    (silentAt s 3 1).sample.pins.resetIn = true ∧ (silentAt s 3 1).accessOk .l 0 = false ∧
    (silentAt s 4 1).accessOk .l 0 = true ∧ (silentAt s 4 1).accessOk .l 4 = false := by decide

/-- A halted state, a stopped one, and the level 7 edge: made, kept at a level that stays 7, and missed while halted. -/
theorem witness_HaltedOrStoppedWaits :
    base.sample.pins.resetIn = false ∧ ({ base with halted := true } : State).halted = true ∧
    ({ base with stopped := true } : State).sample.pending = false ∧
    ({ base with inputs := [⟨false, 7, .auto⟩] } : State).sample.nmiEdge = true ∧
    ({ base with inputs := [⟨false, 7, .auto⟩], pins := ⟨false, 7, .auto⟩ } : State).sample.nmiEdge = false ∧
    ({ base with inputs := [⟨false, 7, .auto⟩], halted := true } : State).sample.nmiEdge = false := by decide

theorem witness_InterruptTaken :
    let s : State := { withSr base 0x2300 with inputs := [⟨false, 4, .auto⟩] }
    let s7 : State := { base with inputs := [⟨false, 7, .vector 0xFF⟩] }
    s.sample.pins.resetIn = false ∧ s.halted = false ∧ s.sample.pending = true ∧ s.sample.canExcept 28 = true ∧
    s7.sample.pending = true ∧ s7.sample.canExcept 0xFF = true ∧ ({ s7 with nmiEdge := true } : State).sample.pending = true := by decide

theorem witness_UnmatchedWordTraps :
    let s := placed base 0x7100
    s.ready = true ∧ s.sample.accessOk .w s.sample.pc = true ∧
    s.sample.instrWords = ([0x7100, 0, 0, 0, 0], 0) ∧
    decodeWords [0x7100, 0, 0, 0, 0] = .error (.unmatched 0x7100) ∧ s.sample.canExcept 4 = true := by decide

theorem witness_AccessFaultsAreTaken_fetch :
    (let s : State := { base with pc := 0x1001 }
     s.ready = true ∧ s.sample.accessOk .w s.sample.pc = false) ∧
    (let s := silentAt base 0x1001 1
     s.ready = true ∧ s.sample.accessOk .w s.sample.pc = false) ∧
    (let s := silentAt base 0x1005 1
     1 < eaExtCount .l (.absL 0x2000) ∧ s.fetchable s.pc (1 + 1) = true ∧ s.accessOk .w (s.pc + BitVec.ofNat 32 (2 * (1 + 1))) = false) := by
  decide

theorem witness_AccessFaultsAreTaken_operand :
    (let s := base.setAreg 0 0x2001
     s.fetchable s.pc (1 + eaExtCount .l (.ind 0)) = true ∧ eaLoc .l (.ind 0) (s.pastWords 1) = .mem .data 0x2001 ∧
     s.accessOk .l 0x2001 = false ∧ s.accessOk .w 0x2001 = false) ∧
    (let s := silentAt base 0x2000 1
     s.fetchable s.pc (1 + eaExtCount .b (.ind 0)) = true ∧ eaLoc .b (.ind 0) (s.pastWords 1) = .mem .data 0x2000 ∧
     s.accessOk .b 0x2000 = false ∧ s.accessOk .w 0x2000 = false) ∧
    (base.setSp 0x8001).accessOk .l ((base.setSp 0x8001).sp - 4) = false := by decide

/-- An exception's processing meets a fault, and the fault is one of exception processing. -/
def entryFaults (k : Byte) (p : Long) (level : Option (BitVec 3)) (s : State) : Bool :=
  match takeException k p level s with
  | .error (.group0 f) _ => f.inException
  | _ => false

/-- A body that ends in a group 0 exception; TRAP, the trace and an interrupt on an odd supervisor stack pointer. -/
theorem witness_AccessFaultsAreTaken_entry :
    let odd : State := { base with ssp := 0x8001 }
    let asked : State := { withSr odd 0x2300 with inputs := [⟨false, 4, .auto⟩] }
    (match fetchExt ((silentAt base 0x1002 1).pastWords 1) with | .error (.group0 _) _ => true | _ => false) = true ∧
    entryFaults (32 + (5#4).setWidth 8) (odd.pc + 2) none (odd.pastWords 1) = true ∧
    (({ odd with traceDue := true } : State).traceDue = true ∧
      entryFaults 9 odd.pc none { odd with traceDue := false, stopped := false } = true) ∧
    (asked.sample.pins.resetIn = false ∧ asked.halted = false ∧ asked.sample.pending = true ∧
      entryFaults (asked.sample.pins.ack.vectorNumber asked.sample.pins.ipl) asked.pc (some asked.sample.pins.ipl)
        { asked.sample with
          stopped := false, nmiEdge := asked.sample.nmiEdge && asked.sample.pins.ipl != 7
          deviceLog := .acknowledge asked.sample.pins.ipl :: asked.sample.deviceLog } = true) := by decide

theorem witness_MemoryRead_MemoryWrite :
    (Size.w ≠ .b ∧ (0x2001#32).getLsbD 0 = true) ∧
    ((0x00FFFFFE#32).getLsbD 0 = false ∧ ∀ k < Size.bytes .l, base.answersAt (0x00FFFFFE#32 + BitVec.ofNat 32 k) = true ∧
      base.deviceAt (0x00FFFFFE#32 + BitVec.ofNat 32 k) = false) ∧
    ((∃ k < Size.bytes .l, (silentAt base 0x2003 1).answersAt (0x2000#32 + BitVec.ofNat 32 k) = false) ∧
      ∀ k < Size.bytes .l, (silentAt base 0x2003 1).deviceAt (0x2000#32 + BitVec.ofNat 32 k) = false) ∧
    ((silentAt base 0x2001 1).answersAt 0x2001 = false ∧ ∀ k < Size.bytes .b, base.answersAt (0x2001#32 + BitVec.ofNat 32 k) = true) ∧
    ((∀ k < Size.bytes .l, (deviceFrom base 0x2002 2).answersAt (0x2000#32 + BitVec.ofNat 32 k) = true) ∧
      (deviceFrom base 0x2002 2).deviceAt 0x2001 = false ∧ (deviceFrom base 0x2002 2).deviceAt 0x2002 = true) := by
  decide

/-- A byte, a word, the low word alone and a long word of a device, and a device at `(A0)`. -/
theorem witness_DeviceAccesses :
    let s := deviceFrom base 0x2000 4
    s.deviceAt 0x2001 = true ∧ s.accessOk .b 0x2001 = true ∧ s.deviceAt 0x2000 = true ∧
    s.deviceAt (0x2000 + 1#32) = true ∧ s.accessOk .w 0x2000 = true ∧ s.isCells .l 0x2000 = false ∧
    s.accessOk .l 0x2000 = true ∧ s.isCells .l 0x1FFE = false ∧ s.accessOk .l 0x1FFE = true ∧ s.areg 0 = 0x2000 ∧ s.sr.s = true := by decide

theorem witness_StackPrimitives :
    base.accessOk .l (base.sp - 4) = true ∧ base.accessOk .w (base.sp - 2) = true ∧ base.accessOk .w base.sp = true ∧
    base.accessOk .l base.sp = true ∧ base.isCells .l (base.sp - 4) = true ∧ base.isCells .w base.sp = true ∧
    (deviceFrom base 0x7FFE 2).isCells .w 0x7FFE = false ∧ (silentAt base 0x7FFF 1).accessOk .l (base.sp - 4) = false ∧
    (silentAt base 0x7FFF 1).accessOk .w (base.sp - 2) = false ∧ (silentAt base 0x8001 1).accessOk .w base.sp = false ∧
    (silentAt base 0x8003 1).accessOk .l base.sp = false ∧ (base.setSp 0x8001).sp.getLsbD 0 = true := by decide

theorem witness_ExceptionEntry :
    base.canExcept 255 = true ∧ user.canExcept 0 = true ∧
    ({ base with ssp := 0x8001 } : State).frameAccesses 4 State.accessOk = false ∧
    (silentAt base 0x10 1).frameAccesses 4 State.accessOk = false := by decide

theorem witness_GroupZeroEntry :
    let reachable := fun (s : State) (ok : State → Size → Long → Bool) =>
      ok s .l (s.ssp - 14 + 10) && ok s .w (s.ssp - 14 + 8) && ok s .w (s.ssp - 14 + 6) && ok s .l (s.ssp - 14 + 2) &&
      ok s .w (s.ssp - 14) && ok s .l (vectorAddress FaultKind.addressError.vector)
    reachable base State.cellsOk = true ∧ reachable { base with ssp := 0x8001 } State.accessOk = false ∧
    reachable (silentAt base 0x7FF2 1) State.accessOk = false ∧ reachable (silentAt base 0x0F 1) State.accessOk = false := by decide

theorem witness_RegisterFile : base.sr.s = true ∧ user.sr.s = false ∧ (6#3 ≠ 7#3) ∧ (Size.bits .b ≤ 8) := by decide

/-- The hypotheses on an instruction that reads one effective address: its words can be fetched, its operand read. -/
abbrev ReadsOperand (s : State) (sz : Size) (ea : EA) : Prop :=
  s.fetchable s.pc (1 + eaExtCount sz ea) = true ∧
    (eaLoc sz ea (s.pastWords 1)).readable sz ((s.pastWords 1).resolved sz ea) = true

/-- The hypotheses on an instruction that writes one effective address. -/
abbrev WritesOperand (s : State) (sz : Size) (ea : EA) : Prop :=
  s.fetchable s.pc (1 + eaExtCount sz ea) = true ∧
    (eaLoc sz ea (s.pastWords 1)).writable sz ((s.pastWords 1).resolved sz ea) = true

/-- Registers, memory in both spaces, an immediate, and the last long word of the address space. -/
theorem witness_BinaryToRegister :
    ReadsOperand base .b (.dn 0) ∧ ReadsOperand base .l (.an 7) ∧ ReadsOperand base .b (.preDec 7) ∧
    ReadsOperand base .w (.index 0 ⟨true, 7, true, 0x80⟩) ∧ ReadsOperand base .l (.absL 0x00FFFFFC) ∧
    ReadsOperand base .b (.pcDisp 0x7FFF) ∧ ReadsOperand base .l (.imm 0) := by decide

theorem witness_BinaryToMemory :
    WritesOperand base .b (.absW 0xFFFF) ∧ WritesOperand base .w (.preDec 7) ∧ WritesOperand base .l (.disp 0 0x8000) ∧
    WritesOperand base .l (.dn 0) := by decide

theorem witness_CompareAndTest :
    ReadsOperand base .w (.ind 0) ∧ ReadsOperand base .b (.dn 0) ∧ ReadsOperand base .l (.an 7) ∧
    (base.fetchable base.pc (1 + (2 + eaExtCount .l (.absL 0x2000))) = true ∧
      (eaLoc .l (.absL 0x2000) (base.pastWords 3)).readable .l ((base.pastWords 3).resolved .l (.absL 0x2000)) = true) := by decide

theorem witness_AddressRegisterResults : ReadsOperand base .w (.imm 0x8000) ∧ ReadsOperand base .l (.postInc 7) := by decide

theorem witness_SingleOperand :
    WritesOperand base .l (.postInc 0) ∧ WritesOperand base .b (.dn 7) ∧ WritesOperand base .b (.preDec 7) := by decide

theorem witness_Multiply : ReadsOperand base .w (.imm 0xFFFF) ∧ ReadsOperand base .w (.pcIndex ⟨false, 0, false, 0⟩) := by decide

theorem witness_ShiftInstructions : WritesOperand base .w (.ind 0) ∧ WritesOperand base .w (.preDec 7) := by decide

theorem witness_DecimalArithmetic : WritesOperand base .b (.dn 0) ∧ WritesOperand base .b (.absW 0x2001) := by decide

theorem witness_ConditionAndStatusStores :
    WritesOperand base .b (.dn 0) ∧ WritesOperand base .b (.absW 0x2001) ∧ WritesOperand user .w (.ind 0) := by decide

theorem witness_ConditionCodeWrites :
    ReadsOperand user .w (.imm 0xFFFF) ∧ ReadsOperand user .w (.dn 0) ∧ user.fetchable user.pc 2 = true := by decide

theorem witness_ImmediateOperations :
    ∀ p ∈ [(Size.b, 1), (.w, 1), (.l, 2)],
      base.fetchable base.pc (1 + (p.2 + eaExtCount p.1 (.absL 0x2000))) = true ∧
      (eaLoc p.1 (.absL 0x2000) (base.pastWords (1 + p.2))).writable p.1 ((base.pastWords (1 + p.2)).resolved p.1 (.absL 0x2000)) = true := by
  decide

theorem witness_CompareAndTest_memory :
    (base.accessOk .l (base.areg 0) = true ∧
      base.accessOk .l (((base.pastWords 1).setAreg 0 (base.areg 0 + eaStep .l 0)).areg 0) = true) ∧
    (base.accessOk .b (base.areg 7) = true ∧
      base.accessOk .b (((base.pastWords 1).setAreg 7 (base.areg 7 + eaStep .b 7)).areg 0) = true) := by decide

theorem witness_AddressRegisterResults_lea :
    base.fetchable base.pc (1 + eaExtCount .l (.pcDisp 3)) = true ∧
    eaLoc .l (.pcDisp 3) (base.pastWords 1) = .mem .program 0x1005 := by decide

theorem witness_QuickAddSubtract :
    (∀ r, EA.ind 0 ≠ .an r) ∧ WritesOperand base .w (.ind 0) ∧ WritesOperand base .b (.dn 0) :=
  ⟨(fun _ h => nomatch h), by decide⟩

theorem witness_ExtendedAddSubtract_DecimalArithmetic_memory :
    (∀ sz ∈ [Size.b, .w, .l],
      base.accessOk sz (base.areg 0 - eaStep sz 0) = true ∧
      base.accessOk sz (((base.pastWords 1).setAreg 0 (base.areg 0 - eaStep sz 0)).areg 0 - eaStep sz 0) = true) ∧
    bcdValid 0x99 = true ∧ bcdValid 0x00 = true := by decide

/-- A quotient at either end of its range and one past it, unsigned and signed. -/
theorem witness_Divide :
    ((1 : Word) ≠ 0 ∧ (0xFFFF#32).toNat / (1#16).toNat < 2 ^ 16 ∧ 2 ^ 16 ≤ (0x10000#32).toNat / (1#16).toNat) ∧
    ((0xFFFF8000#32).toInt = (-32768 : Int) * (1#16).toInt + 0 ∧ (0 : Int).natAbs < (1#16).toInt.natAbs) ∧
    ((0x00007FFF#32).toInt = (32767 : Int) * (1#16).toInt + 0) ∧
    ((0x00008000#32).toInt = (32768 : Int) * (1#16).toInt + 0 ∧ ¬ ((32768 : Int) < 2 ^ 15)) ∧
    ((0xFFFFFFF9#32).toInt = (-3 : Int) * (2#16).toInt + -1 ∧ (-1 : Int).natAbs < (2#16).toInt.natAbs ∧
      ((-1 : Int) < 0 ↔ (0xFFFFFFF9#32).toInt < 0)) := by decide

theorem witness_Divide_ZeroDivide_operands :
    let s := base.writeWord 0x2000 3
    s.fetchable s.pc (1 + eaExtCount .w (.ind 0)) = true ∧ (Loc.mem .data 0x2000).readable .w s = true ∧
    (Loc.mem .data 0x2000).value .w s ≠ 0 ∧ (Loc.mem .data 0x2000).value .w base = 0 ∧
    ((base.pastWords 1).resolved .w (.ind 0)).canExcept 5 = true := by decide

theorem witness_Move :
    let s2 := (base.pastWords 1).resolved .l (.postInc 0)
    let s3 := s2.resolved .l (.preDec 0)
    base.fetchable base.pc (1 + (eaExtCount .l (.postInc 0) + eaExtCount .l (.preDec 0))) = true ∧
    (eaLoc .l (.postInc 0) (base.pastWords 1)).readable .l s2 = true ∧ (eaLoc .l (.preDec 0) s2).writable .l s3 = true := by decide

/-- No fault at any place of a list: the places from $2000 up and from $2000 down. -/
def listOk (mask : Word) : Bool :=
  (List.range (maskRank mask 16)).all (fun k => base.cellsOk .l (placeAfter 0x2000 .l k) &&
    base.cellsOk .l (placeBefore (base.areg 0) .l (k + 1))) && base.accessOk .w (placeAfter 0x2000 .l (maskRank mask 16))

/-- The empty list, one register, and all sixteen. -/
theorem witness_MovemStore_MovemLoad :
    eaLoc .l (.ind 0) (base.pastWords 2) = .mem .data 0x2000 ∧ base.fetchable base.pc (2 + eaExtCount .l (.ind 0)) = true ∧
    listOk 0x0000 = true ∧ listOk 0x8000 = true ∧ listOk 0xFFFF = true := by decide

/-- The word above the list cannot be read. -/
theorem witness_MovemLoad_extra :
    let s := silentAt base 0x2004 2
    maskRank 0x8000 16 = 1 ∧ s.cellsOk .l (placeAfter 0x2000 .l 0) = true ∧
    s.accessOk .w (placeAfter 0x2000 .l (maskRank 0x8000 16)) = false ∧ s.areg 0 = 0x2000 := by decide

theorem witness_MovePeripheral :
    base.fetchable base.pc 2 = true ∧ [0x2001#32, 0x2003, 0x2005, 0x2007].all (base.accessOk .b ·) = true := by decide

theorem witness_StackFrames :
    base.fetchable base.pc (1 + eaExtCount .l (.ind 7)) = true ∧ eaLoc .l (.ind 7) (base.pastWords 1) = .mem .data 0x8000 ∧
    base.accessOk .l (((base.pastWords 1).resolved .l (.ind 7)).sp - 4) = true ∧ base.fetchable base.pc 2 = true ∧
    base.cellsOk .l (base.sp - 4) = true ∧ base.cellsOk .l (base.areg 6) = true ∧ (6#3 ≠ 7#3) := by decide

theorem witness_BitInstructions :
    (∀ ea ∈ [EA.dn 0, .ind 0, .preDec 7], base.fetchable base.pc (2 + eaExtCount ea.bitSize ea) = true ∧
      (eaLoc ea.bitSize ea (base.pastWords 1)).writable ea.bitSize ((base.pastWords 1).resolved ea.bitSize ea) = true ∧
      (eaLoc ea.bitSize ea (base.pastWords 2)).readable ea.bitSize ((base.pastWords 2).resolved ea.bitSize ea) = true) ∧
    base.fetchable base.pc (1 + eaExtCount .b (.imm 0x40)) = true ∧
    (eaLoc .b (.imm 0x40) (base.pastWords 1)).readable .b ((base.pastWords 1).resolved .b (.imm 0x40)) = true := by decide

theorem witness_Branches :
    base.fetchable base.pc (dispWords (.byte 0x80)) = true ∧ base.fetchable base.pc (dispWords (.word 0)) = true ∧
    base.sr.holds .t = true ∧ base.sr.holds .f = false ∧
    base.fetchable base.pc (1 + eaExtCount .l (.absW 0x8001)) = true ∧
    eaLoc .l (.absW 0x8001) (base.pastWords 1) = .mem .data 0xFFFF8001 := by decide

theorem witness_CallsAndReturns :
    base.fetchable base.pc (dispWords (.word 0)) = true ∧ base.cellsOk .l (base.sp - 4) = true ∧
    base.fetchable base.pc (1 + eaExtCount .l (.ind 7)) = true ∧ eaLoc .l (.ind 7) (base.pastWords 1) = .mem .data 0x8000 ∧
    base.cellsOk .l (((base.pastWords 1).resolved .l (.ind 7)).sp - 4) = true ∧ base.cellsOk .l base.sp = true ∧
    base.cellsOk .w base.sp = true ∧ base.cellsOk .l (base.sp + 2) = true := by decide

theorem witness_TrapInstructions :
    base.sr.v = false ∧ (withSr base 0x2702).sr.v = true ∧
    [4#8, 7, 10, 11, 32, 47].all (withSr base 0x2702).canExcept = true := by decide

/-- The value at 0, at the bound, one above it, below 0, and below 0 but above the bound. -/
theorem witness_CheckBounds :
    base.fetchable base.pc (1 + eaExtCount .w (.dn 0)) = true ∧
    (eaLoc .w (.dn 0) (base.pastWords 1)).readable .w ((base.pastWords 1).resolved .w (.dn 0)) = true ∧
    ((base.pastWords 1).resolved .w (.dn 0)).canExcept 6 = true ∧
    (0 ≤ (0#16).toInt ∧ (0#16).toInt ≤ (0x64#16).toInt) ∧ (0 ≤ (0x64#16).toInt ∧ (0x64#16).toInt ≤ (0x64#16).toInt) ∧
    (0 ≤ (0x65#16).toInt ∧ (0x64#16).toInt < (0x65#16).toInt) ∧
    ((0xFFFF#16).toInt < 0 ∧ (0xFFFF#16).toInt ≤ (0x64#16).toInt) ∧
    ((0xFFFB#16).toInt < 0 ∧ (0xFFF6#16).toInt < (0xFFFB#16).toInt) := by decide

theorem witness_PrivilegedInSupervisorState :
    base.sr.s = true ∧ base.fetchable base.pc (1 + eaExtCount .w (.imm 0)) = true ∧
    (eaLoc .w (.imm 0) (base.pastWords 1)).readable .w ((base.pastWords 1).resolved .w (.imm 0)) = true ∧
    base.fetchable base.pc 2 = true ∧ base.cellsOk .w base.ssp = true ∧ base.cellsOk .l (base.ssp + 2) = true := by decide

theorem witness_PrivilegeViolation :
    user.sr.s = false ∧ user.canExcept 8 = true ∧ Privileged .rte ∧ Privileged (.stop 0) :=
  ⟨by decide, by decide, .inr (.inr (.inr (.inr (.inr (.inr (.inl rfl)))))), by simp [Privileged]⟩

end Sys2Proof.Tests
end

/-! Proofs about the model's common ground (00_scope.md): accesses that reach a device, the register file, and the flags
of additions and subtractions. -/

namespace Sys2Proof

theorem Size.bits_pos (sz : Size) : 0 < sz.bits := by cases sz <;> decide

theorem Size.bits_le (sz : Size) : sz.bits ≤ 32 := by cases sz <;> decide

end Sys2Proof

namespace Sys2Proof.Machine

/-! ## Bus cycles that reach a device (00_scope.md R6, 20_memory.md R66) -/

section DeviceCycles

variable {s : State} {a : Long}

theorem State.busRead_byte_device (h : s.deviceAt a = true) :
    s.busRead .b a = (Config.deviceByte (.readByte (addrOf a) :: s.deviceLog) (addrOf a),
      { s with deviceLog := .readByte (addrOf a) :: s.deviceLog }) := by
  simp [State.busRead, State.readByteCycle, State.answer, State.note, h]

theorem State.busWrite_byte_device (h : s.deviceAt a = true) (v : Byte) :
    s.busWrite .b a v = { s with deviceLog := .writeByte (addrOf a) v :: s.deviceLog } := by
  simp [State.busWrite, State.writeByteCycle, State.note, h]

theorem State.busRead_word_device (h : s.deviceAt a = true) (h' : s.deviceAt (a + 1#32) = true) :
    s.busRead .w a = (
      let log := .readWord (addrOf a) :: s.deviceLog
      (Config.deviceByte log (addrOf a) ++ Config.deviceByte log (addrOf (a + 1#32)), { s with deviceLog := log })) := by
  simp [State.busRead, State.readWordCycle, State.wordDevice, State.answer, State.note, h, h']

theorem State.busWrite_word_device (h : s.deviceAt a = true) (h' : s.deviceAt (a + 1#32) = true) (v : Word) :
    s.busWrite .w a v = { s with deviceLog := .writeWord (addrOf a) v :: s.deviceLog } := by
  simp [State.busWrite, State.writeWordCycle, State.writeCell, State.wordDevice, State.note, h, h']

/-! ## A long access as two word cycles (20_memory.md R66, log entry 9) -/

theorem State.busRead_long_device (h : s.isCells .l a = false) :
    s.busRead .l a = s.drawn.2.readHalves a s.drawn.1 := by
  simp [State.busRead, State.readLongCycles, h]

theorem State.busWrite_long_device (h : s.isCells .l a = false) (v : Long) :
    s.busWrite .l a v = s.drawn.2.writeHalves a v s.drawn.1 := by
  simp [State.busWrite, State.writeLongCycles, h]

/-- The two halves of a long access are at addresses of the same parity. -/
theorem misaligned_word_add_two (a : Long) : misaligned .w (a + 2#32) = misaligned .l a := by
  have parity : (a + 2#32).getLsbD 0 = a.getLsbD 0 := by
    simp only [BitVec.getLsbD, Nat.testBit_zero, BitVec.toNat_add, BitVec.toNat_ofNat]
    congr 2
    omega
  rw [misaligned, misaligned, parity]
  rfl

/-- A long access raises nothing exactly when neither of its halves does. -/
theorem State.accessOk_long_iff :
    s.accessOk .l a = true ↔ s.accessOk .w a = true ∧ s.accessOk .w (a + 2#32) = true := by
  have low : misaligned .w a = misaligned .l a := rfl
  simp only [State.accessOk, State.answers, misaligned_word_add_two, low, Bool.and_eq_true]
  tauto

/-- The halves read in an order are two word reads one after the other, their words put together by address. -/
theorem memRead_halves (h : s.accessOk .l a = true) (sp : Space) (highFirst : Bool) :
    ∃ (w1 w2 : Word) (s1 s2 : State),
      memRead sp .w (if highFirst then a else a + 2#32) s = .ok w1 s1 ∧
      memRead sp .w (if highFirst then a + 2#32 else a) s1 = .ok w2 s2 ∧
      s.readHalves a highFirst = (if highFirst then w1 ++ w2 else w2 ++ w1, s2) := by
  obtain ⟨hHigh, hLow⟩ := State.accessOk_long_iff.mp h
  have after (x y : Long) (hy : s.accessOk .w y = true) : (s.busRead .w x).2.accessOk .w y = true :=
    (State.accessOk_congr (by simp) .w y).trans hy
  cases highFirst with
  | true => exact ⟨_, _, _, _, memRead_ok hHigh, memRead_ok (after _ _ hLow), rfl⟩
  | false => exact ⟨_, _, _, _, memRead_ok hLow, memRead_ok (after _ _ hHigh), rfl⟩

/-- The halves written in an order are two word writes one after the other. -/
theorem memWrite_halves (h : s.accessOk .l a = true) (v : Long) (highFirst : Bool) :
    ∃ s1 : State,
      memWrite .w (if highFirst then a else a + 2#32)
        (if highFirst then v.extractLsb' 16 16 else v.extractLsb' 0 16) s = .ok () s1 ∧
      memWrite .w (if highFirst then a + 2#32 else a)
        (if highFirst then v.extractLsb' 0 16 else v.extractLsb' 16 16) s1 = .ok () (s.writeHalves a v highFirst) := by
  obtain ⟨hHigh, hLow⟩ := State.accessOk_long_iff.mp h
  have after (x y : Long) (w : Word) (hy : s.accessOk .w y = true) : (s.busWrite .w x w).accessOk .w y = true :=
    (State.accessOk_congr (by simp) .w y).trans hy
  cases highFirst with
  | true => exact ⟨_, memWrite_ok hHigh, memWrite_ok (after _ _ _ hLow)⟩
  | false => exact ⟨_, memWrite_ok hLow, memWrite_ok (after _ _ _ hHigh)⟩

end DeviceCycles

/-! ## The instructions of the statement on devices -/

/-- An address in a register has no extension word and steps nothing. -/
theorem State.resolved_ind (s : State) (sz : Size) (r : RegNo) : s.resolved sz (.ind r) = s := by
  simp [State.resolved, eaUpdate, eaExtCount, State.pastWords_zero]

/-- CLR reads its operand, discards what it read, and stores zero (20_memory.md R76). -/
theorem exec_clr_ok {sz : Size} {ea : EA} {s : State}
    (h : (s.pastWords 1).fetchable (s.pastWords 1).pc (eaExtCount sz ea) = true)
    (hw : (eaLoc sz ea (s.pastWords 1)).writable sz ((s.pastWords 1).resolved sz ea) = true) :
    exec (.clr sz ea) s = .next (
      let loc := eaLoc sz ea (s.pastWords 1)
      { loc.put sz (loc.afterRead sz ((s.pastWords 1).resolved sz ea)) 0 with
        sr := { s.sr with n := false, z := true, v := false, c := false } }) := by
  refine runBody_ok ?_
  rw [Exec.bind_ok (resolveEA_ok h), Exec.bind_ok (discardRead_ok (Loc.writable_readable hw)),
    Exec.bind_ok (writeLoc_ok (Loc.writable_afterRead hw)), setFlags_apply]
  simp

/-- In supervisor state RESET pulses the devices, and counts the pulse (47_system_control.md R502). -/
theorem exec_reset_of_supervisor {s : State} (h : s.sr.s = true) :
    exec .reset s = .next { s.pastWords 1 with
      deviceLog := .resetPulse :: s.deviceLog, resetPulses := s.resetPulses + 1 } :=
  runBody_ok (privileged_of_supervisor (s := s.pastWords 1) h)

/-- CLR of a byte of a device at `(An)`: the device sees the read, then the write. -/
theorem exec_clr_byte_device {s : State} {r : RegNo} (hd : s.deviceAt (s.areg r) = true)
    (ha : s.accessOk .b (s.areg r) = true) :
    exec (.clr .b (.ind r)) s = .next { s.pastWords 1 with
      deviceLog := .writeByte (addrOf (s.areg r)) 0 :: .readByte (addrOf (s.areg r)) :: s.deviceLog
      sr := { s.sr with n := false, z := true, v := false, c := false } } := by
  have hread := State.busRead_byte_device (s := s.pastWords 1) hd
  have hwrite := State.busWrite_byte_device
    (s := { s.pastWords 1 with deviceLog := .readByte (addrOf (s.areg r)) :: s.deviceLog }) hd 0
  rw [exec_clr_ok rfl (by rw [State.resolved_ind]; exact ha), State.resolved_ind]
  simp only [eaLoc, Loc.put, Loc.afterRead, State.pastWords_areg, State.pastWords_deviceLog, hread, hwrite]

/-- Settles O20: each cycle that reaches a device by its own rule, a long access by its two halves. -/
theorem deviceAccesses : Obligations.DeviceAccesses := by
  unfold Obligations.DeviceAccesses
  intro s a
  refine ⟨fun sp hd ha => ⟨?_, fun v => ?_⟩, fun sp hd hd' ha => ⟨?_, fun v => ?_⟩, fun sp v hc ha => ⟨?_, ?_⟩,
    fun r hr hd ha => ?_, exec_reset_of_supervisor⟩
  · rw [memRead_ok ha, State.busRead_byte_device hd]
  · rw [memWrite_ok ha, State.busWrite_byte_device hd]
  · rw [memRead_ok ha, State.busRead_word_device hd hd']
  · rw [memWrite_ok ha, State.busWrite_word_device hd hd']
  · obtain ⟨w1, w2, s1, s2, first, second, hboth⟩ :=
      memRead_halves (s := s.drawn.2) ha sp s.drawn.1
    exact ⟨w1, w2, s1, s2, first, second, by rw [memRead_ok ha, State.busRead_long_device hc, hboth]; rfl⟩
  · obtain ⟨s1, first, second⟩ := memWrite_halves (s := s.drawn.2) ha v s.drawn.1
    exact ⟨s1, _, first, second, by rw [memWrite_ok ha, State.busWrite_long_device hc]⟩
  · subst hr
    exact exec_clr_byte_device hd ha

/-! ## Sized writes of a data register (00_scope.md R9) -/

theorem getLsbD_merge {n : Nat} (old : Long) (v : BitVec n) (j : Nat) :
    (merge old v).getLsbD j = if j < n then decide (j < 32) && v.getLsbD j else old.getLsbD j := by
  by_cases hj : j < n
  · simp [merge, hj]
  · have hv : v.getLsbD j = false := BitVec.getLsbD_of_ge v j (by omega)
    have ho : 32 ≤ j → old.getLsbD j = false := BitVec.getLsbD_of_ge old j
    have hsplit : n + (j - n) = j := by omega
    by_cases h32 : j < 32 <;> simp_all [merge]

/-- The low bits of a merged register are the value written. -/
theorem setWidth_merge {n : Nat} (hn : n ≤ 32) (old : Long) (v : BitVec n) : (merge old v).setWidth n = v := by
  refine BitVec.eq_of_getLsbD_eq fun j hj => ?_
  rw [BitVec.getLsbD_setWidth, getLsbD_merge, if_pos hj]
  simp [hj, show j < 32 by omega]

theorem getLsbD_merge_of_ge {n j : Nat} (h : n ≤ j) (old : Long) (v : BitVec n) :
    (merge old v).getLsbD j = old.getLsbD j := by
  rw [getLsbD_merge, if_neg (by omega)]

/-! ## Writes of address registers, `A7` among them (10_state.md R21, R22) -/

theorem toNat_lt_seven_iff (r : RegNo) : r.toNat < 7 ↔ r ≠ 7#3 := by
  rw [← BitVec.toNat_inj.ne]
  have := r.isLt
  simp only [BitVec.toNat_ofNat]
  omega

/-- A write of an address register changes the address registers and the stack pointers alone. -/
theorem State.setAreg_state (s : State) (r : RegNo) (v : Long) :
    s.setAreg r v = { s with a := (s.setAreg r v).a, usp := (s.setAreg r v).usp, ssp := (s.setAreg r v).ssp } := by
  unfold State.setAreg State.setSp
  split
  · rfl
  · split <;> rfl

/-- `A0` to `A6` are no stack pointers. -/
theorem State.setAreg_stackPointers_of_ne {r : RegNo} (h : r ≠ 7#3) (s : State) (v : Long) :
    (s.setAreg r v).usp = s.usp ∧ (s.setAreg r v).ssp = s.ssp := by
  simp [State.setAreg, (toNat_lt_seven_iff r).mpr h]

theorem State.sp_of_supervisor {s : State} (h : s.sr.s = true) : s.sp = s.ssp := by simp [State.sp, h]

theorem State.sp_of_user {s : State} (h : s.sr.s = false) : s.sp = s.usp := by simp [State.sp, h]

theorem State.setSp_of_supervisor {s : State} (h : s.sr.s = true) (v : Long) : s.setSp v = { s with ssp := v } := by
  simp [State.setSp, h]

theorem State.setSp_of_user {s : State} (h : s.sr.s = false) (v : Long) : s.setSp v = { s with usp := v } := by
  simp [State.setSp, h]

/-- Settles O24, by what the register accessors read after the register updates. -/
theorem registerFile : Obligations.RegisterFile := by
  unfold Obligations.RegisterFile
  intro s
  refine ⟨fun sz r v => ⟨?_, fun j hj => ?_, fun q hq => State.dreg_putDreg_of_ne s v hq, rfl⟩,
    fun r v => ⟨State.areg_setAreg_self s r v, fun q hq => State.areg_setAreg_of_ne s v hq, State.setAreg_state s r v,
      fun hr => State.setAreg_stackPointers_of_ne hr s v⟩,
    fun hs => ⟨?_, fun v => ?_⟩, fun hu => ⟨?_, fun v => ?_⟩⟩
  · rw [State.dreg_putDreg_self, setWidth_merge sz.bits_le]
  · rw [State.dreg_putDreg_self, getLsbD_merge_of_ge hj]
  · rw [State.areg_seven, State.sp_of_supervisor hs]
  · rw [← State.setSp_eq_setAreg, State.setSp_of_supervisor hs]
  · rw [State.areg_seven, State.sp_of_user hu]
  · rw [← State.setSp_eq_setAreg, State.setSp_of_user hu]

/-! ## Exact sums and differences (00_scope.md R11, R12)

A width `n` is positive; `2 ^ n` is twice `2 ^ (n - 1)`, the weight of the top bit. -/

section Exact

variable {n : Nat} (hn : 0 < n) (v d : BitVec n) (x : Bool)
include hn

theorem toNat_ite_bit : (if x then 1 else 0 : BitVec n).toNat = x.toNat := by
  have : 1 < 2 ^ n := Nat.one_lt_two_pow hn.ne'
  cases x <;> simp [Nat.mod_eq_of_lt this]

/-- The sum is the exact one, less `2 ^ n` if that is where it ends. -/
theorem toNat_add_add_bit : (d + v + (if x then 1 else 0)).toNat =
    if 2 ^ n ≤ d.toNat + v.toNat + x.toNat then d.toNat + v.toNat + x.toNat - 2 ^ n
    else d.toNat + v.toNat + x.toNat := by
  have hx := x.toNat_le
  have hd := d.isLt
  have hv := v.isLt
  rw [BitVec.toNat_add, BitVec.toNat_add, toNat_ite_bit hn, Nat.mod_add_mod]
  split
  next h => rw [Nat.mod_eq_sub_mod h, Nat.mod_eq_of_lt (by omega)]
  next h => exact Nat.mod_eq_of_lt (by omega)

/-- The difference is the exact one, plus `2 ^ n` if that is below zero. -/
theorem toNat_sub_sub_bit : (d - v - (if x then 1 else 0)).toNat =
    if d.toNat < v.toNat + x.toNat then d.toNat + 2 ^ n - (v.toNat + x.toNat) else d.toNat - (v.toNat + x.toNat) := by
  have hx := x.toNat_le
  have hd := d.isLt
  have hv := v.isLt
  have hsum : 2 ^ n - x.toNat + (2 ^ n - v.toNat + d.toNat) = d.toNat + 2 ^ n - (v.toNat + x.toNat) + 2 ^ n := by omega
  rw [BitVec.toNat_sub, BitVec.toNat_sub, toNat_ite_bit hn, Nat.add_mod_mod, hsum, Nat.add_mod_right]
  split
  next h => exact Nat.mod_eq_of_lt (by omega)
  next h => rw [Nat.mod_eq_sub_mod (by omega), Nat.mod_eq_of_lt (by omega)]; omega

/-- The signed value, from the unsigned one and the weight of the top bit. -/
theorem toInt_eq_of_half : d.toInt =
    if 2 ^ (n - 1) ≤ d.toNat then (d.toNat : Int) - (2 ^ (n - 1) * 2 : Nat) else d.toNat := by
  rw [BitVec.toInt_eq_msb_cond, ← Nat.two_pow_pred_mul_two hn]
  simp [BitVec.msb_eq_decide]

/-! ## Carry, borrow and overflow are read off the top bits

A top bit says in which half of the range its word lies, and whether the exact value wrapped is the one other case
split: what is left is linear in the operands and the weight of the top bit. -/

theorem addCarry_eq_decide :
    addCarry v d (d + v + (if x then 1 else 0)) = decide (2 ^ n ≤ d.toNat + v.toNat + x.toNat) := by
  have hx := x.toNat_le
  have hd := d.isLt
  have hv := v.isLt
  have htwo := Nat.two_pow_pred_mul_two hn
  rw [Bool.eq_iff_iff]
  simp only [addCarry, BitVec.msb_eq_decide, toNat_add_add_bit hn, Bool.or_eq_true, Bool.and_eq_true,
    Bool.not_eq_true', decide_eq_true_iff, decide_eq_false_iff_not]
  split <;> omega

theorem addOverflow_eq_decide :
    addOverflow v d (d + v + (if x then 1 else 0)) =
      decide (d.toInt + v.toInt + x.toNat < -2 ^ (n - 1) ∨ 2 ^ (n - 1) ≤ d.toInt + v.toInt + x.toNat) := by
  have hx := x.toNat_le
  have hd := d.isLt
  have hv := v.isLt
  have hcast : ((2 ^ (n - 1) : Nat) : Int) = 2 ^ (n - 1) := by norm_cast
  have htwo := Nat.two_pow_pred_mul_two hn
  rw [Bool.eq_iff_iff]
  simp only [addOverflow, BitVec.msb_eq_decide, toNat_add_add_bit hn, toInt_eq_of_half hn, Bool.or_eq_true,
    Bool.and_eq_true, Bool.not_eq_true', decide_eq_true_iff, decide_eq_false_iff_not]
  split <;> split <;> split <;> omega

theorem subBorrow_eq_decide :
    subBorrow v d (d - v - (if x then 1 else 0)) = decide (d.toNat < v.toNat + x.toNat) := by
  have hx := x.toNat_le
  have hd := d.isLt
  have hv := v.isLt
  have htwo := Nat.two_pow_pred_mul_two hn
  rw [Bool.eq_iff_iff]
  simp only [subBorrow, BitVec.msb_eq_decide, toNat_sub_sub_bit hn, Bool.or_eq_true, Bool.and_eq_true,
    Bool.not_eq_true', decide_eq_true_iff, decide_eq_false_iff_not]
  split <;> omega

theorem subOverflow_eq_decide :
    subOverflow v d (d - v - (if x then 1 else 0)) =
      decide (d.toInt - v.toInt - x.toNat < -2 ^ (n - 1) ∨ 2 ^ (n - 1) ≤ d.toInt - v.toInt - x.toNat) := by
  have hx := x.toNat_le
  have hd := d.isLt
  have hv := v.isLt
  have hcast : ((2 ^ (n - 1) : Nat) : Int) = 2 ^ (n - 1) := by norm_cast
  have htwo := Nat.two_pow_pred_mul_two hn
  rw [Bool.eq_iff_iff]
  simp only [subOverflow, BitVec.msb_eq_decide, toNat_sub_sub_bit hn, toInt_eq_of_half hn, Bool.or_eq_true,
    Bool.and_eq_true, Bool.not_eq_true', decide_eq_true_iff, decide_eq_false_iff_not]
  split <;> split <;> split <;> omega

end Exact

/-- Settles O26: the top bits that the flags are read off, as the exact sum. -/
theorem additionFlags : Obligations.AdditionFlags := by
  unfold Obligations.AdditionFlags
  intro sz v d sr x
  have hn := sz.bits_pos
  simp only [StatusReg.ofAdd, StatusReg.ofAddX, StatusReg.addFlags, StatusReg.setZ, StatusReg.stickyZ,
    addCarry_eq_decide hn, addOverflow_eq_decide hn, BitVec.msb_eq_toInt, beq_eq_decide, and_self]

/-- Settles O27: the top bits that the flags are read off, as the exact difference. -/
theorem subtractionFlags : Obligations.SubtractionFlags := by
  unfold Obligations.SubtractionFlags
  intro sz v d sr x
  have hn := sz.bits_pos
  simp only [StatusReg.ofSub, StatusReg.ofSubX, StatusReg.ofCmp, StatusReg.subFlags, StatusReg.copyX, StatusReg.setZ,
    StatusReg.stickyZ, subBorrow_eq_decide hn, subOverflow_eq_decide hn, BitVec.msb_eq_toInt, beq_eq_decide, and_self]

end Sys2Proof.Machine

/-! Proofs about the programmer's state (10_state.md): the status register as a word, by its bit places. -/

namespace Sys2Proof.Machine

/-! ## The bits of `SR` and of `CCR` (10_state.md R24, R25) -/

/-- What stands at each bit place of `SR`: the ten named bits of R24, zero at every other place. -/
def StatusReg.bit (r : StatusReg) : Nat → Bool
  | 15 => r.t
  | 13 => r.s
  | 10 => r.i.getLsbD 2
  | 9 => r.i.getLsbD 1
  | 8 => r.i.getLsbD 0
  | 4 => r.x
  | 3 => r.n
  | 2 => r.z
  | 1 => r.v
  | 0 => r.c
  | _ => false

theorem StatusReg.getLsbD_toWord (r : StatusReg) {j : Nat} (hj : j < 16) : r.toWord.getLsbD j = r.bit j := by
  refine BitVec.getLsbD_append.trans ?_
  simp only [BitVec.getLsbD_append, BitVec.getLsbD_ofBool]
  interval_cases j <;> simp [bit]

/-- Of a word written to `SR`, the places of `$A71F` are kept. -/
theorem StatusReg.bit_ofWord (w : Word) {j : Nat} (hj : j < 16) :
    (StatusReg.ofWord w).bit j = (w.getLsbD j && (0xA71F#16).getLsbD j) := by
  interval_cases j <;> simp [ofWord, bit]

/-- Of a byte written to `CCR`, the places of `$1F` are kept. -/
theorem StatusReg.bit_withCcr_of_lt (r : StatusReg) (b : Byte) {j : Nat} (hj : j < 8) :
    (r.withCcr b).bit j = (b.getLsbD j && (0x1F#8).getLsbD j) := by
  interval_cases j <;> simp [withCcr, bit]

/-- A byte written to `CCR` leaves the system byte. -/
theorem StatusReg.bit_withCcr_of_ge (r : StatusReg) (b : Byte) {j : Nat} (h8 : 8 ≤ j) (hj : j < 16) :
    (r.withCcr b).bit j = r.bit j := by
  interval_cases j <;> rfl

theorem StatusReg.toWord_ofWord (w : Word) : (StatusReg.ofWord w).toWord = w &&& 0xA71F#16 := by
  refine BitVec.eq_of_getLsbD_eq fun j hj => ?_
  rw [getLsbD_toWord _ hj, bit_ofWord w hj, BitVec.getLsbD_and]

theorem StatusReg.extractLsb'_toWord_mask (r : StatusReg) : r.toWord.extractLsb' 8 3 = r.i := by
  refine BitVec.eq_of_getLsbD_eq fun j hj => ?_
  have hj' : 8 + j < 16 := by omega
  rw [BitVec.getLsbD_extractLsb', decide_eq_true hj, Bool.true_and, getLsbD_toWord _ hj']
  interval_cases j <;> rfl

theorem StatusReg.ofWord_toWord (r : StatusReg) : StatusReg.ofWord r.toWord = r := by
  simp only [ofWord, extractLsb'_toWord_mask, getLsbD_toWord, bit, Nat.reduceLT]

theorem StatusReg.ccr_withCcr (r : StatusReg) (b : Byte) : (r.withCcr b).ccr = b &&& 0x1F#8 := by
  refine BitVec.eq_of_getLsbD_eq fun j hj => ?_
  rw [ccr, BitVec.getLsbD_setWidth, getLsbD_toWord _ (by omega), bit_withCcr_of_lt r b hj, BitVec.getLsbD_and,
    decide_eq_true hj, Bool.true_and]

theorem StatusReg.systemByte_withCcr (r : StatusReg) (b : Byte) :
    (r.withCcr b).toWord.extractLsb' 8 8 = r.toWord.extractLsb' 8 8 := by
  refine BitVec.eq_of_getLsbD_eq fun j hj => ?_
  have hj' : 8 + j < 16 := by omega
  simp only [BitVec.getLsbD_extractLsb', getLsbD_toWord _ hj', bit_withCcr_of_ge r b (Nat.le_add_right 8 j) hj']

/-- Settles O25: the words and bytes agree at every bit place. -/
theorem statusRegisterWord : Obligations.StatusRegisterWord := by
  unfold Obligations.StatusRegisterWord
  refine ⟨StatusReg.toWord_ofWord, fun r => ⟨r.ofWord_toWord, ?_, ?_, r.extractLsb'_toWord_mask, ?_, ?_, ?_, ?_, ?_,
    fun b => ⟨r.ccr_withCcr b, r.systemByte_withCcr b⟩⟩⟩
  all_goals exact r.getLsbD_toWord (by decide)

end Sys2Proof.Machine

/-! Proofs about memory (20_memory.md): the canonical form that every step keeps, the accesses and the bytes they touch,
the stack, and the words that fetches answer. -/

namespace Sys2Proof.Machine

/-! ## Every part of an instruction keeps the canonical form (20_memory.md R60, R63) -/

theorem Exec.KeepsInv.get_set {f : State → State} (h : ∀ s, (f s).mem = s.mem) :
    (MonadState.get >>= fun s => set (f s) : Exec PUnit).KeepsInv :=
  Exec.KeepsInv.modify h

section Operands

variable (sz : Size)

theorem modifyLoc_keepsInv (loc : Loc) (f : BitVec sz.bits → StatusReg → BitVec sz.bits × StatusReg) :
    (modifyLoc sz loc f).KeepsInv :=
  .bind (readLoc_keepsInv sz loc) fun _ => .bind .get fun _ => .bind (writeLoc_keepsInv sz loc _) fun _ =>
    setFlags_keepsInv _

theorem modifyEA_keepsInv (ea : EA) (f : BitVec sz.bits → StatusReg → BitVec sz.bits × StatusReg) :
    (modifyEA sz ea f).KeepsInv :=
  .bind (resolveEA_keepsInv sz ea) fun _ => modifyLoc_keepsInv sz _ f

theorem fetchImm_keepsInv (v : Long) : (fetchImm sz v).KeepsInv := .bind (fetchExts_keepsInv _) fun _ => .pure _

variable (f : BitVec sz.bits → BitVec sz.bits → StatusReg → BitVec sz.bits × StatusReg)

theorem eaToDreg_keepsInv (ea : EA) (rx : RegNo) : (eaToDreg sz ea rx f).KeepsInv :=
  .bind (readEA_keepsInv sz ea) fun _ => .get_set fun _ => rfl

theorem dregToEA_keepsInv (rx : RegNo) (ea : EA) : (dregToEA sz rx ea f).KeepsInv :=
  .bind (resolveEA_keepsInv sz ea) fun _ => .bind (readLoc_keepsInv sz _) fun _ => .bind .get fun _ =>
    .bind (writeLoc_keepsInv sz _ _) fun _ => setFlags_keepsInv _

theorem immToEA_keepsInv (v : Long) (ea : EA) : (immToEA sz v ea f).KeepsInv :=
  .bind (fetchImm_keepsInv sz v) fun _ => modifyEA_keepsInv sz ea _

theorem dregPair_keepsInv (ry rx : RegNo) : (dregPair sz ry rx f).KeepsInv := .get_set fun _ => rfl

theorem memPair_keepsInv (ry rx : RegNo) : (memPair sz ry rx f).KeepsInv :=
  .bind (readPreDec_keepsInv sz ry) fun _ => .bind (readPreDec_keepsInv sz rx) fun _ => .bind .get fun _ =>
    .bind .get fun _ => .bind (memWrite_keepsInv sz _ _) fun _ => setFlags_keepsInv _

end Operands

/-! ### Arithmetic, logic and shifts -/

theorem multiply_keepsInv (ea : EA) (rx : RegNo) (f : Word → Word → Long) : (multiply ea rx f).KeepsInv :=
  .bind (readEA_keepsInv .w ea) fun _ => .bind .get fun _ => .bind (.modify fun _ => rfl) fun _ => setFlags_keepsInv _

theorem zeroDivide_keepsInv : zeroDivide.KeepsInv :=
  .bind drawBit_keepsInv fun _ => .bind drawBit_keepsInv fun _ => .bind drawBit_keepsInv fun _ =>
    .bind (setFlags_keepsInv _) fun _ => trapNext_keepsInv 5

theorem storeQuotient_keepsInv (rx : RegNo) (q m : Int) (fits negative : Bool) :
    (storeQuotient rx q m fits negative).KeepsInv :=
  .ite (.bind (.modify fun _ => rfl) fun _ => setFlags_keepsInv _)
    (.bind drawBit_keepsInv fun _ => .bind drawBit_keepsInv fun _ => setFlags_keepsInv _)

theorem immToCcr_keepsInv (v : Byte) (f : Byte → Byte → Byte) : (immToCcr v f).KeepsInv :=
  .bind fetchExt_keepsInv fun _ => setFlags_keepsInv _

theorem immToSr_keepsInv (v : Word) (f : Word → Word → Word) : (immToSr v f).KeepsInv :=
  privileged_keepsInv (.bind fetchExt_keepsInv fun _ => setFlags_keepsInv _)

theorem shiftReg_keepsInv (op : ShiftOp) (sz : Size) (count : Nat) (ry : RegNo) : (shiftReg op sz count ry).KeepsInv :=
  .get_set fun _ => rfl

theorem shiftByReg_keepsInv (op : ShiftOp) (sz : Size) (rx ry : RegNo) : (shiftByReg op sz rx ry).KeepsInv :=
  .bind .get fun _ => shiftReg_keepsInv op sz _ ry

theorem shiftMem_keepsInv (op : ShiftOp) (ea : EA) : (shiftMem op ea).KeepsInv := modifyEA_keepsInv .w ea _

/-! ### Decimal arithmetic -/

theorem bcdConclude_keepsInv (valid : Bool) (t : Int) : (bcdConclude valid t).KeepsInv :=
  .bind drawBit_keepsInv fun _ => .bind drawBit_keepsInv fun _ =>
    .ite (.bind (setFlags_keepsInv _) fun _ => .bind .get fun _ => .pure _)
      (.bind drawByte_keepsInv fun _ => .bind drawBit_keepsInv fun _ => .bind drawBit_keepsInv fun _ =>
        .bind drawBit_keepsInv fun _ => .bind (setFlags_keepsInv _) fun _ => .pure _)

theorem abcdOp_keepsInv (v d : Byte) : (abcdOp v d).KeepsInv := .bind .get fun _ => bcdConclude_keepsInv _ _

theorem sbcdOp_keepsInv (v d : Byte) : (sbcdOp v d).KeepsInv := .bind .get fun _ => bcdConclude_keepsInv _ _

theorem putZ_keepsInv (z : Bool) : (putZ z).KeepsInv := setFlags_keepsInv _

section Decimal

variable {f : Byte → Byte → Exec (Byte × Bool)} (hf : ∀ v d, (f v d).KeepsInv) (ry rx : RegNo)
include hf

theorem bcdRegs_keepsInv : (bcdRegs ry rx f).KeepsInv :=
  .bind .get fun _ => .bind (hf _ _) fun _ => .bind (.modify fun _ => rfl) fun _ => putZ_keepsInv _

theorem bcdMem_keepsInv : (bcdMem ry rx f).KeepsInv :=
  .bind (readPreDec_keepsInv .b ry) fun _ => .bind (readPreDec_keepsInv .b rx) fun _ => .bind (hf _ _) fun _ =>
    .bind (putZ_keepsInv _) fun _ => .bind .get fun _ => memWrite_keepsInv .b _ _

end Decimal

/-! ### Bits and branches -/

theorem bitOp_keepsInv (op : BitOp) (b : Nat) (ea : EA) : (bitOp op b ea).KeepsInv :=
  .bind (resolveEA_keepsInv _ ea) fun loc => .bind (readLoc_keepsInv _ loc) fun _ =>
    .bind (setFlags_keepsInv _) fun _ => by
      cases op with
      | tst => exact .pure _
      | chg | clr | set => exact writeLoc_keepsInv _ loc _

theorem bitOpReg_keepsInv (op : BitOp) (rx : RegNo) (ea : EA) : (bitOpReg op rx ea).KeepsInv :=
  .bind .get fun _ => bitOp_keepsInv op _ ea

theorem bitOpImm_keepsInv (op : BitOp) (n : Byte) (ea : EA) : (bitOpImm op n ea).KeepsInv :=
  .bind fetchExt_keepsInv fun _ => bitOp_keepsInv op _ ea

theorem branchTarget_keepsInv (d : Disp) : (branchTarget d).KeepsInv :=
  .bind .get fun _ => by
    cases d with
    | byte d => exact .pure _
    | word d => exact .bind fetchExt_keepsInv fun _ => .pure _

theorem chkFlags_keepsInv (d b : Int) : (chkFlags d b).KeepsInv :=
  .bind drawBit_keepsInv fun _ => .bind drawBit_keepsInv fun _ => .bind drawBit_keepsInv fun _ =>
    .bind drawBit_keepsInv fun _ => setFlags_keepsInv _

/-! ### Moves of many registers -/

@[simp] theorem State.setReg_mem (s : State) (i : Nat) (v : Long) : (s.setReg i v).mem = s.mem := by
  unfold State.setReg
  split <;> simp

theorem storeUp_keepsInv (sz : Size) (is : List Nat) (a : Long) : (storeUp sz is a).KeepsInv := by
  induction is generalizing a with
  | nil => exact .pure _
  | cons i is ih => exact .bind .get fun _ => .bind (memWrite_keepsInv sz a _) fun _ => ih _

theorem storeDown_keepsInv (sz : Size) (is : List Nat) (a : Long) : (storeDown sz is a).KeepsInv := by
  induction is generalizing a with
  | nil => exact .pure _
  | cons i is ih => exact .bind .get fun _ => .bind (memWrite_keepsInv sz _ _) fun _ => ih _

theorem loadUp_keepsInv (sp : Space) (sz : Size) (is : List Nat) (a : Long) : (loadUp sp sz is a).KeepsInv := by
  induction is generalizing a with
  | nil => exact .pure _
  | cons i is ih => exact .bind (memRead_keepsInv sp sz a) fun _ => .bind (.modify fun s => by simp) fun _ => ih _

theorem loadMany_keepsInv (sp : Space) (sz : Size) (mask : Word) (a : Long) : (loadMany sp sz mask a).KeepsInv :=
  .bind (loadUp_keepsInv sp sz _ a) fun _ =>
    .ite (.bind (memRead_keepsInv sp .w _) fun _ => .pure _) (.pure _)

theorem movepLoad_keepsInv (rx : RegNo) (ks : List Nat) (a : Long) : (movepLoad rx ks a).KeepsInv := by
  induction ks generalizing a with
  | nil => exact .pure _
  | cons k ks ih => exact .bind (memRead_keepsInv _ _ _) fun _ => .bind (.modify fun _ => rfl) fun _ => ih _

theorem movepStore_keepsInv (rx : RegNo) (ks : List Nat) (a : Long) : (movepStore rx ks a).KeepsInv := by
  induction ks generalizing a with
  | nil => exact .pure _
  | cons k ks ih => exact .bind .get fun _ => .bind (memWrite_keepsInv .b a _) fun _ => ih _

/-! ## Every instruction keeps the canonical form -/

/-- A part of a step keeps memory's canonical form in every next state it answers. -/
def OutcomeKeepsInv (run : State → Host.Outcome State Fault Refusal) : Prop :=
  ∀ s t, s.Inv → run s = .next t → t.Inv

theorem Exec.KeepsInv.runBody {body : Exec Unit} (h : body.KeepsInv) : OutcomeKeepsInv (runBody body) :=
  fun _ _ => runBody_inv h

theorem execAdda_keepsInv (sz : SizeWL) (ea : EA) (rx : RegNo) : OutcomeKeepsInv (execAdda sz ea rx) :=
  Exec.KeepsInv.runBody (.bind (readEA_keepsInv _ ea) fun _ => .modify fun s => by simp)

theorem execSuba_keepsInv (sz : SizeWL) (ea : EA) (rx : RegNo) : OutcomeKeepsInv (execSuba sz ea rx) :=
  Exec.KeepsInv.runBody (.bind (readEA_keepsInv _ ea) fun _ => .modify fun s => by simp)

theorem execAddq_keepsInv (sz : Size) (q : BitVec 3) (ea : EA) : OutcomeKeepsInv (execAddq sz q ea) := by
  refine Exec.KeepsInv.runBody ?_
  cases ea with
  | an r => exact .modify fun s => by simp
  | _ => exact modifyEA_keepsInv sz _ _

theorem execSubq_keepsInv (sz : Size) (q : BitVec 3) (ea : EA) : OutcomeKeepsInv (execSubq sz q ea) := by
  refine Exec.KeepsInv.runBody ?_
  cases ea with
  | an r => exact .modify fun s => by simp
  | _ => exact modifyEA_keepsInv sz _ _

theorem execDivs_keepsInv (ea : EA) (rx : RegNo) : OutcomeKeepsInv (execDivs ea rx) :=
  Exec.KeepsInv.runBody (.bind (readEA_keepsInv .w ea) fun _ =>
    .ite zeroDivide_keepsInv (.bind .get fun _ => storeQuotient_keepsInv _ _ _ _ _))

theorem execDivu_keepsInv (ea : EA) (rx : RegNo) : OutcomeKeepsInv (execDivu ea rx) :=
  Exec.KeepsInv.runBody (.bind (readEA_keepsInv .w ea) fun _ =>
    .ite zeroDivide_keepsInv (.bind .get fun _ => storeQuotient_keepsInv _ _ _ _ _))

theorem execCmp_keepsInv (sz : Size) (ea : EA) (rx : RegNo) : OutcomeKeepsInv (execCmp sz ea rx) :=
  Exec.KeepsInv.runBody (.bind (readEA_keepsInv sz ea) fun _ => .bind .get fun _ => setFlags_keepsInv _)

theorem execCmpa_keepsInv (sz : SizeWL) (ea : EA) (rx : RegNo) : OutcomeKeepsInv (execCmpa sz ea rx) :=
  Exec.KeepsInv.runBody (.bind (readEA_keepsInv _ ea) fun _ => .bind .get fun _ => setFlags_keepsInv _)

theorem execCmpi_keepsInv (sz : Size) (v : Long) (ea : EA) : OutcomeKeepsInv (execCmpi sz v ea) :=
  Exec.KeepsInv.runBody (.bind (fetchImm_keepsInv sz v) fun _ => .bind (readEA_keepsInv sz ea) fun _ =>
    setFlags_keepsInv _)

theorem execCmpm_keepsInv (sz : Size) (ry rx : RegNo) : OutcomeKeepsInv (execCmpm sz ry rx) :=
  Exec.KeepsInv.runBody (.bind (readPostInc_keepsInv sz ry) fun _ => .bind (readPostInc_keepsInv sz rx) fun _ =>
    setFlags_keepsInv _)

theorem execClr_keepsInv (sz : Size) (ea : EA) : OutcomeKeepsInv (execClr sz ea) :=
  Exec.KeepsInv.runBody (.bind (resolveEA_keepsInv sz ea) fun loc => .bind (discardRead_keepsInv sz loc) fun _ =>
    .bind (writeLoc_keepsInv sz loc _) fun _ => setFlags_keepsInv _)

theorem execExt_keepsInv (sz : SizeWL) (r : RegNo) : OutcomeKeepsInv (execExt sz r) := by
  refine Exec.KeepsInv.runBody (.bind .get fun s => ?_)
  cases sz with
  | w | l => exact .bind (.modify fun _ => rfl) fun _ => setFlags_keepsInv _

theorem execTst_keepsInv (sz : Size) (ea : EA) : OutcomeKeepsInv (execTst sz ea) :=
  Exec.KeepsInv.runBody (.bind (readEA_keepsInv sz ea) fun _ => setFlags_keepsInv _)

theorem execTas_keepsInv (ea : EA) : OutcomeKeepsInv (execTas ea) :=
  Exec.KeepsInv.runBody (.bind (resolveEA_keepsInv .b ea) fun loc => .bind (readLoc_keepsInv .b loc) fun _ =>
    .bind (setFlags_keepsInv _) fun _ => writeLoc_keepsInv .b loc _)

theorem execNbcd_keepsInv (ea : EA) : OutcomeKeepsInv (execNbcd ea) :=
  Exec.KeepsInv.runBody (.bind (resolveEA_keepsInv .b ea) fun loc => .bind (readLoc_keepsInv .b loc) fun _ =>
    .bind (sbcdOp_keepsInv _ _) fun _ => .bind (writeLoc_keepsInv .b loc _) fun _ => putZ_keepsInv _)

theorem execBcc_keepsInv (c : Cond) (d : Disp) : OutcomeKeepsInv (execBcc c d) :=
  Exec.KeepsInv.runBody (.bind (branchTarget_keepsInv d) fun _ => .bind .get fun _ => .ite (jump_keepsInv _) (.pure _))

theorem execDbcc_keepsInv (c : Cond) (r : RegNo) (d : Word) : OutcomeKeepsInv (execDbcc c r d) :=
  Exec.KeepsInv.runBody (.bind .get fun _ => .bind fetchExt_keepsInv fun _ => .bind .get fun _ =>
    .ite (.bind (.modify fun _ => rfl) fun _ => .ite (jump_keepsInv _) (.pure _)) (.pure _))

theorem execScc_keepsInv (c : Cond) (ea : EA) : OutcomeKeepsInv (execScc c ea) :=
  Exec.KeepsInv.runBody (.bind (resolveEA_keepsInv .b ea) fun loc => .bind (discardRead_keepsInv .b loc) fun _ =>
    .bind .get fun _ => writeLoc_keepsInv .b loc _)

theorem execBra_keepsInv (d : Disp) : OutcomeKeepsInv (execBra d) :=
  Exec.KeepsInv.runBody (.bind (branchTarget_keepsInv d) fun _ => jump_keepsInv _)

theorem execBsr_keepsInv (d : Disp) : OutcomeKeepsInv (execBsr d) :=
  Exec.KeepsInv.runBody (.bind (branchTarget_keepsInv d) fun _ => .bind .get fun _ => .bind (push32_keepsInv _) fun _ =>
    jump_keepsInv _)

theorem execJmp_keepsInv (ea : EA) : OutcomeKeepsInv (execJmp ea) :=
  Exec.KeepsInv.runBody (.bind (addressEA_keepsInv .l ea) fun _ => jump_keepsInv _)

theorem execJsr_keepsInv (ea : EA) : OutcomeKeepsInv (execJsr ea) :=
  Exec.KeepsInv.runBody (.bind (addressEA_keepsInv .l ea) fun _ => .bind .get fun _ => .bind (push32_keepsInv _) fun _ =>
    jump_keepsInv _)

theorem execRtr_keepsInv : OutcomeKeepsInv execRtr :=
  Exec.KeepsInv.runBody (.bind pop16_keepsInv fun _ => .bind (setFlags_keepsInv _) fun _ => .bind pop32_keepsInv fun _ =>
    jump_keepsInv _)

theorem execRts_keepsInv : OutcomeKeepsInv execRts :=
  Exec.KeepsInv.runBody (.bind pop32_keepsInv fun _ => jump_keepsInv _)

theorem execTrapv_keepsInv : OutcomeKeepsInv execTrapv :=
  Exec.KeepsInv.runBody (.bind .get fun _ => .ite (trapNext_keepsInv 7) (.pure _))

theorem execChk_keepsInv (ea : EA) (rx : RegNo) : OutcomeKeepsInv (execChk ea rx) :=
  Exec.KeepsInv.runBody (.bind (readEA_keepsInv .w ea) fun _ => .bind .get fun _ => .bind (chkFlags_keepsInv _ _) fun _ =>
    .ite (trapNext_keepsInv 6) (.pure _))

theorem execMove_keepsInv (sz : Size) (src dst : EA) : OutcomeKeepsInv (execMove sz src dst) :=
  Exec.KeepsInv.runBody (.bind (readEA_keepsInv sz src) fun _ => .bind (resolveEA_keepsInv sz dst) fun _ =>
    .bind (writeLoc_keepsInv sz _ _) fun _ => setFlags_keepsInv _)

theorem execMovea_keepsInv (sz : SizeWL) (src : EA) (rx : RegNo) : OutcomeKeepsInv (execMovea sz src rx) :=
  Exec.KeepsInv.runBody (.bind (readEA_keepsInv _ src) fun _ => .modify fun s => by simp)

theorem execMoveToCcr_keepsInv (ea : EA) : OutcomeKeepsInv (execMoveToCcr ea) :=
  Exec.KeepsInv.runBody (.bind (readEA_keepsInv .w ea) fun _ => setFlags_keepsInv _)

theorem execMoveToSr_keepsInv (ea : EA) : OutcomeKeepsInv (execMoveToSr ea) :=
  Exec.KeepsInv.runBody (privileged_keepsInv (.bind (readEA_keepsInv .w ea) fun _ => setFlags_keepsInv _))

theorem execMoveFromSr_keepsInv (ea : EA) : OutcomeKeepsInv (execMoveFromSr ea) :=
  Exec.KeepsInv.runBody (.bind (resolveEA_keepsInv .w ea) fun loc => .bind (discardRead_keepsInv .w loc) fun _ =>
    .bind .get fun _ => writeLoc_keepsInv .w loc _)

theorem execMoveFromUsp_keepsInv (r : RegNo) : OutcomeKeepsInv (execMoveFromUsp r) :=
  Exec.KeepsInv.runBody (privileged_keepsInv (.modify fun s => by simp))

theorem execMoveToUsp_keepsInv (r : RegNo) : OutcomeKeepsInv (execMoveToUsp r) :=
  Exec.KeepsInv.runBody (privileged_keepsInv (.modify fun _ => rfl))

theorem execMovemToMem_keepsInv (sz : SizeWL) (mask : Word) (ea : EA) : OutcomeKeepsInv (execMovemToMem sz mask ea) := by
  refine Exec.KeepsInv.runBody (.bind fetchExt_keepsInv fun _ => ?_)
  cases ea with
  | preDec r => exact .bind .get fun _ => .bind (storeDown_keepsInv _ _ _) fun _ => .modify fun s => by simp
  | _ => exact .bind (addressEA_keepsInv _ _) fun _ => storeUp_keepsInv _ _ _

theorem execMovemToReg_keepsInv (sz : SizeWL) (mask : Word) (ea : EA) : OutcomeKeepsInv (execMovemToReg sz mask ea) := by
  refine Exec.KeepsInv.runBody (.bind fetchExt_keepsInv fun _ => ?_)
  cases ea with
  | postInc r => exact .bind .get fun _ => .bind (loadMany_keepsInv _ _ _ _) fun _ => .modify fun s => by simp
  | _ =>
    refine .bind (resolveEA_keepsInv _ _) fun loc => ?_
    cases loc with
    | mem sp a => exact .bind (loadMany_keepsInv sp _ mask a) fun _ => .pure _
    | _ => exact .throw _

theorem execMovepToReg_keepsInv (sz : SizeWL) (ry : RegNo) (d : Word) (rx : RegNo) :
    OutcomeKeepsInv (execMovepToReg sz ry d rx) :=
  Exec.KeepsInv.runBody (.bind fetchExt_keepsInv fun _ => .bind .get fun _ => movepLoad_keepsInv rx _ _)

theorem execMovepToMem_keepsInv (sz : SizeWL) (rx ry : RegNo) (d : Word) :
    OutcomeKeepsInv (execMovepToMem sz rx ry d) :=
  Exec.KeepsInv.runBody (.bind fetchExt_keepsInv fun _ => .bind .get fun _ => movepStore_keepsInv rx _ _)

theorem execMoveq_keepsInv (v : Byte) (rx : RegNo) : OutcomeKeepsInv (execMoveq v rx) :=
  Exec.KeepsInv.runBody (.bind (.modify fun _ => rfl) fun _ => setFlags_keepsInv _)

theorem execExgDD_keepsInv (rx ry : RegNo) : OutcomeKeepsInv (execExgDD rx ry) :=
  Exec.KeepsInv.runBody (.modify fun _ => rfl)

theorem execExgAA_keepsInv (rx ry : RegNo) : OutcomeKeepsInv (execExgAA rx ry) :=
  Exec.KeepsInv.runBody (.modify fun s => by simp)

theorem execExgDA_keepsInv (rx ry : RegNo) : OutcomeKeepsInv (execExgDA rx ry) :=
  Exec.KeepsInv.runBody (.modify fun s => by simp)

theorem execSwap_keepsInv (r : RegNo) : OutcomeKeepsInv (execSwap r) :=
  Exec.KeepsInv.runBody (.bind .get fun _ => .bind (.modify fun _ => rfl) fun _ => setFlags_keepsInv _)

theorem execLea_keepsInv (ea : EA) (rx : RegNo) : OutcomeKeepsInv (execLea ea rx) :=
  Exec.KeepsInv.runBody (.bind (addressEA_keepsInv .l ea) fun _ => .modify fun s => by simp)

theorem execPea_keepsInv (ea : EA) : OutcomeKeepsInv (execPea ea) :=
  Exec.KeepsInv.runBody (.bind (addressEA_keepsInv .l ea) fun _ => push32_keepsInv _)

theorem execLink_keepsInv (r : RegNo) (d : Word) : OutcomeKeepsInv (execLink r d) :=
  Exec.KeepsInv.runBody (.ite (.throw _) (.bind fetchExt_keepsInv fun _ => .bind .get fun _ =>
    .bind (push32_keepsInv _) fun _ => .bind (.modify fun s => by simp) fun _ => .modify fun s => by simp))

theorem execUnlk_keepsInv (r : RegNo) : OutcomeKeepsInv (execUnlk r) :=
  Exec.KeepsInv.runBody (.ite (.throw _) (.bind (.modify fun s => by simp) fun _ => .bind pop32_keepsInv fun _ =>
    .modify fun s => by simp))

theorem execStop_keepsInv (v : Word) : OutcomeKeepsInv (execStop v) :=
  Exec.KeepsInv.runBody (privileged_keepsInv (.bind .get fun _ => .bind fetchExt_keepsInv fun _ => .modify fun _ => rfl))

theorem execReset_keepsInv : OutcomeKeepsInv execReset :=
  Exec.KeepsInv.runBody (privileged_keepsInv (.modify fun _ => rfl))

theorem exec_keepsInv (i : Instr) : OutcomeKeepsInv (exec i) := by
  cases i with
  | oriToCcr v | andiToCcr v | eoriToCcr v => exact (immToCcr_keepsInv v _).runBody
  | oriToSr v | andiToSr v | eoriToSr v => exact (immToSr_keepsInv v _).runBody
  | movepToReg sz ry d rx => exact execMovepToReg_keepsInv sz ry d rx
  | movepToMem sz rx ry d => exact execMovepToMem_keepsInv sz rx ry d
  | btstReg rx ea | bchgReg rx ea | bclrReg rx ea | bsetReg rx ea => exact (bitOpReg_keepsInv _ rx ea).runBody
  | btstImm n ea | bchgImm n ea | bclrImm n ea | bsetImm n ea => exact (bitOpImm_keepsInv _ n ea).runBody
  | ori sz v ea | andi sz v ea | subi sz v ea | addi sz v ea | eori sz v ea => exact (immToEA_keepsInv sz _ v ea).runBody
  | cmpi sz v ea => exact execCmpi_keepsInv sz v ea
  | movea sz src rx => exact execMovea_keepsInv sz src rx
  | move sz src dst => exact execMove_keepsInv sz src dst
  | reset => exact execReset_keepsInv
  | nop => exact (Exec.KeepsInv.pure ()).runBody
  | stop v => exact execStop_keepsInv v
  | rte => exact (privileged_keepsInv returnFromException_keepsInv).runBody
  | rts => exact execRts_keepsInv
  | trapv => exact execTrapv_keepsInv
  | rtr => exact execRtr_keepsInv
  | illegal | moveFromCcr low | lineA low | lineF low => exact (exceptionInstead_keepsInv _).runBody
  | trap n => exact (trapNext_keepsInv _).runBody
  | link r d => exact execLink_keepsInv r d
  | unlk r => exact execUnlk_keepsInv r
  | moveToUsp r => exact execMoveToUsp_keepsInv r
  | moveFromUsp r => exact execMoveFromUsp_keepsInv r
  | jsr ea => exact execJsr_keepsInv ea
  | jmp ea => exact execJmp_keepsInv ea
  | swap r => exact execSwap_keepsInv r
  | ext sz r => exact execExt_keepsInv sz r
  | nbcd ea => exact execNbcd_keepsInv ea
  | pea ea => exact execPea_keepsInv ea
  | movemToMem sz mask ea => exact execMovemToMem_keepsInv sz mask ea
  | movemToReg sz mask ea => exact execMovemToReg_keepsInv sz mask ea
  | moveFromSr ea => exact execMoveFromSr_keepsInv ea
  | negx sz ea | neg sz ea | not sz ea => exact (modifyEA_keepsInv sz ea _).runBody
  | clr sz ea => exact execClr_keepsInv sz ea
  | moveToCcr ea => exact execMoveToCcr_keepsInv ea
  | moveToSr ea => exact execMoveToSr_keepsInv ea
  | tas ea => exact execTas_keepsInv ea
  | tst sz ea => exact execTst_keepsInv sz ea
  | chk ea rx => exact execChk_keepsInv ea rx
  | lea ea rx => exact execLea_keepsInv ea rx
  | dbcc c r d => exact execDbcc_keepsInv c r d
  | scc c ea => exact execScc_keepsInv c ea
  | addq sz q ea => exact execAddq_keepsInv sz q ea
  | subq sz q ea => exact execSubq_keepsInv sz q ea
  | bra d => exact execBra_keepsInv d
  | bsr d => exact execBsr_keepsInv d
  | bcc c d => exact execBcc_keepsInv c d
  | moveq v rx => exact execMoveq_keepsInv v rx
  | divu ea rx => exact execDivu_keepsInv ea rx
  | divs ea rx => exact execDivs_keepsInv ea rx
  | sbcdReg ry rx => exact (bcdRegs_keepsInv sbcdOp_keepsInv ry rx).runBody
  | sbcdMem ry rx => exact (bcdMem_keepsInv sbcdOp_keepsInv ry rx).runBody
  | abcdReg ry rx => exact (bcdRegs_keepsInv abcdOp_keepsInv ry rx).runBody
  | abcdMem ry rx => exact (bcdMem_keepsInv abcdOp_keepsInv ry rx).runBody
  | orToReg sz ea rx | subToReg sz ea rx | andToReg sz ea rx | addToReg sz ea rx =>
    exact (eaToDreg_keepsInv sz _ ea rx).runBody
  | orToMem sz rx ea | subToMem sz rx ea | andToMem sz rx ea | addToMem sz rx ea | eor sz rx ea =>
    exact (dregToEA_keepsInv sz _ rx ea).runBody
  | suba sz ea rx => exact execSuba_keepsInv sz ea rx
  | adda sz ea rx => exact execAdda_keepsInv sz ea rx
  | subxReg sz ry rx => exact (dregPair_keepsInv sz subxOp ry rx).runBody
  | addxReg sz ry rx => exact (dregPair_keepsInv sz addxOp ry rx).runBody
  | subxMem sz ry rx | addxMem sz ry rx => exact (memPair_keepsInv sz _ ry rx).runBody
  | cmpa sz ea rx => exact execCmpa_keepsInv sz ea rx
  | cmpm sz ry rx => exact execCmpm_keepsInv sz ry rx
  | cmp sz ea rx => exact execCmp_keepsInv sz ea rx
  | mulu ea rx | muls ea rx => exact (multiply_keepsInv ea rx _).runBody
  | exgDD rx ry => exact execExgDD_keepsInv rx ry
  | exgAA rx ry => exact execExgAA_keepsInv rx ry
  | exgDA rx ry => exact execExgDA_keepsInv rx ry
  | aslMem ea | asrMem ea | lslMem ea | lsrMem ea | roxlMem ea | roxrMem ea | rolMem ea | rorMem ea =>
    exact (shiftMem_keepsInv _ ea).runBody
  | aslReg sz rx ry | asrReg sz rx ry | lslReg sz rx ry | lsrReg sz rx ry | roxlReg sz rx ry | roxrReg sz rx ry
  | rolReg sz rx ry | rorReg sz rx ry => exact (shiftByReg_keepsInv _ sz rx ry).runBody
  | aslImm sz q ry | asrImm sz q ry | lslImm sz q ry | lsrImm sz q ry | roxlImm sz q ry | roxrImm sz q ry
  | rolImm sz q ry | rorImm sz q ry => exact (shiftReg_keepsInv _ sz _ ry).runBody

/-! ## Every step keeps the canonical form

The parts of a step around an instruction's meaning go on from the state in which a part of exception processing ended,
well or early. -/

theorem Exec.KeepsInv.inv_of_ok {α : Type} {m : Exec α} (hm : m.KeepsInv) {s t : State} {a : α} (h : m s = .ok a t)
    (hs : s.Inv) : t.Inv := by
  have key := hm s hs
  rwa [Exec.final, h] at key

theorem Exec.KeepsInv.inv_of_error {α : Type} {m : Exec α} (hm : m.KeepsInv) {s t : State} {e : Abort}
    (h : m s = .error e t) (hs : s.Inv) : t.Inv := by
  have key := hm s hs
  rwa [Exec.final, h] at key

theorem State.inv_sample {s : State} (hs : s.Inv) : s.sample.Inv := by
  unfold State.sample
  split <;> exact hs

theorem loadResetVectors_keepsInv : loadResetVectors.KeepsInv :=
  .bind (memRead_keepsInv _ _ _) fun _ => .bind (.modify fun _ => rfl) fun _ => .bind (memRead_keepsInv _ _ _) fun _ =>
    jump_keepsInv _

theorem State.inv_externalReset {s : State} (hs : s.Inv) : s.externalReset.Inv := by
  unfold State.externalReset
  dsimp only
  split
  next h => exact loadResetVectors_keepsInv.inv_of_ok h hs
  next h =>
    have halted := loadResetVectors_keepsInv.inv_of_error h hs
    exact halted

theorem State.inv_takeInterrupt {s : State} (hs : s.Inv) : s.takeInterrupt.Inv := by
  unfold State.takeInterrupt
  dsimp only
  split
  next h => exact (takeException_keepsInv _ _ _).inv_of_ok h hs
  next h => exact State.inv_takeGroup0 _ _ _ ((takeException_keepsInv _ _ _).inv_of_error h hs)
  next h => exact (takeException_keepsInv _ _ _).inv_of_error h hs

theorem State.inv_takeTrace {s : State} (i : Long) (hs : s.Inv) : (s.takeTrace i).Inv := by
  unfold State.takeTrace
  split
  next h => exact (takeException_keepsInv _ _ _).inv_of_ok h hs
  next h => exact State.inv_takeGroup0 _ _ _ ((takeException_keepsInv _ _ _).inv_of_error h hs)
  next h => exact (takeException_keepsInv _ _ _).inv_of_error h hs

/-- What the trace adds to an instruction keeps the canonical form. -/
theorem traced_inv {i : Long} {o : Host.Outcome State Fault Refusal} {t : State} (ho : ∀ u, o = .next u → u.Inv)
    (h : traced i o = .next t) : t.Inv := by
  cases o with
  | next u =>
    have hu := ho u rfl
    simp only [traced] at h
    split at h <;> cases h
    · exact State.inv_takeTrace i hu
    · exact hu
  | fault f => cases h
  | refused r => cases h

theorem State.runInstruction_keepsInv : OutcomeKeepsInv State.runInstruction := by
  intro s t hs h
  have hfetch : (s.readWordCycle s.pc).2.Inv := by
    obtain ⟨l, e⟩ := s.readWordCycle_state s.pc
    rw [e]
    exact hs
  unfold State.runInstruction at h
  split at h
  · dsimp only at h
    split at h
    · exact traced_inv (fun u => exec_keepsInv _ _ u (by exact hfetch)) h
    · exact (exceptionInstead_keepsInv 4).runBody _ _ (by exact hfetch) h
    · cases h
  · cases h
    exact State.inv_takeGroup0 _ _ _ hs

/-- Settles O8, by the parts of R565: each of them keeps the canonical form, the meaning of every instruction too. -/
theorem stepKeepsInv : Obligations.StepKeepsInv := by
  unfold Obligations.StepKeepsInv step State.cycle
  intro s t hs h
  have hsample := State.inv_sample hs
  dsimp only at h
  split at h
  · cases h; exact State.inv_externalReset hsample
  split at h
  · cases h; exact hsample
  split at h
  · cases h; exact State.inv_takeInterrupt hsample
  split at h
  · cases h; exact hsample
  · exact State.runInstruction_keepsInv _ _ hsample h

/-- Settles O9: memory lists nothing right after reset. -/
theorem resetInv : Obligations.ResetInv := Memory.wf_nil

end Sys2Proof.Machine

namespace Sys2Proof.Machine

/-! ## The bytes of an access (20_memory.md R61, R62) -/

theorem forall_offset_lt_two {p : Long → Prop} (a : Long) :
    (∀ k < 2, p (a + BitVec.ofNat 32 k)) ↔ p a ∧ p (a + 1#32) := by
  constructor
  · intro h
    exact ⟨by simpa using h 0 (by decide), h 1 (by decide)⟩
  · rintro ⟨h0, h1⟩ k hk
    interval_cases k
    · simpa using h0
    · exact h1

theorem forall_offset_lt_four {p : Long → Prop} (a : Long) :
    (∀ k < 4, p (a + BitVec.ofNat 32 k)) ↔ (p a ∧ p (a + 1#32)) ∧ p (a + 2#32) ∧ p (a + 2#32 + 1#32) := by
  have hsum (j : Nat) : a + BitVec.ofNat 32 (2 + j) = a + 2#32 + BitVec.ofNat 32 j := by
    rw [BitVec.add_assoc, ← BitVec.ofNat_add]
  rw [← forall_offset_lt_two, ← forall_offset_lt_two]
  constructor
  · intro h
    exact ⟨fun k hk => h k (by omega), fun k hk => hsum k ▸ h (2 + k) (by omega)⟩
  · rintro ⟨hhigh, hlow⟩ k hk
    by_cases hk2 : k < 2
    · exact hhigh k hk2
    · obtain ⟨j, rfl⟩ := Nat.exists_eq_add_of_le (Nat.le_of_not_lt hk2)
      exact hsum j ▸ hlow j (by omega)

/-- An access is answered when each of its bytes is. -/
theorem State.answers_iff (s : State) (sz : Size) (a : Long) :
    s.answers sz a = true ↔ ∀ k < sz.bytes, s.answersAt (a + BitVec.ofNat 32 k) = true := by
  cases sz with
  | b => simp [State.answers, Size.bytes]
  | w =>
    simp only [State.answers, State.wordAnswers, Bool.and_eq_true]
    exact (forall_offset_lt_two (p := fun x => s.answersAt x = true) a).symm
  | l =>
    simp only [State.answers, State.wordAnswers, Bool.and_eq_true]
    exact (forall_offset_lt_four (p := fun x => s.answersAt x = true) a).symm

/-- An access is one to memory cells when none of its bytes is a device's. -/
theorem State.isCells_iff (s : State) (sz : Size) (a : Long) :
    s.isCells sz a = true ↔ ∀ k < sz.bytes, s.deviceAt (a + BitVec.ofNat 32 k) = false := by
  cases sz with
  | b => simp [State.isCells, Size.bytes]
  | w =>
    simp only [State.isCells, State.wordDevice, Bool.not_eq_true', Bool.or_eq_false_iff]
    exact (forall_offset_lt_two (p := fun x => s.deviceAt x = false) a).symm
  | l =>
    simp only [State.isCells, State.wordDevice, Bool.and_eq_true, Bool.not_eq_true', Bool.or_eq_false_iff]
    exact (forall_offset_lt_four (p := fun x => s.deviceAt x = false) a).symm

theorem misaligned_eq_true_iff (sz : Size) (a : Long) : misaligned sz a = true ↔ sz ≠ .b ∧ a.getLsbD 0 = true := by
  simp [misaligned]

theorem misaligned_eq_false_iff (sz : Size) (a : Long) : misaligned sz a = false ↔ sz = .b ∨ a.getLsbD 0 = false := by
  simp [misaligned, or_iff_not_imp_left]

theorem State.accessOk_of_misaligned {s : State} {sz : Size} {a : Long} (h : misaligned sz a = true) :
    s.accessOk sz a = false := by simp [State.accessOk, h]

/-- An aligned access to which a byte does not answer. -/
theorem State.accessOk_of_unanswered {s : State} {sz : Size} {a : Long}
    (h : ∃ k < sz.bytes, s.answersAt (a + BitVec.ofNat 32 k) = false) : s.accessOk sz a = false := by
  have unanswered : s.answers sz a = false := by
    rw [← Bool.not_eq_true, s.answers_iff]
    simpa using h
  simp [State.accessOk, unanswered]

theorem State.accessOk_of_answered {s : State} {sz : Size} {a : Long} (ha : misaligned sz a = false)
    (h : ∀ k < sz.bytes, s.answersAt (a + BitVec.ofNat 32 k) = true) : s.accessOk sz a = true := by
  simp [State.accessOk, ha, (s.answers_iff sz a).mpr h]

theorem State.accessFault_of_misaligned {s : State} {sz : Size} {a : Long} (h : misaligned sz a = true) (sp : Space)
    (read : Bool) : s.accessFault sp sz a read =
      { kind := .addressError, addr := a, read := read, fc := s.functionCode sp, inException := false } := by
  simp [State.accessFault, h]

theorem State.accessFault_of_aligned {s : State} {sz : Size} {a : Long} (h : misaligned sz a = false) (sp : Space)
    (read : Bool) : s.accessFault sp sz a read =
      { kind := .busError, addr := a, read := read, fc := s.functionCode sp, inException := false } := by
  simp [State.accessFault, h]

theorem State.extractLsb'_readWord (s : State) (a : Long) {k : Nat} (hk : k < 2) :
    (s.readWord a).extractLsb' (8 * (1 - k)) 8 = s.readByte (a + BitVec.ofNat 32 k) := by
  obtain rfl | rfl : k = 0 ∨ k = 1 := by omega
  · rw [BitVec.add_zero]
    exact BitVec.extractLsb'_append_eq_left
  · exact BitVec.extractLsb'_append_eq_right

/-- Byte `k` of a value in memory, the first the most significant. -/
theorem State.extractLsb'_readSized (s : State) (sz : Size) (a : Long) {k : Nat} (hk : k < sz.bytes) :
    (s.readSized sz a).extractLsb' (8 * (sz.bytes - 1 - k)) 8 = s.readByte (a + BitVec.ofNat 32 k) := by
  cases sz with
  | b =>
    obtain rfl : k = 0 := by simpa [Size.bytes] using hk
    simp [Size.bytes, State.readSized]
  | w => exact s.extractLsb'_readWord a hk
  | l =>
    by_cases hk2 : k < 2
    · have hhigh : (s.readLong a).extractLsb' (8 * (4 - 1 - k)) 8 = (s.readWord a).extractLsb' (8 * (1 - k)) 8 := by
        rw [State.readLong, BitVec.extractLsb'_append_eq_of_le (by omega)]
        congr 1
        omega
      exact hhigh.trans (s.extractLsb'_readWord a hk2)
    · obtain ⟨j, rfl⟩ := Nat.exists_eq_add_of_le (Nat.le_of_not_lt hk2)
      have hj : j < 2 := by simp only [Size.bytes] at hk; omega
      have hlow : (s.readLong a).extractLsb' (8 * (4 - 1 - (2 + j))) 8 =
          (s.readWord (a + 2#32)).extractLsb' (8 * (1 - j)) 8 := by
        rw [State.readLong, BitVec.extractLsb'_append_eq_of_add_le (by omega)]
        congr 1
        omega
      rw [BitVec.ofNat_add, ← BitVec.add_assoc]
      exact hlow.trans (s.extractLsb'_readWord (a + 2#32) hj)

/-! ## What a fault of an access leaves (20_memory.md R65, R66) -/

/-- Where one half of an access alone is answered, the access is an aligned long one and the half is one of its two. -/
theorem State.answeredHalf_eq_some {s : State} {sz : Size} {a h : Long} (hh : s.answeredHalf sz a = some h) :
    sz = .l ∧ misaligned sz a = false ∧ (h = a ∨ h = a + 2#32) := by
  simp only [State.answeredHalf] at hh
  split at hh
  · cases hh
  next long =>
    obtain ⟨hsz, hrest⟩ := not_or.mp long
    refine ⟨not_not.mp hsz, Bool.not_eq_true _ ▸ (not_or.mp hrest).1, ?_⟩
    split at hh <;> cases hh
    · exact .inl rfl
    · exact .inr rfl

theorem State.answeredHalf_of_misaligned {s : State} {sz : Size} {a : Long} (h : misaligned sz a = true) :
    s.answeredHalf sz a = none := by simp [State.answeredHalf, h]

theorem State.answeredHalf_of_ne_long {s : State} {sz : Size} (h : sz ≠ .l) (a : Long) :
    s.answeredHalf sz a = none := by
  simp [State.answeredHalf, h]

theorem State.halfRead_of_none {s : State} {sz : Size} {a : Long} (h : s.answeredHalf sz a = none) :
    s.halfRead sz a = s := by simp [State.halfRead, h]

theorem State.halfWritten_of_none {s : State} {sz : Size} {a : Long} (v : BitVec sz.bits)
    (h : s.answeredHalf sz a = none) : s.halfWritten sz a v = s := by simp [State.halfWritten, h]

/-- A half of an access to memory cells is one to memory cells. -/
theorem State.wordDevice_of_half {s : State} {a h : Long} (hc : s.isCells .l a = true) (hh : h = a ∨ h = a + 2#32) :
    s.wordDevice h = false := by
  simp only [State.isCells, Bool.and_eq_true, Bool.not_eq_true'] at hc
  obtain rfl | rfl := hh
  · exact hc.1
  · exact hc.2

/-- A read that no device can see leaves nothing behind where it faults. -/
theorem State.halfRead_cells {s : State} {sz : Size} {a : Long} (hc : s.isCells sz a = true) : s.halfRead sz a = s := by
  cases hh : s.answeredHalf sz a with
  | none => exact State.halfRead_of_none hh
  | some h =>
    obtain ⟨rfl, -, half⟩ := State.answeredHalf_eq_some hh
    simp [State.halfRead, hh, State.wordDevice_of_half hc half]

/-- A faulting write leaves the state as it was, but for a draw and, where that says so, the one half of a long access
that is answered. -/
theorem State.halfWritten_cases (s : State) (sz : Size) (a : Long) (v : BitVec sz.bits) :
    s.halfWritten sz a v = s ∨ s.halfWritten sz a v = s.drawn.2 ∨
      ∃ h w, sz = .l ∧ (h = a ∨ h = a + 2#32) ∧ s.halfWritten sz a v = s.drawn.2.writeWordCycle h w := by
  cases hh : s.answeredHalf sz a with
  | none => exact .inl (State.halfWritten_of_none v hh)
  | some h =>
    obtain ⟨hsz, -, half⟩ := State.answeredHalf_eq_some hh
    cases hb : Config.freeBit s.draws with
    | true => exact .inr (.inr ⟨h, _, hsz, half, by simp only [State.halfWritten, hh, State.drawn, hb]; rfl⟩)
    | false => exact .inr (.inl (by simp [State.halfWritten, hh, State.drawn, hb]))

/-! ## The bytes a write stores (20_memory.md R63)

A device has no cell: a byte of an access that is a device's changes no cell, and the others are stored. -/

theorem State.deviceAt_congr_addr (s : State) {x y : Long} (h : addrOf x = addrOf y) : s.deviceAt x = s.deviceAt y := by
  simp [State.deviceAt, Region.covers, h]

@[simp] theorem State.deviceAt_writeCell (s : State) (x : Long) (v : Byte) (y : Long) :
    (s.writeCell x v).deviceAt y = s.deviceAt y := by
  obtain ⟨m, h⟩ := s.writeCell_state x v
  rw [h]
  rfl

@[simp] theorem State.deviceAt_writeWordCycle (s : State) (x : Long) (v : Word) (y : Long) :
    (s.writeWordCycle x v).deviceAt y = s.deviceAt y := by
  obtain ⟨m, l, h⟩ := s.writeWordCycle_state x v
  rw [h]
  rfl

theorem State.writeWordCycle_cells {s : State} {x : Long} (v : Word) (h : s.wordDevice x = false) :
    s.writeWordCycle x v = s.writeWord x v :=
  State.busWrite_cells (sz := .w) v (by simp [State.isCells, h])

/-- A store changes memory alone. -/
theorem State.writeSized_state (s : State) (sz : Size) (x : Long) (v : BitVec sz.bits) :
    s.writeSized sz x v = { s with mem := (s.writeSized sz x v).mem } := by cases sz <;> rfl

theorem State.readByte_writeCell_self {s : State} {x : Long} (h : s.deviceAt x = false) (v : Byte) :
    (s.writeCell x v).readByte x = v := by
  simp [State.writeCell, h, State.readByte_writeByte_self]

theorem State.readByte_writeCell_of_device {s : State} {y : Long} (h : s.deviceAt y = true) (x : Long) (v : Byte) :
    (s.writeCell x v).readByte y = s.readByte y := by
  by_cases hxy : addrOf y = addrOf x
  · simp [State.writeCell, ← s.deviceAt_congr_addr hxy, h]
  · exact s.readByte_writeCell_of_ne v hxy

/-- A word write cycle stores its bytes as two cells; what a device sees of it is no byte. -/
theorem State.readByte_writeWordCycle (s : State) (x : Long) (v : Word) (y : Long) :
    (s.writeWordCycle x v).readByte y =
      ((s.writeCell x (v.extractLsb' 8 8)).writeCell (x + 1#32) (v.extractLsb' 0 8)).readByte y := by
  simp only [State.writeWordCycle]
  split <;> rfl

theorem State.readByte_writeWordCycle_of_device {s : State} {y : Long} (h : s.deviceAt y = true) (x : Long) (v : Word) :
    (s.writeWordCycle x v).readByte y = s.readByte y := by
  rw [State.readByte_writeWordCycle, State.readByte_writeCell_of_device (by simpa using h),
    State.readByte_writeCell_of_device h]

theorem State.readByte_writeWordCycle_at {s : State} {x : Long} {k : Nat} (hk : k < 2)
    (h : s.deviceAt (x + BitVec.ofNat 32 k) = false) (v : Word) :
    (s.writeWordCycle x v).readByte (x + BitVec.ofNat 32 k) = v.extractLsb' (8 * (1 - k)) 8 := by
  rw [State.readByte_writeWordCycle]
  obtain rfl | rfl : k = 0 ∨ k = 1 := by omega
  · simp only [BitVec.add_zero] at h ⊢
    rw [State.readByte_writeCell_of_ne _ _ (addrOf_four_ne x).1, State.readByte_writeCell_self h]
  · rw [State.readByte_writeCell_self (by simpa using h)]

/-- The bytes of each half of a long word are bytes of the long word. -/
theorem bytesAt_half_subset {a h : Long} (hh : h = a ∨ h = a + 2#32) : bytesAt h 2 ⊆ bytesAt a 4 := by
  obtain rfl | rfl := hh <;> simp [bytesAt_two, bytesAt_four]

theorem addrOf_notMem_low_half (a : Long) {k : Nat} (hk : k < 2) :
    addrOf (a + BitVec.ofNat 32 k) ∉ bytesAt (a + 2#32) 2 := by
  intro hmem
  obtain ⟨j, hj, heq⟩ := List.mem_map.mp hmem
  have hj2 := List.mem_range.mp hj
  rw [BitVec.add_assoc, ← BitVec.ofNat_add] at heq
  exact addrOf_add_ne a (by omega) (by omega) (by omega) heq

theorem addrOf_notMem_high_half (a : Long) {k : Nat} (hk : k < 2) :
    addrOf (a + 2#32 + BitVec.ofNat 32 k) ∉ bytesAt a 2 := by
  intro hmem
  obtain ⟨j, hj, heq⟩ := List.mem_map.mp hmem
  have hj2 := List.mem_range.mp hj
  rw [BitVec.add_assoc, ← BitVec.ofNat_add] at heq
  exact addrOf_add_ne a (by omega) (by omega) (by omega) heq

/-- Bits of a field are bits of the whole. -/
theorem extractLsb'_extractLsb' {w n m i : Nat} (v : BitVec w) (j : Nat) (h : i + n ≤ m) :
    (v.extractLsb' j m).extractLsb' i n = v.extractLsb' (j + i) n := by
  refine BitVec.eq_of_getLsbD_eq fun b hb => ?_
  simp [hb, show i + b < m by omega, Nat.add_assoc]

/-- The bytes of the high half are stored, whichever half goes first. -/
theorem State.readByte_writeHalves_high {s : State} {a : Long} {k : Nat} (hk : k < 2)
    (h : s.deviceAt (a + BitVec.ofNat 32 k) = false) (v : Long) (highFirst : Bool) :
    (s.writeHalves a v highFirst).readByte (a + BitVec.ofNat 32 k) = v.extractLsb' (16 + 8 * (1 - k)) 8 := by
  have hbyte : (v.extractLsb' 16 16).extractLsb' (8 * (1 - k)) 8 = v.extractLsb' (16 + 8 * (1 - k)) 8 :=
    extractLsb'_extractLsb' v 16 (by omega)
  cases highFirst with
  | true =>
    rw [State.writeHalves, State.readByte_writeWordCycle_of_notMem _ _ (addrOf_notMem_low_half a hk),
      State.readByte_writeWordCycle_at hk h, hbyte]
  | false => rw [State.writeHalves, State.readByte_writeWordCycle_at hk (by simpa using h), hbyte]

/-- The bytes of the low half are stored, whichever half goes first. -/
theorem State.readByte_writeHalves_low {s : State} {a : Long} {k : Nat} (hk : k < 2)
    (h : s.deviceAt (a + 2#32 + BitVec.ofNat 32 k) = false) (v : Long) (highFirst : Bool) :
    (s.writeHalves a v highFirst).readByte (a + 2#32 + BitVec.ofNat 32 k) = v.extractLsb' (8 * (1 - k)) 8 := by
  have hbyte : (v.extractLsb' 0 16).extractLsb' (8 * (1 - k)) 8 = v.extractLsb' (8 * (1 - k)) 8 := by
    rw [BitVec.extractLsb'_extractLsb'_of_le (by omega)]
  cases highFirst with
  | true => rw [State.writeHalves, State.readByte_writeWordCycle_at hk (by simpa using h), hbyte]
  | false =>
    rw [State.writeHalves, State.readByte_writeWordCycle_of_notMem _ _ (addrOf_notMem_high_half a hk),
      State.readByte_writeWordCycle_at hk h, hbyte]

theorem State.readByte_writeHalves_of_device {s : State} {y : Long} (h : s.deviceAt y = true) (a v : Long)
    (highFirst : Bool) : (s.writeHalves a v highFirst).readByte y = s.readByte y := by
  cases highFirst <;>
    rw [State.writeHalves, State.readByte_writeWordCycle_of_device (by simpa using h),
      State.readByte_writeWordCycle_of_device h]

theorem State.notMem_bytesAt_of_device {s : State} {sz : Size} {a y : Long} (hc : s.isCells sz a = true)
    (hy : s.deviceAt y = true) : addrOf y ∉ bytesAt a sz.bytes := by
  intro hmem
  obtain ⟨k, hk, heq⟩ := List.mem_map.mp hmem
  have hcell := (s.isCells_iff sz a).mp hc k (List.mem_range.mp hk)
  rw [s.deviceAt_congr_addr heq, hy] at hcell
  cases hcell

/-- A write changes no cell where a device answers. -/
theorem State.readByte_busWrite_of_device {s : State} {y : Long} (hy : s.deviceAt y = true) (sz : Size) (a : Long)
    (v : BitVec sz.bits) : (s.busWrite sz a v).readByte y = s.readByte y := by
  by_cases hc : s.isCells sz a = true
  · exact s.readByte_busWrite_of_notMem sz v (State.notMem_bytesAt_of_device hc hy)
  rw [Bool.not_eq_true] at hc
  cases sz with
  | b =>
    have hdevice : s.deviceAt a = true := by simpa [State.isCells] using hc
    rw [State.busWrite_byte_device hdevice]
    rfl
  | w => exact State.readByte_writeWordCycle_of_device hy a v
  | l =>
    rw [State.busWrite_long_device hc]
    exact State.readByte_writeHalves_of_device (s := s.drawn.2) hy a v s.drawn.1

/-- A write stores the bytes of its value in the cells among its bytes, the most significant first. -/
theorem State.readByte_busWrite_at {s : State} {sz : Size} {a : Long} {k : Nat} (hk : k < sz.bytes)
    (h : s.deviceAt (a + BitVec.ofNat 32 k) = false) (v : BitVec sz.bits) :
    (s.busWrite sz a v).readByte (a + BitVec.ofNat 32 k) = v.extractLsb' (8 * (sz.bytes - 1 - k)) 8 := by
  by_cases hc : s.isCells sz a = true
  · rw [State.busWrite_cells v hc, ← State.extractLsb'_readSized _ sz a hk, State.readSized_writeSized_self]
  rw [Bool.not_eq_true] at hc
  cases sz with
  | b =>
    obtain rfl : k = 0 := by simpa [Size.bytes] using hk
    simp [State.isCells] at hc
    simp [hc] at h
  | w => exact State.readByte_writeWordCycle_at hk h v
  | l =>
    rw [State.busWrite_long_device hc]
    have hk4 : k < 4 := hk
    by_cases hk2 : k < 2
    · have hplace : 8 * (Size.l.bytes - 1 - k) = 16 + 8 * (1 - k) := by simp only [Size.bytes]; omega
      rw [hplace]
      exact State.readByte_writeHalves_high (s := s.drawn.2) hk2 h v s.drawn.1
    · have hsum : a + BitVec.ofNat 32 k = a + 2#32 + BitVec.ofNat 32 (k - 2) := by
        rw [BitVec.add_assoc, ← BitVec.ofNat_add, show 2 + (k - 2) = k by omega]
      have hplace : 8 * (Size.l.bytes - 1 - k) = 8 * (1 - (k - 2)) := by simp only [Size.bytes]; omega
      rw [hsum] at h
      rw [hplace, hsum]
      exact State.readByte_writeHalves_low (s := s.drawn.2) (by omega) h v s.drawn.1

/-- What a faulting write leaves of memory: no byte outside the access and none of a device changes. -/
theorem State.readByte_halfWritten {s : State} {sz : Size} {a y : Long} (v : BitVec sz.bits)
    (h : addrOf y ∉ bytesAt a sz.bytes ∨ s.deviceAt y = true) : (s.halfWritten sz a v).readByte y = s.readByte y := by
  obtain e | e | ⟨half, w, rfl, hhalf, e⟩ := s.halfWritten_cases sz a v <;> rw [e]
  · rfl
  · obtain hout | hdevice := h
    · exact s.drawn.2.readByte_writeWordCycle_of_notMem w fun hmem => hout (bytesAt_half_subset hhalf hmem)
    · exact State.readByte_writeWordCycle_of_device (s := s.drawn.2) hdevice half w

/-- Only a device sees a write that faults half-way. -/
theorem State.halfWritten_deviceLog_of_cells {s : State} {sz : Size} {a : Long} (hc : s.isCells sz a = true)
    (v : BitVec sz.bits) : (s.halfWritten sz a v).deviceLog = s.deviceLog := by
  obtain e | e | ⟨half, w, rfl, hhalf, e⟩ := s.halfWritten_cases sz a v <;> rw [e]
  · rfl
  · rw [State.writeWordCycle_cells (s := s.drawn.2) w (State.wordDevice_of_half hc hhalf), State.writeWord_deviceLog]
    rfl

/-- Settles O18, by whether the access is aligned, answered, and one to memory cells. -/
theorem memoryRead : Obligations.MemoryRead := by
  unfold Obligations.MemoryRead
  intro sp sz a s
  refine ⟨fun hsz hodd => ?_, fun haligned hsilent => ?_, fun haligned hanswered => ?_⟩
  · have hmis := (misaligned_eq_true_iff sz a).mpr ⟨hsz, hodd⟩
    rw [memRead_fault (State.accessOk_of_misaligned hmis), State.accessFault_of_misaligned hmis,
      State.halfRead_of_none (State.answeredHalf_of_misaligned hmis)]
  · have hmis := (misaligned_eq_false_iff sz a).mpr haligned
    refine ⟨s.halfRead sz a, ?_, ?_, fun hcells => State.halfRead_cells ((s.isCells_iff sz a).mpr hcells)⟩
    · rw [memRead_fault (State.accessOk_of_unanswered hsilent), State.accessFault_of_aligned hmis]
    · obtain ⟨l, n, e⟩ := s.halfRead_state sz a
      rw [e]
  · have hmis := (misaligned_eq_false_iff sz a).mpr haligned
    refine ⟨_, _, memRead_ok (State.accessOk_of_answered hmis hanswered), ?_, fun hcells => ?_⟩
    · obtain ⟨l, n, e⟩ := s.busRead_state sz a
      rw [e]
    · rw [State.busRead_cells ((s.isCells_iff sz a).mpr hcells)]
      refine ⟨rfl, fun k hk => ?_⟩
      rw [s.extractLsb'_readSized sz a hk]
      simp [State.readByte, addrOf, addrBits]

/-- Settles O19, by whether the access is aligned and answered, and what answers at each of its bytes. -/
theorem memoryWrite : Obligations.MemoryWrite := by
  unfold Obligations.MemoryWrite
  intro sz a v s
  refine ⟨fun hsz hodd => ?_, fun haligned hsilent => ?_, fun haligned hanswered => ?_⟩
  · have hmis := (misaligned_eq_true_iff sz a).mpr ⟨hsz, hodd⟩
    rw [memWrite_fault (State.accessOk_of_misaligned hmis), State.accessFault_of_misaligned hmis,
      State.halfWritten_of_none v (State.answeredHalf_of_misaligned hmis)]
  · have hmis := (misaligned_eq_false_iff sz a).mpr haligned
    refine ⟨s.halfWritten sz a v, ?_, ?_,
      fun hcells => State.halfWritten_deviceLog_of_cells ((s.isCells_iff sz a).mpr hcells) v,
      fun y hy => State.readByte_halfWritten v hy⟩
    · rw [memWrite_fault (State.accessOk_of_unanswered hsilent), State.accessFault_of_aligned hmis]
    · obtain ⟨m, l, n, e⟩ := s.halfWritten_state sz a v
      rw [e]
  · have hmis := (misaligned_eq_false_iff sz a).mpr haligned
    refine ⟨_, memWrite_ok (State.accessOk_of_answered hmis hanswered), ?_, fun hcells => ?_,
      fun k hk hcell => State.readByte_busWrite_at hk hcell v, fun y hy => ?_⟩
    · obtain ⟨m, l, n, e⟩ := s.busWrite_state sz a v
      rw [e]
    · rw [State.busWrite_cells v ((s.isCells_iff sz a).mpr hcells)]
      exact ⟨s.writeSized_state sz a v, s.readSized_writeSized_self sz a v⟩
    · obtain hout | hdevice := hy
      · exact s.readByte_busWrite_of_notMem sz v hout
      · exact State.readByte_busWrite_of_device hdevice sz a v

end Sys2Proof.Machine

namespace Sys2Proof.Machine

/-! ## The stack primitives (20_memory.md R67) -/

/-- What a push leaves: no register but `SP` and no byte but those of the item changes, and `PC`, the status register
and the prefetched words stay. -/
def State.KeptByPush (s t : State) (bytes : List Nat) : Prop :=
  s.Keeps t { dregs := [], aregs := [7#3], bytes := bytes } ∧ t.pc = s.pc ∧ t.sr = s.sr ∧ t.prefetch = s.prefetch

theorem State.keeps_halfWritten (s : State) (sz : Size) (a : Long) (v : BitVec sz.bits) {c : Changes}
    (h : s.answeredHalf sz a ≠ none → bytesAt a sz.bytes ⊆ c.bytes) :
    s.Keeps (s.halfWritten sz a v) c := by
  have hbytes (y : Long) (hy : addrOf y ∉ c.bytes) : (s.halfWritten sz a v).readByte y = s.readByte y := by
    by_cases hnone : s.answeredHalf sz a = none
    · rw [State.halfWritten_of_none v hnone]
    · exact State.readByte_halfWritten v (.inl fun hmem => hy (h hnone hmem))
  obtain ⟨m, l, n, e⟩ := s.halfWritten_state sz a v
  rw [e] at hbytes ⊢
  exact { s.keeps_flags c s.pc s.sr s.prefetch l n rfl rfl rfl with bytes := hbytes }

/-- A store that raises nothing, below the old top of the stack. -/
theorem memWrite_push_ok {s : State} {sz : Size} {top : Long} (v : BitVec sz.bits) (h : s.accessOk sz top = true) :
    ∃ t, memWrite sz top v (s.setSp top) = .ok () t ∧ t.sp = top ∧
      (s.isCells sz top = true → t.readSized sz top = v ∧ t.deviceLog = s.deviceLog) ∧
      s.KeptByPush t (bytesAt top sz.bytes) := by
  refine ⟨_, memWrite_ok ((State.accessOk_congr (by simp) sz top).trans h), by simp, fun hc => ?_,
    (s.keeps_setSp top (by simp)).trans (State.keeps_busWrite _ sz top v (by simp)), by simp, by simp, by simp⟩
  rw [State.busWrite_cells v ((State.isCells_congr (by simp) sz top).trans hc)]
  exact ⟨State.readSized_writeSized_self _ sz top v, by simp⟩

/-- A store that faults, below the old top of the stack: `SP` has moved, and the fault reports the item's address. -/
theorem memWrite_push_fault {s : State} {sz : Size} {top : Long} (v : BitVec sz.bits) (h : s.accessOk sz top = false)
    {bytes : List Nat} (hb : sz = .l → bytesAt top sz.bytes ⊆ bytes) :
    ∃ f t, memWrite sz top v (s.setSp top) = .error (.group0 f) t ∧ f.addr = top ∧ f.read = false ∧ t.sp = top ∧
      s.KeptByPush t bytes := by
  have hhalf : (s.setSp top).Keeps ((s.setSp top).halfWritten sz top v)
      { dregs := [], aregs := [7#3], bytes := bytes } :=
    State.keeps_halfWritten _ sz top v fun hsome =>
      hb (not_not.mp fun hsz => hsome (State.answeredHalf_of_ne_long hsz top))
  obtain ⟨m, l, n, e⟩ := (s.setSp top).halfWritten_state sz top v
  refine ⟨_, _, memWrite_fault ((State.accessOk_congr (by simp) sz top).trans h), rfl, rfl, ?_,
    (s.keeps_setSp top (by simp)).trans hhalf, ?_, ?_, ?_⟩
  all_goals rw [e]
  · exact s.sp_setSp top
  all_goals simp

/-- A read of the top of the stack that raises nothing. -/
theorem memRead_top_ok {s : State} {sz : Size} (h : s.accessOk sz s.sp = true) :
    ∃ v t, memRead .data sz s.sp s = .ok v t ∧ t.sp = s.sp ∧
      t = { s with deviceLog := t.deviceLog, draws := t.draws } ∧
      (s.isCells sz s.sp = true → v = s.readSized sz s.sp ∧ t = s) := by
  refine ⟨_, _, memRead_ok h, s.sp_busRead sz s.sp, ?_, fun hc => ?_⟩
  · obtain ⟨l, n, e⟩ := s.busRead_state sz s.sp
    rw [e]
  · rw [State.busRead_cells hc]
    exact ⟨rfl, rfl⟩

theorem push32_eq (v : Long) (s : State) : push32 v s = memWrite .l (s.sp - 4#32) v (s.setSp (s.sp - 4#32)) := by
  simp [push32, Exec.bind_apply]

theorem push16_eq (v : Word) (s : State) : push16 v s = memWrite .w (s.sp - 2#32) v (s.setSp (s.sp - 2#32)) := by
  simp [push16, Exec.bind_apply]

theorem pop16_of_read {s t : State} {v : Word} (h : memRead .data .w s.sp s = .ok v t) :
    pop16 s = .ok v (t.setSp (t.sp + 2#32)) := by
  rw [pop16, Exec.bind_ok (Exec.get_apply s), Exec.bind_ok h, Exec.bind_ok (Exec.modify_apply _ _)]
  rfl

theorem pop32_of_read {s t : State} {v : Long} (h : memRead .data .l s.sp s = .ok v t) :
    pop32 s = .ok v (t.setSp (t.sp + 4#32)) := by
  rw [pop32, Exec.bind_ok (Exec.get_apply s), Exec.bind_ok h, Exec.bind_ok (Exec.modify_apply _ _)]
  rfl

theorem pop16_of_fault {s t : State} {e : Abort} (h : memRead .data .w s.sp s = .error e t) : pop16 s = .error e t := by
  rw [pop16, Exec.bind_ok (Exec.get_apply s), Exec.bind_error h]

theorem pop32_of_fault {s t : State} {e : Abort} (h : memRead .data .l s.sp s = .error e t) : pop32 s = .error e t := by
  rw [pop32, Exec.bind_ok (Exec.get_apply s), Exec.bind_error h]

/-- An even distance does not change whether an address is odd. -/
theorem getLsbD_zero_sub_even (x : Long) {k : Nat} (hk : k % 2 = 0) :
    (x - BitVec.ofNat 32 k).getLsbD 0 = x.getLsbD 0 := by
  simp only [BitVec.getLsbD, Nat.testBit_zero, BitVec.toNat_sub, BitVec.toNat_ofNat]
  congr 2
  omega

theorem State.accessOk_of_odd {s : State} {sz : Size} {a : Long} (hsz : sz ≠ .b) (h : a.getLsbD 0 = true) :
    s.accessOk sz a = false :=
  State.accessOk_of_misaligned ((misaligned_eq_true_iff sz a).mpr ⟨hsz, h⟩)

/-- Settles O21: each primitive is its access and the change of `SP`, before the access or after it. -/
theorem stackPrimitives : Obligations.StackPrimitives := by
  unfold Obligations.StackPrimitives
  intro s
  refine ⟨fun v => ?_, fun v => ?_, fun hok => ?_, fun hok => ?_, fun hfault => ?_, fun hfault => ?_, fun hodd => ?_⟩
  · refine ⟨push32_eq v s, ?_, ?_⟩ <;> rw [push32_eq] <;> intro h
    · exact memWrite_push_ok (sz := .l) v h
    · exact memWrite_push_fault (sz := .l) v h fun _ => List.Subset.refl _
  · refine ⟨push16_eq v s, ?_, ?_⟩ <;> rw [push16_eq] <;> intro h
    · exact memWrite_push_ok (sz := .w) v h
    · exact memWrite_push_fault (sz := .w) v h nofun
  · obtain ⟨v, t, hread, hsp, hstate, hcells⟩ := memRead_top_ok hok
    exact ⟨v, t, hread, hsp ▸ pop16_of_read hread, hstate, hcells⟩
  · obtain ⟨v, t, hread, hsp, hstate, hcells⟩ := memRead_top_ok hok
    exact ⟨v, t, hread, hsp ▸ pop32_of_read hread, hstate, hcells⟩
  · have hread := memRead_fault (sp := .data) hfault
    rw [State.halfRead_of_none (State.answeredHalf_of_ne_long (by decide) _)] at hread
    exact ⟨_, pop16_of_fault hread, rfl, rfl⟩
  · refine ⟨_, _, pop32_of_fault (memRead_fault hfault), rfl, rfl, ?_⟩
    obtain ⟨l, n, e⟩ := s.halfRead_state .l s.sp
    rw [e]
  · have below (k : Nat) (hk : k % 2 = 0) : (s.sp - BitVec.ofNat 32 k).getLsbD 0 = true :=
      (getLsbD_zero_sub_even s.sp hk).trans hodd
    exact ⟨State.accessOk_of_odd (by decide) (below 4 rfl), State.accessOk_of_odd (by decide) (below 2 rfl),
      State.accessOk_of_odd (by decide) hodd, State.accessOk_of_odd (by decide) hodd⟩

end Sys2Proof.Machine

namespace Sys2Proof

open Machine (eaExtCount)

/-! ## Only the decoder of MOVE answers a MOVE (30_encoding.md R130 to R137)

The words of a MOVE are decoded again once its source is read: no other operation word answers a MOVE, and each effective
address is read off its own extension words, whatever comes after them. -/

/-- The instruction is MOVE. -/
def Instr.isMove : Instr → Bool
  | .move .. => true
  | _ => false

/-- A reading of words that answers no MOVE. -/
def NeverMove (r : Reader Instr) : Prop := ∀ ws i rest, r ws = .ok (i, rest) → i.isMove = false

theorem Reader.of_bind_ok {α β : Type} {r : Reader α} {f : α → Reader β} {ws rest : List Word} {b : β}
    (h : (r >>= f) ws = .ok (b, rest)) : ∃ a mid, r ws = .ok (a, mid) ∧ f a mid = .ok (b, rest) := by
  change Except.bind (r ws) _ = _ at h
  cases hr : r ws with
  | error e => rw [hr] at h; cases h
  | ok p => rw [hr] at h; exact ⟨p.1, p.2, rfl, h⟩

theorem Reader.bind_ok {α β : Type} {r : Reader α} {f : α → Reader β} {ws mid : List Word} {a : α}
    (h : r ws = .ok (a, mid)) : (r >>= f) ws = f a mid := by
  change Except.bind (r ws) _ = _
  rw [h]
  rfl

theorem neverMove_pure {i : Instr} (h : i.isMove = false) : NeverMove (pure i) := by
  rintro ws j rest e
  cases e
  exact h

theorem neverMove_unmatched (w : Word) : NeverMove (unmatched w) := by
  rintro ws i rest e
  cases e

theorem NeverMove.bind {α : Type} {r : Reader α} {f : α → Reader Instr} (hf : ∀ a, NeverMove (f a)) :
    NeverMove (r >>= f) := by
  intro ws i rest h
  obtain ⟨a, mid, -, hmid⟩ := Reader.of_bind_ok h
  exact hf a mid i rest hmid

section Forms

variable {w : Word} {c : Category} {sz : Size}

theorem neverMove_withEA {k : EA → Instr} (hk : ∀ ea, (k ea).isMove = false) : NeverMove (withEA w c sz k) := by
  unfold withEA
  split
  · exact neverMove_unmatched w
  · exact .bind fun ea => neverMove_pure (hk ea)

theorem neverMove_withSizedEA {k : Size → EA → Instr} (hk : ∀ sz ea, (k sz ea).isMove = false) :
    NeverMove (withSizedEA w c k) := by
  unfold withSizedEA
  split
  · exact neverMove_unmatched w
  · exact neverMove_withEA (hk _)

theorem neverMove_withImmEA {k : Size → Long → EA → Instr} (hk : ∀ sz v ea, (k sz v ea).isMove = false) :
    NeverMove (withImmEA w sz k) := by
  unfold withImmEA
  split
  · exact neverMove_unmatched w
  · exact .bind fun v => .bind fun ea => neverMove_pure (hk _ v ea)

theorem neverMove_withBitEA {k : Byte → EA → Instr} (hk : ∀ n ea, (k n ea).isMove = false) :
    NeverMove (withBitEA w c k) := by
  unfold withBitEA
  split
  · exact neverMove_unmatched w
  · exact .bind fun n => .bind fun ea => neverMove_pure (hk _ ea)

theorem neverMove_withMaskEA {sz : SizeWL} {k : SizeWL → Word → EA → Instr}
    (hk : ∀ sz mask ea, (k sz mask ea).isMove = false) : NeverMove (withMaskEA w c sz k) := by
  unfold withMaskEA
  split
  · exact neverMove_unmatched w
  · exact .bind fun mask => .bind fun ea => neverMove_pure (hk _ mask ea)

theorem neverMove_withByteWord {k : Byte → Instr} (hk : ∀ b, (k b).isMove = false) :
    NeverMove (withByteWord k) := .bind fun _ => neverMove_pure (hk _)

theorem neverMove_withWord {k : Word → Instr} (hk : ∀ v, (k v).isMove = false) : NeverMove (withWord k) :=
  .bind fun _ => neverMove_pure (hk _)

theorem neverMove_withDisp {k : Disp → Instr} (hk : ∀ d, (k d).isMove = false) : NeverMove (withDisp w k) := by
  unfold withDisp
  split
  · exact .bind fun _ => neverMove_pure (hk _)
  · exact neverMove_pure (hk _)

theorem neverMove_logicImm {toCcr : Byte → Instr} {toSr : Word → Instr} {k : Size → Long → EA → Instr}
    (hb : ∀ b, (toCcr b).isMove = false) (hw : ∀ v, (toSr v).isMove = false)
    (hk : ∀ sz v ea, (k sz v ea).isMove = false) :
    NeverMove (logicImm w sz toCcr toSr k) := by
  unfold logicImm
  split
  · split
    · exact neverMove_withByteWord hb
    · exact neverMove_withWord hw
    · exact neverMove_unmatched w
  · exact neverMove_withImmEA hk

theorem neverMove_pairOr {mode0 mode1 other : Reader Instr} (h0 : NeverMove mode0) (h1 : NeverMove mode1)
    (h : NeverMove other) : NeverMove (pairOr w mode0 mode1 other) := by
  unfold pairOr
  split <;> assumption

end Forms

/-! The groups of the opcode map but those of MOVE: each row is one of the forms above. -/

section Groups

variable (w : Word)

theorem neverMove_decodeImmRow (sz : Size) : NeverMove (decodeImmRow w sz) := by
  unfold decodeImmRow
  split
  case h_1 | h_2 | h_6 => exact neverMove_logicImm (fun _ => rfl) (fun _ => rfl) fun _ _ _ => rfl
  case h_3 | h_4 | h_7 => exact neverMove_withImmEA fun _ _ _ => rfl
  case h_5 => split <;> exact neverMove_withBitEA fun _ _ => rfl
  case h_8 => exact neverMove_unmatched w

theorem neverMove_decode0 : NeverMove (decode0 w) := by
  unfold decode0
  dsimp only
  split
  case h_1 | h_2 | h_3 => exact neverMove_decodeImmRow w _
  case h_4 =>
    split
    · exact neverMove_withBitEA fun _ _ => rfl
    · exact neverMove_unmatched w
  all_goals
    split
    · exact neverMove_withWord fun _ => rfl
    · exact neverMove_withEA fun _ => rfl

theorem neverMove_decodeFixed : NeverMove (decodeFixed w) := by
  unfold decodeFixed
  split
  case h_3 => exact neverMove_withWord fun _ => rfl
  case h_8 => exact neverMove_unmatched w
  all_goals exact neverMove_pure rfl

theorem neverMove_decode4E : NeverMove (decode4E w) := by
  unfold decode4E
  dsimp only
  split
  case h_3 => exact neverMove_withWord fun _ => rfl
  case h_7 => exact neverMove_decodeFixed w
  case h_8 => exact neverMove_unmatched w
  all_goals exact neverMove_pure rfl

theorem neverMove_decode48 : NeverMove (decode48 w) := by
  unfold decode48
  split
  case h_1 => exact neverMove_withEA fun _ => rfl
  case h_2 =>
    split
    · exact neverMove_pure rfl
    · exact neverMove_withEA fun _ => rfl
  all_goals
    split
    · exact neverMove_pure rfl
    · exact neverMove_withMaskEA fun _ _ _ => rfl

theorem neverMove_decode4Low : NeverMove (decode4Low w) := by
  unfold decode4Low
  split
  case h_1 | h_3 | h_4 =>
    split
    · exact neverMove_withEA fun _ => rfl
    · exact neverMove_withSizedEA fun _ _ => rfl
  case h_2 =>
    split
    · exact neverMove_pure rfl
    · exact neverMove_withSizedEA fun _ _ => rfl
  case h_5 => exact neverMove_decode48 w
  case h_6 =>
    split
    · exact neverMove_pure rfl
    split
    · exact neverMove_withEA fun _ => rfl
    · exact neverMove_withSizedEA fun _ _ => rfl
  case h_7 =>
    split
    case h_3 => exact neverMove_unmatched w
    all_goals exact neverMove_withMaskEA fun _ _ _ => rfl
  case h_8 =>
    split
    case h_1 => exact neverMove_decode4E w
    case h_4 => exact neverMove_unmatched w
    all_goals exact neverMove_withEA fun _ => rfl

theorem neverMove_decode4 : NeverMove (decode4 w) := by
  unfold decode4
  split
  case h_1 | h_2 => exact neverMove_unmatched w
  case h_3 | h_4 => exact neverMove_withEA fun _ => rfl
  case h_5 => exact neverMove_decode4Low w

theorem neverMove_decode5 : NeverMove (decode5 w) := by
  unfold decode5
  split <;> split
  case h_1.isTrue => exact neverMove_withWord fun _ => rfl
  all_goals exact neverMove_withEA fun _ => rfl

theorem neverMove_decode6 : NeverMove (decode6 w) := by
  unfold decode6
  split <;> exact neverMove_withDisp fun _ => rfl

theorem neverMove_decode7 : NeverMove (decode7 w) := by
  unfold decode7
  split
  · exact neverMove_unmatched w
  · exact neverMove_pure rfl

/-- A row of two-register forms and an effective address. -/
theorem neverMove_pairRow {i j : Instr} {c : Category} {sz : Size} {k : EA → Instr} (hi : i.isMove = false)
    (hj : j.isMove = false) (hk : ∀ ea, (k ea).isMove = false) :
    NeverMove (pairOr w (pure i) (pure j) (withEA w c sz k)) :=
  neverMove_pairOr (neverMove_pure hi) (neverMove_pure hj) (neverMove_withEA hk)

theorem neverMove_decode8 : NeverMove (decode8 w) := by
  unfold decode8
  dsimp only
  split
  case h_5 => exact neverMove_pairRow w rfl rfl fun _ => rfl
  all_goals exact neverMove_withEA fun _ => rfl

theorem neverMove_decode9 : NeverMove (decode9 w) := by
  unfold decode9
  dsimp only
  split
  case h_5 | h_6 | h_7 => exact neverMove_pairRow w rfl rfl fun _ => rfl
  all_goals exact neverMove_withEA fun _ => rfl

theorem neverMove_decodeB : NeverMove (decodeB w) := by
  unfold decodeB
  dsimp only
  split
  case h_5 | h_6 | h_7 =>
    split
    · exact neverMove_pure rfl
    · exact neverMove_withEA fun _ => rfl
  all_goals exact neverMove_withEA fun _ => rfl

theorem neverMove_decodeC : NeverMove (decodeC w) := by
  unfold decodeC
  dsimp only
  split
  case h_5 | h_6 => exact neverMove_pairRow w rfl rfl fun _ => rfl
  case h_7 => exact neverMove_pairOr (neverMove_unmatched w) (neverMove_pure rfl) (neverMove_withEA fun _ => rfl)
  all_goals exact neverMove_withEA fun _ => rfl

theorem neverMove_decodeD : NeverMove (decodeD w) := by
  unfold decodeD
  dsimp only
  split
  case h_5 | h_6 | h_7 => exact neverMove_pairRow w rfl rfl fun _ => rfl
  all_goals exact neverMove_withEA fun _ => rfl

theorem neverMove_decodeE : NeverMove (decodeE w) := by
  unfold decodeE
  split
  · unfold decodeShiftMem
    split
    case h_9 => exact neverMove_unmatched w
    all_goals exact neverMove_withEA fun _ => rfl
  · unfold decodeShiftReg
    dsimp only
    split <;> exact neverMove_pure rfl

theorem neverMove_or_decodeMove_of_WL (sz : SizeWL) :
    NeverMove (decodeMoveWL w sz) ∨ decodeMoveWL w sz = decodeMove w sz.size := by
  unfold decodeMoveWL
  split
  · exact .inl (neverMove_withEA fun _ => rfl)
  · exact .inr rfl

/-- An operation word begins no MOVE, or is read by the decoder of MOVE at one of the sizes. -/
theorem neverMove_or_decodeMove : NeverMove (decodeGroup w) ∨ ∃ sz, decodeGroup w = decodeMove w sz := by
  unfold decodeGroup
  split
  · exact .inl (neverMove_decode0 w)
  · exact .inr ⟨.b, rfl⟩
  · exact (neverMove_or_decodeMove_of_WL w .l).imp id fun h => ⟨_, h⟩
  · exact (neverMove_or_decodeMove_of_WL w .w).imp id fun h => ⟨_, h⟩
  · exact .inl (neverMove_decode4 w)
  · exact .inl (neverMove_decode5 w)
  · exact .inl (neverMove_decode6 w)
  · exact .inl (neverMove_decode7 w)
  · exact .inl (neverMove_decode8 w)
  · exact .inl (neverMove_decode9 w)
  · exact .inl (neverMove_pure rfl)
  · exact .inl (neverMove_decodeB w)
  · exact .inl (neverMove_decodeC w)
  · exact .inl (neverMove_decodeD w)
  · exact .inl (neverMove_decodeE w)
  · exact .inl (neverMove_pure rfl)

end Groups

/-! ## An effective address is read off its own extension words -/

/-- A reading of an effective address takes as many words as it has extension words, and does not look at the words
after them. -/
def ReadsOwnWords (sz : Size) (r : Reader EA) : Prop :=
  ∀ ws ea rest, r ws = .ok (ea, rest) → ∃ own : List Word, own.length = eaExtCount sz ea ∧ ws = own ++ rest ∧
    ∀ more, r (own ++ more) = .ok (ea, more)

theorem readsOwnWords_pure {sz : Size} {ea : EA} (h : eaExtCount sz ea = 0) : ReadsOwnWords sz (pure ea) := by
  rintro ws ea' rest e
  cases e
  exact ⟨[], h.symm, rfl, fun _ => rfl⟩

theorem readsOwnWords_one {sz : Size} {r : Reader EA} {f : Word → EA} (hnil : r [] = .error .truncated)
    (hcons : ∀ x ws, r (x :: ws) = .ok (f x, ws)) (h : ∀ x, eaExtCount sz (f x) = 1) : ReadsOwnWords sz r := by
  rintro (_ | ⟨x, ws⟩) ea rest e
  · rw [hnil] at e
    cases e
  · rw [hcons] at e
    cases e
    exact ⟨[x], (h x).symm, rfl, fun more => hcons x more⟩

theorem readsOwnWords_two {sz : Size} {r : Reader EA} {f : Word → Word → EA} (hnil : r [] = .error .truncated)
    (hone : ∀ x, r [x] = .error .truncated) (hcons : ∀ x y ws, r (x :: y :: ws) = .ok (f x y, ws))
    (h : ∀ x y, eaExtCount sz (f x y) = 2) : ReadsOwnWords sz r := by
  rintro (_ | ⟨x, _ | ⟨y, ws⟩⟩) ea rest e
  · rw [hnil] at e
    cases e
  · rw [hone] at e
    cases e
  · rw [hcons] at e
    cases e
    exact ⟨[x, y], (h x y).symm, rfl, fun more => hcons x y more⟩

theorem readsOwnWords_takeEA (sz : Size) (mode : Mode) (r : RegNo) : ReadsOwnWords sz (takeEA sz mode r) := by
  cases mode with
  | dn | an | ind | postInc | preDec => exact readsOwnWords_pure rfl
  | disp | index | absW | pcDisp | pcIndex => exact readsOwnWords_one rfl (fun _ _ => rfl) fun _ => rfl
  | absL => exact readsOwnWords_two rfl (fun _ => rfl) (fun _ _ _ => rfl) fun _ _ => rfl
  | imm =>
    cases sz with
    | b | w => exact readsOwnWords_one rfl (fun _ _ => rfl) fun _ => rfl
    | l => exact readsOwnWords_two rfl (fun _ => rfl) (fun _ _ _ => rfl) fun _ _ => rfl

/-- Two words are enough for any effective address. -/
theorem takeEA_of_two_words (sz : Size) (mode : Mode) (r : RegNo) {ws : List Word} (h : 2 ≤ ws.length) :
    ∃ ea rest, takeEA sz mode r ws = .ok (ea, rest) := by
  obtain ⟨x, y, tail, rfl⟩ : ∃ x y tail, ws = x :: y :: tail := by
    match ws, h with
    | x :: y :: tail, _ => exact ⟨x, y, tail, rfl⟩
  cases mode with
  | imm => cases sz <;> exact ⟨_, _, rfl⟩
  | _ => exact ⟨_, _, rfl⟩

/-! ## The words of a MOVE -/

/-- A MOVE read at a size: its source and then its destination were read. -/
theorem decodeMove_eq_ok {w : Word} {sz' sz : Size} {src dst : EA} {ws rest : List Word}
    (h : decodeMove w sz' ws = .ok (.move sz src dst, rest)) :
    sz' = sz ∧ ∃ m1 m2 mid, acceptMode .all sz (modeField w) (eaRegField w) = some m1 ∧
      acceptMode .dataAlterable sz (opField w) (regField w) = some m2 ∧
      takeEA sz m1 (eaRegField w) ws = .ok (src, mid) := by
  unfold decodeMove at h
  cases h1 : acceptMode .all sz' (modeField w) (eaRegField w) with
  | none => rw [h1] at h; cases h
  | some m1 =>
    cases h2 : acceptMode .dataAlterable sz' (opField w) (regField w) with
    | none => rw [h1, h2] at h; cases h
    | some m2 =>
      rw [h1, h2] at h
      obtain ⟨src', mid, hsrc, hmid⟩ := Reader.of_bind_ok h
      obtain ⟨dst', after, -, hafter⟩ := Reader.of_bind_ok hmid
      cases hafter
      exact ⟨rfl, m1, m2, mid, h1, h2, hsrc⟩

theorem decodeMove_ok {w : Word} {sz : Size} {src dst : EA} {ws mid rest : List Word} {m1 m2 : Mode}
    (h1 : acceptMode .all sz (modeField w) (eaRegField w) = some m1)
    (h2 : acceptMode .dataAlterable sz (opField w) (regField w) = some m2)
    (hsrc : takeEA sz m1 (eaRegField w) ws = .ok (src, mid)) (hdst : takeEA sz m2 (regField w) mid = .ok (dst, rest)) :
    decodeMove w sz ws = .ok (.move sz src dst, rest) := by
  unfold decodeMove
  rw [h1, h2]
  exact (Reader.bind_ok hsrc).trans (Reader.bind_ok hdst)

/-- Words that begin as those of a MOVE up to its source's last extension word, and go on for two more, are a MOVE of
that source. -/
theorem decodeWords_move_of_take {ws ws' : List Word} {sz : Size} {src dst : EA} {rest : List Word}
    (h : decodeWords ws = .ok (.move sz src dst, rest))
    (htake : ws'.take (1 + eaExtCount sz src) = ws.take (1 + eaExtCount sz src))
    (hlen : 1 + eaExtCount sz src + 2 ≤ ws'.length) :
    ∃ dst' rest', decodeWords ws' = .ok (.move sz src dst', rest') := by
  obtain _ | ⟨w, tail⟩ := ws
  · cases h
  obtain _ | ⟨w', tail'⟩ := ws'
  · simp at hlen
  rw [Nat.add_comm, List.take_succ_cons, List.take_succ_cons] at htake
  obtain ⟨rfl, htail⟩ := List.cons.inj htake
  obtain hnever | ⟨sz', hgroup⟩ := neverMove_or_decodeMove w'
  · cases hnever tail _ rest h
  simp only [decodeWords, hgroup] at h ⊢
  obtain ⟨rfl, m1, m2, mid, h1, h2, hsrc⟩ := decodeMove_eq_ok h
  obtain ⟨own, hcount, rfl, hown⟩ := readsOwnWords_takeEA _ m1 _ _ _ _ hsrc
  have hsplit : tail' = own ++ tail'.drop own.length := by
    rw [← hcount, List.take_left] at htail
    conv_lhs => rw [← List.take_append_drop own.length tail', htail]
  have hmore : 2 ≤ (tail'.drop own.length).length := by
    rw [List.length_drop, hcount]
    simp only [List.length_cons] at hlen
    omega
  obtain ⟨dst', rest', hdst⟩ := takeEA_of_two_words sz' m2 (regField w') hmore
  rw [hsplit]
  exact ⟨dst', rest', decodeMove_ok h1 h2 (hown _) hdst⟩

end Sys2Proof

namespace Sys2Proof.Machine

/-! ## The words that fetches answer (20_memory.md R64, R73) -/

/-- A device's read is no write: what is older stays so when a word is read. -/
theorem State.olderByte_note_readWord (s : State) (a : Nat) (x : Long) (seen : Nat) (old now : Byte) :
    (s.note (.readWord a)).olderByte x seen old now = s.olderByte x seen old now := by
  have hdevice : (s.note (.readWord a)).deviceAt x = s.deviceAt x := rfl
  have hwritten : (((s.note (.readWord a)).deviceLog.take ((s.note (.readWord a)).deviceLog.length - seen)).any
      (writesByte (addrOf x))) = (s.deviceLog.take (s.deviceLog.length - seen)).any (writesByte (addrOf x)) := by
    simp only [State.note, List.length_cons]
    by_cases hseen : seen ≤ s.deviceLog.length
    · rw [Nat.succ_sub hseen, List.take_succ_cons, List.any_cons]
      rfl
    · rw [Nat.sub_eq_zero_of_le (by omega), Nat.sub_eq_zero_of_le (by omega)]
      rfl
  rw [State.olderByte, State.olderByte, hdevice, hwritten]

@[simp] theorem State.olderWord_readWordCycle (s : State) (a x : Long) (c : Prefetched) (now : Word) :
    (s.readWordCycle a).2.olderWord x c now = s.olderWord x c now := by
  simp only [State.readWordCycle]
  split
  · simp only [State.olderWord, State.olderByte_note_readWord]
  · rfl

/-- A device's byte is not older where the devices have seen nothing since it was prefetched. -/
theorem State.olderByte_of_unseen {s : State} {x : Long} (h : s.deviceAt x = true) (old now : Byte) :
    s.olderByte x s.deviceLog.length old now = now := by
  simp [State.olderByte, h]

theorem State.olderByte_cell {s : State} {x : Long} (h : s.deviceAt x = false) (seen : Nat) (old now : Byte) :
    s.olderByte x seen old now = old := by
  simp [State.olderByte, h]

theorem State.wordsAt_succ (s : State) (count : Nat) (a : Long) :
    s.wordsAt (count + 1) a = (s.readWordCycle a).1 :: (s.readWordCycle a).2.wordsAt count (a + 2#32) := rfl

theorem add_two_mul_succ (a : Long) (k : Nat) :
    a + BitVec.ofNat 32 (2 * (k + 1)) = a + 2#32 + BitVec.ofNat 32 (2 * k) := by
  rw [BitVec.add_assoc, ← BitVec.ofNat_add, Nat.mul_succ, Nat.add_comm]

/-- Each word that fetches answer is what `MEM` answers in its place, or an older prefetched word. -/
theorem State.fetchWords_getElem? {s : State} {count : Nat} {a : Long} {n k : Nat} {w : Word}
    (h : (s.fetchWords count a n).1[k]? = some w) :
    ∃ now, (s.wordsAt count a)[k]? = some now ∧ (w = now ∨
      ∃ c ∈ s.prefetch, c.addr = addrOf (a + BitVec.ofNat 32 (2 * k)) ∧
        w = s.olderWord (a + BitVec.ofNat 32 (2 * k)) c now) := by
  induction count generalizing s a n k with
  | zero => simp at h
  | succ count ih =>
    rw [State.fetchWords_succ] at h
    rw [State.wordsAt_succ]
    cases k with
    | zero =>
      obtain rfl := Option.some.inj h
      simpa using s.chooseWord_word a (s.readWordCycle a).1 s.prefetch (s.readWordCycle a).1 n
    | succ k =>
      simpa only [add_two_mul_succ, List.getElem?_cons_succ, State.olderWord_readWordCycle,
        State.readWordCycle_prefetch] using ih h

/-- With nothing prefetched, fetches answer what `MEM` answers, and draw nothing. -/
theorem State.fetchWords_of_nil {s : State} (h : s.prefetch = []) (count : Nat) (a : Long) (n : Nat) :
    s.fetchWords count a n = (s.wordsAt count a, n) := by
  induction count generalizing s a with
  | zero => rfl
  | succ count ih =>
    rw [State.fetchWords_succ, State.wordsAt_succ, h]
    simp [ih (s := (s.readWordCycle a).2) (by simp [h])]

/-- Fewer fetches answer the first of the words that more fetches answer. -/
theorem State.fetchWords_take (s : State) {n m : Nat} (hnm : n ≤ m) (a : Long) (d : Nat) :
    (s.fetchWords n a d).1 = (s.fetchWords m a d).1.take n := by
  induction n generalizing s m a d with
  | zero => rfl
  | succ n ih =>
    obtain ⟨m, rfl⟩ : ∃ m', m = m' + 1 := ⟨m - 1, by omega⟩
    rw [State.fetchWords_succ, State.fetchWords_succ, List.take_succ_cons, ← ih _ (by omega)]

/-! ## Extension words are fetched in their places (log entry 8) -/

theorem State.readWordCycle_withPc (s : State) (p a : Long) :
    ({ s with pc := p } : State).readWordCycle a = ((s.readWordCycle a).1, { (s.readWordCycle a).2 with pc := p }) := by
  have hdevice : ({ s with pc := p } : State).wordDevice a = s.wordDevice a := rfl
  simp only [State.readWordCycle, hdevice]
  split <;> rfl

theorem State.wordsAt_withPc (s : State) (p : Long) (count : Nat) (a : Long) :
    ({ s with pc := p } : State).wordsAt count a = s.wordsAt count a := by
  induction count generalizing s a with
  | zero => rfl
  | succ count ih => rw [State.wordsAt_succ, State.wordsAt_succ, State.readWordCycle_withPc, ih]

/-- A fetch that ends well is a read that raises nothing, and moves `PC` past the word. -/
theorem fetchExt_eq_ok {s t : State} (h : fetchExt s = .ok () t) :
    memRead .program .w s.pc s = .ok (s.readWordCycle s.pc).1 (s.readWordCycle s.pc).2 ∧
      t = { (s.readWordCycle s.pc).2 with pc := s.pc + 2#32 } := by
  by_cases hok : s.accessOk .w s.pc = true
  · have hread : memRead .program .w s.pc s = .ok (s.readWordCycle s.pc).1 (s.readWordCycle s.pc).2 := memRead_ok hok
    have hpc : (s.readWordCycle s.pc).2.pc = s.pc := s.busRead_pc .w s.pc
    rw [fetchExt, Exec.bind_ok (Exec.get_apply s), Exec.bind_ok hread, Exec.modify_apply, hpc] at h
    cases h
    exact ⟨hread, rfl⟩
  · rw [fetchExt, Exec.bind_ok (Exec.get_apply s), Exec.bind_error (memRead_fault (Bool.eq_false_iff.mpr hok))] at h
    cases h

/-- Each extension word is what a read at `PC` answers once the words before it are fetched. -/
theorem fetchExts_word {count k : Nat} {w : Word} {s t : State} (h : fetchExts count s = .ok () t)
    (hw : (s.wordsAt count s.pc)[k]? = some w) :
    ∃ u u', fetchExts k s = .ok () u ∧ memRead .program .w u.pc u = .ok w u' := by
  induction count generalizing s k with
  | zero => simp [State.wordsAt] at hw
  | succ count ih =>
    obtain ⟨_, s1, hfirst, hrest⟩ := Exec.of_bind_ok h
    obtain ⟨hread, rfl⟩ := fetchExt_eq_ok hfirst
    rw [State.wordsAt_succ] at hw
    cases k with
    | zero =>
      obtain rfl := Option.some.inj hw
      exact ⟨s, _, rfl, hread⟩
    | succ k =>
      obtain ⟨u, u', hu, hword⟩ := ih hrest (by rw [State.wordsAt_withPc]; exact hw)
      exact ⟨u, u', by rw [fetchExts, Exec.bind_ok hfirst]; exact hu, hword⟩

/-! ## Reading an operand keeps the prefetched words -/

/-- A part of an instruction keeps the prefetched words where it ends well. -/
def Exec.KeepsPrefetch {α : Type} (m : Exec α) : Prop := ∀ s a t, m s = .ok a t → t.prefetch = s.prefetch

theorem Exec.KeepsPrefetch.bind {α β : Type} {m : Exec α} {f : α → Exec β} (hm : m.KeepsPrefetch)
    (hf : ∀ a, (f a).KeepsPrefetch) : (m >>= f).KeepsPrefetch := by
  intro s b t h
  obtain ⟨a, u, hu, ht⟩ := Exec.of_bind_ok h
  exact (hf a u b t ht).trans (hm s a u hu)

theorem Exec.KeepsPrefetch.pure {α : Type} (a : α) : (Pure.pure a : Exec α).KeepsPrefetch := by
  rintro s b t h
  cases h
  rfl

theorem Exec.KeepsPrefetch.get : (MonadState.get : Exec State).KeepsPrefetch := by
  rintro s b t h
  cases h
  rfl

theorem Exec.KeepsPrefetch.modify {f : State → State} (hf : ∀ s, (f s).prefetch = s.prefetch) :
    (modify f : Exec PUnit).KeepsPrefetch := by
  rintro s b t h
  cases h
  exact hf s

theorem memRead_keepsPrefetch (sp : Space) (sz : Size) (a : Long) : (memRead sp sz a).KeepsPrefetch := by
  intro s v t h
  unfold memRead at h
  split at h <;> cases h
  exact s.busRead_prefetch sz a

theorem fetchExts_keepsPrefetch (n : Nat) : (fetchExts n).KeepsPrefetch := by
  induction n with
  | zero => exact .pure ()
  | succ n ih =>
    exact .bind (.bind .get fun _ => .bind (memRead_keepsPrefetch _ _ _) fun _ => .modify fun _ => rfl) fun _ => ih

theorem readLoc_keepsPrefetch (sz : Size) (loc : Loc) : (readLoc sz loc).KeepsPrefetch := by
  cases loc with
  | dreg r | areg r => exact .bind .get fun _ => .pure _
  | mem sp a => exact memRead_keepsPrefetch sp sz a
  | imm v => exact .pure _

theorem readEA_keepsPrefetch (sz : Size) (ea : EA) : (readEA sz ea).KeepsPrefetch :=
  .bind (.bind .get fun _ => .bind (fetchExts_keepsPrefetch _) fun _ => .bind (.modify fun s => by simp) fun _ => .pure _)
    fun loc => readLoc_keepsPrefetch sz loc

end Sys2Proof.Machine

namespace Sys2Proof.Machine

/-! ## The words of an instruction (log entry 8) -/

theorem eaExtCount_le_two (sz : Size) (ea : EA) : eaExtCount sz ea ≤ 2 := by
  cases ea with
  | imm v => cases sz <;> simp [eaExtCount]
  | _ => simp [eaExtCount]

/-- Of no MOVE, the words are those of fetches one after the other. -/
theorem State.instrWords_of_ne_move {s : State}
    (h : ∀ sz src dst rest, decodeWords (s.fetchWords maxWords s.pc s.draws).1 ≠ .ok (.move sz src dst, rest)) :
    s.instrWords = s.fetchWords maxWords s.pc s.draws := by
  unfold State.instrWords
  dsimp only
  split
  next heq => exact absurd heq (h _ _ _ _)
  next => rfl

/-- The state past the fetch of the operation word, where the meaning begins. -/
theorem State.begin_afterFetch (s : State) (w : Word) (n : Nat) :
    ({ (s.readWordCycle s.pc).2.begin w n with pc := s.pc + 2#32 } : State) = { (s.busRead .w s.pc).2 with
      ir := w, traceDue := s.sr.t, draws := n, pc := s.pc + 2#32 } := by
  obtain ⟨l, h⟩ := s.readWordCycle_state s.pc
  simp only [State.begin, State.busRead, h]

/-- Of a MOVE whose source can be read, the words after the source's are fetched once it is read. -/
theorem State.instrWords_of_move {s t : State} {sz : Size} {src dst : EA} {rest : List Word} {v : BitVec sz.bits}
    (hdec : decodeWords (s.fetchWords maxWords s.pc s.draws).1 = .ok (.move sz src dst, rest))
    (hread : readEA sz src { (s.busRead .w s.pc).2 with
      ir := (s.fetchWords maxWords s.pc s.draws).1.headD 0, traceDue := s.sr.t
      draws := (s.fetchWords maxWords s.pc s.draws).2, pc := s.pc + 2#32 } = .ok v t) :
    s.instrWords =
      ((s.fetchWords (1 + eaExtCount sz src) s.pc s.draws).1 ++
        (t.fetchWords (maxWords - (1 + eaExtCount sz src)) t.pc (s.fetchWords (1 + eaExtCount sz src) s.pc s.draws).2).1,
        (s.fetchWords maxWords s.pc s.draws).2) := by
  dsimp only at hread
  unfold State.instrWords
  simp only [hdec, State.begin_afterFetch, hread]

/-- Settles O5: a fetch by the choice it makes, an extension word by the fetches before it, and the words of a MOVE by
what decoding reads of them. -/
theorem fetchedWords : Obligations.FetchedWords := by
  unfold Obligations.FetchedWords
  intro s
  refine ⟨fun count a n m ws h => ?_, fun count k w t => fetchExts_word, fun x hx => ⟨?_, fun c now => ?_⟩,
    fun x c now hx hx1 hseen => ?_, fun x c now hx hx1 hseen => ?_, State.instrWords_of_ne_move,
    fun sz src dst rest v t hdec hread => ?_⟩
  · obtain ⟨rfl, rfl⟩ := Prod.mk.inj h
    exact ⟨s.fetchWords_length count a n, fun k w => State.fetchWords_getElem?,
      fun hnil => by rw [State.fetchWords_of_nil hnil]; exact ⟨rfl, rfl⟩⟩
  · rw [State.busRead_cells hx]
    rfl
  · exact s.olderWord_cells x c now hx
  · rw [State.olderWord, hseen, State.olderByte_of_unseen hx, State.olderByte_of_unseen hx1, append_bytes]
  · rw [State.olderWord, hseen, State.olderByte_cell hx, State.olderByte_of_unseen hx1]
  · have hfirst : 1 + eaExtCount sz src + 2 ≤ maxWords := by
      have := eaExtCount_le_two sz src
      simp only [maxWords]
      omega
    have htake (more : List Word) :
        ((s.fetchWords (1 + eaExtCount sz src) s.pc s.draws).1 ++ more).take (1 + eaExtCount sz src) =
          (s.fetchWords maxWords s.pc s.draws).1.take (1 + eaExtCount sz src) := by
      rw [List.take_left' (s.fetchWords_length _ _ _), s.fetchWords_take (m := maxWords) (by omega)]
    refine ⟨_, State.instrWords_of_move hdec hread, htake _, decodeWords_move_of_take hdec (htake _) ?_,
      fun hnil => ?_⟩
    · simp only [List.length_append, State.fetchWords_length]
      omega
    · have hprefetch : t.prefetch = [] :=
        (readEA_keepsPrefetch sz src _ v t hread).trans ((s.busRead_prefetch _ _).trans hnil)
      rw [List.drop_left' (s.fetchWords_length _ _ _), State.fetchWords_of_nil hprefetch]

end Sys2Proof.Machine

/-! Proofs about the conditions (30_encoding.md R140). -/

namespace Sys2Proof.Machine

section Compare

variable {n : Nat} (v d : BitVec n)

/-- N differs from V after a subtraction that is less than zero, signed: the exact difference is negative. -/
theorem msb_bne_subOverflow_eq_decide (hn : 0 < n) (x : Bool) :
    ((d - v - (if x then 1 else 0)).msb != subOverflow v d (d - v - (if x then 1 else 0))) =
      decide (d.toInt < v.toInt + x.toNat) := by
  have hx := x.toNat_le
  have hd := d.isLt
  have hv := v.isLt
  have htwo := Nat.two_pow_pred_mul_two hn
  have hcast : ((2 ^ (n - 1) : Nat) : Int) = 2 ^ (n - 1) := by norm_cast
  rw [subOverflow_eq_decide hn, Bool.eq_iff_iff]
  simp only [BitVec.msb_eq_decide, toNat_sub_sub_bit hn, toInt_eq_of_half hn, bne_iff_ne, ne_eq, decide_eq_decide,
    decide_eq_true_iff]
  split <;> split <;> split <;> omega

/-! ### What the flags of a compare say -/

variable (sr : StatusReg)

theorem holds_ofCmp_eq : (sr.ofCmp v d (d - v)).holds .eq = decide (d = v) := by
  rw [← decide_eq_decide.mpr (sub_eq_zero (a := d) (b := v))]
  rfl

theorem holds_ofCmp_cs (hn : 0 < n) : (sr.ofCmp v d (d - v)).holds .cs = decide (d.toNat < v.toNat) := by
  simpa [StatusReg.holds, StatusReg.ofCmp, StatusReg.setZ, StatusReg.subFlags] using subBorrow_eq_decide hn v d false

theorem holds_ofCmp_lt (hn : 0 < n) : (sr.ofCmp v d (d - v)).holds .lt = decide (d.toInt < v.toInt) := by
  simpa [StatusReg.holds, StatusReg.ofCmp, StatusReg.setZ, StatusReg.subFlags] using
    msb_bne_subOverflow_eq_decide v d hn false

end Compare

/-! ### The conditions that are put together from those three -/

section Derived

variable (r : StatusReg)

theorem StatusReg.holds_ne : r.holds .ne = !r.holds .eq := rfl

theorem StatusReg.holds_cc : r.holds .cc = !r.holds .cs := rfl

theorem StatusReg.holds_hi : r.holds .hi = (!r.holds .cs && !r.holds .eq) := rfl

theorem StatusReg.holds_ls : r.holds .ls = (r.holds .cs || r.holds .eq) := rfl

theorem StatusReg.holds_ge : r.holds .ge = !r.holds .lt := by simp [holds, bne]

theorem StatusReg.holds_gt : r.holds .gt = (!r.holds .eq && !r.holds .lt) := by simp [holds, bne]

theorem StatusReg.holds_le : r.holds .le = (r.holds .eq || r.holds .lt) := rfl

end Derived

/-- The conditions by their codes (30_encoding.md R140). -/
theorem condOf_codes : (List.range 16).map (fun k => condOf (BitVec.ofNat 4 k)) =
    [.t, .f, .hi, .ls, .cc, .cs, .ne, .eq, .vc, .vs, .pl, .mi, .ge, .lt, .gt, .le] := rfl

/-- Settles O28: after a compare EQ, CS and LT say `d = v`, `d < v` unsigned and `d < v` signed, and the other tests are
put together from these. -/
theorem conditions : Obligations.Conditions := by
  unfold Obligations.Conditions
  refine ⟨fun sr => ?_, condOf_codes, fun sz v d sr => ?_⟩
  · rw [← Function.comp_def sr.holds, ← List.map_map, condOf_codes]
    simp only [List.map_cons, List.map_nil, StatusReg.holds, beq_eq_decide, bne_eq, decide_not]
  · simp only [StatusReg.holds_ne, StatusReg.holds_cc, StatusReg.holds_hi, StatusReg.holds_ls, StatusReg.holds_ge,
      StatusReg.holds_gt, StatusReg.holds_le, holds_ofCmp_eq, holds_ofCmp_cs v d sr sz.bits_pos,
      holds_ofCmp_lt v d sr sz.bits_pos, ← decide_not, ← Bool.decide_and, ← Bool.decide_or, decide_eq_decide]
    by_cases h : d = v
    · subst h
      simp
    · have hunsigned : d.toNat ≠ v.toNat := BitVec.toNat_inj.not.mpr h
      have hsigned : d.toInt ≠ v.toInt := BitVec.toInt_inj.not.mpr h
      simp only [h, not_false_eq_true, true_and, false_or, or_false, and_true]
      refine ⟨?_, ?_, ?_, ?_, ?_, ?_⟩ <;> omega

end Sys2Proof.Machine

/-! Proofs about the encoding (30_encoding.md): the fields of the operation word, what each form of the decoder reads,
and the rows of the opcode map. -/

namespace Sys2Proof

/-! ## The fields of an operation word (30_encoding.md R102 to R106) -/

section Fields

variable (g : BitVec 4) (r o m y : BitVec 3)

@[simp] theorem groupField_opWord : groupField (opWord g r o m y) = g := by
  ext j hj
  interval_cases j <;> simp [opWord, groupField]

@[simp] theorem regField_opWord : regField (opWord g r o m y) = r := by
  ext j hj
  interval_cases j <;> simp [opWord, regField]

@[simp] theorem opField_opWord : opField (opWord g r o m y) = o := by
  ext j hj
  interval_cases j <;> simp [opWord, opField]

@[simp] theorem modeField_opWord : modeField (opWord g r o m y) = m := by
  ext j hj
  interval_cases j <;> simp [opWord, modeField]

@[simp] theorem eaRegField_opWord : eaRegField (opWord g r o m y) = y := by
  ext j hj
  interval_cases j <;> simp [opWord, eaRegField]

/-- An operation word is the word of its five fields. -/
theorem opWord_fields (w : Word) : opWord (groupField w) (regField w) (opField w) (modeField w) (eaRegField w) = w := by
  ext j hj
  interval_cases j <;>
    simp [opWord, groupField, regField, opField, modeField, eaRegField, BitVec.getLsbD_eq_getElem]

variable {g r o m y} in
theorem opWord_eq {w : Word} (hg : groupField w = g) (hr : regField w = r) (ho : opField w = o) (hm : modeField w = m)
    (hy : eaRegField w = y) : opWord g r o m y = w := by
  subst hg hr ho hm hy
  exact opWord_fields w

/-- The size field and bit 8 are the OP mode. -/
theorem sizeField_eq (w : Word) : sizeField w = (opField w).setWidth 2 := by
  ext j hj
  interval_cases j <;> simp [sizeField, opField]

theorem bit8_eq (w : Word) : bit8 w = (opField w).getLsbD 2 := by
  simp [bit8, opField]

@[simp] theorem sizeField_opWord : sizeField (opWord g r o m y) = o.setWidth 2 := by
  rw [sizeField_eq, opField_opWord]

@[simp] theorem bit8_opWord : bit8 (opWord g r o m y) = o.getLsbD 2 := by
  rw [bit8_eq, opField_opWord]

/-! ### Operation words of a condition or of a displacement -/

variable (c : BitVec 4) (d : Byte)

@[simp] theorem groupField_opWordCond8 : groupField (opWordCond8 g c d) = g := by
  ext j hj
  interval_cases j <;> simp [opWordCond8, groupField]

@[simp] theorem condField_opWordCond8 : condField (opWordCond8 g c d) = c := by
  ext j hj
  interval_cases j <;> simp [opWordCond8, condField]

@[simp] theorem low8_opWordCond8 : low8 (opWordCond8 g c d) = d := by
  ext j hj
  interval_cases j <;> simp [opWordCond8, low8]

theorem opWordCond8_fields (w : Word) : opWordCond8 (groupField w) (condField w) (low8 w) = w := by
  ext j hj
  interval_cases j <;> simp [opWordCond8, groupField, condField, low8, BitVec.getLsbD_eq_getElem]

@[simp] theorem groupField_opWordCondEA : groupField (opWordCondEA g c m y) = g := by
  ext j hj
  interval_cases j <;> simp [opWordCondEA, groupField]

@[simp] theorem condField_opWordCondEA : condField (opWordCondEA g c m y) = c := by
  ext j hj
  interval_cases j <;> simp [opWordCondEA, condField]

@[simp] theorem sizeField_opWordCondEA : sizeField (opWordCondEA g c m y) = 3#2 := by
  ext j hj
  interval_cases j <;> simp [opWordCondEA, sizeField]

@[simp] theorem modeField_opWordCondEA : modeField (opWordCondEA g c m y) = m := by
  ext j hj
  interval_cases j <;> simp [opWordCondEA, modeField]

@[simp] theorem eaRegField_opWordCondEA : eaRegField (opWordCondEA g c m y) = y := by
  ext j hj
  interval_cases j <;> simp [opWordCondEA, eaRegField]

theorem opWordCondEA_fields {w : Word} (h : sizeField w = 3#2) :
    opWordCondEA (groupField w) (condField w) (modeField w) (eaRegField w) = w := by
  have hbits : ((groupField w).setWidth 16 <<< 12) ||| ((condField w).setWidth 16 <<< 8) |||
      ((sizeField w).setWidth 16 <<< 6) ||| ((modeField w).setWidth 16 <<< 3) ||| (eaRegField w).setWidth 16 = w := by
    ext j hj
    interval_cases j <;>
      simp [groupField, condField, sizeField, modeField, eaRegField, BitVec.getLsbD_eq_getElem]
  rw [h] at hbits
  exact hbits

/-! ### Operation words with a field of their own -/

/-- The operation word of MOVEQ (30_encoding.md R135). -/
theorem opWord_moveq_fields {w : Word} (hg : groupField w = 7#4) (h8 : bit8 w = false) :
    (Instr.moveq (low8 w) (regField w)).opWord = w := by
  have hbits : (((groupField w).setWidth 16 <<< 12) ||| ((BitVec.ofBool (bit8 w)).setWidth 16 <<< 8)) |||
      ((regField w).setWidth 16 <<< 9) ||| (low8 w).setWidth 16 = w := by
    ext j hj
    interval_cases j <;> simp [groupField, regField, bit8, low8, BitVec.getLsbD_eq_getElem]
  rw [hg, h8] at hbits
  exact hbits

@[simp] theorem groupField_opWord_moveq : groupField (Instr.moveq d r).opWord = 7#4 := by
  ext j hj
  interval_cases j <;> simp [Instr.opWord, groupField]

@[simp] theorem regField_opWord_moveq : regField (Instr.moveq d r).opWord = r := by
  ext j hj
  interval_cases j <;> simp [Instr.opWord, regField]

@[simp] theorem bit8_opWord_moveq : bit8 (Instr.moveq d r).opWord = false := by
  simp [Instr.opWord, bit8]

@[simp] theorem low8_opWord_moveq : low8 (Instr.moveq d r).opWord = d := by
  ext j hj
  interval_cases j <;> simp [Instr.opWord, low8]

/-- A word is its group and its low twelve bits. -/
theorem group_or_low12 (w : Word) :
    ((groupField w).setWidth 16 <<< 12) ||| (w.extractLsb' 0 12).setWidth 16 = w := by
  ext j hj
  interval_cases j <;> simp [groupField, BitVec.getLsbD_eq_getElem]

theorem opWord_lineA_fields {w : Word} (hg : groupField w = 0xA#4) :
    (Instr.lineA (w.extractLsb' 0 12)).opWord = w := by
  have hbits := group_or_low12 w
  rw [hg] at hbits
  exact hbits

theorem opWord_lineF_fields {w : Word} (hg : groupField w = 0xF#4) :
    (Instr.lineF (w.extractLsb' 0 12)).opWord = w := by
  have hbits := group_or_low12 w
  rw [hg] at hbits
  exact hbits

@[simp] theorem groupField_opWord_lineA (low : BitVec 12) : groupField (Instr.lineA low).opWord = 10#4 := by
  ext j hj
  interval_cases j <;> simp [Instr.opWord, groupField]

@[simp] theorem low12_opWord_lineA (low : BitVec 12) : (Instr.lineA low).opWord.extractLsb' 0 12 = low := by
  ext j hj
  interval_cases j <;> simp [Instr.opWord]

@[simp] theorem groupField_opWord_lineF (low : BitVec 12) : groupField (Instr.lineF low).opWord = 15#4 := by
  ext j hj
  interval_cases j <;> simp [Instr.opWord, groupField]

@[simp] theorem low12_opWord_lineF (low : BitVec 12) : (Instr.lineF low).opWord.extractLsb' 0 12 = low := by
  ext j hj
  interval_cases j <;> simp [Instr.opWord]

/-- The number of TRAP is the low bit of the mode field, and the register field. -/
theorem opWord_trap_fields (n : BitVec 4) :
    groupField (Instr.trap n).opWord = 4#4 ∧ regField (Instr.trap n).opWord = 7#3 ∧
      opField (Instr.trap n).opWord = 1#3 ∧
      (modeField (Instr.trap n).opWord = 0#3 ∨ modeField (Instr.trap n).opWord = 1#3) ∧
      (Instr.trap n).opWord.extractLsb' 0 4 = n := by
  revert n
  decide

/-- The low six bits of MOVE from CCR are the mode and the register field. -/
theorem opWord_moveFromCcr_fields (low : BitVec 6) :
    groupField (Instr.moveFromCcr low).opWord = 4#4 ∧ regField (Instr.moveFromCcr low).opWord = 1#3 ∧
      opField (Instr.moveFromCcr low).opWord = 3#3 ∧ (Instr.moveFromCcr low).opWord.extractLsb' 0 6 = low := by
  revert low
  decide

/-! ### Operation words with an effective address -/

variable (ea : EA)

@[simp] theorem groupField_opWordEA : groupField (opWordEA g r o ea) = g := groupField_opWord ..

@[simp] theorem regField_opWordEA : regField (opWordEA g r o ea) = r := regField_opWord ..

@[simp] theorem opField_opWordEA : opField (opWordEA g r o ea) = o := opField_opWord ..

@[simp] theorem modeField_opWordEA : modeField (opWordEA g r o ea) = ea.modeBits := modeField_opWord ..

@[simp] theorem eaRegField_opWordEA : eaRegField (opWordEA g r o ea) = ea.regBits := eaRegField_opWord ..

@[simp] theorem sizeField_opWordEA : sizeField (opWordEA g r o ea) = o.setWidth 2 := sizeField_opWord ..

@[simp] theorem bit8_opWordEA : bit8 (opWordEA g r o ea) = o.getLsbD 2 := bit8_opWord ..

end Fields
end Sys2Proof

namespace Sys2Proof

/-! ## The fields and the words of an effective address (30_encoding.md R102, R103) -/

/-- The mode and register bits of an effective address. -/
def EA.HasFields (ea : EA) (m : BitVec 3) (r : RegNo) : Prop := m = ea.modeBits ∧ r = ea.regBits

theorem EA.modeOf_fields (ea : EA) : modeOf ea.modeBits ea.regBits = some ea.mode := by
  cases ea <;> rfl

/-- The mode of a pair of fields gives the mode field, and where that is 111 the register field. -/
theorem EA.fields_of_modeOf {ea : EA} {m : BitVec 3} {r : RegNo} (h : modeOf m r = some ea.mode) :
    m = ea.modeBits ∧ (m = 7#3 → r = ea.regBits) := by
  cases ea with
  | dn q | an q | ind q | postInc q | preDec q | disp q _ | index q _ =>
    simp only [EA.mode, EA.modeBits, EA.regBits] at h ⊢
    revert m r q
    decide
  | absW | absL | pcDisp | pcIndex | imm =>
    simp only [EA.mode, EA.modeBits, EA.regBits] at h ⊢
    revert m r
    decide

theorem EA.wf_iff {c : Category} {sz : Size} {ea : EA} :
    ea.wf c sz = true ↔ modeAllowed c sz ea.mode = true ∧ ∀ v, ea = .imm v → immFits sz v = true := by
  cases ea <;> simp [EA.wf]

theorem acceptMode_eq_some {c : Category} {sz : Size} {m : BitVec 3} {r : RegNo} {mode : Mode} :
    acceptMode c sz m r = some mode ↔ modeOf m r = some mode ∧ modeAllowed c sz mode = true := by
  unfold acceptMode
  cases modeOf m r with
  | none => simp
  | some k =>
    simp only [Option.ite_none_right_eq_some, Option.some.injEq]
    exact ⟨fun ⟨hk, h⟩ => ⟨h, h ▸ hk⟩, fun ⟨h, hk⟩ => ⟨h ▸ hk, h⟩⟩

/-- A mode that a category leaves out is not the mode of its effective addresses. -/
theorem EA.mode_ne_of_wf {c : Category} {sz : Size} {ea : EA} (h : ea.wf c sz = true) {mode : Mode}
    (hc : c.allows mode = false) : ea.mode ≠ mode := by
  rintro rfl
  have hallowed := (EA.wf_iff.mp h).1
  simp [modeAllowed, hc] at hallowed

theorem EA.modeBits_ne_zero {c : Category} {sz : Size} {ea : EA} (h : ea.wf c sz = true)
    (hc : c.allows .dn = false) : ea.modeBits ≠ 0#3 := by
  have hmode := EA.mode_ne_of_wf h hc
  cases ea <;> simp_all [EA.mode, EA.modeBits]

theorem EA.modeBits_ne_one {c : Category} {sz : Size} {ea : EA} (h : ea.wf c sz = true)
    (hc : c.allows .an = false) : ea.modeBits ≠ 1#3 := by
  have hmode := EA.mode_ne_of_wf h hc
  cases ea <;> simp_all [EA.mode, EA.modeBits]

theorem EA.fields_ne_imm {c : Category} {sz : Size} {ea : EA} (h : ea.wf c sz = true)
    (hc : c.allows .imm = false) : ¬(ea.modeBits = 7#3 ∧ ea.regBits = 4#3) := by
  have hmode := EA.mode_ne_of_wf h hc
  cases ea <;> simp_all [EA.mode, EA.modeBits, EA.regBits]

theorem EA.hasFields_opWordEA (g : BitVec 4) (r o : BitVec 3) (ea : EA) :
    ea.HasFields (modeField (opWordEA g r o ea)) (eaRegField (opWordEA g r o ea)) :=
  ⟨modeField_opWordEA .., eaRegField_opWordEA ..⟩

/-- ILLEGAL stands where TAS and TST would have an immediate operand (30_encoding.md R133). -/
theorem opWordEA_ne_illegal {c : Category} {sz : Size} {ea : EA} (h : ea.wf c sz = true) (hc : c.allows .imm = false)
    (g : BitVec 4) (r o : BitVec 3) : opWordEA g r o ea ≠ 0x4AFC#16 := by
  intro hw
  refine EA.fields_ne_imm h hc ⟨?_, ?_⟩
  · rw [← modeField_opWordEA g r o ea, hw]
    rfl
  · rw [← eaRegField_opWordEA g r o ea, hw]
    rfl

theorem bitSizeOf_modeBits (ea : EA) : bitSizeOf ea.modeBits = ea.bitSize := by
  cases ea <;> rfl

/-! ### Words are read back from their fields -/

theorem indexOf_word (x : IndexExt) : indexOf x.word = x := by
  obtain ⟨isAddr, reg, long, disp⟩ := x
  simp only [indexOf, IndexExt.word, IndexExt.mk.injEq]
  refine ⟨by cases isAddr <;> simp, ?_, ?_, ?_⟩
  · ext j hj
    interval_cases j <;> simp
  · simp
  · ext j hj
    interval_cases j <;> simp

theorem long_of_halves (v : Long) :
    ((v.extractLsb' 16 16).setWidth 32 <<< 16) ||| (v.extractLsb' 0 16).setWidth 32 = v := by
  ext j hj
  by_cases hlow : j < 16
  · simp [hlow, BitVec.getLsbD_eq_getElem hj]
  · simp [hlow, show 16 + (j - 16) = j by omega, show j - 16 < 16 by omega, BitVec.getLsbD_eq_getElem hj]

theorem takeLong_longWords (v : Long) (rest : List Word) : takeLong (longWords v ++ rest) = .ok (v, rest) := by
  have hread : takeLong (longWords v ++ rest) =
      .ok (((v.extractLsb' 16 16).setWidth 32 <<< 16) ||| (v.extractLsb' 0 16).setWidth 32, rest) := rfl
  rw [hread, long_of_halves]

theorem takeImm_immWords {sz : Size} {v : Long} (h : immFits sz v = true) (rest : List Word) :
    takeImm sz (immWords sz v ++ rest) = .ok (v, rest) := by
  cases sz with
  | b =>
    have hread : takeImm .b (immWords .b v ++ rest) =
        .ok ((((v.setWidth 8).setWidth 16).setWidth 8).setWidth 32, rest) := rfl
    have hv : v.toNat < 256 := by simpa [immFits] using h
    rw [hread, show (((v.setWidth 8).setWidth 16).setWidth 8).setWidth 32 = v by bv_omega]
  | w =>
    have hread : takeImm .w (immWords .w v ++ rest) = .ok ((v.setWidth 16).setWidth 32, rest) := rfl
    have hv : v.toNat < 65536 := by simpa [immFits] using h
    rw [hread, show (v.setWidth 16).setWidth 32 = v by bv_omega]
  | l => exact takeLong_longWords v rest

/-- The extension words of an effective address are read back as it. -/
theorem takeEA_words {c : Category} {sz : Size} {ea : EA} (h : ea.wf c sz = true) (rest : List Word) :
    takeEA sz ea.mode ea.regBits (ea.words sz ++ rest) = .ok (ea, rest) := by
  cases ea with
  | dn | an | ind | postInc | preDec | disp | absW | pcDisp => rfl
  | index r x => exact congrArg (fun y => Except.ok (EA.index r y, rest)) (indexOf_word x)
  | pcIndex x => exact congrArg (fun y => Except.ok (EA.pcIndex y, rest)) (indexOf_word x)
  | absL a => exact Reader.bind_ok (takeLong_longWords a rest)
  | imm v => exact Reader.bind_ok (takeImm_immWords ((EA.wf_iff.mp h).2 v rfl) rest)

theorem EA.acceptMode_fields {c : Category} {sz : Size} {ea : EA} (h : ea.wf c sz = true) :
    acceptMode c sz ea.modeBits ea.regBits = some ea.mode :=
  acceptMode_eq_some.mpr ⟨ea.modeOf_fields, (EA.wf_iff.mp h).1⟩

end Sys2Proof

namespace Sys2Proof

/-! ## What a reading of words answers

A reading that ends well takes words off the front of the list; what it answers and how many words it took are said
together, so that the rules below follow the shape of the decoder. -/

/-- Whatever the reading answers, it meets `P` with the number of words that it took. -/
def Reads {α : Type} (r : Reader α) (P : α → Nat → Prop) : Prop :=
  ∀ ws a rest, r ws = .ok (a, rest) → ∃ own : List Word, ws = own ++ rest ∧ P a own.length

section Rules

variable {α β : Type}

theorem Reads.pure {a : α} {P : α → Nat → Prop} (h : P a 0) : Reads (Pure.pure a) P := by
  rintro ws b rest e
  cases e
  exact ⟨[], rfl, h⟩

theorem Reads.bind {r : Reader α} {f : α → Reader β} {P : α → Nat → Prop} {Q : β → Nat → Prop} (hr : Reads r P)
    (hf : ∀ a n, P a n → Reads (f a) fun b k => Q b (n + k)) : Reads (r >>= f) Q := by
  intro ws b rest h
  obtain ⟨a, mid, ha, hb⟩ := Reader.of_bind_ok h
  obtain ⟨own, rfl, hP⟩ := hr ws a mid ha
  obtain ⟨own', rfl, hQ⟩ := hf a _ hP mid b rest hb
  exact ⟨own ++ own', (List.append_assoc ..).symm, by rwa [List.length_append]⟩

/-- A reading whose answer a function is applied to. -/
theorem Reads.map {r : Reader α} {k : α → β} {P : α → Nat → Prop} {Q : β → Nat → Prop} (hr : Reads r P)
    (hk : ∀ a n, P a n → Q (k a) n) : Reads (r >>= fun a => Pure.pure (k a)) Q :=
  hr.bind fun a n h => .pure (hk a n h)

theorem reads_unmatched (w : Word) (P : Instr → Nat → Prop) : Reads (unmatched w) P := by
  rintro ws i rest e
  cases e

theorem reads_takeWord : Reads takeWord fun _ n => n = 1 := by
  intro ws x rest e
  cases ws with
  | nil => cases e
  | cons y ws =>
    cases e
    exact ⟨[x], rfl, rfl⟩

theorem reads_takeLong : Reads takeLong fun _ n => n = 2 :=
  reads_takeWord.bind fun _ _ h => by subst h; exact reads_takeWord.map fun _ _ h => by rw [h]

/-- An immediate fits its size, and takes its words. -/
theorem reads_takeImm (sz : Size) :
    Reads (takeImm sz) fun v n => immFits sz v = true ∧ n = (immWords sz v).length := by
  cases sz with
  | b => exact reads_takeWord.map fun w n h => ⟨by simp [immFits]; omega, h⟩
  | w => exact reads_takeWord.map fun w n h => ⟨by simp [immFits]; omega, h⟩
  | l =>
    intro ws v rest h
    obtain ⟨own, hws, hn⟩ := reads_takeLong ws v rest h
    exact ⟨own, hws, rfl, hn⟩

/-- What is read at a mode is an effective address of that mode, with the fields that gave the mode. -/
theorem reads_takeEA {c : Category} {sz : Size} {m : BitVec 3} {r : RegNo} {mode : Mode}
    (h : acceptMode c sz m r = some mode) :
    Reads (takeEA sz mode r) fun ea n => ea.wf c sz = true ∧ ea.HasFields m r ∧ n = (ea.words sz).length := by
  obtain ⟨hmode, hallowed⟩ := acceptMode_eq_some.mp h
  have hea (ea : EA) (hm : ea.mode = mode) (hr : ea.modeBits = 7#3 ∨ r = ea.regBits)
      (himm : ∀ v, ea = .imm v → immFits sz v = true) : ea.wf c sz = true ∧ ea.HasFields m r := by
    subst hm
    obtain ⟨hbits, hreg⟩ := EA.fields_of_modeOf hmode
    exact ⟨EA.wf_iff.mpr ⟨hallowed, himm⟩, hbits, hr.elim (fun h7 => hreg (hbits.trans h7)) id⟩
  cases mode with
  | dn | an | ind | postInc | preDec => exact .pure (and_assoc.mp ⟨hea _ rfl (.inr rfl) nofun, rfl⟩)
  | disp | index =>
    exact reads_takeWord.map fun _ _ hn => and_assoc.mp ⟨hea _ rfl (.inr rfl) nofun, hn⟩
  | absW | pcDisp | pcIndex =>
    exact reads_takeWord.map fun _ _ hn => and_assoc.mp ⟨hea _ rfl (.inl rfl) nofun, hn⟩
  | absL => exact reads_takeLong.map fun _ _ hn => and_assoc.mp ⟨hea _ rfl (.inl rfl) nofun, hn⟩
  | imm =>
    refine (reads_takeImm sz).map fun v n ⟨hfits, hn⟩ => and_assoc.mp ⟨hea _ rfl (.inl rfl) ?_, hn⟩
    rintro _ ⟨⟩
    exact hfits

end Rules
end Sys2Proof

namespace Sys2Proof

/-! ## What each form of the decoder reads (30_encoding.md R100 to R105)

A form is given the fields of its row, and the well-formedness, the operation word and the extension words of its
instruction; it answers an instruction of the operation word that was decoded. -/

/-- The instruction is well formed, has the operation word, and has so many extension words. -/
def Encodes (w : Word) (i : Instr) (n : Nat) : Prop := i.wf = true ∧ i.opWord = w ∧ n = i.extWords.length

/-- The well-formedness, the operation word and the extension words of an instruction. -/
def Instr.HasRow (i : Instr) (wf : Bool) (w : Word) (ws : List Word) : Prop :=
  i.wf = wf ∧ i.opWord = w ∧ i.extWords = ws

theorem Instr.HasRow.encodes {i : Instr} {wf : Bool} {w w' : Word} {ws : List Word} {n : Nat} (h : i.HasRow wf w' ws)
    (hwf : wf = true) (hw : w' = w) (hn : n = ws.length) : Encodes w i n := by
  obtain ⟨hiwf, hop, hext⟩ := h
  exact ⟨hiwf.trans hwf, hop.trans hw, by rw [hn, hext]⟩

section Forms

variable {w : Word} {g : BitVec 4} {r o : BitVec 3} {c : Category} {sz : Size}

theorem opWordEA_eq {ea : EA} (hg : groupField w = g) (hr : regField w = r) (ho : opField w = o)
    (h : ea.HasFields (modeField w) (eaRegField w)) : opWordEA g r o ea = w :=
  opWord_eq hg hr ho h.1 h.2

theorem opField_of_sizeOf2 {sz : Size} (h : sizeOf2 (sizeField w) = some sz) :
    opField w = if bit8 w then sz.codeHigh else sz.code := by
  rw [sizeField_eq] at h
  rw [bit8_eq]
  generalize opField w = o at h ⊢
  cases sz <;> revert o <;> decide

theorem sizeField_of_sizeOf2_none (h : sizeOf2 (sizeField w) = none) : sizeField w = 3#2 := by
  generalize sizeField w = s at h ⊢
  revert s
  decide

theorem opField_of_sizeOf2_none (h : sizeOf2 (sizeField w) = none) : opField w = if bit8 w then 7 else 3 := by
  rw [sizeField_eq] at h
  rw [bit8_eq]
  generalize opField w = o at h ⊢
  revert o
  decide

theorem reads_withEA {k : EA → Instr} (hk : ∀ ea, ea.wf c sz = true → ea.HasFields (modeField w) (eaRegField w) →
    Encodes w (k ea) (ea.words sz).length) :
    Reads (withEA w c sz k) (Encodes w) := by
  unfold withEA
  split
  next => exact reads_unmatched w _
  next h => exact (reads_takeEA h).map fun ea n ⟨hwf, hf, hn⟩ => hn ▸ hk ea hwf hf

end Forms

section Rows

variable {w : Word} {g : BitVec 4} {r o : BitVec 3} {c : Category} {sz : Size} (hg : groupField w = g)
  (hr : regField w = r) (ho : opField w = o)
include hg hr ho

theorem reads_rowEA {k : EA → Instr} (hk : ∀ ea, (k ea).HasRow (ea.wf c sz) (opWordEA g r o ea) (ea.words sz)) :
    Reads (withEA w c sz k) (Encodes w) :=
  reads_withEA fun ea hwf hf => (hk ea).encodes hwf (opWordEA_eq hg hr ho hf) rfl

/-- A bit instruction with its bit number in a register: the size is that of its own operand. -/
theorem reads_rowBitReg {k : EA → Instr}
    (hk : ∀ ea, (k ea).HasRow (ea.wf c ea.bitSize) (opWordEA g r o ea) (ea.words ea.bitSize)) :
    Reads (withEA w c (bitSizeOf (modeField w)) k) (Encodes w) := by
  refine reads_withEA fun ea hwf hf => ?_
  rw [hf.1, bitSizeOf_modeBits] at hwf ⊢
  exact (hk ea).encodes hwf (opWordEA_eq hg hr ho hf) rfl

theorem reads_rowImm {k : Size → Long → EA → Instr} (hk : ∀ v ea, (k sz v ea).HasRow
    (immFits sz v && ea.wf .dataAlterable sz) (opWordEA g r o ea) (immWords sz v ++ ea.words sz)) :
    Reads (withImmEA w sz k) (Encodes w) := by
  unfold withImmEA
  split
  next => exact reads_unmatched w _
  next h =>
    refine (reads_takeImm sz).bind fun v n ⟨hfits, hn⟩ => (reads_takeEA h).map fun ea m ⟨hwf, hf, hm⟩ =>
      (hk v ea).encodes ?_ (opWordEA_eq hg hr ho hf) ?_
    · rw [hfits, hwf]
      rfl
    · rw [List.length_append, hn, hm]

theorem reads_rowBitImm {k : Byte → EA → Instr} (hk : ∀ n ea, (k n ea).HasRow (ea.wf c ea.bitSize)
    (opWordEA g r o ea) (n.setWidth 16 :: ea.words ea.bitSize)) : Reads (withBitEA w c k) (Encodes w) := by
  unfold withBitEA
  split
  next => exact reads_unmatched w _
  next h =>
    refine reads_takeWord.bind fun x n hn => (reads_takeEA h).map fun ea m ⟨hwf, hf, hm⟩ => ?_
    rw [hf.1, bitSizeOf_modeBits] at hwf hm
    exact (hk (x.setWidth 8) ea).encodes hwf (opWordEA_eq hg hr ho hf) (by rw [List.length_cons, hn, hm, Nat.add_comm])

theorem reads_rowMask {sz : SizeWL} {k : SizeWL → Word → EA → Instr} (hk : ∀ mask ea, (k sz mask ea).HasRow
    (ea.wf c sz.size) (opWordEA g r o ea) (mask :: ea.words sz.size)) : Reads (withMaskEA w c sz k) (Encodes w) := by
  unfold withMaskEA
  split
  next => exact reads_unmatched w _
  next h =>
    exact reads_takeWord.bind fun mask n hn => (reads_takeEA h).map fun ea m ⟨hwf, hf, hm⟩ =>
      (hk mask ea).encodes hwf (opWordEA_eq hg hr ho hf) (by rw [List.length_cons, hn, hm, Nat.add_comm])

end Rows

section Forms

variable {w : Word} {g : BitVec 4} {r : BitVec 3} {c : Category}

theorem reads_rowSized {k : Size → EA → Instr} (hg : groupField w = g) (hr : regField w = r) (h8 : bit8 w = false)
    (hk : ∀ sz ea, (k sz ea).HasRow (ea.wf c sz) (opWordEA g r sz.code ea) (ea.words sz)) :
    Reads (withSizedEA w c k) (Encodes w) := by
  unfold withSizedEA
  split
  next => exact reads_unmatched w _
  next sz h =>
    have ho := opField_of_sizeOf2 h
    rw [h8] at ho
    exact reads_rowEA hg hr ho (hk sz)

theorem reads_withWord {k : Word → Instr} (hk : ∀ v, Encodes w (k v) 1) : Reads (withWord k) (Encodes w) :=
  reads_takeWord.map fun v _ hn => hn ▸ hk v

theorem reads_withByteWord {k : Byte → Instr} (hk : ∀ b, Encodes w (k b) 1) : Reads (withByteWord k) (Encodes w) :=
  reads_takeWord.map fun v _ hn => hn ▸ hk (v.setWidth 8)

theorem reads_withDisp {k : Disp → Instr}
    (hk : ∀ d : Disp, d.wf = true → d.byteField = low8 w → Encodes w (k d) d.words.length) :
    Reads (withDisp w k) (Encodes w) := by
  unfold withDisp
  split
  next h => exact reads_takeWord.map fun v _ hn => hn ▸ hk (.word v) rfl h.symm
  next h => exact .pure (hk (.byte (low8 w)) (bne_iff_ne.mpr h) rfl)

theorem reads_pairOr {mode0 mode1 other : Reader Instr} {P : Instr → Nat → Prop}
    (h0 : modeField w = 0#3 → Reads mode0 P) (h1 : modeField w = 1#3 → Reads mode1 P) (h : Reads other P) :
    Reads (pairOr w mode0 mode1 other) P := by
  unfold pairOr
  split
  next hm => exact h0 hm
  next hm => exact h1 hm
  next => exact h

/-- The forms to CCR and SR take the place of the immediate mode (30_encoding.md R131). -/
theorem reads_logicImm {o : BitVec 3} {sz : Size} {toCcr : Byte → Instr} {toSr : Word → Instr}
    {k : Size → Long → EA → Instr} (hg : groupField w = g) (hr : regField w = r) (ho : opField w = o)
    (hb : ∀ b, sz = .b → Encodes (opWord g r o 7 4) (toCcr b) 1)
    (hw : ∀ v, sz = .w → Encodes (opWord g r o 7 4) (toSr v) 1)
    (hk : ∀ v ea, (k sz v ea).HasRow (immFits sz v && ea.wf .dataAlterable sz) (opWordEA g r o ea)
      (immWords sz v ++ ea.words sz)) :
    Reads (logicImm w sz toCcr toSr k) (Encodes w) := by
  unfold logicImm
  split
  next h =>
    have hword : opWord g r o 7 4 = w := opWord_eq hg hr ho h.1 h.2
    cases sz with
    | b => exact reads_withByteWord fun b => hword ▸ hb b rfl
    | w => exact reads_withWord fun v => hword ▸ hw v rfl
    | l => exact reads_unmatched w _
  next => exact reads_rowImm hg hr ho hk

end Forms
end Sys2Proof

namespace Sys2Proof

/-! ## The opcode map: each row answers its own operation word (30_encoding.md R130 to R137)

The rows are taken in the order of the decoder's branches; a branch gives the field that it tests. -/

section Map

variable {w : Word}

theorem eq_seven_of_ne {x : BitVec 3} (h0 : x ≠ 0#3) (h1 : x ≠ 1#3) (h2 : x ≠ 2#3) (h3 : x ≠ 3#3) (h4 : x ≠ 4#3)
    (h5 : x ≠ 5#3) (h6 : x ≠ 6#3) : x = 7#3 := by
  bv_omega

theorem bit8_eq_false_iff : bit8 w = false ↔ opField w < 4#3 := by
  rw [bit8_eq]
  generalize opField w = o
  revert o
  decide

/-! ### Group 0000 (R131) -/

theorem reads_decodeImmRow {sz : Size} (hg : groupField w = 0#4) (ho : opField w = sz.code) :
    Reads (decodeImmRow w sz) (Encodes w) := by
  unfold decodeImmRow
  split
  case h_1 hr | h_2 hr | h_6 hr =>
    refine reads_logicImm hg hr ho ?_ ?_ fun _ _ => ⟨rfl, rfl, rfl⟩
    · rintro b rfl
      exact ⟨rfl, rfl, rfl⟩
    · rintro v rfl
      exact ⟨rfl, rfl, rfl⟩
  case h_3 hr | h_4 hr | h_7 hr => exact reads_rowImm hg hr ho fun _ _ => ⟨rfl, rfl, rfl⟩
  case h_5 hr => cases sz <;> exact reads_rowBitImm hg hr ho fun _ _ => ⟨rfl, rfl, rfl⟩
  case h_8 => exact reads_unmatched w _

/-- MOVEP stands at mode 001 of the bit instructions with the bit number in a register. -/
theorem reads_movepOr {o : BitVec 3} {c : Category} {movep : Word → Instr} {k : EA → Instr} (hg : groupField w = 0#4)
    (ho : opField w = o)
    (hmovep : ∀ d, (movep d).HasRow true (opWord 0 (regField w) o 1 (eaRegField w)) [d])
    (hk : ∀ ea, (k ea).HasRow (ea.wf c ea.bitSize) (opWordEA 0 (regField w) o ea) (ea.words ea.bitSize)) :
    Reads (if modeField w = 1#3 then withWord movep else withEA w c (bitSizeOf (modeField w)) k) (Encodes w) := by
  split
  next hm => exact reads_withWord fun d => (hmovep d).encodes rfl (opWord_eq hg rfl ho hm rfl) rfl
  next => exact reads_rowBitReg hg rfl ho hk

theorem reads_decode0 (hg : groupField w = 0#4) : Reads (decode0 w) (Encodes w) := by
  unfold decode0
  dsimp only
  split
  case h_1 ho | h_2 ho | h_3 ho => exact reads_decodeImmRow hg ho
  case h_4 ho =>
    split
    next hr => exact reads_rowBitImm hg hr ho fun _ _ => ⟨rfl, rfl, rfl⟩
    next => exact reads_unmatched w _
  case h_5 ho | h_6 ho | h_7 ho =>
    exact reads_movepOr hg ho (fun _ => ⟨rfl, rfl, rfl⟩) fun _ => ⟨rfl, rfl, rfl⟩
  case h_8 h0 h1 h2 h3 h4 h5 h6 =>
    exact reads_movepOr hg (eq_seven_of_ne h0 h1 h2 h3 h4 h5 h6) (fun _ => ⟨rfl, rfl, rfl⟩) fun _ => ⟨rfl, rfl, rfl⟩

/-! ### Groups 0001, 0010, 0011 (R132) -/

theorem reads_decodeMove {sz : Size} (hg : groupField w = sz.moveGroup) : Reads (decodeMove w sz) (Encodes w) := by
  unfold decodeMove
  split
  next hsrc hdst =>
    refine (reads_takeEA hsrc).bind fun src n ⟨hswf, hsf, hn⟩ =>
      (reads_takeEA hdst).map fun dst m ⟨hdwf, hdf, hm⟩ => ?_
    exact ⟨by rw [Instr.wf, hswf, hdwf]; rfl, opWordEA_eq hg hdf.2 hdf.1 hsf, by
      rw [Instr.extWords, List.length_append, hn, hm]⟩
  next => exact reads_unmatched w _

theorem reads_decodeMoveWL {sz : SizeWL} (hg : groupField w = sz.size.moveGroup) :
    Reads (decodeMoveWL w sz) (Encodes w) := by
  unfold decodeMoveWL
  split
  next ho => exact reads_rowEA hg rfl ho fun _ => ⟨rfl, rfl, rfl⟩
  next => exact reads_decodeMove hg

/-! ### Group 0100 (R133) -/

theorem reads_decodeFixed (hg : groupField w = 4#4) (hr : regField w = 7#3) (ho : opField w = 1#3)
    (hm : modeField w = 6#3) : Reads (decodeFixed w) (Encodes w) := by
  have hword {i : Instr} {y : RegNo} (hy : eaRegField w = y) (h : i.opWord = opWord 4 7 1 6 y) : i.opWord = w :=
    h.trans (opWord_eq hg hr ho hm hy)
  unfold decodeFixed
  split
  case h_3 hy => exact reads_withWord fun _ => ⟨rfl, hword hy rfl, rfl⟩
  case h_8 => exact reads_unmatched w _
  case h_1 hy | h_2 hy | h_4 hy | h_5 hy | h_6 hy | h_7 hy => exact .pure ⟨rfl, hword hy rfl, rfl⟩

/-- The number of TRAP is what follows the mode fields 000 and 001. -/
theorem trap_opWord_eq {m y : BitVec 3} (hm : m = 0#3 ∨ m = 1#3) (h : opWord 4 7 1 m y = w) :
    (Instr.trap (w.extractLsb' 0 4)).opWord = w := by
  subst h
  obtain rfl | rfl := hm <;> revert y <;> decide

theorem reads_decode4E (hg : groupField w = 4#4) (hr : regField w = 7#3) (ho : opField w = 1#3) :
    Reads (decode4E w) (Encodes w) := by
  have hword {m : BitVec 3} (hm : modeField w = m) : opWord 4 7 1 m (eaRegField w) = w := opWord_eq hg hr ho hm rfl
  unfold decode4E
  dsimp only
  split
  case h_1 hm => exact .pure ⟨rfl, trap_opWord_eq (.inl rfl) (hword hm), rfl⟩
  case h_2 hm => exact .pure ⟨rfl, trap_opWord_eq (.inr rfl) (hword hm), rfl⟩
  case h_3 hm => exact reads_withWord fun _ => ⟨rfl, hword hm, rfl⟩
  case h_4 hm | h_5 hm | h_6 hm => exact .pure ⟨rfl, hword hm, rfl⟩
  case h_7 hm => exact reads_decodeFixed hg hr ho hm
  case h_8 => exact reads_unmatched w _

/-- The low six bits of MOVE from CCR are any mode and register field. -/
theorem moveFromCcr_opWord_eq {m y : BitVec 3} (h : opWord 4 1 3 m y = w) :
    (Instr.moveFromCcr (w.extractLsb' 0 6)).opWord = w := by
  subst h
  revert m y
  decide

/-- A row that gives way to an instruction of no extension words. -/
theorem reads_pureOr {P : Prop} [Decidable P] {i : Instr} {other : Reader Instr} (h0 : P → Encodes w i 0)
    (h : Reads other (Encodes w)) : Reads (if P then pure i else other) (Encodes w) := by
  split
  next hm => exact .pure (h0 hm)
  next => exact h

theorem reads_decode48 (hg : groupField w = 4#4) (hr : regField w = 4#3) (h8 : bit8 w = false) :
    Reads (decode48 w) (Encodes w) := by
  unfold decode48
  split
  case h_1 ho => exact reads_rowEA hg hr ho fun _ => ⟨rfl, rfl, rfl⟩
  case h_2 ho =>
    exact reads_pureOr (fun hm => ⟨rfl, opWord_eq hg hr ho hm rfl, rfl⟩)
      (reads_rowEA hg hr ho fun _ => ⟨rfl, rfl, rfl⟩)
  case h_3 ho =>
    exact reads_pureOr (fun hm => ⟨rfl, opWord_eq hg hr ho hm rfl, rfl⟩)
      (reads_rowMask hg hr ho fun _ _ => ⟨rfl, rfl, rfl⟩)
  case h_4 h0 h1 h2 =>
    simp only [imp_false] at h0 h1 h2
    have hlt := bit8_eq_false_iff.mp h8
    have ho : opField w = 3#3 := by bv_omega
    exact reads_pureOr (fun hm => ⟨rfl, opWord_eq hg hr ho hm rfl, rfl⟩)
      (reads_rowMask hg hr ho fun _ _ => ⟨rfl, rfl, rfl⟩)

theorem reads_decode4Low (hg : groupField w = 4#4) (h8 : bit8 w = false) : Reads (decode4Low w) (Encodes w) := by
  unfold decode4Low
  split
  case h_1 hr | h_3 hr | h_4 hr =>
    split
    next ho => exact reads_rowEA hg hr ho fun _ => ⟨rfl, rfl, rfl⟩
    next => exact reads_rowSized hg hr h8 fun _ _ => ⟨rfl, rfl, rfl⟩
  case h_2 hr =>
    split
    next ho => exact .pure ⟨rfl, moveFromCcr_opWord_eq (opWord_eq hg hr ho rfl rfl), rfl⟩
    next => exact reads_rowSized hg hr h8 fun _ _ => ⟨rfl, rfl, rfl⟩
  case h_5 hr => exact reads_decode48 hg hr h8
  case h_6 hr =>
    split
    next hw => exact .pure ⟨rfl, hw.symm, rfl⟩
    split
    next ho => exact reads_rowEA hg hr ho fun _ => ⟨rfl, rfl, rfl⟩
    next => exact reads_rowSized hg hr h8 fun _ _ => ⟨rfl, rfl, rfl⟩
  case h_7 hr =>
    split
    case h_1 ho | h_2 ho => exact reads_rowMask hg hr ho fun _ _ => ⟨rfl, rfl, rfl⟩
    case h_3 => exact reads_unmatched w _
  case h_8 h0 h1 h2 h3 h4 h5 h6 =>
    have hr := eq_seven_of_ne h0 h1 h2 h3 h4 h5 h6
    split
    case h_1 ho => exact reads_decode4E hg hr ho
    case h_2 ho | h_3 ho => exact reads_rowEA hg hr ho fun _ => ⟨rfl, rfl, rfl⟩
    case h_4 => exact reads_unmatched w _

theorem reads_decode4 (hg : groupField w = 4#4) : Reads (decode4 w) (Encodes w) := by
  unfold decode4
  split
  case h_1 | h_2 => exact reads_unmatched w _
  case h_3 ho | h_4 ho => exact reads_rowEA hg rfl ho fun _ => ⟨rfl, rfl, rfl⟩
  case h_5 h4 h5 h6 h7 =>
    simp only [imp_false] at h4 h5 h6 h7
    exact reads_decode4Low hg (bit8_eq_false_iff.mpr (by bv_omega))

/-! ### Groups 0101, 0110, 0111 (R134, R135) -/

theorem code_condOf (c : BitVec 4) : (condOf c).code = c := by
  revert c
  decide

theorem reads_decode5 (hg : groupField w = 5#4) : Reads (decode5 w) (Encodes w) := by
  unfold decode5
  split
  next hsz =>
    have hword {m : BitVec 3} {y : RegNo} (hm : modeField w = m) (hy : eaRegField w = y) :
        opWordCondEA 5#4 (condOf (condField w)).code m y = w := by
      rw [code_condOf, ← hm, ← hy, ← hg, opWordCondEA_fields (sizeField_of_sizeOf2_none hsz)]
    split
    next hm => exact reads_withWord fun _ => ⟨rfl, hword hm rfl, rfl⟩
    next => exact reads_withEA fun ea hwf hf => ⟨hwf, hword hf.1 hf.2, rfl⟩
  next sz hsz =>
    have ho := opField_of_sizeOf2 hsz
    split
    next h8 =>
      rw [if_pos h8] at ho
      exact reads_rowEA hg rfl ho fun _ => ⟨rfl, rfl, rfl⟩
    next h8 =>
      rw [if_neg h8] at ho
      exact reads_rowEA hg rfl ho fun _ => ⟨rfl, rfl, rfl⟩

theorem reads_decode6 (hg : groupField w = 6#4) : Reads (decode6 w) (Encodes w) := by
  have hword {c : BitVec 4} {d : Byte} (hc : condField w = c) (hd : d = low8 w) : opWordCond8 6#4 c d = w := by
    rw [← hc, hd, ← hg, opWordCond8_fields]
  unfold decode6
  split
  case h_1 hc | h_2 hc => exact reads_withDisp fun d hwf hd => ⟨hwf, hword hc hd, rfl⟩
  case h_3 c h0 h1 =>
    have hcond : ∀ c : BitVec 4, c ≠ 0#4 → c ≠ 1#4 → (condOf c != .t && condOf c != .f) = true := by decide
    refine reads_withDisp fun d hwf hd => ⟨?_, hword (code_condOf _).symm hd, rfl⟩
    rw [Instr.wf, hcond _ h0 h1, hwf]
    rfl

theorem reads_decode7 (hg : groupField w = 7#4) : Reads (decode7 w) (Encodes w) := by
  unfold decode7
  split
  next => exact reads_unmatched w _
  next h8 => exact .pure ⟨rfl, opWord_moveq_fields hg (Bool.eq_false_iff.mpr h8), rfl⟩

/-! ### Groups 1000, 1001, 1011, 1100, 1101 (R136) -/

/-- A row of two-register forms and of the form with an effective address. -/
theorem reads_pairRow {g : BitVec 4} {o : BitVec 3} {c : Category} {sz : Size} {i j : Instr} {k : EA → Instr}
    (hg : groupField w = g) (ho : opField w = o)
    (hi : Encodes (opWord g (regField w) o 0 (eaRegField w)) i 0)
    (hj : Encodes (opWord g (regField w) o 1 (eaRegField w)) j 0)
    (hk : ∀ ea, (k ea).HasRow (ea.wf c sz) (opWordEA g (regField w) o ea) (ea.words sz)) :
    Reads (pairOr w (pure i) (pure j) (withEA w c sz k)) (Encodes w) :=
  reads_pairOr (fun hm => .pure (opWord_eq hg rfl ho hm rfl ▸ hi)) (fun hm => .pure (opWord_eq hg rfl ho hm rfl ▸ hj))
    (reads_rowEA hg rfl ho hk)

theorem reads_decode8 (hg : groupField w = 8#4) : Reads (decode8 w) (Encodes w) := by
  unfold decode8
  dsimp only
  split
  case h_5 ho => exact reads_pairRow hg ho ⟨rfl, rfl, rfl⟩ ⟨rfl, rfl, rfl⟩ fun _ => ⟨rfl, rfl, rfl⟩
  case h_1 ho | h_2 ho | h_3 ho | h_4 ho | h_6 ho | h_7 ho => exact reads_rowEA hg rfl ho fun _ => ⟨rfl, rfl, rfl⟩
  case h_8 h0 h1 h2 h3 h4 h5 h6 =>
    exact reads_rowEA hg rfl (eq_seven_of_ne h0 h1 h2 h3 h4 h5 h6) fun _ => ⟨rfl, rfl, rfl⟩

theorem reads_decode9 (hg : groupField w = 9#4) : Reads (decode9 w) (Encodes w) := by
  unfold decode9
  dsimp only
  split
  case h_5 ho | h_6 ho | h_7 ho => exact reads_pairRow hg ho ⟨rfl, rfl, rfl⟩ ⟨rfl, rfl, rfl⟩ fun _ => ⟨rfl, rfl, rfl⟩
  case h_1 ho | h_2 ho | h_3 ho | h_4 ho => exact reads_rowEA hg rfl ho fun _ => ⟨rfl, rfl, rfl⟩
  case h_8 h0 h1 h2 h3 h4 h5 h6 =>
    exact reads_rowEA hg rfl (eq_seven_of_ne h0 h1 h2 h3 h4 h5 h6) fun _ => ⟨rfl, rfl, rfl⟩

theorem reads_decodeB (hg : groupField w = 0xB#4) : Reads (decodeB w) (Encodes w) := by
  unfold decodeB
  dsimp only
  split
  case h_5 ho | h_6 ho | h_7 ho =>
    exact reads_pureOr (fun hm => ⟨rfl, opWord_eq hg rfl ho hm rfl, rfl⟩)
      (reads_rowEA hg rfl ho fun _ => ⟨rfl, rfl, rfl⟩)
  case h_1 ho | h_2 ho | h_3 ho | h_4 ho => exact reads_rowEA hg rfl ho fun _ => ⟨rfl, rfl, rfl⟩
  case h_8 h0 h1 h2 h3 h4 h5 h6 =>
    exact reads_rowEA hg rfl (eq_seven_of_ne h0 h1 h2 h3 h4 h5 h6) fun _ => ⟨rfl, rfl, rfl⟩

theorem reads_decodeC (hg : groupField w = 0xC#4) : Reads (decodeC w) (Encodes w) := by
  unfold decodeC
  dsimp only
  split
  case h_5 ho | h_6 ho => exact reads_pairRow hg ho ⟨rfl, rfl, rfl⟩ ⟨rfl, rfl, rfl⟩ fun _ => ⟨rfl, rfl, rfl⟩
  case h_7 ho =>
    exact reads_pairOr (fun _ => reads_unmatched w _) (fun hm => .pure ⟨rfl, opWord_eq hg rfl ho hm rfl, rfl⟩)
      (reads_rowEA hg rfl ho fun _ => ⟨rfl, rfl, rfl⟩)
  case h_1 ho | h_2 ho | h_3 ho | h_4 ho => exact reads_rowEA hg rfl ho fun _ => ⟨rfl, rfl, rfl⟩
  case h_8 h0 h1 h2 h3 h4 h5 h6 =>
    exact reads_rowEA hg rfl (eq_seven_of_ne h0 h1 h2 h3 h4 h5 h6) fun _ => ⟨rfl, rfl, rfl⟩

theorem reads_decodeD (hg : groupField w = 0xD#4) : Reads (decodeD w) (Encodes w) := by
  unfold decodeD
  dsimp only
  split
  case h_5 ho | h_6 ho | h_7 ho => exact reads_pairRow hg ho ⟨rfl, rfl, rfl⟩ ⟨rfl, rfl, rfl⟩ fun _ => ⟨rfl, rfl, rfl⟩
  case h_1 ho | h_2 ho | h_3 ho | h_4 ho => exact reads_rowEA hg rfl ho fun _ => ⟨rfl, rfl, rfl⟩
  case h_8 h0 h1 h2 h3 h4 h5 h6 =>
    exact reads_rowEA hg rfl (eq_seven_of_ne h0 h1 h2 h3 h4 h5 h6) fun _ => ⟨rfl, rfl, rfl⟩

/-! ### Group 1110 (R137) -/

theorem reads_decodeShiftMem (hg : groupField w = 0xE#4) (hsz : sizeOf2 (sizeField w) = none) :
    Reads (decodeShiftMem w) (Encodes w) := by
  have ho := opField_of_sizeOf2_none hsz
  unfold decodeShiftMem
  split
  case h_9 => exact reads_unmatched w _
  case h_1 hr h8 | h_2 hr h8 | h_3 hr h8 | h_4 hr h8 | h_5 hr h8 | h_6 hr h8 | h_7 hr h8 | h_8 hr h8 =>
    rw [h8] at ho
    exact reads_rowEA hg hr ho fun _ => ⟨rfl, rfl, rfl⟩

theorem reads_decodeShiftReg {sz : Size} (hg : groupField w = 0xE#4) (hsz : sizeOf2 (sizeField w) = some sz) :
    Reads (decodeShiftReg w sz) (Encodes w) := by
  have ho := opField_of_sizeOf2 hsz
  have hword {left : Bool} {m : BitVec 3} (h8 : bit8 w = left) (hm : modeField w = m) :
      opWordShiftReg (regField w) left sz m (eaRegField w) = w := opWord_eq hg rfl (h8 ▸ ho) hm rfl
  unfold decodeShiftReg
  dsimp only
  split
  case h_15 h8 h0 h1 h2 h3 h4 h5 h6 | h_16 h8 h0 h1 h2 h3 h4 h5 h6 =>
    exact .pure ⟨rfl, hword h8 (eq_seven_of_ne h0 h1 h2 h3 h4 h5 h6), rfl⟩
  all_goals
    rename_i hm h8
    exact .pure ⟨rfl, hword h8 hm, rfl⟩

theorem reads_decodeE (hg : groupField w = 0xE#4) : Reads (decodeE w) (Encodes w) := by
  unfold decodeE
  split
  next h => exact reads_decodeShiftMem hg h
  next h => exact reads_decodeShiftReg hg h

end Map

/-- What any operation word is decoded to has that operation word. -/
theorem reads_decodeGroup (w : Word) : Reads (decodeGroup w) (Encodes w) := by
  unfold decodeGroup
  split
  case h_1 hg => exact reads_decode0 hg
  case h_2 hg => exact reads_decodeMove hg
  case h_3 hg => exact reads_decodeMoveWL hg
  case h_4 hg => exact reads_decodeMoveWL hg
  case h_5 hg => exact reads_decode4 hg
  case h_6 hg => exact reads_decode5 hg
  case h_7 hg => exact reads_decode6 hg
  case h_8 hg => exact reads_decode7 hg
  case h_9 hg => exact reads_decode8 hg
  case h_10 hg => exact reads_decode9 hg
  case h_11 hg => exact .pure ⟨rfl, opWord_lineA_fields hg, rfl⟩
  case h_12 hg => exact reads_decodeB hg
  case h_13 hg => exact reads_decodeC hg
  case h_14 hg => exact reads_decodeD hg
  case h_15 hg => exact reads_decodeE hg
  case h_16 =>
    simp only [imp_false] at *
    exact .pure ⟨rfl, opWord_lineF_fields (by bv_omega), rfl⟩

/-- Settles O3: the decoder's branches, each of which answers its own operation word and takes its own words. -/
theorem decodedInstruction : Obligations.DecodedInstruction := by
  unfold Obligations.DecodedInstruction
  intro w ws i rest h
  obtain ⟨own, rfl, hwf, hop, hlen⟩ := reads_decodeGroup w ws i rest h
  rw [← hlen]
  exact ⟨hwf, hop, List.length_append, List.drop_left.symm⟩

end Sys2Proof

namespace Sys2Proof

/-! ## Encodings are read back (30_encoding.md R100 to R150)

The words of an instruction are read by the row of the opcode map that its operation word selects; the fields of that
word are the instruction's own, and where two rows share fields the categories tell them apart. -/

section Words

variable {w : Word} {c : Category} {sz : Size} {ea : EA}

/-! ### What each form reads back -/

theorem withEA_words {k : EA → Instr} (hf : ea.HasFields (modeField w) (eaRegField w)) (h : ea.wf c sz = true)
    (rest : List Word) : withEA w c sz k (ea.words sz ++ rest) = .ok (k ea, rest) := by
  obtain ⟨hm, hr⟩ := hf
  simp only [withEA, hm, hr, EA.acceptMode_fields h]
  exact Reader.bind_ok (takeEA_words h rest)

theorem withImmEA_words {v : Long} {k : Size → Long → EA → Instr}
    (hf : ea.HasFields (modeField w) (eaRegField w)) (hv : immFits sz v = true) (h : ea.wf .dataAlterable sz = true)
    (rest : List Word) : withImmEA w sz k (immWords sz v ++ ea.words sz ++ rest) = .ok (k sz v ea, rest) := by
  obtain ⟨hm, hr⟩ := hf
  simp only [withImmEA, hm, hr, EA.acceptMode_fields h, List.append_assoc]
  exact (Reader.bind_ok (takeImm_immWords hv _)).trans (Reader.bind_ok (takeEA_words h rest))

theorem withBitEA_words {n : Byte} {k : Byte → EA → Instr} (hf : ea.HasFields (modeField w) (eaRegField w))
    (h : ea.wf c ea.bitSize = true) (rest : List Word) :
    withBitEA w c k (n.setWidth 16 :: ea.words ea.bitSize ++ rest) = .ok (k n ea, rest) := by
  obtain ⟨hm, hr⟩ := hf
  have hn : (n.setWidth 16).setWidth 8 = n := by simp
  simp only [withBitEA, hm, hr, bitSizeOf_modeBits, EA.acceptMode_fields h]
  refine (Reader.bind_ok (r := takeWord) rfl).trans ?_
  rw [hn]
  exact Reader.bind_ok (takeEA_words h rest)

theorem withMaskEA_words {sz : SizeWL} {mask : Word} {k : SizeWL → Word → EA → Instr}
    (hf : ea.HasFields (modeField w) (eaRegField w)) (h : ea.wf c sz.size = true) (rest : List Word) :
    withMaskEA w c sz k (mask :: ea.words sz.size ++ rest) = .ok (k sz mask ea, rest) := by
  obtain ⟨hm, hr⟩ := hf
  simp only [withMaskEA, hm, hr, EA.acceptMode_fields h]
  exact (Reader.bind_ok (r := takeWord) rfl).trans (Reader.bind_ok (takeEA_words h rest))

theorem withByteWord_word (b : Byte) (k : Byte → Instr) (rest : List Word) :
    withByteWord k (b.setWidth 16 :: rest) = .ok (k b, rest) := by
  have hb : (b.setWidth 16).setWidth 8 = b := by simp
  exact (congrArg (fun x => Except.ok (k x, rest)) hb)

theorem withDisp_words {d : Disp} {k : Disp → Instr} (hd : low8 w = d.byteField) (h : d.wf = true) (rest : List Word) :
    withDisp w k (d.words ++ rest) = .ok (k d, rest) := by
  cases d with
  | byte b =>
    have hb : b ≠ 0 := bne_iff_ne.mp h
    simp only [withDisp, hd, Disp.byteField, if_neg hb]
    rfl
  | word d =>
    simp only [withDisp, hd, Disp.byteField, if_pos]
    rfl

theorem decodeMove_words {src dst : EA} (hsf : src.HasFields (modeField w) (eaRegField w))
    (hdf : dst.HasFields (opField w) (regField w)) (hs : src.wf .all sz = true) (hd : dst.wf .dataAlterable sz = true)
    (rest : List Word) : decodeMove w sz (src.words sz ++ dst.words sz ++ rest) = .ok (.move sz src dst, rest) := by
  rw [List.append_assoc]
  obtain ⟨hsm, hsr⟩ := hsf
  obtain ⟨hdm, hdr⟩ := hdf
  refine decodeMove_ok (m1 := src.mode) (m2 := dst.mode) ?_ ?_ (mid := dst.words sz ++ rest) ?_ ?_
  · rw [hsm, hsr, EA.acceptMode_fields hs]
  · rw [hdm, hdr, EA.acceptMode_fields hd]
  · rw [hsr, takeEA_words hs]
  · rw [hdr, takeEA_words hd]

end Words

/-! ### What each row reads back -/

/-- The words of the instruction are read as it, whatever words follow them. -/
def ReadsBack (i : Instr) : Prop :=
  i.wf = true → ∀ rest, decodeGroup i.opWord (i.extWords ++ rest) = .ok (i, rest)

section Rows

variable {i : Instr}

theorem readsBack_pure (hrow : decodeGroup i.opWord = pure i) (hext : i.extWords = []) : ReadsBack i := by
  intro _ rest
  rw [hrow, hext]
  rfl

theorem readsBack_word {d : Word} {k : Word → Instr} (hrow : decodeGroup i.opWord = withWord k)
    (hext : i.extWords = [d]) (hk : k d = i) : ReadsBack i := by
  intro _ rest
  rw [hrow, hext, ← hk]
  rfl

theorem readsBack_byteWord {b : Byte} {k : Byte → Instr} (hrow : decodeGroup i.opWord = withByteWord k)
    (hext : i.extWords = [b.setWidth 16]) (hk : k b = i) : ReadsBack i := by
  intro _ rest
  rw [hrow, hext, ← hk]
  exact withByteWord_word b k rest

theorem readsBack_disp {d : Disp} {k : Disp → Instr} (hrow : decodeGroup i.opWord = withDisp i.opWord k)
    (hlow : low8 i.opWord = d.byteField) (hwf : i.wf = true → d.wf = true) (hext : i.extWords = d.words)
    (hk : k d = i) : ReadsBack i := by
  intro h rest
  rw [hrow, hext, ← hk]
  exact withDisp_words (hk ▸ hlow) (hwf h) rest

/-! The rows with an effective address, whose fields they are given: for the instruction `k ea` of such a row each of
these says `ReadsBack`. -/

variable {g : BitVec 4} {r o : BitVec 3} {c : Category} {sz : Size} (ea : EA)

theorem readsBack_ea {k : EA → Instr} (hrow : ea.wf c sz = true →
    decodeGroup (opWordEA g r o ea) = withEA (opWordEA g r o ea) c sz k) (h : ea.wf c sz = true) (rest : List Word) :
    decodeGroup (opWordEA g r o ea) (ea.words sz ++ rest) = .ok (k ea, rest) := by
  rw [hrow h, withEA_words (ea.hasFields_opWordEA g r o) h]

theorem readsBack_bitImm {n : Byte} {k : Byte → EA → Instr} (hrow : ea.wf c ea.bitSize = true →
    decodeGroup (opWordEA g r o ea) = withBitEA (opWordEA g r o ea) c k) (h : ea.wf c ea.bitSize = true)
    (rest : List Word) :
    decodeGroup (opWordEA g r o ea) (n.setWidth 16 :: ea.words ea.bitSize ++ rest) = .ok (k n ea, rest) := by
  rw [hrow h, withBitEA_words (ea.hasFields_opWordEA g r o) h]

theorem readsBack_mask {sz : SizeWL} {mask : Word} {k : SizeWL → Word → EA → Instr} (hrow : ea.wf c sz.size = true →
    decodeGroup (opWordEA g r o ea) = withMaskEA (opWordEA g r o ea) c sz k) (h : ea.wf c sz.size = true)
    (rest : List Word) :
    decodeGroup (opWordEA g r o ea) (mask :: ea.words sz.size ++ rest) = .ok (k sz mask ea, rest) := by
  rw [hrow h, withMaskEA_words (ea.hasFields_opWordEA g r o) h]

theorem readsBack_imm {v : Long} {k : Size → Long → EA → Instr} (hrow : ea.wf .dataAlterable sz = true →
    decodeGroup (opWordEA g r o ea) = withImmEA (opWordEA g r o ea) sz k)
    (h : (immFits sz v && ea.wf .dataAlterable sz) = true) (rest : List Word) :
    decodeGroup (opWordEA g r o ea) (immWords sz v ++ ea.words sz ++ rest) = .ok (k sz v ea, rest) := by
  obtain ⟨hv, hea⟩ := (Bool.and_eq_true ..).mp h
  rw [hrow hea, withImmEA_words (ea.hasFields_opWordEA g r o) hv hea]

end Rows

/-! ### Rows that are not of one of the forms alone -/

theorem condOf_code (c : Cond) : condOf c.code = c := by
  cases c <;> rfl

theorem pairOr_other {w : Word} {mode0 mode1 other : Reader Instr} (h0 : modeField w ≠ 0#3) (h1 : modeField w ≠ 1#3) :
    pairOr w mode0 mode1 other = other := by
  unfold pairOr
  split
  next h => exact absurd h h0
  next h => exact absurd h h1
  next => rfl

theorem readsBack_move (sz : Size) (src dst : EA) : ReadsBack (.move sz src dst) := by
  intro h rest
  obtain ⟨hsrc, hdst⟩ := (Bool.and_eq_true ..).mp h
  have hrow : decodeGroup (opWordEA sz.moveGroup dst.regBits dst.modeBits src) =
      decodeMove (opWordEA sz.moveGroup dst.regBits dst.modeBits src) sz := by
    cases sz <;> simp [decodeGroup, decodeMoveWL, SizeWL.size, Size.moveGroup, EA.modeBits_ne_one hdst rfl]
  rw [Instr.opWord, hrow]
  exact decodeMove_words (src.hasFields_opWordEA ..) ⟨opField_opWordEA .., regField_opWordEA ..⟩ hsrc hdst rest

theorem readsBack_trap (n : BitVec 4) : ReadsBack (.trap n) := by
  obtain ⟨hg, hr, ho, hm | hm, hn⟩ := opWord_trap_fields n <;>
    exact readsBack_pure (by simp [decodeGroup, decode4, decode4Low, decode4E, hg, hr, ho, hm, hn]) rfl

theorem readsBack_moveFromCcr (low : BitVec 6) : ReadsBack (.moveFromCcr low) := by
  obtain ⟨hg, hr, ho, hlow⟩ := opWord_moveFromCcr_fields low
  exact readsBack_pure (by simp [decodeGroup, decode4, decode4Low, hg, hr, ho, hlow]) rfl

theorem readsBack_scc (c : Cond) (ea : EA) : ReadsBack (.scc c ea) := by
  intro h rest
  have hrow : decodeGroup (opWordCondEA 5 c.code ea.modeBits ea.regBits) =
      withEA (opWordCondEA 5 c.code ea.modeBits ea.regBits) .dataAlterable .b (.scc c) := by
    simp [decodeGroup, decode5, sizeOf2, condOf_code, EA.modeBits_ne_one h rfl]
  rw [Instr.opWord, hrow]
  exact withEA_words ⟨modeField_opWordCondEA .., eaRegField_opWordCondEA ..⟩ h rest

theorem decode6_bcc {w : Word} (h0 : condField w ≠ 0#4) (h1 : condField w ≠ 1#4) :
    decode6 w = withDisp w (.bcc (condOf (condField w))) := by
  unfold decode6
  split
  next h => exact absurd h h0
  next h => exact absurd h h1
  next => rfl

theorem readsBack_bcc (c : Cond) (d : Disp) : ReadsBack (.bcc c d) := by
  intro h
  simp only [Instr.wf, Bool.and_eq_true, bne_iff_ne] at h
  obtain ⟨⟨ht, hf⟩, hd⟩ := h
  have h0 : c.code ≠ 0#4 := fun hc => ht (by rw [← condOf_code c, hc]; rfl)
  have h1 : c.code ≠ 1#4 := fun hc => hf (by rw [← condOf_code c, hc]; rfl)
  refine readsBack_disp (k := .bcc c) ?_ (low8_opWordCond8 ..) (fun _ => hd) rfl rfl (by simp [Instr.wf, ht, hf, hd])
  simp [Instr.opWord, decodeGroup, decode6_bcc, h0, h1, condOf_code]

/-- Every instruction is read back, by the row of its operation word (30_encoding.md R130 to R137). -/
theorem readsBack (i : Instr) : ReadsBack i := by
  cases i with
  -- group 0000
  | oriToCcr v | andiToCcr v | eoriToCcr v =>
    refine readsBack_byteWord ?_ rfl rfl
    simp [Instr.opWord, decodeGroup, decode0, decodeImmRow, logicImm, groupField, regField, opField, modeField,
      eaRegField]
  | oriToSr v | andiToSr v | eoriToSr v =>
    refine readsBack_word ?_ rfl rfl
    simp [Instr.opWord, decodeGroup, decode0, decodeImmRow, logicImm, groupField, regField, opField, modeField,
      eaRegField]
  | movepToReg sz ry d rx =>
    cases sz <;>
      exact readsBack_word (k := fun d => .movepToReg _ ry d rx) (by simp [Instr.opWord, decodeGroup, decode0]) rfl rfl
  | movepToMem sz rx ry d => cases sz <;> exact readsBack_word (by simp [Instr.opWord, decodeGroup, decode0]) rfl rfl
  | btstReg rx ea | bchgReg rx ea | bclrReg rx ea | bsetReg rx ea =>
    apply readsBack_ea ea
    intro h
    simp [decodeGroup, decode0, bitSizeOf_modeBits, EA.modeBits_ne_one h rfl]
  | btstImm n ea | bchgImm n ea | bclrImm n ea | bsetImm n ea =>
    apply readsBack_bitImm ea
    simp [decodeGroup, decode0, decodeImmRow]
  | ori sz v ea | andi sz v ea | subi sz v ea | addi sz v ea | eori sz v ea | cmpi sz v ea =>
    apply readsBack_imm ea
    intro h
    cases sz <;> simp [decodeGroup, decode0, decodeImmRow, logicImm, Size.code, -not_and, EA.fields_ne_imm h rfl]
  -- groups 0001, 0010, 0011
  | movea sz src rx =>
    apply readsBack_ea src
    cases sz <;> simp [decodeGroup, decodeMoveWL, SizeWL.size, Size.moveGroup]
  | move sz src dst => exact readsBack_move sz src dst
  -- group 0100
  | reset | nop | rte | rts | trapv | rtr | illegal => exact readsBack_pure rfl rfl
  | stop v =>
    refine readsBack_word ?_ rfl rfl
    simp [Instr.opWord, decodeGroup, decode4, decode4Low, decode4E, decodeFixed, groupField, regField, opField,
      modeField, eaRegField]
  | trap n => exact readsBack_trap n
  | link r d => exact readsBack_word (by simp [Instr.opWord, decodeGroup, decode4, decode4Low, decode4E]) rfl rfl
  | unlk r | moveToUsp r | moveFromUsp r =>
    exact readsBack_pure (by simp [Instr.opWord, decodeGroup, decode4, decode4Low, decode4E]) rfl
  | swap r => exact readsBack_pure (by simp [Instr.opWord, decodeGroup, decode4, decode4Low, decode48]) rfl
  | ext sz r =>
    cases sz <;>
      exact readsBack_pure (by simp [Instr.opWord, decodeGroup, decode4, decode4Low, decode48, SizeWL.code]) rfl
  | jsr ea | jmp ea | chk ea rx | lea ea rx | nbcd ea | moveFromSr ea | moveToCcr ea | moveToSr ea =>
    apply readsBack_ea ea
    simp [decodeGroup, decode4, decode4Low, decode48]
  | pea ea =>
    apply readsBack_ea ea
    intro h
    simp [decodeGroup, decode4, decode4Low, decode48, EA.modeBits_ne_zero h rfl]
  | movemToMem sz mask ea | movemToReg sz mask ea =>
    apply readsBack_mask ea
    intro h
    cases sz <;> simp [decodeGroup, decode4, decode4Low, decode48, SizeWL.code, EA.modeBits_ne_zero h rfl]
  | negx sz ea | clr sz ea | neg sz ea | not sz ea =>
    apply readsBack_ea ea
    cases sz <;> simp [decodeGroup, decode4, decode4Low, Size.code, withSizedEA, sizeOf2]
  | moveFromCcr low => exact readsBack_moveFromCcr low
  | tas ea =>
    apply readsBack_ea ea
    intro h
    simp [decodeGroup, decode4, decode4Low, opWordEA_ne_illegal h rfl]
  | tst sz ea =>
    apply readsBack_ea ea
    intro h
    cases sz <;> simp [decodeGroup, decode4, decode4Low, Size.code, withSizedEA, sizeOf2, opWordEA_ne_illegal h rfl]
  -- groups 0101, 0110, 0111
  | dbcc c r d =>
    exact readsBack_word (by simp [Instr.opWord, decodeGroup, decode5, sizeOf2, condOf_code]) rfl rfl
  | scc c ea => exact readsBack_scc c ea
  | addq sz q ea | subq sz q ea =>
    apply readsBack_ea ea
    cases sz <;> simp [decodeGroup, decode5, sizeOf2, Size.code, Size.codeHigh]
  | bra d | bsr d =>
    exact readsBack_disp (by simp [Instr.opWord, decodeGroup, decode6]) (low8_opWordCond8 ..) id rfl rfl
  | bcc c d => exact readsBack_bcc c d
  | moveq v rx => exact readsBack_pure (by simp [decodeGroup, decode7]) rfl
  -- groups 1000, 1001, 1011, 1100, 1101
  | divu ea rx | divs ea rx | mulu ea rx | muls ea rx =>
    apply readsBack_ea ea
    simp [decodeGroup, decode8, decodeC]
  | orToReg sz ea rx | andToReg sz ea rx | addToReg sz ea rx | subToReg sz ea rx | cmp sz ea rx =>
    apply readsBack_ea ea
    cases sz <;> simp [decodeGroup, decode8, decode9, decodeB, decodeC, decodeD, Size.code]
  | orToMem sz rx ea | andToMem sz rx ea | subToMem sz rx ea | addToMem sz rx ea =>
    apply readsBack_ea ea
    intro h
    cases sz <;> simp [decodeGroup, decode8, decode9, decodeC, decodeD, Size.codeHigh, pairOr_other,
      EA.modeBits_ne_zero h rfl, EA.modeBits_ne_one h rfl]
  | eor sz rx ea =>
    apply readsBack_ea ea
    intro h
    cases sz <;> simp [decodeGroup, decodeB, Size.codeHigh, EA.modeBits_ne_one h rfl]
  | suba sz ea rx | cmpa sz ea rx | adda sz ea rx =>
    apply readsBack_ea ea
    cases sz <;> simp [decodeGroup, decode9, decodeB, decodeD, SizeWL.size, SizeWL.codeA]
  | sbcdReg ry rx | sbcdMem ry rx | abcdReg ry rx | abcdMem ry rx | exgDD rx ry | exgAA rx ry | exgDA rx ry =>
    exact readsBack_pure (by simp [Instr.opWord, decodeGroup, decode8, decodeC, pairOr]) rfl
  | subxReg sz ry rx | subxMem sz ry rx | addxReg sz ry rx | addxMem sz ry rx | cmpm sz ry rx =>
    cases sz <;>
      exact readsBack_pure (by simp [Instr.opWord, decodeGroup, decode9, decodeB, decodeD, pairOr, Size.codeHigh]) rfl
  -- group 1110
  | aslMem ea | asrMem ea | lslMem ea | lsrMem ea | roxlMem ea | roxrMem ea | rolMem ea | rorMem ea =>
    apply readsBack_ea ea
    simp [decodeGroup, decodeE, decodeShiftMem, sizeOf2]
  | aslReg sz rx ry | asrReg sz rx ry | lslReg sz rx ry | lsrReg sz rx ry | roxlReg sz rx ry | roxrReg sz rx ry
  | rolReg sz rx ry | rorReg sz rx ry | aslImm sz q ry | asrImm sz q ry | lslImm sz q ry | lsrImm sz q ry
  | roxlImm sz q ry | roxrImm sz q ry | rolImm sz q ry | rorImm sz q ry =>
    refine readsBack_pure ?_ rfl
    cases sz <;>
      simp [Instr.opWord, opWordShiftReg, decodeGroup, decodeE, decodeShiftReg, sizeOf2, Size.code, Size.codeHigh]
  -- lines A and F
  | lineA low | lineF low => exact readsBack_pure (by simp [decodeGroup]) rfl

/-- Settles O2: the operation word of each instruction selects the row that reads its extension words. -/
theorem decodeEncode : Obligations.DecodeEncode := by
  unfold Obligations.DecodeEncode
  exact fun i rest h => readsBack i h rest

end Sys2Proof

/-! Proofs about the data movement instructions (40_data_movement.md) and the writes of the condition codes. -/

namespace Sys2Proof.Machine

/-! ## Shared by the data movement instructions -/

/-- LOGIC changes condition codes alone (00_scope.md R10). -/
theorem StatusReg.sameSystem_logic {n : Nat} (sr : StatusReg) (v : BitVec n) : (sr.logic v).SameSystem sr :=
  ⟨rfl, rfl, rfl⟩

theorem State.fetchable_second {s : State} {n : Nat} (h : s.fetchable s.pc (2 + n) = true) :
    (s.pastWords 1).cellsOk .w (s.pastWords 1).pc = true :=
  (State.fetchable_succ (State.fetchable_past 1 1 (State.fetchable_take (by omega) h))).1

/-- Fetching the word after the operation word. -/
theorem fetchExt_second {s : State} {n : Nat} (h : s.fetchable s.pc (2 + n) = true) :
    fetchExt (s.pastWords 1) = .ok () (s.pastWords 2) := by
  rw [← s.pastWords_pastWords 1 1]
  exact fetchExt_ok (State.fetchable_second h)

theorem State.keeps_second (s : State) (c : Changes) : (s.pastWords 1).Keeps (s.pastWords 2) c :=
  s.pastWords_pastWords 1 1 ▸ (s.pastWords 1).keeps_pastWords 1 c

/-- What completes is what the instruction's rule makes of the state past the operation word. -/
theorem State.completes_of_body {s t : State} {i : Instr} {body : Exec Unit} {c : Changes}
    (hexec : exec i s = runBody body s) (hbody : body (s.pastWords 1) = .ok () t) (hkeeps : (s.pastWords 1).Keeps t c) :
    s.Completes i t c :=
  ⟨hexec.trans (runBody_ok hbody), (s.keeps_pastWords 1 c).trans hkeeps⟩

/-! ## Registers alone: MOVEQ, EXT, SWAP, EXG (R214, R291, R216, R215) -/

theorem swapWords_eq_rotateLeft (v : Long) : swapWords v = v.rotateLeft 16 := by
  refine BitVec.eq_of_getLsbD_eq fun i hi => ?_
  rw [swapWords, BitVec.getLsbD_append, BitVec.getLsbD_rotateLeft]
  by_cases h : i < 16
  · simp [h]
  · simp [h, hi, show i - 16 < 16 by omega]

/-- An instruction that writes one data register and the flags of LOGIC. -/
theorem State.keeps_setDreg_logic {n : Nat} (s : State) (r : RegNo) (x : Long) (v : BitVec n) :
    s.Keeps { (s.pastWords 1).setDreg r x with sr := s.sr.logic v } { dregs := [r], aregs := [], bytes := [] } :=
  ((s.keeps_pastWords 1 _).trans (State.keeps_setDreg _ r x (by simp))).withFlags _ (s.sr.sameSystem_logic v)

/-- EXG of two data registers (R215); a register exchanged with itself stays. -/
theorem State.exchanges_dregs (s : State) (rx ry : RegNo) :
    ∃ t, s.Completes (.exgDD rx ry) t { dregs := [rx, ry], aregs := [], bytes := [] } ∧ t.sr = s.sr ∧
      t.pc = (s.pastWords 1).pc ∧ t.deviceLog = s.deviceLog ∧ t.dreg rx = s.dreg ry ∧ t.dreg ry = s.dreg rx := by
  refine ⟨((s.pastWords 1).setDreg rx (s.dreg ry)).setDreg ry (s.dreg rx),
    ⟨rfl, ((s.keeps_pastWords 1 _).trans (State.keeps_setDreg _ rx _ (by simp))).trans (State.keeps_setDreg _ ry _ (by simp))⟩,
    rfl, rfl, rfl, ?_, State.dreg_setDreg_self _ ry _⟩
  by_cases h : rx = ry
  · rw [h, State.dreg_setDreg_self]
  · rw [State.dreg_setDreg_of_ne _ _ h, State.dreg_setDreg_self]

/-- EXG of two address registers. -/
theorem State.exchanges_aregs (s : State) (rx ry : RegNo) :
    ∃ t, s.Completes (.exgAA rx ry) t { dregs := [], aregs := [rx, ry], bytes := [] } ∧ t.sr = s.sr ∧
      t.pc = (s.pastWords 1).pc ∧ t.deviceLog = s.deviceLog ∧ t.areg rx = s.areg ry ∧ t.areg ry = s.areg rx := by
  refine ⟨((s.pastWords 1).setAreg rx (s.areg ry)).setAreg ry (s.areg rx),
    ⟨rfl, ((s.keeps_pastWords 1 _).trans (State.keeps_setAreg _ rx _ (by simp))).trans (State.keeps_setAreg _ ry _ (by simp))⟩,
    by simp, by simp, by simp, ?_, State.areg_setAreg_self _ ry _⟩
  by_cases h : rx = ry
  · rw [h, State.areg_setAreg_self]
  · rw [State.areg_setAreg_of_ne _ _ h, State.areg_setAreg_self]

/-- EXG of a data register and an address register. -/
theorem State.exchanges_dreg_areg (s : State) (rx ry : RegNo) :
    ∃ t, s.Completes (.exgDA rx ry) t { dregs := [rx], aregs := [ry], bytes := [] } ∧ t.sr = s.sr ∧
      t.pc = (s.pastWords 1).pc ∧ t.deviceLog = s.deviceLog ∧ t.dreg rx = s.areg ry ∧ t.areg ry = s.dreg rx :=
  ⟨((s.pastWords 1).setDreg rx (s.areg ry)).setAreg ry (s.dreg rx),
    ⟨rfl, ((s.keeps_pastWords 1 _).trans (State.keeps_setDreg _ rx _ (by simp))).trans (State.keeps_setAreg _ ry _ (by simp))⟩,
    by simp, by simp, by simp, by simp, State.areg_setAreg_self _ ry _⟩

/-- Settles O41: each is one update of the state past the operation word. -/
theorem registerMoves : Obligations.RegisterMoves := by
  unfold Obligations.RegisterMoves
  intro s s1
  refine ⟨fun v rx => ⟨rfl, s.keeps_setDreg_logic rx _ _⟩, fun r => ⟨⟨rfl, s.keeps_setDreg_logic r _ _⟩,
      ⟨rfl, s.keeps_setDreg_logic r _ _⟩, ?_⟩,
    fun rx ry => ⟨s.exchanges_dregs rx ry, s.exchanges_aregs rx ry, s.exchanges_dreg_areg rx ry⟩⟩
  rw [← swapWords_eq_rotateLeft]
  exact ⟨rfl, s.keeps_setDreg_logic r _ _⟩

/-! ## MOVE (R201) -/

/-- Settles O42: source, destination, store and flags in the order of the rule. -/
theorem move : Obligations.Move := by
  unfold Obligations.Move
  intro sz src dst s s1 s2 from_ v s2' s3 to_ hf hr hw
  have hplatform (x : Long) (n : Nat) : s2'.fetchable x n = s1.fetchable x n :=
    State.fetchable_congr (by simp [s2', s2]) (by simp [s2', s2]) x n
  have hpc : s2'.pc = (s1.pastWords (eaExtCount sz src)).pc := by simp [s2', s2]
  have hsrc : s1.fetchable s1.pc (eaExtCount sz src + eaExtCount sz dst) = true := State.fetchable_past 1 _ hf
  have hdst : s2'.fetchable s2'.pc (eaExtCount sz dst) = true := by
    rw [hplatform, hpc]
    exact State.fetchable_drop _ _ hsrc
  have hsr : (to_.put sz s3 v).sr = s.sr := by simp [s3, s2', s2, s1]
  refine State.completes_of_body rfl ?_ ?_
  · rw [Exec.bind_ok (readEA_ok (State.fetchable_take (by omega) hsrc) hr), Exec.bind_ok (resolveEA_ok hdst),
      Exec.bind_ok (writeLoc_ok hw), setFlags_apply, hsr]
  · have hput : s1.Keeps (to_.put sz s3 v)
        { dregs := to_.dregs, aregs := eaStepped src ++ (eaStepped dst ++ to_.aregs), bytes := to_.bytes sz } :=
      ((s1.keeps_resolved sz src (by simp)).trans (s2.keeps_afterRead sz from_ _)).trans
        ((s2'.keeps_resolved sz dst (by simp)).trans (s3.keeps_put sz to_ v (by simp) (by simp) (by simp)))
    exact hput.withFlags _ (s.sr.sameSystem_logic v)

/-! ## The condition codes written whole (R204, 42_logical.md R334, R338, R343) -/

theorem StatusReg.sameSystem_withCcr (sr : StatusReg) (b : Byte) : (sr.withCcr b).SameSystem sr := ⟨rfl, rfl, rfl⟩

theorem StatusReg.getLsbD_ccr (r : StatusReg) {j : Nat} (hj : j < 8) : r.ccr.getLsbD j = r.bit j := by
  rw [ccr, BitVec.getLsbD_setWidth, getLsbD_toWord r (by omega), decide_eq_true hj, Bool.true_and]

/-- An immediate combined with `CCR`, bit by bit. -/
theorem State.completes_immToCcr {s : State} {i : Instr} {b : Byte} {f : Byte → Byte → Byte} {g : Bool → Bool → Bool}
    (hexec : exec i s = runBody (immToCcr b f) s) (h : s.fetchable s.pc 2 = true)
    (hbit : ∀ (x y : Byte) (j : Nat), j < 8 → (f x y).getLsbD j = g (x.getLsbD j) (y.getLsbD j)) :
    s.Completes i { s.pastWords 2 with sr := { s.sr with
      x := g s.sr.x (b.getLsbD 4), n := g s.sr.n (b.getLsbD 3), z := g s.sr.z (b.getLsbD 2)
      v := g s.sr.v (b.getLsbD 1), c := g s.sr.c (b.getLsbD 0) } } .none := by
  have hsr : s.sr.withCcr (f s.sr.ccr b) = { s.sr with
      x := g s.sr.x (b.getLsbD 4), n := g s.sr.n (b.getLsbD 3), z := g s.sr.z (b.getLsbD 2)
      v := g s.sr.v (b.getLsbD 1), c := g s.sr.c (b.getLsbD 0) } := by
    simp only [StatusReg.withCcr, hbit, StatusReg.getLsbD_ccr, StatusReg.bit, Nat.reduceLT]
  rw [← hsr]
  refine State.completes_of_body hexec ?_ ?_
  · rw [immToCcr, Exec.bind_ok (fetchExt_second (n := 0) h)]
    rfl
  · exact (s.keeps_second .none).withFlags _ (s.sr.sameSystem_withCcr _)

/-- Settles O57: MOVE to CCR by the bits of the word read, the immediate forms by what they do to a bit. -/
theorem conditionCodeWrites : Obligations.ConditionCodeWrites := by
  unfold Obligations.ConditionCodeWrites
  refine fun s => ⟨?_, fun b h => ⟨State.completes_immToCcr rfl h ?_, State.completes_immToCcr rfl h ?_,
    State.completes_immToCcr rfl h ?_⟩⟩
  · intro ea s1 s2 loc s3 v h hr
    have hsr : s3.sr.withCcr (v.setWidth 8) = { s.sr with
        x := v.getLsbD 4, n := v.getLsbD 3, z := v.getLsbD 2, v := v.getLsbD 1, c := v.getLsbD 0 } := by
      simp [StatusReg.withCcr, s3, s2, s1]
    rw [← hsr]
    refine State.completes_of_body rfl ?_ ?_
    · rw [Exec.bind_ok (readEA_ok (State.fetchable_past 1 _ h) hr), setFlags_apply]
    · have hread : s1.Keeps s3 { dregs := [], aregs := eaStepped ea, bytes := [] } :=
        (s1.keeps_resolved .w ea (by simp)).trans (s2.keeps_afterRead .w loc _)
      refine hread.withFlags _ ?_
      rw [show s1.sr = s3.sr by simp [s3, s2]]
      exact s3.sr.sameSystem_withCcr _
  · exact fun x y j _ => BitVec.getLsbD_and
  · exact fun x y j _ => BitVec.getLsbD_or
  · exact fun x y j _ => BitVec.getLsbD_xor

/-! ## PEA, LINK, UNLK (R218, R219, R220) -/

/-- PEA pushes an address, to memory cells or to a device. -/
theorem State.completes_pea {s : State} {ea : EA} {sp : Space} {a : Long}
    (hf : s.fetchable s.pc (1 + eaExtCount .l ea) = true) (ha : eaLoc .l ea (s.pastWords 1) = .mem sp a)
    (hw : s.accessOk .l (((s.pastWords 1).resolved .l ea).sp - 4#32) = true) :
    let s2 := (s.pastWords 1).resolved .l ea
    let top := s2.sp - 4#32
    s.Completes (.pea ea) ((s2.setSp top).busWrite .l top a)
      { dregs := [], aregs := 7#3 :: eaStepped ea, bytes := bytesAt top 4 } := by
  intro s2 top
  have hok : (s2.setSp top).accessOk .l top = true := (State.accessOk_congr (by simp [s2]) .l top).trans hw
  refine State.completes_of_body rfl ?_ ?_
  · rw [Exec.bind_ok (addressEA_ok (State.fetchable_past 1 _ hf) ha), push32_eq, memWrite_ok hok]
  · exact ((State.keeps_resolved _ .l ea (by simp)).trans (s2.keeps_setSp top (by simp))).trans
      (State.keeps_busWrite _ .l top a (List.Subset.refl _))

/-- What LINK leaves: `An` stored at the new top, the top in `An`, the stack pointer moved from there. -/
def State.linked (s : State) (r : RegNo) (d : Word) : State :=
  let top := s.sp - 4#32
  (((s.setSp top).writeLong top (s.areg r)).setAreg r top).setSp (top + d.signExtend 32)

theorem State.sp_setAreg_of_ne (s : State) {r : RegNo} (hr : r ≠ 7#3) (v : Long) : (s.setAreg r v).sp = s.sp := by
  rw [← State.areg_seven, State.areg_setAreg_of_ne _ _ hr.symm, State.areg_seven]

theorem State.sp_writeLong (s : State) (x v : Long) : (s.writeLong x v).sp = s.sp := s.sp_writeSized .l x v

theorem execLink_ok {s : State} {r : RegNo} {d : Word} (hr : r ≠ 7#3) (hf : s.fetchable s.pc 2 = true)
    (hc : s.cellsOk .l (s.sp - 4#32) = true) : execLink r d s = .next ((s.pastWords 2).linked r d) := by
  have hpush : push32 ((s.pastWords 2).areg r) (s.pastWords 2) = .ok () _ := push32_ok hc
  refine runBody_ok ?_
  simp only [Exec.bind_apply, Exec.if_neg hr, fetchExt_second (n := 0) hf, Exec.get_apply, hpush, Exec.modify_apply,
    State.sp_setAreg_of_ne _ hr, State.sp_writeLong, State.sp_setSp, State.linked]

theorem State.keeps_linked (s : State) (r : RegNo) (d : Word) :
    s.Keeps (s.linked r d) { dregs := [], aregs := [r, 7#3], bytes := bytesAt (s.sp - 4#32) 4 } :=
  (((s.keeps_setSp _ (by simp)).trans (State.keeps_writeLong _ _ _ (List.Subset.refl _))).trans
    (State.keeps_setAreg _ r _ (by simp))).trans (State.keeps_setSp _ _ (by simp))

/-- LINK pushes `An` and leaves the new top in it. -/
theorem State.completes_link {s : State} {r : RegNo} {d : Word} (hr : r ≠ 7#3) (hf : s.fetchable s.pc 2 = true)
    (hc : s.cellsOk .l (s.sp - 4#32) = true) :
    ∃ t, s.Completes (.link r d) t { dregs := [], aregs := [r, 7#3], bytes := bytesAt (s.sp - 4#32) 4 } ∧
      t.sr = s.sr ∧ t.pc = s.pc + 4#32 ∧ t.deviceLog = s.deviceLog ∧ t.readLong (s.sp - 4#32) = s.areg r ∧
        t.areg r = s.sp - 4#32 ∧ t.sp = s.sp - 4#32 + d.signExtend 32 := by
  refine ⟨_, ⟨execLink_ok hr hf hc, (s.keeps_pastWords 2 _).trans (State.keeps_linked _ r d)⟩, ?_, ?_, ?_, ?_, ?_, ?_⟩
  · simp [State.linked]
  · simp [State.linked]
  · simp [State.linked]
  · have hread : ((s.pastWords 2).linked r d).readLong (s.sp - 4#32) =
        (((s.pastWords 2).setSp (s.sp - 4#32)).writeLong (s.sp - 4#32) (s.areg r)).readLong (s.sp - 4#32) :=
      State.readSized_congr (by simp [State.linked]) .l _
    rw [hread, State.readLong_writeLong_self]
  · rw [State.linked, State.setSp_eq_setAreg, State.areg_setAreg_of_ne _ _ hr, State.areg_setAreg_self,
      State.pastWords_sp]
  · exact State.sp_setSp _ _

/-- UNLK takes the stack pointer from `An` and pops `An`. -/
theorem State.completes_unlk {s : State} {r : RegNo} (hr : r ≠ 7#3) (hc : s.cellsOk .l (s.areg r) = true) :
    ∃ t, s.Completes (.unlk r) t { dregs := [], aregs := [r, 7#3], bytes := [] } ∧ t.sr = s.sr ∧ t.pc = s.pc + 2#32 ∧
      t.deviceLog = s.deviceLog ∧ t.areg r = s.readLong (s.areg r) ∧ t.sp = s.areg r + 4#32 := by
  have hcells : ((s.pastWords 1).setSp (s.areg r)).cellsOk .l (s.areg r) = true :=
    (State.cellsOk_congr (by simp) (by simp) .l _).trans hc
  have hread : ((s.pastWords 1).setSp (s.areg r)).readLong (s.areg r) = s.readLong (s.areg r) :=
    State.readSized_congr (by simp) .l _
  have hpop := pop32_ok (s := (s.pastWords 1).setSp (s.areg r)) (by rwa [State.sp_setSp])
  rw [State.sp_setSp, hread] at hpop
  refine ⟨(((s.pastWords 1).setSp (s.areg r)).setSp (s.areg r + 4#32)).setAreg r (s.readLong (s.areg r)),
    State.completes_of_body rfl ?_ ?_, by simp, by simp, by simp, State.areg_setAreg_self _ r _, ?_⟩
  · simp only [Exec.bind_apply, Exec.if_neg hr, Exec.modify_apply, State.pastWords_areg, hpop]
  · exact ((State.keeps_setSp _ _ (by simp)).trans (State.keeps_setSp _ _ (by simp))).trans
      (State.keeps_setAreg _ r _ (by simp))
  · rw [State.sp_setAreg_of_ne _ hr, State.sp_setSp]

/-- Settles O46: each by its push or its pop. -/
theorem stackFrames : Obligations.StackFrames := by
  unfold Obligations.StackFrames
  exact fun s => ⟨fun ea sp a hf ha hw => State.completes_pea hf ha hw,
    fun r d hr hf hc => State.completes_link hr hf hc, fun r hr hc => State.completes_unlk hr hc⟩

/-- Settles O47: the refusal comes before anything is fetched or stored. -/
theorem linkUnlkStackPointer : Obligations.LinkUnlkStackPointer := by
  unfold Obligations.LinkUnlkStackPointer
  exact fun d s => ⟨rfl, rfl⟩

end Sys2Proof.Machine

namespace Sys2Proof.Machine

/-! ## MOVEP (R212, R213) -/

theorem getLsbD_putLane (old : Long) (k : Nat) (b : Byte) {j : Nat} (hj : j < 32) :
    (putLane old k b).getLsbD j = if 8 * k ≤ j ∧ j < 8 * k + 8 then b.getLsbD (j - 8 * k) else old.getLsbD j := by
  have hmask : (0xFF#32).getLsbD (j - 8 * k) = decide (j - 8 * k < 8) := by
    rw [show 0xFF#32 = (BitVec.allOnes 8).setWidth 32 from rfl, BitVec.getLsbD_setWidth, BitVec.getLsbD_allOnes]
    simp [show j - 8 * k < 32 by omega]
  simp only [putLane, BitVec.getLsbD_or, BitVec.getLsbD_and, BitVec.getLsbD_not, BitVec.getLsbD_shiftLeft,
    BitVec.getLsbD_setWidth, hmask, hj, decide_true, Bool.true_and]
  have hb : ¬ j - 8 * k < 8 → b.getLsbD (j - 8 * k) = false := fun h => BitVec.getLsbD_of_ge _ _ (by omega)
  by_cases hlow : j < 8 * k
  · simp [hlow]
  · by_cases hhigh : j - 8 * k < 8
    · simp [hlow, hhigh, show 8 * k ≤ j by omega, show j < 8 * k + 8 by omega, show j - 8 * k < 32 by omega]
    · simp [hlow, hhigh, hb, show ¬ j < 8 * k + 8 by omega]

/-- Two lanes are the low word. -/
theorem putLane_word (old : Long) (b1 b0 : Byte) : putLane (putLane old 1 b1) 0 b0 = merge old (b1 ++ b0) := by
  refine BitVec.eq_of_getLsbD_eq fun j hj => ?_
  simp only [getLsbD_putLane _ _ _ hj, getLsbD_merge, BitVec.getLsbD_append, hj, decide_true, Bool.true_and]
  by_cases h8 : j < 8
  · simp [h8, show j < 16 by omega]
  · by_cases h16 : j < 16
    · simp [h8, h16, show 8 ≤ j by omega]
    · simp [h8, h16]

/-- Four lanes are the register. -/
theorem putLane_long (old : Long) (b3 b2 b1 b0 : Byte) :
    putLane (putLane (putLane (putLane old 3 b3) 2 b2) 1 b1) 0 b0 = b3 ++ b2 ++ b1 ++ b0 := by
  refine BitVec.eq_of_getLsbD_eq fun j hj => ?_
  simp only [getLsbD_putLane _ _ _ hj, BitVec.getLsbD_append]
  by_cases h8 : j < 8
  · simp [h8]
  · by_cases h16 : j < 16
    · simp [h8, h16, show 8 ≤ j by omega, show j - 8 < 8 by omega]
    · by_cases h24 : j < 24
      · simp [h8, h16, h24, show 16 ≤ j by omega, show ¬ j - 8 < 8 by omega, show j - 8 - 8 = j - 16 by omega,
          show j - 16 < 8 by omega]
      · simp [h8, h16, h24, show 24 ≤ j by omega, show ¬ j - 8 < 8 by omega, show ¬ j - 8 - 8 < 8 by omega,
          show j - 8 - 8 - 8 = j - 24 by omega, hj]

theorem State.setDreg_setDreg (s : State) (r : RegNo) (v w : Long) : (s.setDreg r v).setDreg r w = s.setDreg r w := by
  simp [State.setDreg]

theorem State.setDreg_dreg (s : State) (r : RegNo) : s.setDreg r (s.dreg r) = s := by
  simp [State.setDreg, State.dreg]

/-- An access does not look at the data registers. -/
theorem State.busRead_setDreg (s : State) (r : RegNo) (v : Long) (sz : Size) (x : Long) :
    (s.setDreg r v).busRead sz x = ((s.busRead sz x).1, (s.busRead sz x).2.setDreg r v) := by
  rw [State.busRead_update (s := s) (t := s.setDreg r v) rfl rfl rfl rfl]
  obtain ⟨l, n, h⟩ := s.busRead_state sz x
  rw [h]
  rfl

/-- One lane of MOVEP to a register: a byte read, and its lane of the register so far replaced. -/
theorem movepLoad_cons_setDreg {s : State} {rx : RegNo} {k : Nat} {ks : List Nat} {a v : Long}
    (h : s.accessOk .b a = true) :
    movepLoad rx (k :: ks) a (s.setDreg rx v) =
      movepLoad rx ks (a + 2#32) ((s.busRead .b a).2.setDreg rx (putLane v k (s.busRead .b a).1)) := by
  rw [movepLoad_cons_ok (s := s.setDreg rx v) h, State.busRead_setDreg]
  simp only [State.dreg_setDreg_self, State.setDreg_setDreg]

theorem movepLoad_nil (rx : RegNo) (a : Long) (s : State) : movepLoad rx [] a s = .ok () s := rfl

theorem movepStore_nil (rx : RegNo) (a : Long) (s : State) : movepStore rx [] a s = .ok () s := rfl

/-- A later access is answered as one before the accesses made so far. -/
theorem State.accessOk_busRead (s : State) (sz : Size) (x : Long) (sz' : Size) (y : Long) :
    (s.busRead sz x).2.accessOk sz' y = s.accessOk sz' y := State.accessOk_congr (by simp) sz' y

theorem State.accessOk_busWrite (s : State) (sz : Size) (x : Long) (v : BitVec sz.bits) (sz' : Size) (y : Long) :
    (s.busWrite sz x v).accessOk sz' y = s.accessOk sz' y := State.accessOk_congr (by simp) sz' y

theorem movepLoad_word_ok {s : State} {rx : RegNo} {a : Long} (h0 : s.accessOk .b a = true)
    (h1 : s.accessOk .b (a + 2#32) = true) :
    movepLoad rx [1, 0] a s = .ok () (
      let r0 := s.busRead .b a
      let r1 := r0.2.busRead .b (a + 2#32)
      r1.2.putDreg rx ((r0.1 : Byte) ++ (r1.1 : Byte))) := by
  conv_lhs => rw [← s.setDreg_dreg rx]
  rw [movepLoad_cons_setDreg h0, movepLoad_cons_setDreg (by simpa only [State.accessOk_busRead]), movepLoad_nil,
    putLane_word]
  simp only [State.putDreg, State.dreg_busRead]

theorem movepLoad_long_ok {s : State} {rx : RegNo} {a : Long} (h0 : s.accessOk .b a = true)
    (h1 : s.accessOk .b (a + 2#32) = true) (h2 : s.accessOk .b (a + 4#32) = true) (h3 : s.accessOk .b (a + 6#32) = true) :
    movepLoad rx [3, 2, 1, 0] a s = .ok () (
      let r0 := s.busRead .b a
      let r1 := r0.2.busRead .b (a + 2#32)
      let r2 := r1.2.busRead .b (a + 4#32)
      let r3 := r2.2.busRead .b (a + 6#32)
      r3.2.setDreg rx ((r0.1 : Byte) ++ (r1.1 : Byte) ++ (r2.1 : Byte) ++ (r3.1 : Byte))) := by
  have e4 : a + 2#32 + 2#32 = a + 4#32 := BitVec.add_assoc a 2#32 2#32
  have e6 : a + 4#32 + 2#32 = a + 6#32 := BitVec.add_assoc a 4#32 2#32
  conv_lhs => rw [← s.setDreg_dreg rx]
  rw [movepLoad_cons_setDreg h0, movepLoad_cons_setDreg (by simpa only [State.accessOk_busRead]), e4,
    movepLoad_cons_setDreg (by simpa only [State.accessOk_busRead]), e6,
    movepLoad_cons_setDreg (by simpa only [State.accessOk_busRead]), movepLoad_nil, putLane_long]

theorem movepStore_word_ok {s : State} {rx : RegNo} {a : Long} (h0 : s.accessOk .b a = true)
    (h1 : s.accessOk .b (a + 2#32) = true) :
    movepStore rx [1, 0] a s = .ok () (
      let lane := fun (k : Nat) => ((s.dreg rx).extractLsb' (8 * k) 8 : Byte)
      (s.busWrite .b a (lane 1)).busWrite .b (a + 2#32) (lane 0)) := by
  rw [movepStore_cons_ok h0, movepStore_cons_ok (by simpa only [State.accessOk_busWrite]), movepStore_nil]
  simp only [State.dreg_busWrite]

theorem movepStore_long_ok {s : State} {rx : RegNo} {a : Long} (h0 : s.accessOk .b a = true)
    (h1 : s.accessOk .b (a + 2#32) = true) (h2 : s.accessOk .b (a + 4#32) = true) (h3 : s.accessOk .b (a + 6#32) = true) :
    movepStore rx [3, 2, 1, 0] a s = .ok () (
      let lane := fun (k : Nat) => ((s.dreg rx).extractLsb' (8 * k) 8 : Byte)
      (((s.busWrite .b a (lane 3)).busWrite .b (a + 2#32) (lane 2)).busWrite .b (a + 4#32) (lane 1)).busWrite
        .b (a + 6#32) (lane 0)) := by
  have e4 : a + 2#32 + 2#32 = a + 4#32 := BitVec.add_assoc a 2#32 2#32
  have e6 : a + 4#32 + 2#32 = a + 6#32 := BitVec.add_assoc a 4#32 2#32
  rw [movepStore_cons_ok h0, movepStore_cons_ok (by simpa only [State.accessOk_busWrite]), e4,
    movepStore_cons_ok (by simpa only [State.accessOk_busWrite]), e6,
    movepStore_cons_ok (by simpa only [State.accessOk_busWrite]), movepStore_nil]
  simp only [State.dreg_busWrite]

theorem exec_movepToReg_ok {s t : State} {sz : SizeWL} {rx ry : RegNo} {d : Word} (hf : s.fetchable s.pc 2 = true)
    (h : movepLoad rx (movepLanes sz) (s.areg ry + d.signExtend 32) (s.pastWords 2) = .ok () t) :
    exec (.movepToReg sz ry d rx) s = .next t := by
  refine runBody_ok ?_
  rw [Exec.bind_ok (fetchExt_second (n := 0) hf), Exec.bind_ok (Exec.get_apply _)]
  exact h

theorem exec_movepToMem_ok {s t : State} {sz : SizeWL} {rx ry : RegNo} {d : Word} (hf : s.fetchable s.pc 2 = true)
    (h : movepStore rx (movepLanes sz) (s.areg ry + d.signExtend 32) (s.pastWords 2) = .ok () t) :
    exec (.movepToMem sz rx ry d) s = .next t := by
  refine runBody_ok ?_
  rw [Exec.bind_ok (fetchExt_second (n := 0) hf), Exec.bind_ok (Exec.get_apply _)]
  exact h

/-- A byte store, its byte in the frame. -/
theorem State.Keeps.busWriteByte {s t : State} {c : Changes} (h : s.Keeps t c) {x : Long} (v : Byte)
    (hx : addrOf x ∈ c.bytes) : s.Keeps (t.busWrite .b x v) c :=
  h.trans (t.keeps_busWrite .b x v (by simpa [Size.bytes, bytesAt_one] using hx))

/-- Settles O45: the lanes in the order of the addresses, two or four of them. -/
theorem movePeripheral : Obligations.MovePeripheral := by
  unfold Obligations.MovePeripheral
  intro rx ry d s s1 a r0 r1 r2 r3 lane hf
  have hread (u : State) (x : Long) {c : Changes} (h : s.Keeps u c) : s.Keeps (u.busRead .b x).2 c :=
    h.trans (u.keeps_busRead .b x c)
  have h1 (c : Changes) : s.Keeps r1.2 c := hread _ _ (hread _ _ (s.keeps_pastWords 2 c))
  refine ⟨fun a0 a2 => ⟨⟨exec_movepToReg_ok hf (movepLoad_word_ok a0 a2), ?_⟩,
      ⟨exec_movepToMem_ok hf (movepStore_word_ok a0 a2), ?_⟩⟩,
    fun a0 a2 a4 a6 => ⟨⟨exec_movepToReg_ok hf (movepLoad_long_ok a0 a2 a4 a6), ?_⟩,
      ⟨exec_movepToMem_ok hf (movepStore_long_ok a0 a2 a4 a6), ?_⟩⟩⟩
  · exact (h1 _).trans (State.keeps_putDreg _ rx _ (by simp))
  · exact ((s.keeps_pastWords 2 _).busWriteByte _ (by simp)).busWriteByte _ (by simp)
  · exact (hread _ _ (hread _ _ (h1 _))).trans (State.keeps_setDreg _ rx _ (by simp))
  · exact ((((s.keeps_pastWords 2 _).busWriteByte _ (by simp)).busWriteByte _ (by simp)).busWriteByte _
      (by simp)).busWriteByte _ (by simp)

end Sys2Proof.Machine

namespace Sys2Proof.Machine

/-! ## The places of a register list (R210, R211) -/

theorem maskBits_length (mask : Word) : (maskBits mask).length = maskRank mask 16 := rfl

/-- Mask bit `i` stands in the list at its rank. -/
theorem maskBits_getElem? {mask : Word} {i : Nat} (hi : i < 16) (hbit : mask.getLsbD i = true) :
    (maskBits mask)[maskRank mask i]? = some i := by
  have hrange : List.range 16 = List.range i ++ (i :: (List.range (15 - i)).map (i + 1 + ·)) := by
    have hsplit : 16 = i + (1 + (15 - i)) := by omega
    rw [hsplit, List.range_add, List.range_add]
    simp [Nat.add_assoc]
  rw [maskBits, hrange, List.filter_append, List.filter_cons_of_pos hbit, maskRank,
    List.getElem?_append_right (Nat.le_refl _), Nat.sub_self, List.getElem?_cons_zero]

theorem mem_maskBits {mask : Word} {i : Nat} : i ∈ maskBits mask ↔ i < 16 ∧ mask.getLsbD i = true := by
  simp [maskBits]

theorem maskBits_nodup (mask : Word) : (maskBits mask).Nodup := List.nodup_range.filter _

theorem maskRank_le (mask : Word) : maskRank mask 16 ≤ 16 :=
  (List.length_filter_le _ _).trans (List.length_range).le

theorem maskRank_eq_zero_iff (mask : Word) : maskRank mask 16 = 0 ↔ mask = 0 := by
  rw [← maskBits_length, List.length_eq_zero_iff, List.eq_nil_iff_forall_not_mem]
  constructor
  · intro h
    refine BitVec.eq_of_getLsbD_eq fun i hi => ?_
    rw [Bool.eq_false_iff.mpr fun hbit => h i (mem_maskBits.mpr ⟨hi, hbit⟩)]
    simp
  · rintro rfl i hi
    simpa using (mem_maskBits.mp hi).2

/-! ### Addresses in steps of a size -/

theorem placeAfter_zero (a : Long) (sz : Size) : placeAfter a sz 0 = a := by simp [placeAfter]

theorem placeAfter_succ (a : Long) (sz : Size) (k : Nat) :
    placeAfter a sz (k + 1) = placeAfter (a + sizeOffset sz) sz k := by
  rw [placeAfter, placeAfter, sizeOffset, BitVec.add_assoc, ← BitVec.ofNat_add, Nat.succ_mul, Nat.add_comm]

theorem placeBefore_zero (a : Long) (sz : Size) : placeBefore a sz 0 = a := by simp [placeBefore]

theorem placeBefore_succ (a : Long) (sz : Size) (k : Nat) :
    placeBefore a sz (k + 1) = placeBefore (a - sizeOffset sz) sz k := by
  rw [placeBefore, placeBefore, sizeOffset, Nat.succ_mul, BitVec.ofNat_add, BitVec.sub_sub]
  rw [BitVec.add_comm]

theorem placeBefore_add (a : Long) (sz : Size) (k : Nat) :
    placeBefore a sz k + BitVec.ofNat 32 (k * sz.bytes) = a := BitVec.sub_add_cancel _ _

/-! ### Runs of bytes (20_memory.md R62) -/

theorem bytesAt_add (x : Long) (m n : Nat) : bytesAt x (m + n) = bytesAt x m ++ bytesAt (x + BitVec.ofNat 32 m) n := by
  simp [bytesAt, List.range_add, Function.comp_def, BitVec.add_assoc, BitVec.ofNat_add]

/-- No two bytes of a run are the same byte of the space. -/
theorem bytesAt_nodup (x : Long) {n : Nat} (hn : n ≤ 2 ^ 24) : (bytesAt x n).Nodup := by
  refine List.Nodup.map_on (fun i hi j hj h => ?_) List.nodup_range
  have hi' := List.mem_range.mp hi
  have hj' := List.mem_range.mp hj
  exact not_not.mp fun hne => addrOf_add_ne x (by omega) (by omega) hne h

/-- The two parts of a run have no byte in common. -/
theorem bytesAt_disjoint (x : Long) {m n : Nat} (h : m + n ≤ 2 ^ 24) :
    List.Disjoint (bytesAt x m) (bytesAt (x + BitVec.ofNat 32 m) n) := by
  have hnodup := bytesAt_nodup x h
  rw [bytesAt_add] at hnodup
  exact List.disjoint_of_nodup_append hnodup

/-- A value in memory is its bytes. -/
theorem State.readSized_eq_of_bytes {s t : State} {sz : Size} {x : Long}
    (h : ∀ k < sz.bytes, t.readByte (x + BitVec.ofNat 32 k) = s.readByte (x + BitVec.ofNat 32 k)) :
    t.readSized sz x = s.readSized sz x := by
  cases sz with
  | b => simpa [Size.bytes, State.readSized] using h
  | w =>
    obtain ⟨h0, h1⟩ := (forall_offset_lt_two (p := fun y => t.readByte y = s.readByte y) x).mp h
    simp only [State.readSized, State.readWord, h0, h1]
  | l =>
    obtain ⟨⟨h0, h1⟩, h2, h3⟩ := (forall_offset_lt_four (p := fun y => t.readByte y = s.readByte y) x).mp h
    simp only [State.readSized, State.readLong, State.readWord, h0, h1, h2, h3]

/-- A frame that leaves the bytes of a value leaves the value. -/
theorem State.Keeps.readSized {s t : State} {c : Changes} (h : s.Keeps t c) {sz : Size} {x : Long}
    (hx : List.Disjoint (bytesAt x sz.bytes) c.bytes) : t.readSized sz x = s.readSized sz x :=
  State.readSized_eq_of_bytes fun _ hk =>
    h.bytes _ fun hmem => hx (List.mem_map.mpr ⟨_, List.mem_range.mpr hk, rfl⟩) hmem

/-! ## MOVEM, registers to memory (R210) -/

theorem State.reg_congr {s t : State} (hd : ∀ r, t.dreg r = s.dreg r) (ha : ∀ r, t.areg r = s.areg r) (i : Nat) :
    t.reg i = s.reg i := by
  simp only [State.reg, hd, ha]

/-- What a run of stores leaves: memory alone has changed, and in the named bytes alone. -/
structure State.Stored (s t : State) (bytes : List Nat) : Prop where
  keeps : s.Keeps t { dregs := [], aregs := [], bytes := bytes }
  state : t = { s with mem := t.mem }

theorem State.Stored.refl (s : State) (bytes : List Nat) : s.Stored s bytes := ⟨.refl s _, rfl⟩

theorem State.stored_writeSized (s : State) (sz : Size) (x : Long) (v : BitVec sz.bits) :
    s.Stored (s.writeSized sz x v) (bytesAt x sz.bytes) :=
  ⟨s.keeps_writeSized sz x v (List.Subset.refl _), s.writeSized_state sz x v⟩

theorem State.Stored.trans {s t u : State} {bs cs ds : List Nat} (h1 : s.Stored t bs) (h2 : t.Stored u cs) (hb : bs ⊆ ds)
    (hc : cs ⊆ ds) : s.Stored u ds where
  keeps :=
    have wider {x y : State} {es : List Nat} (h : x.Stored y es) (he : es ⊆ ds) :
        x.Keeps y { dregs := [], aregs := [], bytes := ds } :=
      h.keeps.mono (List.Subset.refl _) (List.Subset.refl _) he
    (wider h1 hb).trans (wider h2 hc)
  state := by rw [h2.state, h1.state]

theorem State.Stored.reg {s t : State} {bs : List Nat} (h : s.Stored t bs) (i : Nat) : t.reg i = s.reg i :=
  State.reg_congr (fun _ => h.keeps.dregs _ List.not_mem_nil) (fun _ => h.keeps.aregs _ List.not_mem_nil) i

theorem State.Stored.cellsOk {s t : State} {bs : List Nat} (h : s.Stored t bs) (sz : Size) (x : Long) :
    t.cellsOk sz x = s.cellsOk sz x := State.cellsOk_congr h.keeps.silent h.keeps.devices sz x

/-- Stores at rising addresses: each register at the address of its place. -/
theorem storeUp_ok {sz : Size} {is : List Nat} {a : Long} {s : State}
    (hcells : ∀ k < is.length, s.cellsOk sz (placeAfter a sz k) = true) (hlen : is.length * sz.bytes ≤ 2 ^ 24) :
    ∃ t, storeUp sz is a s = .ok () t ∧ s.Stored t (bytesAt a (is.length * sz.bytes)) ∧
      ∀ k i, is[k]? = some i → t.readSized sz (placeAfter a sz k) = (s.reg i).setWidth sz.bits := by
  induction is generalizing a s with
  | nil => exact ⟨s, rfl, .refl s _, nofun⟩
  | cons j is ih =>
    have hhead : s.cellsOk sz a = true := placeAfter_zero a sz ▸ hcells 0 (Nat.succ_pos _)
    have hbytes : (j :: is).length * sz.bytes = sz.bytes + is.length * sz.bytes := by
      rw [List.length_cons, Nat.succ_mul, Nat.add_comm]
    have hfirst := s.stored_writeSized sz a ((s.reg j).setWidth sz.bits)
    obtain ⟨t, hrun, hrest, hread⟩ := ih (a := a + sizeOffset sz) (s := s.writeSized sz a ((s.reg j).setWidth sz.bits))
      (fun k hk => by rw [hfirst.cellsOk, ← placeAfter_succ]; exact hcells (k + 1) (Nat.succ_lt_succ hk)) (by omega)
    refine ⟨t, ?_, ?_, fun k i hk => ?_⟩
    · rw [storeUp_cons_ok (State.accessOk_of_cellsOk hhead), State.busWrite_cells _ (State.isCells_of_cellsOk hhead)]
      exact hrun
    · rw [hbytes, bytesAt_add]
      exact hfirst.trans hrest (List.subset_append_left _ _) (List.subset_append_right _ _)
    · cases k with
      | zero =>
        obtain rfl : j = i := by simpa using hk
        rw [placeAfter_zero, hrest.keeps.readSized (bytesAt_disjoint a (by omega)), State.readSized_writeSized_self]
      | succ k => rw [placeAfter_succ, hread k i hk, hfirst.reg]

/-- Stores at falling addresses, the registers counted from `A7` down. -/
theorem storeDown_ok {sz : Size} {is : List Nat} {a : Long} {s : State}
    (hcells : ∀ k < is.length, s.cellsOk sz (placeBefore a sz (k + 1)) = true) (hlen : is.length * sz.bytes ≤ 2 ^ 24) :
    ∃ t, storeDown sz is a s = .ok (placeBefore a sz is.length) t ∧
      s.Stored t (bytesAt (placeBefore a sz is.length) (is.length * sz.bytes)) ∧
      ∀ k i, is[k]? = some i → t.readSized sz (placeBefore a sz (k + 1)) = (s.reg (15 - i)).setWidth sz.bits := by
  induction is generalizing a s with
  | nil => exact ⟨s, by rw [List.length_nil, placeBefore_zero]; rfl, .refl s _, nofun⟩
  | cons j is ih =>
    have hone : placeBefore a sz 1 = a - sizeOffset sz := by rw [placeBefore_succ, placeBefore_zero]
    have hhead : s.cellsOk sz (a - sizeOffset sz) = true := hone ▸ hcells 0 (Nat.succ_pos _)
    have hbytes : (j :: is).length * sz.bytes = is.length * sz.bytes + sz.bytes := by
      rw [List.length_cons, Nat.succ_mul]
    have hfirst := s.stored_writeSized sz (a - sizeOffset sz) ((s.reg (15 - j)).setWidth sz.bits)
    obtain ⟨t, hrun, hrest, hread⟩ := ih (a := a - sizeOffset sz)
      (s := s.writeSized sz (a - sizeOffset sz) ((s.reg (15 - j)).setWidth sz.bits))
      (fun k hk => by rw [hfirst.cellsOk, ← placeBefore_succ]; exact hcells (k + 1) (Nat.succ_lt_succ hk)) (by omega)
    have hdisjoint := bytesAt_disjoint (placeBefore (a - sizeOffset sz) sz is.length)
      (m := is.length * sz.bytes) (n := sz.bytes) (by omega)
    rw [placeBefore_add] at hdisjoint
    refine ⟨t, ?_, ?_, fun k i hk => ?_⟩
    · rw [storeDown_cons_ok (State.accessOk_of_cellsOk hhead), State.busWrite_cells _ (State.isCells_of_cellsOk hhead),
        List.length_cons, placeBefore_succ]
      exact hrun
    · rw [hbytes, List.length_cons, placeBefore_succ, bytesAt_add, placeBefore_add]
      exact hfirst.trans hrest (List.subset_append_right _ _) (List.subset_append_left _ _)
    · cases k with
      | zero =>
        obtain rfl : j = i := by simpa using hk
        rw [hone, hrest.keeps.readSized hdisjoint.symm, State.readSized_writeSized_self]
      | succ k => rw [placeBefore_succ, hread k i hk, hfirst.reg]

/-- The sixteen registers take at most 64 bytes. -/
theorem maskBits_bytes_le (mask : Word) (sz : Size) : (maskBits mask).length * sz.bytes ≤ 2 ^ 24 := by
  have hlen := maskRank_le mask
  rw [← maskBits_length] at hlen
  have hsz : sz.bytes ≤ 4 := by cases sz <;> decide
  exact (Nat.mul_le_mul hlen hsz).trans (by decide)

/-- MOVEM to memory in a control mode. -/
theorem State.completes_movemToMem_up {s : State} {sz : SizeWL} {mask : Word} {ea : EA} {sp : Space} {a : Long}
    (hea : ∀ r, ea ≠ .preDec r) (ha : eaLoc sz.size ea (s.pastWords 2) = .mem sp a)
    (hf : s.fetchable s.pc (2 + eaExtCount sz.size ea) = true)
    (hcells : ∀ k < maskRank mask 16, s.cellsOk sz.size (placeAfter a sz.size k) = true) :
    let u := (s.pastWords 2).resolved sz.size ea
    ∃ t, s.Completes (.movemToMem sz mask ea) t
        { dregs := [], aregs := eaStepped ea, bytes := bytesAt a (maskRank mask 16 * sz.size.bytes) } ∧
      t.sr = s.sr ∧ t.pc = u.pc ∧ t.deviceLog = s.deviceLog ∧
      ∀ i < 16, mask.getLsbD i = true →
        t.readSized sz.size (placeAfter a sz.size (maskRank mask i)) = (u.reg i).setWidth sz.size.bits := by
  intro u
  have hu (c : Changes) (hc : eaStepped ea ⊆ c.aregs) : s.Keeps u c :=
    (s.keeps_pastWords 2 c).trans (State.keeps_resolved _ sz.size ea hc)
  obtain ⟨t, hrun, hstored, hread⟩ := storeUp_ok (sz := sz.size) (is := maskBits mask) (a := a) (s := u)
    (fun k hk => (State.cellsOk_congr (by simp [u]) (by simp [u]) _ _).trans (hcells k hk)) (maskBits_bytes_le mask sz.size)
  refine ⟨t, ⟨runBody_ok ?_, (hu _ (by simp)).trans (hstored.keeps.mono (by simp) (by simp) (by simp [maskBits_length]))⟩,
    ?_, ?_, ?_, fun i hi hbit => hread _ i (maskBits_getElem? hi hbit)⟩
  · rw [Exec.bind_ok (fetchExt_second hf)]
    have haddr := addressEA_ok (State.fetchable_past 2 _ hf) ha
    cases ea with
    | preDec r => exact absurd rfl (hea r)
    | _ => exact (Exec.bind_ok haddr).trans hrun
  · rw [hstored.state]; simp [u]
  · rw [hstored.state]
  · rw [hstored.state]; simp [u]

/-- MOVEM to memory with `-(An)`: `An` is written last. -/
theorem State.completes_movemToMem_down {s : State} {sz : SizeWL} {mask : Word} {r : RegNo}
    (hf : s.fetchable s.pc 2 = true)
    (hcells : ∀ k < maskRank mask 16, s.cellsOk sz.size (placeBefore (s.areg r) sz.size (k + 1)) = true) :
    let last := placeBefore (s.areg r) sz.size (maskRank mask 16)
    ∃ t, s.Completes (.movemToMem sz mask (.preDec r)) t
        { dregs := [], aregs := [r], bytes := bytesAt last (maskRank mask 16 * sz.size.bytes) } ∧
      t.sr = s.sr ∧ t.pc = (s.pastWords 2).pc ∧ t.deviceLog = s.deviceLog ∧ t.areg r = last ∧
      ∀ i < 16, mask.getLsbD i = true →
        t.readSized sz.size (placeBefore (s.areg r) sz.size (maskRank mask i + 1)) =
          (s.reg (15 - i)).setWidth sz.size.bits := by
  intro last
  obtain ⟨t, hrun, hstored, hread⟩ := storeDown_ok (sz := sz.size) (is := maskBits mask) (a := s.areg r)
    (s := s.pastWords 2) hcells (maskBits_bytes_le mask sz.size)
  refine ⟨t.setAreg r last, ⟨runBody_ok ?_, ?_⟩, ?_, ?_, ?_, State.areg_setAreg_self t r last, fun i hi hbit => ?_⟩
  · rw [Exec.bind_ok (fetchExt_second (n := 0) hf)]
    exact Exec.bind_ok hrun
  · exact ((s.keeps_pastWords 2 _).trans (hstored.keeps.mono (by simp) (by simp) (by simp [maskBits_length, last]))).trans
      (t.keeps_setAreg r last (by simp))
  · rw [State.setAreg_sr, hstored.state, State.pastWords_sr]
  · rw [State.setAreg_pc, hstored.state]
  · rw [State.setAreg_deviceLog, hstored.state, State.pastWords_deviceLog]
  · rw [State.readSized_setAreg, hread _ i (maskBits_getElem? hi hbit)]
    rfl

/-- Settles O43: the stores of the list by the addresses of their places, rising or falling. -/
theorem movemStore : Obligations.MovemStore := by
  unfold Obligations.MovemStore
  exact fun sz mask s => ⟨fun ea sp a hea ha hf hcells => State.completes_movemToMem_up hea ha hf hcells,
    fun r hf hcells => State.completes_movemToMem_down hf hcells⟩

end Sys2Proof.Machine

namespace Sys2Proof.Machine

/-! ## MOVEM, memory to registers (R211) -/

/-! ### The sixteen registers of a list -/

/-- A write of `Reg(i)` changes a data register, an address register or a stack pointer. -/
theorem State.setReg_state (s : State) (i : Nat) (v : Long) :
    s.setReg i v = { s with
      d := (s.setReg i v).d, a := (s.setReg i v).a, usp := (s.setReg i v).usp, ssp := (s.setReg i v).ssp } := by
  by_cases h : i < 8
  · rw [State.setReg, if_pos h]
    rfl
  · rw [State.setReg, if_neg h, State.setAreg_state]

theorem regNo_ne {i j : Nat} (hi : i < 8) (hj : j < 8) (h : i ≠ j) : BitVec.ofNat 3 i ≠ BitVec.ofNat 3 j := by
  rw [← BitVec.toNat_inj.ne]
  simp only [BitVec.toNat_ofNat]
  omega

theorem State.reg_setReg_self (s : State) (i : Nat) (v : Long) : (s.setReg i v).reg i = v := by
  by_cases h : i < 8 <;> simp [State.reg, State.setReg, h]

theorem State.reg_setReg_of_ne (s : State) {i j : Nat} (v : Long) (hi : i < 16) (hj : j < 16) (h : j ≠ i) :
    (s.setReg i v).reg j = s.reg j := by
  by_cases hi8 : i < 8
  · by_cases hj8 : j < 8
    · simp only [State.reg, State.setReg, hi8, hj8, if_true]
      exact State.dreg_setDreg_of_ne s v (regNo_ne hj8 hi8 h)
    · simp [State.reg, State.setReg, hi8, hj8]
  · by_cases hj8 : j < 8
    · simp [State.reg, State.setReg, hi8, hj8]
    · simp only [State.reg, State.setReg, hi8, hj8, if_false]
      exact State.areg_setAreg_of_ne s v (regNo_ne (by omega) (by omega) (by omega))

theorem State.keeps_setReg (s : State) {i : Nat} (v : Long) {c : Changes} (hd : i < 8 → BitVec.ofNat 3 i ∈ c.dregs)
    (ha : 8 ≤ i → BitVec.ofNat 3 (i - 8) ∈ c.aregs) : s.Keeps (s.setReg i v) c := by
  by_cases h : i < 8
  · rw [State.setReg, if_pos h]
    exact s.keeps_setDreg _ v (hd h)
  · rw [State.setReg, if_neg h]
    exact s.keeps_setAreg _ v (ha (by omega))

/-- `Reg(8 + r)` is `A[r]`: a write of it leaves the others. -/
theorem State.reg_setAreg_of_ne (s : State) {i : Nat} {r : RegNo} (v : Long) (hi : i < 16) (h : i ≠ 8 + r.toNat) :
    (s.setAreg r v).reg i = s.reg i := by
  have hr := r.isLt
  by_cases h8 : i < 8
  · simp [State.reg, h8]
  · simp only [State.reg, h8, if_false]
    refine State.areg_setAreg_of_ne s v ?_
    rw [← BitVec.toNat_inj.ne, BitVec.toNat_ofNat]
    omega

/-! ### The loads -/

/-- What loads of registers leave: data registers, address registers and stack pointers alone have changed. -/
structure State.RegsLoaded (s t : State) (c : Changes) : Prop where
  keeps : s.Keeps t c
  state : t = { s with d := t.d, a := t.a, usp := t.usp, ssp := t.ssp }

theorem State.RegsLoaded.trans {s t u : State} {c : Changes} (h1 : s.RegsLoaded t c) (h2 : t.RegsLoaded u c) :
    s.RegsLoaded u c where
  keeps := h1.keeps.trans h2.keeps
  state := by rw [h2.state, h1.state]

theorem State.RegsLoaded.readSized {s t : State} {c : Changes} (h : s.RegsLoaded t c) (sz : Size) (x : Long) :
    t.readSized sz x = s.readSized sz x := State.readSized_congr (by rw [h.state]) sz x

/-- Loads from rising addresses: a register named once ends with the value at the address of its place. -/
theorem loadUp_ok {sp : Space} {sz : Size} {is : List Nat} {a : Long} {s : State} {c : Changes}
    (hcells : ∀ k < is.length, s.cellsOk sz (placeAfter a sz k) = true) (hnodup : is.Nodup) (hlt : ∀ i ∈ is, i < 16)
    (hd : ∀ i ∈ is, i < 8 → BitVec.ofNat 3 i ∈ c.dregs) (ha : ∀ i ∈ is, 8 ≤ i → BitVec.ofNat 3 (i - 8) ∈ c.aregs) :
    ∃ t, loadUp sp sz is a s = .ok (placeAfter a sz is.length) t ∧ s.RegsLoaded t c ∧
      (∀ i < 16, i ∉ is → t.reg i = s.reg i) ∧
      ∀ k i, is[k]? = some i → t.reg i = (s.readSized sz (placeAfter a sz k)).signExtend 32 := by
  induction is generalizing a s with
  | nil => exact ⟨s, by rw [List.length_nil, placeAfter_zero]; rfl, ⟨.refl s c, rfl⟩, fun _ _ _ => rfl, nofun⟩
  | cons j is ih =>
    obtain ⟨hj, hnodup'⟩ := List.nodup_cons.mp hnodup
    have hj16 : j < 16 := hlt j List.mem_cons_self
    have hhead : s.cellsOk sz a = true := placeAfter_zero a sz ▸ hcells 0 (Nat.succ_pos _)
    have hfirst : s.RegsLoaded (s.setReg j ((s.readSized sz a).signExtend 32)) c :=
      ⟨s.keeps_setReg _ (hd j List.mem_cons_self) (ha j List.mem_cons_self), s.setReg_state j _⟩
    obtain ⟨t, hrun, hrest, hother, hread⟩ := ih (a := a + sizeOffset sz)
      (s := s.setReg j ((s.readSized sz a).signExtend 32))
      (fun k hk => by
        rw [State.cellsOk_congr hfirst.keeps.silent hfirst.keeps.devices, ← placeAfter_succ]
        exact hcells (k + 1) (Nat.succ_lt_succ hk))
      hnodup' (fun i hi => hlt i (List.mem_cons_of_mem j hi)) (fun i hi => hd i (List.mem_cons_of_mem j hi))
      (fun i hi => ha i (List.mem_cons_of_mem j hi))
    refine ⟨t, ?_, hfirst.trans hrest, fun i hi hmem => ?_, fun k i hk => ?_⟩
    · rw [loadUp_cons_ok (State.accessOk_of_cellsOk hhead), State.busRead_cells (State.isCells_of_cellsOk hhead),
        List.length_cons, placeAfter_succ]
      exact hrun
    · obtain ⟨hij, hmem'⟩ := List.ne_and_not_mem_of_not_mem_cons hmem
      rw [hother i hi hmem', State.reg_setReg_of_ne s _ hj16 hi hij]
    · cases k with
      | zero =>
        obtain rfl : j = i := by simpa using hk
        rw [hother j hj16 hj, State.reg_setReg_self, placeAfter_zero]
      | succ k => rw [hread k i hk, hfirst.readSized, placeAfter_succ]

/-- What MOVEM leaves once its registers are loaded from `a` up. -/
structure State.Loaded (s t : State) (sz : Size) (mask : Word) (a : Long) : Prop where
  keeps : s.Keeps t { dregs := maskDregs mask, aregs := maskAregs mask, bytes := [] }
  sr : t.sr = s.sr
  pc : t.pc = s.pc
  reg : ∀ i < 16, mask.getLsbD i = true →
    t.reg i = (s.readSized sz (placeAfter a sz (maskRank mask i))).signExtend 32

theorem mem_maskDregs {mask : Word} {i : Nat} (hi : i < 8) (hbit : mask.getLsbD i = true) :
    BitVec.ofNat 3 i ∈ maskDregs mask :=
  List.mem_map_of_mem (List.mem_filter.mpr ⟨List.mem_range.mpr hi, hbit⟩)

theorem mem_maskAregs {mask : Word} {i : Nat} (h8 : 8 ≤ i) (hi : i < 16) (hbit : mask.getLsbD i = true) :
    BitVec.ofNat 3 (i - 8) ∈ maskAregs mask :=
  List.mem_map_of_mem (List.mem_filter.mpr ⟨List.mem_range.mpr (by omega), by rwa [Nat.add_sub_cancel' h8]⟩)

/-- The loads of a mask, and the state in which the extra word is read: what an access looks at is as it was. -/
theorem loadUp_maskBits_ok {sp : Space} {sz : Size} {mask : Word} {a : Long} {s : State}
    (hcells : ∀ k < maskRank mask 16, s.cellsOk sz (placeAfter a sz k) = true) :
    ∃ t, loadUp sp sz (maskBits mask) a s = .ok (placeAfter a sz (maskRank mask 16)) t ∧ s.Loaded t sz mask a ∧
      t = { s with d := t.d, a := t.a, usp := t.usp, ssp := t.ssp } := by
  obtain ⟨t, hrun, hregs, -, hread⟩ := loadUp_ok (sp := sp)
    (c := { dregs := maskDregs mask, aregs := maskAregs mask, bytes := [] }) hcells (maskBits_nodup mask)
    (fun i hi => (mem_maskBits.mp hi).1) (fun i hi h8 => mem_maskDregs h8 (mem_maskBits.mp hi).2)
    (fun i hi h8 => mem_maskAregs h8 (mem_maskBits.mp hi).1 (mem_maskBits.mp hi).2)
  refine ⟨t, hrun, ⟨hregs.keeps, ?_, ?_, fun i hi hbit => hread _ i (maskBits_getElem? hi hbit)⟩, hregs.state⟩
  all_goals rw [hregs.state]

theorem State.Loaded.busRead {s t : State} {sz : Size} {mask : Word} {a : Long} (h : s.Loaded t sz mask a) (sz' : Size)
    (x : Long) : s.Loaded (t.busRead sz' x).2 sz mask a where
  keeps := h.keeps.trans (t.keeps_busRead sz' x _)
  sr := (t.busRead_sr sz' x).trans h.sr
  pc := (t.busRead_pc sz' x).trans h.pc
  reg i hi hbit := (State.reg_congr (t.dreg_busRead sz' x) (t.areg_busRead sz' x) i).trans (h.reg i hi hbit)

/-- What the devices have seen once the extra word has been read, which it is unless the list is empty. -/
def State.seenByLoad (s : State) (mask : Word) (b : Long) : List Config.BusEvent :=
  if maskRank mask 16 = 0 then s.deviceLog else (s.busRead .w b).2.deviceLog

/-- The loads and the extra word, where it can be read. -/
theorem loadMany_ok {sp : Space} {sz : Size} {mask : Word} {a : Long} {s : State}
    (hcells : ∀ k < maskRank mask 16, s.cellsOk sz (placeAfter a sz k) = true)
    (hextra : maskRank mask 16 ≠ 0 → s.accessOk .w (placeAfter a sz (maskRank mask 16)) = true) :
    ∃ t, loadMany sp sz mask a s = .ok (placeAfter a sz (maskRank mask 16)) t ∧ s.Loaded t sz mask a ∧
      t.deviceLog = s.seenByLoad mask (placeAfter a sz (maskRank mask 16)) := by
  obtain ⟨t, hrun, hloaded, hstate⟩ := loadUp_maskBits_ok (sp := sp) hcells
  by_cases h0 : maskRank mask 16 = 0
  · refine ⟨t, ?_, hloaded, ?_⟩
    · rw [loadMany, Exec.bind_ok hrun, if_neg (not_not.mpr ((maskRank_eq_zero_iff mask).mp h0))]
      rfl
    · rw [State.seenByLoad, if_pos h0, hstate]
  · have hok : t.accessOk .w (placeAfter a sz (maskRank mask 16)) = true :=
      (State.accessOk_congr hloaded.keeps.silent _ _).trans (hextra h0)
    refine ⟨_, ?_, hloaded.busRead .w (placeAfter a sz (maskRank mask 16)), ?_⟩
    · rw [loadMany, Exec.bind_ok hrun, if_pos ((maskRank_eq_zero_iff mask).not.mp h0), Exec.bind_ok (memRead_ok hok)]
      rfl
    · rw [State.seenByLoad, if_neg h0]
      exact (State.busRead_congr (by rw [hstate]) (by rw [hstate]) (by rw [hstate]) (by rw [hstate]) .w _).2.1

/-- The loads, and the fault of the extra word where it cannot be read (log entry 14). -/
theorem loadMany_fault {sp : Space} {sz : Size} {mask : Word} {a : Long} {s : State}
    (hcells : ∀ k < maskRank mask 16, s.cellsOk sz (placeAfter a sz k) = true) (h0 : maskRank mask 16 ≠ 0)
    (hextra : s.accessOk .w (placeAfter a sz (maskRank mask 16)) = false) :
    ∃ t, loadMany sp sz mask a s =
        .error (.group0 (s.accessFault sp .w (placeAfter a sz (maskRank mask 16)) true)) t ∧ s.Loaded t sz mask a := by
  obtain ⟨t, hrun, hloaded, hstate⟩ := loadUp_maskBits_ok (sp := sp) hcells
  have hbad : t.accessOk .w (placeAfter a sz (maskRank mask 16)) = false :=
    (State.accessOk_congr hloaded.keeps.silent _ _).trans hextra
  have hfault := memRead_fault (sp := sp) hbad
  rw [State.halfRead_of_none (State.answeredHalf_of_ne_long (by decide) _)] at hfault
  refine ⟨t, ?_, hloaded⟩
  rw [loadMany, Exec.bind_ok hrun, if_pos ((maskRank_eq_zero_iff mask).not.mp h0), Exec.bind_error hfault]
  simp [State.accessFault, State.functionCode, hloaded.sr]

theorem State.seenByLoad_congr {s t : State} (hm : s.mem = t.mem) (hd : s.devices = t.devices)
    (hl : s.deviceLog = t.deviceLog) (hn : s.draws = t.draws) (mask : Word) (b : Long) :
    s.seenByLoad mask b = t.seenByLoad mask b := by
  simp only [State.seenByLoad, hl, (State.busRead_congr hm hd hl hn .w b).2.1]

/-- Registers loaded from a state that differs from `s` in `PC` and a stepped register alone. -/
theorem State.Loaded.of_resolved {s t : State} {sz : Size} {mask : Word} {ea : EA} {a : Long}
    (h : ((s.pastWords 2).resolved sz ea).Loaded t sz mask a) :
    s.Keeps t { dregs := maskDregs mask, aregs := maskAregs mask ++ eaStepped ea, bytes := [] } ∧ t.sr = s.sr ∧
      t.pc = ((s.pastWords 2).resolved sz ea).pc ∧ ∀ i < 16, mask.getLsbD i = true →
        t.reg i = (s.readSized sz (placeAfter a sz (maskRank mask i))).signExtend 32 := by
  have hresolved : s.Keeps ((s.pastWords 2).resolved sz ea)
      { dregs := maskDregs mask, aregs := maskAregs mask ++ eaStepped ea, bytes := [] } :=
    (s.keeps_pastWords 2 _).trans (State.keeps_resolved _ sz ea (by simp))
  exact ⟨hresolved.trans (h.keeps.mono (by simp) (by simp) (by simp)), h.sr.trans (by simp), h.pc,
    fun i hi hbit => by rw [h.reg i hi hbit, State.resolved_readSized, State.pastWords_readSized]⟩

/-! ### The instruction -/

/-- The fault of the extra word (log entry 14). -/
def State.extraFault (s : State) (sp : Space) (b : Long) : AccessFault where
  kind := if b.getLsbD 0 then .addressError else .busError
  addr := b
  read := true
  fc := s.functionCode sp
  inException := false

theorem State.accessFault_word (s : State) (sp : Space) (b : Long) : s.accessFault sp .w b true = s.extraFault sp b := rfl

theorem State.extraFault_congr {s t : State} (h : s.sr = t.sr) (sp : Space) (b : Long) :
    s.extraFault sp b = t.extraFault sp b := by
  cases sp <;> simp only [State.extraFault, State.functionCode, h]

section Load

variable {s : State} {sz : SizeWL} {mask : Word}

section Control

variable {ea : EA} {sp : Space} {a : Long} (hea : ∀ r, ea ≠ .postInc r)
  (ha : eaLoc sz.size ea (s.pastWords 2) = .mem sp a) (hf : s.fetchable s.pc (2 + eaExtCount sz.size ea) = true)
include hea ha hf

theorem exec_movemToReg : exec (.movemToReg sz mask ea) s =
    conclude s.pc ((loadMany sp sz.size mask a >>= fun _ => pure ()) ((s.pastWords 2).resolved sz.size ea)) := by
  refine congrArg (conclude s.pc) ((Exec.bind_ok (fetchExt_second hf)).trans ?_)
  have hresolve := resolveEA_ok (State.fetchable_past 2 _ hf)
  cases ea with
  | postInc r => exact absurd rfl (hea r)
  | _ =>
    refine (Exec.bind_ok hresolve).trans ?_
    rw [ha]

variable (hcells : ∀ k < maskRank mask 16, s.cellsOk sz.size (placeAfter a sz.size k) = true)
include hcells

theorem exec_movemToReg_ok
    (hextra : maskRank mask 16 ≠ 0 → s.accessOk .w (placeAfter a sz.size (maskRank mask 16)) = true) :
    ∃ t, exec (.movemToReg sz mask ea) s = .next t ∧ ((s.pastWords 2).resolved sz.size ea).Loaded t sz.size mask a ∧
      t.deviceLog = s.seenByLoad mask (placeAfter a sz.size (maskRank mask 16)) := by
  obtain ⟨t, hrun, hloaded, hseen⟩ := loadMany_ok (s := (s.pastWords 2).resolved sz.size ea) (sp := sp)
    (fun k hk => (State.cellsOk_congr (by simp) (by simp) _ _).trans (hcells k hk))
    (fun h0 => (State.accessOk_congr (by simp) _ _).trans (hextra h0))
  refine ⟨t, ?_, hloaded, hseen.trans (State.seenByLoad_congr (by simp) (by simp) (by simp) (by simp) _ _)⟩
  rw [exec_movemToReg hea ha hf, Exec.bind_ok hrun]
  rfl

theorem exec_movemToReg_fault (h0 : maskRank mask 16 ≠ 0)
    (hextra : s.accessOk .w (placeAfter a sz.size (maskRank mask 16)) = false) :
    ∃ t, exec (.movemToReg sz mask ea) s =
        .next (t.takeGroup0 (s.extraFault sp (placeAfter a sz.size (maskRank mask 16))) (some s.pc) (some s.ir)) ∧
      ((s.pastWords 2).resolved sz.size ea).Loaded t sz.size mask a := by
  obtain ⟨t, hrun, hloaded⟩ := loadMany_fault (s := (s.pastWords 2).resolved sz.size ea) (sp := sp)
    (fun k hk => (State.cellsOk_congr (by simp) (by simp) _ _).trans (hcells k hk)) h0
    ((State.accessOk_congr (by simp) _ _).trans hextra)
  refine ⟨t, ?_, hloaded⟩
  have hir : t.ir = s.ir := hloaded.keeps.ir.trans (by simp)
  rw [exec_movemToReg hea ha hf, Exec.bind_error hrun, conclude, hir, State.accessFault_word,
    State.extraFault_congr (t := s) (by simp)]

end Control

section PostIncrement

variable {r : RegNo} (hf : s.fetchable s.pc 2 = true)
  (hcells : ∀ k < maskRank mask 16, s.cellsOk sz.size (placeAfter (s.areg r) sz.size k) = true)
include hf

theorem exec_movemToReg_postInc : exec (.movemToReg sz mask (.postInc r)) s =
    conclude s.pc ((loadMany .data sz.size mask (s.areg r) >>= fun b => modify fun u => u.setAreg r b) (s.pastWords 2)) :=
  congrArg (conclude s.pc) ((Exec.bind_ok (fetchExt_second (n := 0) hf)).trans rfl)

include hcells

theorem exec_movemToReg_postInc_ok
    (hextra : maskRank mask 16 ≠ 0 → s.accessOk .w (placeAfter (s.areg r) sz.size (maskRank mask 16)) = true) :
    ∃ t, exec (.movemToReg sz mask (.postInc r)) s =
        .next (t.setAreg r (placeAfter (s.areg r) sz.size (maskRank mask 16))) ∧
      (s.pastWords 2).Loaded t sz.size mask (s.areg r) ∧
      t.deviceLog = s.seenByLoad mask (placeAfter (s.areg r) sz.size (maskRank mask 16)) := by
  obtain ⟨t, hrun, hloaded, hseen⟩ := loadMany_ok (s := s.pastWords 2) (sp := .data) hcells hextra
  refine ⟨t, ?_, hloaded, hseen.trans (State.seenByLoad_congr (by simp) (by simp) (by simp) (by simp) _ _)⟩
  rw [exec_movemToReg_postInc hf, Exec.bind_ok hrun]
  rfl

theorem exec_movemToReg_postInc_fault (h0 : maskRank mask 16 ≠ 0)
    (hextra : s.accessOk .w (placeAfter (s.areg r) sz.size (maskRank mask 16)) = false) :
    ∃ t, exec (.movemToReg sz mask (.postInc r)) s = .next (t.takeGroup0
        (s.extraFault .data (placeAfter (s.areg r) sz.size (maskRank mask 16))) (some s.pc) (some s.ir)) ∧
      (s.pastWords 2).Loaded t sz.size mask (s.areg r) := by
  obtain ⟨t, hrun, hloaded⟩ := loadMany_fault (s := s.pastWords 2) (sp := .data) hcells h0 hextra
  refine ⟨t, ?_, hloaded⟩
  have hir : t.ir = s.ir := hloaded.keeps.ir
  rw [exec_movemToReg_postInc hf, Exec.bind_error hrun, conclude, hir]
  rfl

end PostIncrement

end Load

/-- Settles O44: the loads of the list, the extra word where there is one, and the step of `(An)+` after both. -/
theorem movemLoad : Obligations.MovemLoad := by
  unfold Obligations.MovemLoad
  intro sz mask s n s1 frame extraFault seen
  have hread (i : Nat) (a : Long) : s1.readSized sz.size (placeAfter a sz.size i) =
      s.readSized sz.size (placeAfter a sz.size i) := State.pastWords_readSized s 2 _ _
  refine ⟨fun ea sp a hea ha hf hcells => ⟨fun hextra => ?_, fun h0 hextra => ?_⟩,
    fun r hf hcells => ⟨fun hextra => ?_, fun h0 hextra => ?_⟩⟩
  · obtain ⟨t, hexec, hloaded, hseen⟩ := exec_movemToReg_ok hea ha hf hcells hextra
    obtain ⟨hkeeps, hregs⟩ := hloaded.of_resolved
    exact ⟨t, ⟨hexec, hkeeps⟩, hseen, hregs⟩
  · obtain ⟨t, hexec, hloaded⟩ := exec_movemToReg_fault hea ha hf hcells h0 hextra
    exact ⟨t, hexec, hloaded.of_resolved⟩
  · obtain ⟨t, hexec, hloaded, hseen⟩ := exec_movemToReg_postInc_ok hf hcells hextra
    have hkeeps : s.Keeps t (frame [r]) :=
      (s.keeps_pastWords 2 _).trans (hloaded.keeps.mono (List.Subset.refl _) (by simp [frame]) (List.Subset.refl _))
    refine ⟨_, ⟨hexec, hkeeps.trans (t.keeps_setAreg r _ (by simp [frame]))⟩, (t.setAreg_deviceLog r _).trans hseen,
      (t.setAreg_sr r _).trans hloaded.sr, (t.setAreg_pc r _).trans hloaded.pc, t.areg_setAreg_self r _,
      fun i hi hbit hne => ?_⟩
    rw [State.reg_setAreg_of_ne t _ hi hne, hloaded.reg i hi hbit, hread]
  · obtain ⟨t, hexec, hloaded⟩ := exec_movemToReg_postInc_fault hf hcells h0 hextra
    have hkeeps : s.Keeps t (frame []) :=
      (s.keeps_pastWords 2 _).trans (hloaded.keeps.mono (List.Subset.refl _) (by simp [frame]) (List.Subset.refl _))
    exact ⟨t, hexec, hkeeps, hloaded.sr, hloaded.pc, fun i hi hbit => by rw [hloaded.reg i hi hbit, hread]⟩

end Sys2Proof.Machine

/-! Proofs about the integer arithmetic instructions (41_integer_arithmetic.md), with the logical ones of the same
forms. -/

namespace Sys2Proof

/-! ## Words written out from the spec (30_encoding.md R100) -/

/-- The words of a well-formed instruction's encoding decode to it. -/
theorem decodeWords_of_encode {ws : List Word} {i : Instr} (hwf : i.wf = true) (hws : encode i ++ [] = ws) :
    decodeWords ws = .ok (i, []) := by
  rw [← hws]
  exact decodeEncode i [] hwf

/-- Settles O1: each word is the encoding of its instruction, but for the one that no row of the opcode map matches. -/
theorem sampleWordsDecode : Obligations.SampleWordsDecode := by
  unfold Obligations.SampleWordsDecode
  exact ⟨decodeWords_of_encode rfl rfl, decodeWords_of_encode rfl rfl, decodeWords_of_encode rfl rfl,
    decodeWords_of_encode rfl rfl, decodeWords_of_encode rfl rfl, decodeWords_of_encode rfl rfl,
    decodeWords_of_encode rfl rfl, decodeWords_of_encode rfl rfl, by decide, decodeWords_of_encode rfl rfl⟩

end Sys2Proof

namespace Sys2Proof.Machine

/-! ## The flag operations write condition codes alone (00_scope.md R10 to R12) -/

section Flags

variable {n : Nat} (sr : StatusReg) (v d r : BitVec n)

theorem StatusReg.sameSystem_ofAdd : (sr.ofAdd v d r).SameSystem sr := ⟨rfl, rfl, rfl⟩
theorem StatusReg.sameSystem_ofAddX : (sr.ofAddX v d r).SameSystem sr := ⟨rfl, rfl, rfl⟩
theorem StatusReg.sameSystem_ofSub : (sr.ofSub v d r).SameSystem sr := ⟨rfl, rfl, rfl⟩
theorem StatusReg.sameSystem_ofSubX : (sr.ofSubX v d r).SameSystem sr := ⟨rfl, rfl, rfl⟩
theorem StatusReg.sameSystem_ofCmp : (sr.ofCmp v d r).SameSystem sr := ⟨rfl, rfl, rfl⟩

end Flags

/-! ## An operand read (30_encoding.md R110, R123) -/

/-- The value of the operand that an effective address at `PC` names. -/
def State.operand (s : State) (sz : Size) (ea : EA) : BitVec sz.bits := (eaLoc sz ea s).value sz (s.resolved sz ea)

/-- The state once that operand is resolved and read. -/
def State.operandRead (s : State) (sz : Size) (ea : EA) : State := (eaLoc sz ea s).afterRead sz (s.resolved sz ea)

/-- The words of an operand can be fetched, and its location read. -/
structure State.CanRead (s : State) (sz : Size) (ea : EA) : Prop where
  fetch : s.fetchable s.pc (eaExtCount sz ea) = true
  read : (eaLoc sz ea s).readable sz (s.resolved sz ea) = true

section Read

variable {s : State} {sz : Size} {ea : EA}

/-- Past the first words of an instruction, where the operand's words come next. -/
theorem State.canRead_past {k : Nat} (hf : s.fetchable s.pc (k + eaExtCount sz ea) = true)
    (hr : (eaLoc sz ea (s.pastWords k)).readable sz ((s.pastWords k).resolved sz ea) = true) :
    (s.pastWords k).CanRead sz ea := ⟨State.fetchable_past k _ hf, hr⟩

theorem State.CanRead.readEA (h : s.CanRead sz ea) :
    readEA sz ea s = .ok (s.operand sz ea) (s.operandRead sz ea) := readEA_ok h.fetch h.read

variable (s sz ea)

@[simp] theorem State.operandRead_sr : (s.operandRead sz ea).sr = s.sr := by simp [State.operandRead]
@[simp] theorem State.operandRead_pc : (s.operandRead sz ea).pc = (s.resolved sz ea).pc := by simp [State.operandRead]
@[simp] theorem State.operandRead_dreg (r : RegNo) : (s.operandRead sz ea).dreg r = s.dreg r := by
  simp [State.operandRead]
@[simp] theorem State.operandRead_areg (r : RegNo) : (s.operandRead sz ea).areg r = (s.resolved sz ea).areg r := by
  simp [State.operandRead]

theorem State.keeps_operandRead {c : Changes} (h : eaStepped ea ⊆ c.aregs) : s.Keeps (s.operandRead sz ea) c :=
  (s.keeps_resolved sz ea h).trans (State.keeps_afterRead _ sz _ c)

variable {s sz ea}

/-- An instruction that reads an operand, by what its rule does with the value. -/
theorem State.completes_of_read {i : Instr} {body : BitVec sz.bits → Exec Unit} {t : State} {c : Changes}
    (hexec : exec i s = runBody (Machine.readEA sz ea >>= body) s) (h : (s.pastWords 1).CanRead sz ea)
    (hbody : body ((s.pastWords 1).operand sz ea) ((s.pastWords 1).operandRead sz ea) = .ok () t)
    (hkeeps : ((s.pastWords 1).operandRead sz ea).Keeps t c) (hc : eaStepped ea ⊆ c.aregs) : s.Completes i t c :=
  State.completes_of_body hexec ((Exec.bind_ok h.readEA).trans hbody)
    ((State.keeps_operandRead _ sz ea hc).trans hkeeps)

end Read

/-! ## An operand combined with a data register (R262, R273, 42_logical.md R332, R341) -/

/-- A two-operand operation that writes condition codes alone. -/
def FlagsOnly {n : Nat} (f : BitVec n → BitVec n → StatusReg → BitVec n × StatusReg) : Prop :=
  ∀ v d sr, (f v d sr).2.SameSystem sr

theorem flagsOnly_addOp (n : Nat) : FlagsOnly (addOp (n := n)) := fun v d sr => sr.sameSystem_ofAdd v d _
theorem flagsOnly_addxOp (n : Nat) : FlagsOnly (addxOp (n := n)) := fun v d sr => sr.sameSystem_ofAddX v d _
theorem flagsOnly_subOp (n : Nat) : FlagsOnly (subOp (n := n)) := fun v d sr => sr.sameSystem_ofSub v d _
theorem flagsOnly_subxOp (n : Nat) : FlagsOnly (subxOp (n := n)) := fun v d sr => sr.sameSystem_ofSubX v d _
theorem flagsOnly_andOp (n : Nat) : FlagsOnly (andOp (n := n)) := fun _ _ sr => sr.sameSystem_logic _
theorem flagsOnly_orOp (n : Nat) : FlagsOnly (orOp (n := n)) := fun _ _ sr => sr.sameSystem_logic _
theorem flagsOnly_eorOp (n : Nat) : FlagsOnly (eorOp (n := n)) := fun _ _ sr => sr.sameSystem_logic _

/-- An instruction of the form `<ea>,Dn`. -/
theorem State.completes_eaToDreg {s : State} {sz : Size} {ea : EA} {rx : RegNo} {i : Instr}
    {f : BitVec sz.bits → BitVec sz.bits → StatusReg → BitVec sz.bits × StatusReg}
    (hexec : exec i s = runBody (eaToDreg sz ea rx f) s) (h : (s.pastWords 1).CanRead sz ea) (hf : FlagsOnly f) :
    let u := (s.pastWords 1).operandRead sz ea
    let p := f ((s.pastWords 1).operand sz ea) ((s.dreg rx).setWidth sz.bits) s.sr
    s.Completes i { u.putDreg rx p.1 with sr := p.2 } { dregs := [rx], aregs := eaStepped ea, bytes := [] } := by
  intro u p
  have hp : f ((s.pastWords 1).operand sz ea) ((u.dreg rx).setWidth sz.bits) u.sr = p := by simp [u, p]
  refine State.completes_of_read hexec h ?_ ?_ (List.Subset.refl _)
  · rw [← hp]
    rfl
  · refine (u.keeps_putDreg rx p.1 (by simp)).withFlags _ ?_
    rw [← hp]
    exact hf _ _ _

/-- Settles O31: the four operations of one form. -/
theorem binaryToRegister : Obligations.BinaryToRegister := by
  unfold Obligations.BinaryToRegister
  intro sz ea rx s s1 s2 loc s3 v d done frame hf hr
  have h : s1.CanRead sz ea := State.canRead_past hf hr
  exact ⟨State.completes_eaToDreg (f := addOp) rfl h (flagsOnly_addOp _),
    State.completes_eaToDreg (f := subOp) rfl h (flagsOnly_subOp _),
    State.completes_eaToDreg (f := andOp) rfl h (flagsOnly_andOp _),
    State.completes_eaToDreg (f := orOp) rfl h (flagsOnly_orOp _)⟩

end Sys2Proof.Machine

namespace Sys2Proof.Machine

/-! ## A result stored in the place of an operand (30_encoding.md R126) -/

/-- The state with a result and its flags stored in the place of the operand at `PC`, which has been read. -/
def State.stored (s : State) (sz : Size) (ea : EA) (p : BitVec sz.bits × StatusReg) : State :=
  { (eaLoc sz ea s).put sz (s.operandRead sz ea) p.1 with sr := p.2 }

/-- The frame of an instruction that stores in the place of the operand at `PC`. -/
def State.storeFrame (s : State) (sz : Size) (ea : EA) : Changes where
  dregs := (eaLoc sz ea s).dregs
  aregs := eaStepped ea ++ (eaLoc sz ea s).aregs
  bytes := (eaLoc sz ea s).bytes sz

/-- The words of an operand can be fetched, and its location read and written. -/
structure State.CanStore (s : State) (sz : Size) (ea : EA) : Prop where
  fetch : s.fetchable s.pc (eaExtCount sz ea) = true
  write : (eaLoc sz ea s).writable sz (s.resolved sz ea) = true

section Store

variable {s : State} {sz : Size} {ea : EA}

theorem State.canStore_past {k : Nat} (hf : s.fetchable s.pc (k + eaExtCount sz ea) = true)
    (hw : (eaLoc sz ea (s.pastWords k)).writable sz ((s.pastWords k).resolved sz ea) = true) :
    (s.pastWords k).CanStore sz ea := ⟨State.fetchable_past k _ hf, hw⟩

theorem State.keeps_stored {p : BitVec sz.bits × StatusReg} (hp : p.2.SameSystem s.sr) :
    s.Keeps (s.stored sz ea p) (s.storeFrame sz ea) :=
  ((s.keeps_operandRead sz ea (by simp [storeFrame])).trans
    (State.keeps_put _ sz _ p.1 (by simp [storeFrame]) (by simp [storeFrame]) (by simp [storeFrame]))).withFlags _ hp

/-- An instruction whose rule ends in a store, its operand's words coming after `k` words. -/
theorem State.completes_stored {k : Nat} {i : Instr} {body : Exec Unit} {p : BitVec sz.bits × StatusReg}
    (hexec : exec i s = runBody body s)
    (hbody : body (s.pastWords 1) = .ok () ((s.pastWords k).stored sz ea p)) (hp : p.2.SameSystem s.sr) :
    s.Completes i ((s.pastWords k).stored sz ea p) ((s.pastWords k).storeFrame sz ea) :=
  ⟨hexec.trans (runBody_ok hbody), (s.keeps_pastWords k _).trans (State.keeps_stored hp)⟩

/-! The three forms that store in the place of their operand. -/

theorem State.CanStore.modifyEA {f : BitVec sz.bits → StatusReg → BitVec sz.bits × StatusReg}
    (h : s.CanStore sz ea) :
    modifyEA sz ea f s = .ok () (s.stored sz ea (f (s.operand sz ea) s.sr)) := by
  rw [modifyEA_ok h.fetch h.write, ← s.operandRead_sr sz ea]
  rfl

theorem State.CanStore.dregToEA {rx : RegNo}
    {f : BitVec sz.bits → BitVec sz.bits → StatusReg → BitVec sz.bits × StatusReg} (h : s.CanStore sz ea) :
    dregToEA sz rx ea f s = .ok () (s.stored sz ea (f ((s.dreg rx).setWidth sz.bits) (s.operand sz ea) s.sr)) := by
  rw [dregToEA_ok h.fetch h.write, ← s.operandRead_sr sz ea, ← s.operandRead_dreg sz ea]
  rfl

theorem immToEA_stored {v : Long}
    {f : BitVec sz.bits → BitVec sz.bits → StatusReg → BitVec sz.bits × StatusReg} {k : Nat}
    (hk : k = if sz = .l then 2 else 1) (hf : s.fetchable s.pc k = true) (h : (s.pastWords k).CanStore sz ea) :
    immToEA sz v ea f s =
      .ok () ((s.pastWords k).stored sz ea (f (v.setWidth sz.bits) ((s.pastWords k).operand sz ea) s.sr)) := by
  rw [immToEA, Exec.bind_ok (fetchImm_ok hk hf), h.modifyEA, State.pastWords_sr]

/-- An instruction of the form `Dn,<ea>`. -/
theorem State.completes_dregToEA {rx : RegNo} {i : Instr}
    {f : BitVec sz.bits → BitVec sz.bits → StatusReg → BitVec sz.bits × StatusReg}
    (hexec : exec i s = runBody (Machine.dregToEA sz rx ea f) s) (h : (s.pastWords 1).CanStore sz ea)
    (hf : FlagsOnly f) :
    s.Completes i
      ((s.pastWords 1).stored sz ea (f ((s.dreg rx).setWidth sz.bits) ((s.pastWords 1).operand sz ea) s.sr))
      ((s.pastWords 1).storeFrame sz ea) :=
  State.completes_stored hexec h.dregToEA (hf _ _ _)

/-- An instruction of the form `#<data>,<ea>`. -/
theorem State.completes_immToEA {v : Long} {i : Instr}
    {f : BitVec sz.bits → BitVec sz.bits → StatusReg → BitVec sz.bits × StatusReg} {k : Nat}
    (hk : k = if sz = .l then 2 else 1) (hexec : exec i s = runBody (Machine.immToEA sz v ea f) s)
    (hfetch : s.fetchable s.pc (1 + k) = true) (h : (s.pastWords (1 + k)).CanStore sz ea) (hf : FlagsOnly f) :
    s.Completes i
      ((s.pastWords (1 + k)).stored sz ea (f (v.setWidth sz.bits) ((s.pastWords (1 + k)).operand sz ea) s.sr))
      ((s.pastWords (1 + k)).storeFrame sz ea) := by
  refine State.completes_stored hexec ?_ (hf _ _ _)
  rw [← State.pastWords_pastWords] at h ⊢
  exact immToEA_stored hk (State.fetchable_past 1 k hfetch) h

/-- An instruction of one operand. -/
theorem State.completes_modifyEA {i : Instr} {f : BitVec sz.bits → StatusReg → BitVec sz.bits × StatusReg}
    (hexec : exec i s = runBody (Machine.modifyEA sz ea f) s) (h : (s.pastWords 1).CanStore sz ea)
    (hf : ∀ d sr, (f d sr).2.SameSystem sr) :
    s.Completes i ((s.pastWords 1).stored sz ea (f ((s.pastWords 1).operand sz ea) s.sr))
      ((s.pastWords 1).storeFrame sz ea) :=
  State.completes_stored hexec h.modifyEA (hf _ _)

end Store

/-- Settles O32: the five operations of one form. -/
theorem binaryToMemory : Obligations.BinaryToMemory := by
  unfold Obligations.BinaryToMemory
  intro sz rx ea s s1 s2 loc s3 v d done frame hf hw
  have h : s1.CanStore sz ea := State.canStore_past hf hw
  exact ⟨State.completes_dregToEA (f := addOp) rfl h (flagsOnly_addOp _),
    State.completes_dregToEA (f := subOp) rfl h (flagsOnly_subOp _),
    State.completes_dregToEA (f := andOp) rfl h (flagsOnly_andOp _),
    State.completes_dregToEA (f := orOp) rfl h (flagsOnly_orOp _),
    State.completes_dregToEA (f := eorOp) rfl h (flagsOnly_eorOp _)⟩

/-- Settles O33: the immediate's words first, then the operand as in the forms without one. -/
theorem immediateOperations : Obligations.ImmediateOperations := by
  unfold Obligations.ImmediateOperations
  intro sz imm ea s k s1 s2 loc s3 v d done frame hf hw
  rw [← Nat.add_assoc] at hf
  have h : s1.CanStore sz ea := State.canStore_past hf hw
  have himm : s.fetchable s.pc (1 + k) = true := State.fetchable_take (by omega) hf
  exact ⟨State.completes_immToEA (f := addOp) rfl rfl himm h (flagsOnly_addOp _),
    State.completes_immToEA (f := subOp) rfl rfl himm h (flagsOnly_subOp _),
    State.completes_immToEA (f := andOp) rfl rfl himm h (flagsOnly_andOp _),
    State.completes_immToEA (f := orOp) rfl rfl himm h (flagsOnly_orOp _),
    State.completes_immToEA (f := eorOp) rfl rfl himm h (flagsOnly_eorOp _)⟩

/-! ## ADDQ and SUBQ (R265, R276, 30_encoding.md R107) -/

theorem quick_eq_ofNat (n : Nat) (q : BitVec 3) : quick n q = BitVec.ofNat n (if q = 0 then 8 else q.toNat) := by
  unfold quick
  split
  next => rfl
  next => exact (BitVec.ofNat_toNat n q).symm

/-- On an operand that is no address register, ADDQ and SUBQ have the form of one operand. -/
theorem exec_addq_of_ne {ea : EA} (hea : ∀ r, ea ≠ .an r) (sz : Size) (q : BitVec 3) (s : State) :
    exec (.addq sz q ea) s = runBody (modifyEA sz ea (addOp (quick sz.bits q))) s := by
  cases ea with
  | an r => exact absurd rfl (hea r)
  | _ => rfl

theorem exec_subq_of_ne {ea : EA} (hea : ∀ r, ea ≠ .an r) (sz : Size) (q : BitVec 3) (s : State) :
    exec (.subq sz q ea) s = runBody (modifyEA sz ea (subOp (quick sz.bits q))) s := by
  cases ea with
  | an r => exact absurd rfl (hea r)
  | _ => rfl

/-- An instruction that does nothing but write an address register. -/
theorem State.completes_setAreg {s : State} {i : Instr} {r : RegNo} {v : Long}
    (hexec : exec i s = .next ((s.pastWords 1).setAreg r v)) :
    s.Completes i ((s.pastWords 1).setAreg r v) { dregs := [], aregs := [r], bytes := [] } :=
  ⟨hexec, (s.keeps_pastWords 1 _).trans (State.keeps_setAreg _ r v (by simp))⟩

/-- Settles O36: the address register, or the form of one operand. -/
theorem quickAddSubtract : Obligations.QuickAddSubtract := by
  unfold Obligations.QuickAddSubtract
  intro sz q s n s1
  refine ⟨fun r => ?_, ?_⟩
  · have hn : quick 32 q = BitVec.ofNat 32 n := quick_eq_ofNat 32 q
    rw [← hn]
    exact ⟨State.completes_setAreg rfl, State.completes_setAreg rfl⟩
  · intro ea hea s2 loc s3 v d done frame hf hw
    have h : s1.CanStore sz ea := State.canStore_past hf hw
    have hv : quick sz.bits q = v := quick_eq_ofNat sz.bits q
    have hadd := State.completes_modifyEA (exec_addq_of_ne hea sz q s) h (flagsOnly_addOp _ _)
    have hsub := State.completes_modifyEA (exec_subq_of_ne hea sz q s) h (flagsOnly_subOp _ _)
    rw [hv] at hadd hsub
    exact ⟨hadd, hsub⟩

/-! ## One operand: NEG, NEGX, NOT, CLR, TAS (R290 to R299, 42_logical.md R345) -/

theorem bitAs_eq_ite (n : Nat) (b : Bool) : bitAs n b = if b then 1 else 0 := by
  cases b with
  | false => simp [bitAs]
  | true => exact BitVec.eq_of_toNat_eq (by simp [bitAs])

theorem negOp_eq {n : Nat} (d : BitVec n) (sr : StatusReg) : negOp d sr = (-d, sr.ofSub d 0 (-d)) := by
  rw [negOp, subOp, BitVec.ofNat_eq_ofNat, BitVec.zero_sub]

theorem negxOp_eq {n : Nat} (d : BitVec n) (sr : StatusReg) :
    negxOp d sr = (let r := -d - (if sr.x then 1 else 0); (r, sr.ofSubX d 0 r)) := by
  rw [negxOp, subxOp, bitAs_eq_ite, BitVec.ofNat_eq_ofNat, BitVec.zero_sub]

/-- CLR reads its operand, and stores 0 whatever it was. -/
theorem State.completes_clr {s : State} {sz : Size} {ea : EA} (h : (s.pastWords 1).CanStore sz ea) :
    s.Completes (.clr sz ea) ((s.pastWords 1).stored sz ea
        (0, { s.sr with n := false, z := true, v := false, c := false }))
      ((s.pastWords 1).storeFrame sz ea) := by
  refine State.completes_stored rfl ?_ ⟨rfl, rfl, rfl⟩
  rw [Exec.bind_ok (resolveEA_ok h.fetch), Exec.bind_ok (discardRead_ok (Loc.writable_readable h.write)),
    Exec.bind_ok (writeLoc_ok (Loc.writable_afterRead h.write)), setFlags_apply]
  simp [State.stored, State.operandRead]

/-- Writing a location once the flags are set. -/
theorem writeLoc_withFlags {sz : Size} {loc : Loc} {u : State} (h : loc.writable sz u = true) (v : BitVec sz.bits)
    {sr : StatusReg} (hs : sr.s = u.sr.s) :
    writeLoc sz loc v { u with sr := sr } = .ok () { loc.put sz u v with sr := sr } := by
  rw [← Loc.put_withFlags sz u loc v sr hs]
  exact writeLoc_ok ((Loc.writable_congr (s := { u with sr := sr }) (t := u) rfl sz loc).trans h)

/-- TAS sets the flags before it stores, and the store leaves them. -/
theorem State.completes_tas {s : State} {ea : EA} (h : (s.pastWords 1).CanStore .b ea) :
    let d : Byte := (s.pastWords 1).operand .b ea
    s.Completes (.tas ea) ((s.pastWords 1).stored .b ea (d ||| 0x80#8, s.sr.logic d))
      ((s.pastWords 1).storeFrame .b ea) := by
  intro d
  have hsr : ((s.pastWords 1).operandRead .b ea).sr = s.sr := State.operandRead_sr _ .b ea
  refine State.completes_stored rfl ?_ (s.sr.sameSystem_logic d)
  rw [Exec.bind_ok (resolveEA_ok h.fetch), Exec.bind_ok (readLoc_ok (Loc.writable_readable h.write)),
    Exec.bind_ok (setFlags_apply _ _), ← hsr]
  exact writeLoc_withFlags (Loc.writable_afterRead h.write) _ rfl

/-- Settles O38: three operations of the form of one operand, CLR and TAS. -/
theorem singleOperand : Obligations.SingleOperand := by
  unfold Obligations.SingleOperand
  intro sz ea s s1 x
  constructor
  · intro s2 loc s3 d done frame hf hw
    have h : s1.CanStore sz ea := State.canStore_past hf hw
    have hneg := State.completes_modifyEA (f := negOp) (i := .neg sz ea) rfl h fun d => flagsOnly_subOp _ d 0
    have hnegx := State.completes_modifyEA (f := negxOp) (i := .negx sz ea) rfl h fun d => flagsOnly_subxOp _ d 0
    rw [negOp_eq] at hneg
    rw [negxOp_eq] at hnegx
    exact ⟨hneg, hnegx, State.completes_modifyEA (f := notOp) rfl h fun _ sr => sr.sameSystem_logic _,
      State.completes_clr h⟩
  · exact fun hf hw => State.completes_tas (State.canStore_past hf hw)

end Sys2Proof.Machine

namespace Sys2Proof.Machine

/-! ## Compare and test (R285 to R288, R294) -/

/-- An instruction that reads an operand and then sets flags alone. -/
theorem State.completes_readFlags {s : State} {sz : Size} {ea : EA} {i : Instr} {body : BitVec sz.bits → Exec Unit}
    {sr : StatusReg} (hexec : exec i s = runBody (Machine.readEA sz ea >>= body) s) (h : (s.pastWords 1).CanRead sz ea)
    (hbody : body ((s.pastWords 1).operand sz ea) ((s.pastWords 1).operandRead sz ea) =
      .ok () { (s.pastWords 1).operandRead sz ea with sr := sr }) (hsr : sr.SameSystem s.sr) :
    s.Completes i { (s.pastWords 1).operandRead sz ea with sr := sr }
      { dregs := [], aregs := eaStepped ea, bytes := [] } := by
  refine State.completes_of_read hexec h hbody ((State.Keeps.refl _ _).withFlags sr ?_) (List.Subset.refl _)
  rwa [State.operandRead_sr]

/-- CMPI: the immediate's words first, then the operand. -/
theorem State.completes_cmpi {s : State} {sz : Size} {imm : Long} {ea : EA} {k : Nat}
    (hk : k = if sz = .l then 2 else 1) (hfetch : s.fetchable s.pc (1 + k) = true) (h : (s.pastWords (1 + k)).CanRead sz ea) :
    let d := (s.pastWords (1 + k)).operand sz ea
    let v := imm.setWidth sz.bits
    s.Completes (.cmpi sz imm ea) { (s.pastWords (1 + k)).operandRead sz ea with sr := s.sr.ofCmp v d (d - v) }
      { dregs := [], aregs := eaStepped ea, bytes := [] } := by
  intro d v
  have himm : fetchImm sz imm (s.pastWords 1) = .ok v (s.pastWords (1 + k)) := by
    rw [← State.pastWords_pastWords]
    exact fetchImm_ok hk (State.fetchable_past 1 k hfetch)
  refine ⟨runBody_ok ?_, ((s.keeps_pastWords (1 + k) _).trans (State.keeps_operandRead _ sz ea (by simp))).withFlags _
    (s.sr.sameSystem_ofCmp v d _)⟩
  rw [Exec.bind_ok himm, Exec.bind_ok h.readEA, setFlags_apply, State.operandRead_sr, State.pastWords_sr]

/-- Reading where a register points, and stepping it up from what it was. -/
theorem readPostInc_step {sz : Size} {r : RegNo} {s : State} (h : s.accessOk sz (s.areg r) = true) :
    readPostInc sz r s = .ok (s.busRead sz (s.areg r)).1
      ((s.busRead sz (s.areg r)).2.setAreg r (s.areg r + eaStep sz r)) := by
  simp only [readPostInc_ok h, State.areg_busRead]

theorem State.keeps_readPostInc (s : State) (sz : Size) (r : RegNo) {c : Changes} (h : r ∈ c.aregs) :
    s.Keeps ((s.busRead sz (s.areg r)).2.setAreg r (s.areg r + eaStep sz r)) c :=
  (s.keeps_busRead sz _ c).trans (State.keeps_setAreg _ r _ h)

/-- CMPM: the second operand is read where its register points once the first has stepped. -/
theorem State.completes_cmpm {s : State} {sz : Size} {ry rx : RegNo} (hsrc : s.accessOk sz (s.areg ry) = true) :
    let src := (s.pastWords 1).busRead sz (s.areg ry)
    let s2 := src.2.setAreg ry (s.areg ry + eaStep sz ry)
    let dst := s2.busRead sz (s2.areg rx)
    let s3 := dst.2.setAreg rx (s2.areg rx + eaStep sz rx)
    s.accessOk sz (s2.areg rx) = true →
    s.Completes (.cmpm sz ry rx) { s3 with sr := s.sr.ofCmp src.1 dst.1 (dst.1 - src.1) }
      { dregs := [], aregs := [ry, rx], bytes := [] } := by
  intro src s2 dst s3 hdst
  have h1 : readPostInc sz ry (s.pastWords 1) = .ok src.1 s2 :=
    readPostInc_step ((State.accessOk_congr (s := s.pastWords 1) rfl sz _).trans hsrc)
  have h2 : readPostInc sz rx s2 = .ok dst.1 s3 :=
    readPostInc_step ((State.accessOk_congr (by simp [s2, src]) sz _).trans hdst)
  have hsr : s3.sr = s.sr := by simp [s3, dst, s2, src]
  refine State.completes_of_body rfl ?_ ?_
  · rw [Exec.bind_ok h1, Exec.bind_ok h2, setFlags_apply, hsr]
  · exact ((State.keeps_readPostInc _ sz ry (by simp)).trans (s2.keeps_readPostInc sz rx (by simp))).withFlags _
      (s.sr.sameSystem_ofCmp _ _ _)

/-- Settles O34: one operand read for CMP, TST and CMPA, an immediate's words before it for CMPI, two reads for CMPM. -/
theorem compareAndTest : Obligations.CompareAndTest := by
  unfold Obligations.CompareAndTest
  refine ⟨?_, ?_, ?_, ?_⟩
  · intro sz ea rx s s1 s2 loc s3 v d frame hf hr
    have h : s1.CanRead sz ea := State.canRead_past hf hr
    refine ⟨State.completes_readFlags rfl h ?_ (s.sr.sameSystem_ofCmp v d (d - v)),
      State.completes_readFlags rfl h ?_ (s.sr.sameSystem_logic v)⟩
    · rw [Exec.bind_ok (Exec.get_apply _), setFlags_apply, State.operandRead_sr, State.operandRead_dreg]
      rfl
    · rw [setFlags_apply, State.operandRead_sr]
      rfl
  · intro sz ea rx s s1 s2 loc s3 v d hf hr
    have h : s1.CanRead sz.size ea := State.canRead_past hf hr
    refine State.completes_readFlags rfl h ?_ (s.sr.sameSystem_ofCmp v d (d - v))
    rw [Exec.bind_ok (Exec.get_apply _), setFlags_apply, State.operandRead_sr, State.operandRead_areg]
    rfl
  · intro sz imm ea s k s1 s2 loc s3 v d hf hr
    rw [← Nat.add_assoc] at hf
    exact State.completes_cmpi rfl (State.fetchable_take (by omega) hf) (State.canRead_past hf hr)
  · exact fun sz ry rx s hsrc hdst => State.completes_cmpm hsrc hdst

/-! ## Results in an address register (R263, R274, 40_data_movement.md R203, R217) -/

/-- An instruction that reads an operand and then writes an address register. -/
theorem State.completes_readAreg {s : State} {sz : Size} {ea : EA} {rx : RegNo} {i : Instr}
    {body : BitVec sz.bits → Exec Unit} {x : Long} (hexec : exec i s = runBody (Machine.readEA sz ea >>= body) s)
    (h : (s.pastWords 1).CanRead sz ea)
    (hbody : body ((s.pastWords 1).operand sz ea) ((s.pastWords 1).operandRead sz ea) =
      .ok () (((s.pastWords 1).operandRead sz ea).setAreg rx x)) :
    s.Completes i (((s.pastWords 1).operandRead sz ea).setAreg rx x)
      { dregs := [], aregs := rx :: eaStepped ea, bytes := [] } :=
  State.completes_of_read hexec h hbody (State.keeps_setAreg _ rx x (by simp)) (by simp)

/-- LEA resolves its operand and reads nothing. -/
theorem State.completes_lea {s : State} {ea : EA} {rx : RegNo} {sp : Space} {a : Long}
    (hf : s.fetchable s.pc (1 + eaExtCount .l ea) = true) (ha : eaLoc .l ea (s.pastWords 1) = .mem sp a) :
    s.Completes (.lea ea rx) (((s.pastWords 1).resolved .l ea).setAreg rx a)
      { dregs := [], aregs := rx :: eaStepped ea, bytes := [] } := by
  refine State.completes_of_body rfl ?_ ?_
  · rw [Exec.bind_ok (addressEA_ok (State.fetchable_past 1 _ hf) ha), Exec.modify_apply]
  · exact (State.keeps_resolved _ .l ea (by simp)).trans (State.keeps_setAreg _ rx a (by simp))

/-- Settles O35: one operand read for ADDA, SUBA and MOVEA, an address alone for LEA. -/
theorem addressRegisterResults : Obligations.AddressRegisterResults := by
  unfold Obligations.AddressRegisterResults
  constructor
  · intro sz ea rx s s1 s2 loc s3 v frame hf hr
    have h : s1.CanRead sz.size ea := State.canRead_past hf hr
    refine ⟨State.completes_readAreg rfl h ?_, State.completes_readAreg rfl h ?_,
      State.completes_readAreg rfl h rfl⟩
    · rw [Exec.modify_apply, State.operandRead_areg]
      rfl
    · rw [Exec.modify_apply, State.operandRead_areg]
      rfl
  · exact fun ea rx s sp a hf ha => State.completes_lea hf ha

/-! ## ADDX and SUBX (R270, R271, R277, R278) -/

theorem addxOp_eq {n : Nat} (v d : BitVec n) (sr : StatusReg) :
    addxOp v d sr = (let r := d + v + (if sr.x then 1 else 0); (r, sr.ofAddX v d r)) := by
  rw [addxOp, bitAs_eq_ite]

theorem subxOp_eq {n : Nat} (v d : BitVec n) (sr : StatusReg) :
    subxOp v d sr = (let r := d - v - (if sr.x then 1 else 0); (r, sr.ofSubX v d r)) := by
  rw [subxOp, bitAs_eq_ite]

section Pairs

variable {s : State} {sz : Size} {ry rx : RegNo} {i : Instr}
  {f : BitVec sz.bits → BitVec sz.bits → StatusReg → BitVec sz.bits × StatusReg}

/-- An instruction of the form `Dy,Dx`. -/
theorem State.completes_dregPair (hexec : exec i s = runBody (dregPair sz ry rx f) s) (hf : FlagsOnly f) :
    let p := f ((s.dreg ry).setWidth sz.bits) ((s.dreg rx).setWidth sz.bits) s.sr
    s.Completes i { (s.pastWords 1).putDreg rx p.1 with sr := p.2 } { dregs := [rx], aregs := [], bytes := [] } :=
  State.completes_of_body hexec (dregPair_ok sz ry rx f _)
    ((State.keeps_putDreg _ rx _ (by simp)).withFlags _ (hf _ _ _))

/-- An instruction of the form `-(Ay),-(Ax)`. -/
theorem State.completes_memPair (hexec : exec i s = runBody (memPair sz ry rx f) s) (hf : FlagsOnly f) :
    let src := s.areg ry - eaStep sz ry
    let first := ((s.pastWords 1).setAreg ry src).busRead sz src
    let dst := first.2.areg rx - eaStep sz rx
    let second := (first.2.setAreg rx dst).busRead sz dst
    let p := f first.1 second.1 s.sr
    s.accessOk sz src = true → s.accessOk sz dst = true →
    s.Completes i { second.2.busWrite sz dst p.1 with sr := p.2 }
      { dregs := [], aregs := [ry, rx], bytes := bytesAt dst sz.bytes } := by
  intro src first dst second p hsrc hdst
  have hplatform (a : Long) : (s.pastWords 1).accessOk sz a = s.accessOk sz a := State.accessOk_congr rfl sz a
  have hdst_eq : dst = ((s.pastWords 1).setAreg ry src).areg rx - eaStep sz rx := by
    rw [← State.areg_busRead _ sz src]
  have hfirst : (s.pastWords 1).Keeps first.2 { dregs := [], aregs := [ry, rx], bytes := bytesAt dst sz.bytes } :=
    (State.keeps_setAreg _ ry src (by simp)).trans (State.keeps_busRead _ sz src _)
  have hsecond : first.2.Keeps second.2 { dregs := [], aregs := [ry, rx], bytes := bytesAt dst sz.bytes } :=
    (State.keeps_setAreg _ rx dst (by simp)).trans (State.keeps_busRead _ sz dst _)
  refine State.completes_of_body hexec (memPair_ok ?_ ?_) ?_
  · exact (hplatform _).trans hsrc
  · exact (hplatform _).trans (hdst_eq ▸ hdst)
  · exact ((hfirst.trans hsecond).trans (State.keeps_busWrite _ sz dst p.1 (List.Subset.refl _))).withFlags _
      (hf _ _ _)

end Pairs

/-- Settles O37: the two operations in each of the two forms. -/
theorem extendedAddSubtract : Obligations.ExtendedAddSubtract := by
  unfold Obligations.ExtendedAddSubtract
  intro sz ry rx s s1 x
  constructor
  · have hadd := State.completes_dregPair (s := s) (i := .addxReg sz ry rx) (f := addxOp) rfl
      (flagsOnly_addxOp sz.bits)
    have hsub := State.completes_dregPair (s := s) (i := .subxReg sz ry rx) (f := subxOp) rfl
      (flagsOnly_subxOp sz.bits)
    rw [addxOp_eq] at hadd
    rw [subxOp_eq] at hsub
    exact ⟨hadd, hsub⟩
  · intro src first dst second v d frame hsrc hdst
    have hadd := State.completes_memPair (i := .addxMem sz ry rx) (f := addxOp) rfl (flagsOnly_addxOp sz.bits)
      hsrc hdst
    have hsub := State.completes_memPair (i := .subxMem sz ry rx) (f := subxOp) rfl (flagsOnly_subxOp sz.bits)
      hsrc hdst
    rw [addxOp_eq] at hadd
    rw [subxOp_eq] at hsub
    exact ⟨hadd, hsub⟩

end Sys2Proof.Machine

namespace Sys2Proof.Machine

/-! ## MULS and MULU (R280, R281) -/

/-- Sixteen bits by sixteen always fit thirty-two. -/
theorem toInt_signExtend_mul_signExtend (v d : Word) :
    (d.signExtend 32 * v.signExtend 32).toInt = d.toInt * v.toInt := by
  have hle : d.toInt * v.toInt ≤ 2 ^ 30 := BitVec.toInt_mul_toInt_le
  have hge : -(2 ^ 30) ≤ d.toInt * v.toInt := BitVec.le_toInt_mul_toInt
  rw [BitVec.toInt_mul, BitVec.toInt_signExtend_of_le (by decide), BitVec.toInt_signExtend_of_le (by decide)]
  exact Int.bmod_eq_of_le (by omega) (by omega)

theorem toNat_setWidth_mul_setWidth (v d : Word) : (d.setWidth 32 * v.setWidth 32).toNat = d.toNat * v.toNat := by
  have hlt : d.toNat * v.toNat < 2 ^ 16 * 2 ^ 16 := Nat.mul_lt_mul'' d.isLt v.isLt
  have hd : (d.setWidth 32).toNat = d.toNat := BitVec.toNat_setWidth_of_le (by decide)
  have hv : (v.setWidth 32).toNat = v.toNat := BitVec.toNat_setWidth_of_le (by decide)
  rw [BitVec.toNat_mul_of_lt] <;> rw [hd, hv]
  exact hlt

theorem State.completes_multiply {s : State} {ea : EA} {rx : RegNo} {i : Instr} {f : Word → Word → Long}
    (hexec : exec i s = runBody (multiply ea rx f) s) (h : (s.pastWords 1).CanRead .w ea) :
    let p := f ((s.pastWords 1).operand .w ea) ((s.dreg rx).setWidth 16)
    s.Completes i { ((s.pastWords 1).operandRead .w ea).setDreg rx p with sr := s.sr.logic p }
      { dregs := [rx], aregs := eaStepped ea, bytes := [] } := by
  intro p
  refine State.completes_of_read hexec h ?_ ?_ (List.Subset.refl _)
  · simp only [Exec.bind_apply, Exec.get_apply, Exec.modify_apply, setFlags_apply, State.setDreg_sr,
      State.operandRead_sr, State.operandRead_dreg, State.pastWords_sr, State.pastWords_dreg, p]
  · refine (State.keeps_setDreg _ rx p (by simp)).withFlags _ ?_
    rw [State.operandRead_sr]
    exact s.sr.sameSystem_logic p

end Sys2Proof.Machine

namespace Sys2Proof.Arithmetic

open Machine

/-- Settles O39: the register takes the product, and the product is exact. -/
theorem multiply : Obligations.Multiply := by
  unfold Obligations.Multiply
  intro ea rx s s1 s2 loc s3 v d frame hf hr
  have h : s1.CanRead .w ea := State.canRead_past hf hr
  exact ⟨⟨d.signExtend 32 * v.signExtend 32, toInt_signExtend_mul_signExtend v d,
      State.completes_multiply (f := fun v d => d.signExtend 32 * v.signExtend 32) rfl h⟩,
    ⟨d.setWidth 32 * v.setWidth 32, toNat_setWidth_mul_setWidth v d,
      State.completes_multiply (f := fun v d => d.setWidth 32 * v.setWidth 32) rfl h⟩⟩

end Sys2Proof.Arithmetic

namespace Sys2Proof.Machine

/-! ## DIVS and DIVU (R282, R283) -/

/-- What a division by a number other than zero leaves of the state `u` in which its divisor has been read: the
quotient `q` and the remainder `m` in the register where the quotient fits; where not, V set and the register kept. -/
structure State.Divided (u t : State) (rx : RegNo) (q m : Int) (fits negative : Bool) : Prop where
  keeps : u.Keeps t { dregs := [rx], aregs := [], bytes := [] }
  pc : t.pc = u.pc
  deviceLog : t.deviceLog = u.deviceLog
  extend : t.sr.x = u.sr.x
  carry : t.sr.c = false
  quotient : fits = true → t.dreg rx = BitVec.ofInt 16 m ++ BitVec.ofInt 16 q ∧ t.sr.v = false ∧
    t.sr.n = negative ∧ t.sr.z = decide (q = 0)
  overflow : fits = false → t.dreg rx = u.dreg rx ∧ t.sr.v = true

theorem storeQuotient_divided (rx : RegNo) (q m : Int) (fits negative : Bool) (u : State) :
    ∃ t, storeQuotient rx q m fits negative u = .ok () t ∧ u.Divided t rx q m fits negative := by
  cases fits with
  | true =>
    refine ⟨_, storeQuotient_fits rx q m negative u, (u.keeps_setDreg rx _ (by simp)).withFlags _ ⟨rfl, rfl, rfl⟩,
      rfl, rfl, rfl, rfl, fun _ => ⟨u.dreg_setDreg_self rx _, rfl, rfl, beq_eq_decide q 0⟩, nofun⟩
  | false =>
    exact ⟨_, storeQuotient_overflow rx q m negative u, u.keeps_flags _ _ _ _ _ _ rfl rfl rfl,
      rfl, rfl, rfl, rfl, nofun, fun _ => ⟨rfl, rfl⟩⟩

/-- What DIVU and DIVS do with a divisor once it is read: `quotient` divides the register by one that is not zero. -/
def divideBy (quotient : Word → Long → Exec Unit) (rx : RegNo) (v : Word) : Exec Unit := do
  if v = 0 then zeroDivide else quotient v ((← get).dreg rx)

/-- The division of DIVU (R283). -/
def divuQuotient (rx : RegNo) (v : Word) (d : Long) : Exec Unit :=
  let q := d.toNat / v.toNat
  storeQuotient rx q (d.toNat % v.toNat) (decide (q ≤ 65535)) (q.testBit 15)

/-- The division of DIVS, truncated toward zero (R282). -/
def divsQuotient (rx : RegNo) (v : Word) (d : Long) : Exec Unit :=
  let q := d.toInt.tdiv v.toInt
  storeQuotient rx q (d.toInt - q * v.toInt) (decide (-32768 ≤ q) && decide (q ≤ 32767)) (decide (q < 0))

theorem exec_divu (ea : EA) (rx : RegNo) (s : State) :
    exec (.divu ea rx) s = runBody (readEA .w ea >>= divideBy (divuQuotient rx) rx) s := rfl

theorem exec_divs (ea : EA) (rx : RegNo) (s : State) :
    exec (.divs ea rx) s = runBody (readEA .w ea >>= divideBy (divsQuotient rx) rx) s := rfl

/-- A division by a number other than zero completes, whether its quotient fits or not. -/
theorem State.completes_division {s : State} {ea : EA} {rx : RegNo} {i : Instr} {q m : Int} {fits negative : Bool}
    {quotient : Word → Long → Exec Unit} {v : Word} {d : Long}
    (hexec : exec i s = runBody (readEA .w ea >>= divideBy quotient rx) s) (h : (s.pastWords 1).CanRead .w ea)
    (hv : (s.pastWords 1).operand .w ea = v) (hd : s.dreg rx = d) (hne : v ≠ 0)
    (hq : quotient v d = storeQuotient rx q m fits negative) :
    let s2 := (s.pastWords 1).resolved .w ea
    ∃ t, s.Completes i t { dregs := [rx], aregs := eaStepped ea, bytes := [] } ∧ t.pc = s2.pc ∧
      (∀ r, t.areg r = s2.areg r) ∧ t.deviceLog = ((s.pastWords 1).operandRead .w ea).deviceLog ∧
      t.sr.x = s.sr.x ∧ t.sr.c = false ∧
      (fits = true → t.dreg rx = BitVec.ofInt 16 m ++ BitVec.ofInt 16 q ∧ t.sr.v = false ∧ t.sr.n = negative ∧
        t.sr.z = decide (q = 0)) ∧
      (fits = false → t.dreg rx = d ∧ t.sr.v = true) := by
  intro s2
  let u := (s.pastWords 1).operandRead .w ea
  obtain ⟨t, hrun, hdiv⟩ := storeQuotient_divided rx q m fits negative u
  have hareg (r : RegNo) : t.areg r = u.areg r := hdiv.keeps.aregs r (by simp)
  have hreg : u.dreg rx = d := (State.operandRead_dreg _ _ _ rx).trans hd
  have hbody : divideBy quotient rx ((s.pastWords 1).operand .w ea) u = .ok () t := by
    rw [hv, divideBy, Exec.if_neg hne, Exec.bind_ok (Exec.get_apply _), hreg, hq, hrun]
  refine ⟨t, State.completes_of_read hexec h hbody ?_ (List.Subset.refl _), ?_, ?_, hdiv.deviceLog, ?_, hdiv.carry,
    hdiv.quotient, ?_⟩
  · exact hdiv.keeps.mono (List.Subset.refl _) (by simp) (List.Subset.refl _)
  · exact hdiv.pc.trans (State.operandRead_pc _ _ _)
  · exact fun r => (hareg r).trans (State.operandRead_areg _ _ _ r)
  · exact hdiv.extend.trans (congrArg StatusReg.x (State.operandRead_sr _ _ _))
  · intro hfits
    obtain ⟨hkept, hovf⟩ := hdiv.overflow hfits
    exact ⟨hkept.trans hreg, hovf⟩

theorem testBit_fifteen {q : Nat} (h : q < 2 ^ 16) : q.testBit 15 = decide (2 ^ 15 ≤ q) := by
  rw [Nat.testBit_eq_decide_div_mod_eq, decide_eq_decide]
  omega

/-- The quotient truncated toward zero is the one whose remainder is smaller than the divisor and of the dividend's
sign. -/
theorem tdiv_eq_of_remainder {d v q r : Int} (hd : d = q * v + r) (hr : r.natAbs < v.natAbs)
    (hsign : r = 0 ∨ (r < 0 ↔ d < 0)) : d.tdiv v = q := by
  have hv : v ≠ 0 := by omega
  have hsum : r + v * q = d := by rw [hd, Int.mul_comm, Int.add_comm]
  rcases lt_or_ge d 0 with hneg | hnonneg
  · exact ((Int.tdiv_tmod_unique' hneg.le hv).mpr ⟨hsum, by omega, by omega⟩).1
  · exact ((Int.tdiv_tmod_unique hnonneg hv).mpr ⟨hsum, by omega, by omega⟩).1

/-- Settles O40: the unsigned quotient by its own bounds, the signed one as the only one with such a remainder. -/
theorem divide : Obligations.Divide := by
  unfold Obligations.Divide
  intro ea rx s s1 s2 loc s3 v d frame hf hr hv
  have h : s1.CanRead .w ea := State.canRead_past hf hr
  constructor
  · obtain ⟨t, hcompletes, hpc, hareg, hlog, hx, hc, hfits, hover⟩ :=
      State.completes_division (v := v) (d := d) (exec_divu ea rx s) h rfl rfl hv rfl
    refine ⟨t, hcompletes, hpc, hareg, hlog, hx, hc, fun hq => ?_, fun hq => hover (decide_eq_false (by omega))⟩
    obtain ⟨hreg, hovf, hn, hz⟩ := hfits (decide_eq_true (by omega))
    refine ⟨?_, hovf, hn.trans (testBit_fifteen hq), hz.trans (decide_eq_decide.mpr Int.natCast_eq_zero)⟩
    rw [hreg, ← Int.natCast_mod, BitVec.ofInt_natCast, BitVec.ofInt_natCast]
  · obtain ⟨t, hcompletes, hpc, hareg, hlog, hx, hc, hfits, hover⟩ :=
      State.completes_division (v := v) (d := d) (exec_divs ea rx s) h rfl rfl hv rfl
    refine ⟨t, hcompletes, hpc, hareg, hlog, hx, hc, fun q r hd hr hsign => ?_⟩
    have hq : d.toInt.tdiv v.toInt = q := tdiv_eq_of_remainder hd hr hsign
    have hm : d.toInt - q * v.toInt = r := by omega
    rw [hq, hm] at hfits
    rw [hq] at hover
    refine ⟨fun hbounds => hfits ?_, fun hbounds => hover ?_⟩
    · simp only [Bool.and_eq_true, decide_eq_true_eq]
      omega
    · simp only [Bool.and_eq_false_iff, decide_eq_false_iff_not]
      omega

/-- What a division by zero leaves before its exception is taken: C clear; N, Z and V free (R282). -/
def State.zeroDivided (u : State) : State :=
  { u with
    sr := { u.sr with n := Config.freeBit u.draws, z := Config.freeBit (u.draws + 1)
                      v := Config.freeBit (u.draws + 2), c := false }
    draws := u.draws + 3 }

theorem State.keeps_zeroDivided (u : State) (c : Changes) : u.Keeps u.zeroDivided c :=
  u.keeps_flags c _ _ _ _ _ rfl rfl rfl

/-- A read leaves open whether an exception can be taken. -/
theorem State.canExcept_operandRead (s : State) (sz : Size) (ea : EA) (k : Byte) :
    (s.operandRead sz ea).canExcept k = (s.resolved sz ea).canExcept k := by
  obtain ⟨l, n, h⟩ := Loc.afterRead_state sz (s.resolved sz ea) (eaLoc sz ea s)
  rw [State.operandRead, h]
  rfl

/-- A division by zero, whatever the quotient would have been. -/
theorem exec_divideBy_zero {s : State} {ea : EA} {rx : RegNo} {i : Instr} {quotient : Word → Long → Exec Unit}
    (hexec : exec i s = runBody (readEA .w ea >>= divideBy quotient rx) s) (h : (s.pastWords 1).CanRead .w ea)
    (hv : (s.pastWords 1).operand .w ea = 0) (hexc : ((s.pastWords 1).resolved .w ea).canExcept 5 = true) :
    let t := ((s.pastWords 1).operandRead .w ea).zeroDivided
    exec i s = .next (t.excepted 5 t.pc none) := by
  intro t
  rw [← State.canExcept_operandRead] at hexc
  refine hexec.trans (runBody_ok ?_)
  rw [Exec.bind_ok h.readEA, divideBy, Exec.if_pos hv, zeroDivide_ok hexc]
  rfl

end Sys2Proof.Machine

namespace Sys2Proof.Arithmetic

open Machine

/-- Settles O56: both divisions take the exception once the divisor has been read, and only flags have changed since. -/
theorem zeroDivide : Obligations.ZeroDivide := by
  unfold Obligations.ZeroDivide
  intro ea rx s s1 s2 loc s3 hf hr hv hexc
  have h : s1.CanRead .w ea := State.canRead_past hf hr
  refine ⟨s3.zeroDivided, exec_divideBy_zero (exec_divu ea rx s) h hv hexc,
    exec_divideBy_zero (exec_divs ea rx s) h hv hexc, ?_, s1.operandRead_pc .w ea, s1.operandRead_areg .w ea,
    rfl, ?_, rfl⟩
  · exact ((s.keeps_pastWords 1 _).trans (s1.keeps_operandRead .w ea (by simp))).trans (s3.keeps_zeroDivided _)
  · have hsr : s3.sr = s.sr := s1.operandRead_sr .w ea
    rw [← hsr]
    rfl

end Sys2Proof.Arithmetic

/-! Proofs about the shift and rotate instructions (43_shift_rotate.md): the steps of R370 in closed form, and then the
instructions that take them. -/

namespace Sys2Proof.Machine

section Steps

variable {n : Nat}

/-! ## One place to the left or to the right (R370) -/

theorem getLsbD_moveLeft (v : BitVec n) (b : Bool) {i : Nat} (hi : i < n) :
    ((v <<< 1) ||| (BitVec.ofBool b).setWidth n).getLsbD i = if i = 0 then b else v.getLsbD (i - 1) := by
  rw [BitVec.getLsbD_or, BitVec.getLsbD_shiftLeft, BitVec.getLsbD_setWidth, BitVec.getLsbD_ofBool]
  by_cases h : i = 0
  · simp [h, show 0 < n by omega]
  · simp [h, hi]

theorem getLsbD_moveRight (v : BitVec n) (b : Bool) {i : Nat} (hi : i < n) :
    ((v >>> 1) ||| ((BitVec.ofBool b).setWidth n <<< (n - 1))).getLsbD i =
      if i + 1 = n then b else v.getLsbD (i + 1) := by
  rw [BitVec.getLsbD_or, BitVec.getLsbD_ushiftRight, BitVec.getLsbD_shiftLeft, BitVec.getLsbD_setWidth,
    BitVec.getLsbD_ofBool, Nat.add_comm 1 i]
  by_cases h : i + 1 = n
  · simp [← h]
  · simp [h, show i < n - 1 by omega]

/-- One more comes back to 0, or stays below `n`. -/
theorem add_one_mod_cases (k : Nat) (hn : 0 < n) :
    (k % n + 1 = n ∧ (k + 1) % n = 0) ∨ (k % n + 1 < n ∧ (k + 1) % n = k % n + 1) := by
  rw [← Nat.mod_add_mod k n 1]
  have hle : k % n + 1 ≤ n := Nat.mod_lt k hn
  rcases Nat.lt_or_eq_of_le hle with h | h
  · exact .inr ⟨h, Nat.mod_eq_of_lt h⟩
  · exact .inl ⟨h, by rw [h, Nat.mod_self]⟩

/-- Turned left by one place more: the top bit comes in at the bottom. -/
theorem getLsbD_rotateLeft_succ (v : BitVec n) (k : Nat) {i : Nat} (hi : i < n) :
    (v.rotateLeft (k + 1)).getLsbD i = if i = 0 then (v.rotateLeft k).msb else (v.rotateLeft k).getLsbD (i - 1) := by
  rw [BitVec.msb_rotateLeft, BitVec.getMsbD_eq_getLsbD, BitVec.getLsbD_rotateLeft, BitVec.getLsbD_rotateLeft]
  rcases add_one_mod_cases k (Nat.zero_lt_of_lt hi) with ⟨hk, hsucc⟩ | ⟨hk, hsucc⟩
  · grind
  · grind

/-- Turned right by one place more: bit 0 comes in at the top. -/
theorem getLsbD_rotateRight_succ (v : BitVec n) (k : Nat) {i : Nat} (hi : i < n) :
    (v.rotateRight (k + 1)).getLsbD i =
      if i + 1 = n then (v.rotateRight k).getLsbD 0 else (v.rotateRight k).getLsbD (i + 1) := by
  rw [BitVec.getLsbD_rotateRight, BitVec.getLsbD_rotateRight, BitVec.getLsbD_rotateRight]
  have hin : decide (i + 1 < n) = !decide (i + 1 = n) := by grind
  rcases add_one_mod_cases k (Nat.zero_lt_of_lt hi) with ⟨hk, hsucc⟩ | ⟨hk, hsucc⟩
  · grind
  · grind

/-! ## The course of an operand through its steps -/

theorem ShiftOp.iterate_succ (op : ShiftOp) (k : Nat) (st : Shifting n) :
    op.iterate (k + 1) st = op.step (op.iterate k st) := by
  induction k generalizing st with
  | zero => rfl
  | succ k ih => exact ih (op.step st)

/-- `f` is what the operand `v` becomes, step by step, under an operation that does not take X in. -/
structure ShiftOp.Course (op : ShiftOp) (v : BitVec n) (f : Nat → BitVec n) : Prop where
  noExtend : op ≠ .roxl ∧ op ≠ .roxr
  zero : f 0 = v
  succ : ∀ k x, op.move (f k) (op.enter (f k) x) = f (k + 1)

/-- Whether the sign of an operand that runs through `f` has ever changed. -/
def signChanged (f : Nat → BitVec n) (count : Nat) : Bool :=
  (List.range (count + 1)).any fun j => (f j).msb != (f 0).msb

theorem signChanged_zero (f : Nat → BitVec n) : signChanged f 0 = false := by simp [signChanged]

/-- A sign that has not changed so far is still the first one, so a change shows against the step before. -/
theorem signChanged_succ (f : Nat → BitVec n) (k : Nat) :
    signChanged f (k + 1) = (signChanged f k || ((f (k + 1)).msb != (f k).msb)) := by
  have hlast : signChanged f (k + 1) = (signChanged f k || ((f (k + 1)).msb != (f 0).msb)) := by
    rw [signChanged, List.range_succ, List.any_append]
    simp [signChanged]
  cases h : signChanged f k with
  | true => simp [hlast, h]
  | false =>
    have hk : (f k).msb = (f 0).msb := by
      have hall := List.any_eq_false.mp h k (by simp)
      simpa using hall
    rw [hlast, h, hk]

/-- A shift in progress after any number of steps: C is the last bit that left, and so is X where it follows. -/
theorem ShiftOp.Course.iterate_start {op : ShiftOp} {v : BitVec n} {f : Nat → BitVec n} (h : op.Course v f)
    (sr : StatusReg) (count : Nat) :
    op.iterate count (op.start v sr) =
      { v := f count
        c := decide (0 < count) && op.out (f (count - 1))
        x := if count = 0 ∨ op = .rol ∨ op = .ror then sr.x else op.out (f (count - 1))
        vflag := decide (op = .asl) && signChanged f count } := by
  induction count with
  | zero => simp [iterate, start, h.zero, h.noExtend, signChanged_zero]
  | succ k ih =>
    rw [iterate_succ, ih, step, h.succ]
    by_cases hasl : op = .asl
    · simp [hasl, signChanged_succ]
    · by_cases hrot : op = .rol ∨ op = .ror
      · simp [hasl, hrot]
      · simp [hasl, hrot]

/-- The flags of R371 for an operation that does not take X in. -/
theorem ShiftOp.Course.shiftOp_eq {op : ShiftOp} {v : BitVec n} {f : Nat → BitVec n} (h : op.Course v f)
    (sr : StatusReg) (count : Nat) :
    shiftOp op count v sr = (f count, { sr with
      x := if count = 0 ∨ op = .rol ∨ op = .ror then sr.x else op.out (f (count - 1))
      n := (f count).msb
      z := decide (f count = 0)
      v := decide (op = .asl) && signChanged f count
      c := decide (0 < count) && op.out (f (count - 1)) }) := by
  rw [shiftOp, h.iterate_start sr count, Bool.beq_eq_decide_eq]

/-! ## ASL, ASR, LSL, LSR -/

theorem moveLeft_false (v : BitVec n) : (v <<< 1) ||| (BitVec.ofBool false).setWidth n = v <<< 1 := by simp

theorem moveRight_msb (v : BitVec n) :
    (v >>> 1) ||| ((BitVec.ofBool v.msb).setWidth n <<< (n - 1)) = v.sshiftRight 1 := by
  refine BitVec.eq_of_getLsbD_eq fun i hi => ?_
  rw [getLsbD_moveRight v _ hi, BitVec.getLsbD_sshiftRight, Nat.add_comm 1 i]
  by_cases h : i + 1 = n
  · simp [h, hi]
  · simp [h, hi, show i + 1 < n by omega]

theorem course_lsl (v : BitVec n) : ShiftOp.lsl.Course v (v <<< ·) where
  noExtend := by decide
  zero := BitVec.shiftLeft_zero v
  succ k _ := (moveLeft_false _).trans (BitVec.shiftLeft_add v k 1).symm

theorem course_asl (v : BitVec n) : ShiftOp.asl.Course v (v <<< ·) :=
  { course_lsl v with noExtend := by decide }

theorem course_lsr (v : BitVec n) : ShiftOp.lsr.Course v (v >>> ·) where
  noExtend := by decide
  zero := BitVec.ushiftRight_zero v
  succ k _ := by simp [ShiftOp.move, ShiftOp.enter, BitVec.shiftRight_add]

theorem course_asr (v : BitVec n) : ShiftOp.asr.Course v v.sshiftRight where
  noExtend := by decide
  zero := BitVec.sshiftRight_zero
  succ _ _ := (moveRight_msb _).trans BitVec.sshiftRight_add.symm

/-! ## ROL, ROR -/

/-- One place left with the top bit coming in is one place more of a rotate. -/
theorem move_rol_rotateLeft (v : BitVec n) (k : Nat) :
    ShiftOp.rol.move (v.rotateLeft k) (v.rotateLeft k).msb = v.rotateLeft (k + 1) :=
  BitVec.eq_of_getLsbD_eq fun _ hi => (getLsbD_moveLeft _ _ hi).trans (getLsbD_rotateLeft_succ v k hi).symm

theorem move_ror_rotateRight (v : BitVec n) (k : Nat) :
    ShiftOp.ror.move (v.rotateRight k) ((v.rotateRight k).getLsbD 0) = v.rotateRight (k + 1) :=
  BitVec.eq_of_getLsbD_eq fun _ hi => (getLsbD_moveRight _ _ hi).trans (getLsbD_rotateRight_succ v k hi).symm

theorem course_rol (v : BitVec n) : ShiftOp.rol.Course v v.rotateLeft where
  noExtend := by decide
  zero := BitVec.eq_of_getLsbD_eq fun _ hi => by simp [hi]
  succ k _ := move_rol_rotateLeft v k

theorem course_ror (v : BitVec n) : ShiftOp.ror.Course v v.rotateRight where
  noExtend := by decide
  zero := BitVec.eq_of_getLsbD_eq fun _ hi => by simp [hi]
  succ k _ := move_ror_rotateRight v k

/-! ## ROXL, ROXR: X and the operand turned together -/

theorem ofBool_msb_append_setWidth (w : BitVec (1 + n)) : BitVec.ofBool w.msb ++ w.setWidth n = w := by
  refine BitVec.eq_of_getLsbD_eq fun i hi => ?_
  rw [BitVec.getLsbD_append, BitVec.getLsbD_ofBool, BitVec.getLsbD_setWidth, BitVec.msb_eq_getLsbD_last]
  by_cases h : i < n
  · simp [h]
  · simp [show i = n by omega]

theorem msb_ofBool_append (x : Bool) (v : BitVec n) : (BitVec.ofBool x ++ v).msb = x := by
  simp [BitVec.msb_append]

/-- `j` is what X and the operand together become, step by step, from `j 0`, under an operation that takes X in. -/
structure ShiftOp.JoinedCourse (op : ShiftOp) (j : Nat → BitVec (1 + n)) : Prop where
  extend : op = .roxl ∨ op = .roxr
  succ : ∀ k x (v : BitVec n), j k = BitVec.ofBool x ++ v → j (k + 1) = BitVec.ofBool (op.out v) ++ op.move v x

/-- X, with C as its copy, and the operand are the two parts of what they have become together. -/
theorem ShiftOp.JoinedCourse.iterate_start {op : ShiftOp} {j : Nat → BitVec (1 + n)} (h : op.JoinedCourse j)
    {v : BitVec n} {sr : StatusReg} (hzero : j 0 = BitVec.ofBool sr.x ++ v) (count : Nat) :
    op.iterate count (op.start v sr) =
      { v := (j count).setWidth n, c := (j count).msb, x := (j count).msb, vflag := false } := by
  induction count with
  | zero => simp [iterate, start, hzero, h.extend, msb_ofBool_append, BitVec.setWidth_append_eq_right]
  | succ k ih =>
    have hsucc := h.succ k _ _ (ofBool_msb_append_setWidth (j k)).symm
    rw [iterate_succ, ih, hsucc, msb_ofBool_append, BitVec.setWidth_append_eq_right]
    rcases h.extend with rfl | rfl <;> rfl

/-- The flags of R371 for an operation that takes X in. -/
theorem ShiftOp.JoinedCourse.shiftOp_eq {op : ShiftOp} {j : Nat → BitVec (1 + n)} (h : op.JoinedCourse j)
    {v : BitVec n} {sr : StatusReg} (hzero : j 0 = BitVec.ofBool sr.x ++ v) (count : Nat) :
    shiftOp op count v sr = ((j count).setWidth n, { sr with
      x := (j count).msb
      n := ((j count).setWidth n).msb
      z := decide ((j count).setWidth n = 0)
      v := false
      c := (j count).msb }) := by
  rw [shiftOp, h.iterate_start hzero count, Bool.beq_eq_decide_eq]

/-- A step of ROXL is a step of ROL on X and the operand together. -/
theorem ofBool_out_append_move_roxl (hn : 0 < n) (x : Bool) (v : BitVec n) :
    BitVec.ofBool (ShiftOp.roxl.out v) ++ ShiftOp.roxl.move v x = ShiftOp.rol.move (BitVec.ofBool x ++ v) x := by
  refine BitVec.eq_of_getLsbD_eq fun i hi => ?_
  refine Eq.trans ?_ (getLsbD_moveLeft _ _ hi).symm
  rw [BitVec.getLsbD_append, BitVec.getLsbD_append]
  by_cases h : i < n
  · simp only [h, if_true, show i - 1 < n by omega]
    exact getLsbD_moveLeft v x h
  · obtain rfl : i = n := by omega
    simp [hn.ne', ShiftOp.out, BitVec.msb_eq_getLsbD_last, hn]

/-- A step of ROXR is a step of ROR on X and the operand together. -/
theorem ofBool_out_append_move_roxr (hn : 0 < n) (x : Bool) (v : BitVec n) :
    BitVec.ofBool (ShiftOp.roxr.out v) ++ ShiftOp.roxr.move v x =
      ShiftOp.ror.move (BitVec.ofBool x ++ v) (v.getLsbD 0) := by
  refine BitVec.eq_of_getLsbD_eq fun i hi => ?_
  refine Eq.trans ?_ (getLsbD_moveRight _ _ hi).symm
  rw [BitVec.getLsbD_append, BitVec.getLsbD_append]
  by_cases h : i < n
  · simp only [h, if_true, show i + 1 ≠ 1 + n by omega, if_false]
    refine (getLsbD_moveRight v x h).trans ?_
    by_cases hlast : i + 1 = n
    · simp [hlast]
    · simp [hlast, show i + 1 < n by omega]
  · obtain rfl : i = n := by omega
    simp [ShiftOp.out, Nat.add_comm]

theorem joinedCourse_roxl (hn : 0 < n) (w : BitVec (1 + n)) : ShiftOp.roxl.JoinedCourse w.rotateLeft where
  extend := .inl rfl
  succ k x v h := by
    rw [ofBool_out_append_move_roxl hn, ← move_rol_rotateLeft, h, msb_ofBool_append]

theorem joinedCourse_roxr (hn : 0 < n) (w : BitVec (1 + n)) : ShiftOp.roxr.JoinedCourse w.rotateRight where
  extend := .inr rfl
  succ k x v h := by
    rw [ofBool_out_append_move_roxr hn, ← move_ror_rotateRight, h, BitVec.getLsbD_append, if_pos hn]

end Steps

/-! ## The closed forms (R370, R371) -/

section Shifts

variable {n : Nat} {op : ShiftOp} {v : BitVec n} {f : Nat → BitVec n}

/-- A shift that is no rotate: X becomes `c`, the last bit that left, where one left. -/
theorem ShiftOp.Course.shiftOp_of_shift (h : op.Course v f) (hop : ¬(op = .rol ∨ op = .ror)) (sr : StatusReg)
    {count : Nat} {c : Bool} (hc : (decide (0 < count) && op.out (f (count - 1))) = c) :
    shiftOp op count v sr = (f count, { sr with
      x := if count = 0 then sr.x else c
      n := (f count).msb
      z := decide (f count = 0)
      v := decide (op = .asl) && signChanged f count
      c := c }) := by
  rw [h.shiftOp_eq, hc]
  cases count with
  | zero => simp
  | succ k => simp [hop, ← hc]

/-- A rotate of the operand alone: the last bit moved has come in at the other end, and X stays. -/
theorem ShiftOp.Course.shiftOp_of_rotate (h : op.Course v f) (hop : op = .rol ∨ op = .ror) (sr : StatusReg)
    {count : Nat} {c : Bool} (hc : (decide (0 < count) && op.out (f (count - 1))) = c) :
    shiftOp op count v sr = (f count, { sr with
      x := sr.x, n := (f count).msb, z := decide (f count = 0), v := false, c := c }) := by
  rw [h.shiftOp_eq, hc]
  rcases hop with rfl | rfl
  · simp
  · simp

end Shifts

/-! The last bit that left the operand, in terms of the operand as it was, or of the result of a rotate. -/

section LastOut

variable {n : Nat} (v : BitVec n) (count : Nat)

theorem lastOut_shiftLeft :
    (decide (0 < count) && (v <<< (count - 1)).msb) =
      (decide (0 < count) && decide (count ≤ n) && v.getLsbD (n - count)) := by
  cases count with
  | zero => rfl
  | succ k =>
    rw [BitVec.msb_shiftLeft, BitVec.getMsbD_eq_getLsbD, Bool.and_assoc, Nat.sub_sub, Nat.add_comm 1]
    rfl

theorem lastOut_shiftRight :
    (decide (0 < count) && (v >>> (count - 1)).getLsbD 0) = (decide (0 < count) && v.getLsbD (count - 1)) := by
  rw [BitVec.getLsbD_ushiftRight, Nat.add_zero]

theorem lastOut_sshiftRight (hn : 0 < n) :
    (decide (0 < count) && (v.sshiftRight (count - 1)).getLsbD 0) =
      (decide (0 < count) && (if count ≤ n then v.getLsbD (count - 1) else v.msb)) := by
  cases count with
  | zero => rfl
  | succ k =>
    rw [BitVec.getLsbD_sshiftRight]
    simp [hn.ne']

/-- What ROL moves out at the top it moves in at the bottom. -/
theorem lastOut_rotateLeft (hn : 0 < n) :
    (decide (0 < count) && (v.rotateLeft (count - 1)).msb) =
      (decide (0 < count) && (v.rotateLeft count).getLsbD 0) := by
  cases count with
  | zero => rfl
  | succ k => rw [getLsbD_rotateLeft_succ v k hn, if_pos rfl, Nat.add_sub_cancel]

theorem lastOut_rotateRight (hn : 0 < n) :
    (decide (0 < count) && (v.rotateRight (count - 1)).getLsbD 0) =
      (decide (0 < count) && (v.rotateRight count).msb) := by
  cases count with
  | zero => rfl
  | succ k =>
    rw [BitVec.msb_eq_getLsbD_last, getLsbD_rotateRight_succ v k (by omega), if_pos (by omega), Nat.add_sub_cancel]

end LastOut

/-- Settles O29: each shift by the course of its operand. -/
theorem shiftResults : Obligations.ShiftResults := by
  unfold Obligations.ShiftResults
  intro sz count v sr n done
  refine ⟨(course_lsl v).shiftOp_of_shift (by decide) sr (lastOut_shiftLeft v count), ?_,
    (course_lsr v).shiftOp_of_shift (by decide) sr (lastOut_shiftRight v count),
    (course_asr v).shiftOp_of_shift (by decide) sr (lastOut_sshiftRight v count sz.bits_pos)⟩
  have hsign : signChanged (v <<< ·) count = (List.range (count + 1)).any fun j => (v <<< j).msb != v.msb := by
    rw [signChanged, BitVec.shiftLeft_zero]
  rw [← hsign]
  exact (course_asl v).shiftOp_of_shift (by decide) sr (lastOut_shiftLeft v count)

/-- Settles O30: ROL and ROR by the course of the operand, ROXL and ROXR by that of X and the operand together. -/
theorem rotateResults : Obligations.RotateResults := by
  unfold Obligations.RotateResults
  intro sz count v sr n done joined left right
  exact ⟨(course_rol v).shiftOp_of_rotate (.inl rfl) sr (lastOut_rotateLeft v count sz.bits_pos),
    (course_ror v).shiftOp_of_rotate (.inr rfl) sr (lastOut_rotateRight v count sz.bits_pos),
    (joinedCourse_roxl sz.bits_pos joined).shiftOp_eq (course_rol joined).zero count,
    (joinedCourse_roxr sz.bits_pos joined).shiftOp_eq (course_ror joined).zero count⟩

/-! ## The instructions (R372, R373, R380 to R403) -/

/-- A shift writes condition codes alone. -/
theorem sameSystem_shiftOp {n : Nat} (op : ShiftOp) (count : Nat) (v : BitVec n) (sr : StatusReg) :
    (shiftOp op count v sr).2.SameSystem sr := ⟨rfl, rfl, rfl⟩

/-- A register form, its count given. -/
theorem State.completes_shiftReg {s : State} {i : Instr} {op : ShiftOp} {sz : Size} {count : Nat} {ry : RegNo}
    (hexec : exec i s = runBody (shiftReg op sz count ry) s) :
    let p := shiftOp op count ((s.dreg ry).setWidth sz.bits) s.sr
    s.Completes i { (s.pastWords 1).putDreg ry p.1 with sr := p.2 } { dregs := [ry], aregs := [], bytes := [] } :=
  State.completes_of_body hexec (shiftReg_apply op sz count ry _)
    ((State.keeps_putDreg _ ry _ (by simp)).withFlags _ (sameSystem_shiftOp op count _ s.sr))

/-- The register forms, the count taken from a register. -/
theorem State.completes_shiftByReg {s : State} {i : Instr} {op : ShiftOp} {sz : Size} {rx ry : RegNo}
    (hexec : exec i s = runBody (shiftByReg op sz rx ry) s) :
    let p := shiftOp op ((s.dreg rx).toNat % 64) ((s.dreg ry).setWidth sz.bits) s.sr
    s.Completes i { (s.pastWords 1).putDreg ry p.1 with sr := p.2 } { dregs := [ry], aregs := [], bytes := [] } :=
  State.completes_shiftReg hexec

/-- A memory form. -/
theorem State.completes_shiftMem {s : State} {i : Instr} {op : ShiftOp} {ea : EA}
    (hexec : exec i s = runBody (shiftMem op ea) s) (h : (s.pastWords 1).CanStore .w ea) :
    s.Completes i ((s.pastWords 1).stored .w ea (shiftOp op 1 ((s.pastWords 1).operand .w ea) s.sr))
      ((s.pastWords 1).storeFrame .w ea) :=
  State.completes_modifyEA hexec h (sameSystem_shiftOp op 1)

/-- Settles O48: the register forms by a count from a register or from the instruction, the memory forms by the form of
one operand. -/
theorem shiftInstructions : Obligations.ShiftInstructions := by
  unfold Obligations.ShiftInstructions
  constructor
  · intro sz rx ry q s byReg byImm shifted
    have reg {i : Instr} {op : ShiftOp} (hexec : exec i s = runBody (shiftByReg op sz rx ry) s) :
        shifted i op byReg := State.completes_shiftByReg hexec
    have imm {i : Instr} {op : ShiftOp} (hexec : exec i s = runBody (shiftReg op sz (shiftCount q) ry) s) :
        shifted i op byImm := State.completes_shiftReg hexec
    exact ⟨reg rfl, imm rfl, reg rfl, imm rfl, reg rfl, imm rfl, reg rfl, imm rfl,
      reg rfl, imm rfl, reg rfl, imm rfl, reg rfl, imm rfl, reg rfl, imm rfl⟩
  · intro ea s s1 s2 loc s3 shifted hf hw
    have mem {i : Instr} {op : ShiftOp} (hexec : exec i s = runBody (shiftMem op ea) s) : shifted i op :=
      State.completes_shiftMem hexec (State.canStore_past hf hw)
    exact ⟨mem rfl, mem rfl, mem rfl, mem rfl, mem rfl, mem rfl, mem rfl, mem rfl⟩

end Sys2Proof.Machine

/-! Proofs about the bit manipulation instructions (44_bit_manipulation.md). -/

namespace Sys2Proof.Machine

/-! ## One bit of the operand (R420) -/

/-- What a bit operation makes of the bit it names (`BitOp.getLsbD_apply`). -/
def BitOp.onBit : BitOp → Bool → Bool
  | .tst, b => b
  | .chg, b => !b
  | .clr, _ => false
  | .set, _ => true

theorem BitOp.getLsbD_apply {n : Nat} (op : BitOp) (v : BitVec n) (k : Nat) {j : Nat} (hj : j < n) :
    (op.apply v k).getLsbD j = if j = k then op.onBit (v.getLsbD j) else v.getLsbD j := by
  have hmask : (1#n <<< k).getLsbD j = decide (j = k) := by
    rw [← BitVec.twoPow_eq, BitVec.getLsbD_twoPow, ← Bool.decide_and, decide_eq_decide]
    omega
  cases op with
  | tst => exact (ite_self _).symm
  | chg =>
    rw [apply, BitVec.getLsbD_xor, hmask]
    by_cases h : j = k <;> simp [onBit, h]
  | clr =>
    rw [apply, BitVec.getLsbD_and, BitVec.getLsbD_not, hmask]
    by_cases h : j = k <;> simp [onBit, h, hj]
  | set =>
    rw [apply, BitVec.getLsbD_or, hmask]
    by_cases h : j = k <;> simp [onBit, h]

/-- Z alone changes, and it is no part of the system byte. -/
theorem StatusReg.sameSystem_withZ (sr : StatusReg) (b : Bool) : ({ sr with z := b } : StatusReg).SameSystem sr :=
  ⟨rfl, rfl, rfl⟩

/-! ## The bit number in a register or in a word (R421, R422) -/

theorem runBody_congr {body body' : Exec Unit} {s : State} (h : body (s.pastWords 1) = body' (s.pastWords 1)) :
    runBody body s = runBody body' s := congrArg (conclude s.pc) h

/-- Where its words can be fetched, the instruction is the bit operation `op` on bit `b` of the operand `ea`, whose
words come after `k` words. -/
def State.RunsBitOp (s : State) (i : Instr) (op : BitOp) (b : Nat) (ea : EA) (k : Nat) : Prop :=
  s.fetchable s.pc (k + eaExtCount ea.bitSize ea) = true →
    exec i s = runBody (fun _ => bitOp op b ea (s.pastWords k)) s

theorem bitOpReg_apply (op : BitOp) (rx : RegNo) (ea : EA) (s : State) :
    bitOpReg op rx ea s = bitOp op (s.dreg rx).toNat ea s := Exec.bind_ok (Exec.get_apply s)

section Forms

variable {s : State} {i : Instr} {op : BitOp} {b : Nat} {ea : EA} {k : Nat}

theorem State.runsBitOp_reg {rx : RegNo} (hexec : exec i s = runBody (bitOpReg op rx ea) s) :
    s.RunsBitOp i op (s.dreg rx).toNat ea 1 := fun _ => hexec.trans (runBody_congr (bitOpReg_apply op rx ea _))

theorem State.runsBitOp_imm {n : Byte} (hexec : exec i s = runBody (bitOpImm op n ea) s) :
    s.RunsBitOp i op n.toNat ea 2 := fun hf => hexec.trans (runBody_congr (Exec.bind_ok (fetchExt_second hf)))

/-- BTST writes nothing but Z. -/
theorem State.completes_bitTest (h : s.RunsBitOp i .tst b ea k)
    (hf : s.fetchable s.pc (k + eaExtCount ea.bitSize ea) = true)
    (hr : (eaLoc ea.bitSize ea (s.pastWords k)).readable ea.bitSize ((s.pastWords k).resolved ea.bitSize ea) = true) :
    let v := (s.pastWords k).operand ea.bitSize ea
    s.Completes i
      { (s.pastWords k).operandRead ea.bitSize ea with sr := { s.sr with z := !v.getLsbD (b % ea.bitSize.bits) } }
      { dregs := [], aregs := eaStepped ea, bytes := [] } := by
  intro v
  have hread := State.canRead_past hf hr
  refine ⟨(h hf).trans (runBody_ok ?_), ((s.keeps_pastWords k _).trans
    (State.keeps_operandRead _ _ ea (List.Subset.refl _))).withFlags _ (s.sr.sameSystem_withZ _)⟩
  rw [bitOp_tst_ok hread.fetch hread.read, ← s.pastWords_sr k, ← State.operandRead_sr _ ea.bitSize ea]
  rfl

/-- BCHG, BCLR and BSET store the operand, its one bit changed, once Z is set. -/
theorem State.completes_bitChange (hop : op ≠ .tst) (h : s.RunsBitOp i op b ea k)
    (hf : s.fetchable s.pc (k + eaExtCount ea.bitSize ea) = true)
    (hw : (eaLoc ea.bitSize ea (s.pastWords k)).writable ea.bitSize ((s.pastWords k).resolved ea.bitSize ea) = true) :
    let v := (s.pastWords k).operand ea.bitSize ea
    let bit := b % ea.bitSize.bits
    ∃ r : BitVec ea.bitSize.bits,
      (∀ j < ea.bitSize.bits, r.getLsbD j = if j = bit then op.onBit (v.getLsbD j) else v.getLsbD j) ∧
      s.Completes i ((s.pastWords k).stored ea.bitSize ea (r, { s.sr with z := !v.getLsbD bit }))
        ((s.pastWords k).storeFrame ea.bitSize ea) := by
  intro v bit
  have hstore := State.canStore_past hf hw
  refine ⟨op.apply v bit, fun _ => op.getLsbD_apply v bit,
    State.completes_stored (h hf) ?_ (s.sr.sameSystem_withZ _)⟩
  rw [bitOp_write_ok hop hstore.fetch hstore.write, ← s.pastWords_sr k, ← State.operandRead_sr _ ea.bitSize ea]
  rfl

end Forms

/-- Settles O49: the four operations of one form, the number in a register or in a word. -/
theorem bitInstructions : Obligations.BitInstructions := by
  unfold Obligations.BitInstructions
  intro ea s sz form
  have forms {tst chg clr set : Instr} {b k : Nat} (htst : s.RunsBitOp tst .tst b ea k)
      (hchg : s.RunsBitOp chg .chg b ea k) (hclr : s.RunsBitOp clr .clr b ea k)
      (hset : s.RunsBitOp set .set b ea k) : form tst chg clr set b k := by
    intro hf
    exact ⟨State.completes_bitTest htst hf, fun hw => ⟨State.completes_bitChange (by decide) hchg hf hw,
      State.completes_bitChange (by decide) hclr hf hw, State.completes_bitChange (by decide) hset hf hw⟩⟩
  exact ⟨fun rx => forms (State.runsBitOp_reg rfl) (State.runsBitOp_reg rfl) (State.runsBitOp_reg rfl)
      (State.runsBitOp_reg rfl),
    fun n => forms (State.runsBitOp_imm rfl) (State.runsBitOp_imm rfl) (State.runsBitOp_imm rfl)
      (State.runsBitOp_imm rfl)⟩

end Sys2Proof.Machine

/-! Proofs about the decimal instructions (45_bcd.md). -/

namespace Sys2Proof.Machine

/-! ## What a decimal operation changes besides the operand: flags and the count of draws -/

/-- The state with other flags, and with the bits drawn for those that are free. -/
def State.flagged (s : State) (sr : StatusReg) (draws : Nat) : State := { s with sr := sr, draws := draws }

section Flagged

variable (s : State) (sr : StatusReg) (n : Nat)

@[simp] theorem State.flagged_pc : (s.flagged sr n).pc = s.pc := rfl
@[simp] theorem State.flagged_sr : (s.flagged sr n).sr = sr := rfl
@[simp] theorem State.flagged_silent : (s.flagged sr n).silent = s.silent := rfl
@[simp] theorem State.flagged_dreg (r : RegNo) : (s.flagged sr n).dreg r = s.dreg r := rfl

variable {s sr}

theorem State.flagged_areg (h : sr.SameSystem s.sr) (r : RegNo) : (s.flagged sr n).areg r = s.areg r :=
  State.areg_congr (s := s.flagged sr n) (t := s) rfl rfl rfl h.2.1 r

/-- Storing a byte and writing the flags do not meet: a byte takes one bus cycle, whose order is no matter of a draw. -/
theorem Loc.put_byte_flagged (h : sr.SameSystem s.sr) (loc : Loc) (v : Byte) :
    loc.put .b (s.flagged sr n) v = (loc.put .b s v).flagged sr n := by
  cases loc with
  | dreg r => rfl
  | areg r =>
    have hsp (x : Long) : (s.flagged sr n).setSp x = (s.setSp x).flagged sr n := by
      simp only [State.setSp, State.flagged_sr, h.2.1]
      split <;> rfl
    simp only [Loc.put, State.setAreg, hsp]
    split <;> rfl
  | imm w => rfl
  | mem sp a =>
    have hdev : (s.flagged sr n).deviceAt a = s.deviceAt a := rfl
    simp only [Loc.put, State.busWrite, State.writeByteCycle, hdev]
    split <;> rfl

/-- An instruction whose rule stores its result and writes condition codes, by the state with the result stored. -/
theorem State.completes_flagged {i : Instr} {body : Exec Unit} {stored : State} {c : Changes}
    (hexec : exec i s = runBody body s) (hbody : body (s.pastWords 1) = .ok () (stored.flagged sr n))
    (hkeeps : (s.pastWords 1).Keeps stored c) (hsr : sr.SameSystem stored.sr) :
    s.Completes i (stored.flagged sr n) c :=
  State.completes_of_body hexec hbody
    (hkeeps.trans (stored.keeps_flags c _ _ _ _ _ hsr.1 hsr.2.1 hsr.2.2))

end Flagged

/-! ## The decimal operations (R440, R441, R443) -/

/-- X as it enters a decimal sum. -/
def StatusReg.xInt (sr : StatusReg) : Int := if sr.x then 1 else 0

/-- The model counts X as a natural number, the statement as an integer. -/
theorem StatusReg.xNat_cast (sr : StatusReg) : (sr.xNat : Int) = sr.xInt := by
  cases h : sr.x <;> simp [xNat, xInt, h]

/-- On decimal operands, the byte stored and the flags that R441 and R443 fix, `total` being the exact decimal sum. -/
def DecimalResult (old : StatusReg) (v d : Byte) (total : Int) (r : Byte) (new : StatusReg) : Prop :=
  bcdValid v = true → bcdValid d = true →
    r = bcdByte (total % 100).toNat ∧ new.c = decide (total < 0 ∨ 99 < total) ∧ new.x = new.c ∧
      new.z = (old.z && r == 0)

/-- What an operation answers and the state it leaves: the byte `r`, and the flags `new` but for Z, whose value is
answered and still to be written. -/
def DecimalRun (run : EStateM.Result Abort State (Byte × Bool)) (s : State) (r : Byte) (new : StatusReg) (n : Nat) :
    Prop :=
  run = .ok (r, new.z) (s.flagged { new with z := s.sr.z } n) ∧ new.SameSystem s.sr

/-- An operation that runs on all operands, and is the decimal sum `total` of decimal operands and X. -/
def DecimalOp (op : Byte → Byte → Exec (Byte × Bool)) (total : Byte → Byte → Int → Int) : Prop :=
  ∀ v d s, ∃ r new n, DecimalRun (op v d s) s r new n ∧ DecimalResult s.sr v d (total v d s.sr.xInt) r new

/-- The flags of a decimal operation once Z is written. -/
def bcdFlags (valid : Bool) (t : Int) (s : State) : StatusReg :=
  { (bcdOutcome valid t s).2.sr with z := (bcdOutcome valid t s).1.2 }

theorem bcdOutcome_decimalRun (valid : Bool) (t : Int) (s : State) :
    DecimalRun (.ok (bcdOutcome valid t s).1 (bcdOutcome valid t s).2) s (bcdOutcome valid t s).1.1
      (bcdFlags valid t s) (bcdOutcome valid t s).2.draws := by
  cases valid with
  | true => exact ⟨rfl, rfl, rfl, rfl⟩
  | false => exact ⟨rfl, rfl, rfl, rfl⟩

theorem bcdOutcome_decimalResult (v d : Byte) (t : Int) (s : State) :
    let valid := bcdValid v && bcdValid d
    DecimalResult s.sr v d t (bcdOutcome valid t s).1.1 (bcdFlags valid t s) := by
  intro valid hv hd
  have hvalid : valid = true := by simp only [valid, hv, hd, Bool.and_self]
  rw [hvalid]
  exact ⟨rfl, (Bool.decide_or _ _).symm, rfl, rfl⟩

theorem decimalOp_of_outcome {op : Byte → Byte → Exec (Byte × Bool)} {total : Byte → Byte → Int → Int}
    (h : ∀ v d s, op v d s = .ok (bcdOutcome (bcdValid v && bcdValid d) (total v d s.sr.xInt) s).1
      (bcdOutcome (bcdValid v && bcdValid d) (total v d s.sr.xInt) s).2) : DecimalOp op total := by
  intro v d s
  have hrun := bcdOutcome_decimalRun (bcdValid v && bcdValid d) (total v d s.sr.xInt) s
  rw [← h v d s] at hrun
  exact ⟨_, _, _, hrun, bcdOutcome_decimalResult v d _ s⟩

theorem decimalOp_abcdOp : DecimalOp abcdOp fun v d x => bcdValue d + bcdValue v + x :=
  decimalOp_of_outcome fun v d s => by simp only [abcdOp_apply, StatusReg.xNat_cast]

theorem decimalOp_sbcdOp : DecimalOp sbcdOp fun v d x => bcdValue d - bcdValue v - x :=
  decimalOp_of_outcome fun v d s => by simp only [sbcdOp_apply, StatusReg.xNat_cast]

/-! ## The instructions (R441 to R445) -/

section Forms

variable {s : State} {i : Instr} {ry rx : RegNo} {op : Byte → Byte → Exec (Byte × Bool)}
  {total : Byte → Byte → Int → Int}

/-- ABCD and SBCD of registers. -/
theorem State.completes_bcdRegs (hexec : exec i s = runBody (bcdRegs ry rx op) s) (hop : DecimalOp op total) :
    let v : Byte := (s.dreg ry).setWidth 8
    let d : Byte := (s.dreg rx).setWidth 8
    ∃ t r, s.Completes i t { dregs := [rx], aregs := [], bytes := [] } ∧ t.pc = (s.pastWords 1).pc ∧
      t.deviceLog = s.deviceLog ∧ t.dreg rx = merge (s.dreg rx) r ∧
      DecimalResult s.sr v d (total v d s.sr.xInt) r t.sr := by
  intro v d
  obtain ⟨r, new, n, ⟨hrun, hsr⟩, hresult⟩ := hop v d (s.pastWords 1)
  refine ⟨((s.pastWords 1).putDreg rx r).flagged new n, r, ?_, rfl, rfl, by simp, hresult⟩
  refine State.completes_flagged n hexec ?_ (State.keeps_putDreg _ rx r (by simp)) hsr
  rw [bcdRegs, Exec.bind_ok (Exec.get_apply _)]
  exact Exec.bind_ok hrun

/-- ABCD and SBCD of bytes of memory. -/
theorem State.completes_bcdMem (hexec : exec i s = runBody (bcdMem ry rx op) s) (hop : DecimalOp op total) :
    let src := s.areg ry - eaStep .b ry
    let first := ((s.pastWords 1).setAreg ry src).busRead .b src
    let dst := first.2.areg rx - eaStep .b rx
    let second := (first.2.setAreg rx dst).busRead .b dst
    s.accessOk .b src = true → s.accessOk .b dst = true →
    ∃ t r, s.Completes i t { dregs := [], aregs := [ry, rx], bytes := [addrOf dst] } ∧ t.pc = (s.pastWords 1).pc ∧
      (∀ q, t.areg q = second.2.areg q) ∧ t.mem = (second.2.busWrite .b dst r).mem ∧
      t.deviceLog = (second.2.busWrite .b dst r).deviceLog ∧
      DecimalResult s.sr first.1 second.1 (total first.1 second.1 s.sr.xInt) r t.sr := by
  intro src first dst second hsrc hdst
  have hfirst : readPreDec .b ry (s.pastWords 1) = .ok first.1 first.2 :=
    readPreDec_ok ((State.accessOk_congr rfl .b _).trans hsrc)
  have hsecond : readPreDec .b rx first.2 = .ok second.1 second.2 :=
    readPreDec_ok ((State.accessOk_congr (by simp [first]) .b _).trans hdst)
  have hflags : second.2.sr = s.sr := by simp [second, first]
  have hplace : second.2.areg rx = dst := by simp [second]
  obtain ⟨r, new, n, ⟨hrun, hsr⟩, hresult⟩ := hop first.1 second.1 second.2
  rw [hflags] at hresult
  have hok : (second.2.flagged new n).accessOk .b dst = true :=
    (State.accessOk_congr (by simp [second, first]) .b _).trans hdst
  have hsr' : new.SameSystem (second.2.busWrite .b dst r).sr := by
    rw [State.busWrite_sr]
    exact hsr
  have hstore : memWrite .b ((second.2.flagged new n).areg rx) r (second.2.flagged new n) =
      .ok () ((second.2.busWrite .b dst r).flagged new n) := by
    rw [State.flagged_areg n hsr, hplace, memWrite_ok hok]
    exact congrArg _ (Loc.put_byte_flagged n hsr (.mem .data dst) r)
  refine ⟨(second.2.busWrite .b dst r).flagged new n, r, State.completes_flagged n hexec ?_ ?_ hsr',
    by simp [second, first], fun q => ?_, rfl, rfl, hresult⟩
  · rw [bcdMem, Exec.bind_ok hfirst, Exec.bind_ok hsecond, Exec.bind_ok hrun]
    exact hstore
  · exact ((((State.keeps_setAreg _ ry src (by simp)).trans (State.keeps_busRead _ .b src _)).trans
      (State.keeps_setAreg _ rx dst (by simp))).trans (State.keeps_busRead _ .b dst _)).trans
      (State.keeps_busWrite _ .b dst r (by simp [Size.bytes, bytesAt_one]))
  · rw [State.flagged_areg n hsr', State.areg_busWrite]

/-- NBCD is SBCD from 0, stored in the place of its operand. -/
theorem State.completes_nbcd {ea : EA} (h : (s.pastWords 1).CanStore .b ea) :
    let loc := eaLoc .b ea (s.pastWords 1)
    let d : Byte := (s.pastWords 1).operand .b ea
    let s3 := (s.pastWords 1).operandRead .b ea
    ∃ t r, s.Completes (.nbcd ea) t ((s.pastWords 1).storeFrame .b ea) ∧
      t.pc = ((s.pastWords 1).resolved .b ea).pc ∧ t.d = (loc.put .b s3 r).d ∧
      (∀ q, t.areg q = (loc.put .b s3 r).areg q) ∧ t.mem = (loc.put .b s3 r).mem ∧
      t.deviceLog = (loc.put .b s3 r).deviceLog ∧ DecimalResult s.sr d 0 (0 - bcdValue d - s.sr.xInt) r t.sr := by
  intro loc d s3
  have hflags : s3.sr = s.sr := State.operandRead_sr _ .b ea
  obtain ⟨r, new, n, ⟨hrun, hsr⟩, hresult⟩ := decimalOp_sbcdOp d 0 s3
  rw [hflags] at hresult
  have hw : loc.writable .b (s3.flagged { new with z := s3.sr.z } n) = true :=
    (Loc.writable_congr rfl .b loc).trans (Loc.writable_afterRead h.write)
  have hsr' : new.SameSystem (loc.put .b s3 r).sr := by
    rw [Loc.put_sr]
    exact hsr
  refine ⟨(loc.put .b s3 r).flagged new n, r, State.completes_flagged n rfl ?_ ?_ hsr', ?_, rfl,
    State.flagged_areg n hsr', rfl, rfl, hresult⟩
  · rw [Exec.bind_ok (resolveEA_ok h.fetch), Exec.bind_ok (readLoc_ok (Loc.writable_readable h.write))]
    refine (Exec.bind_ok hrun).trans ((Exec.bind_ok (writeLoc_ok hw)).trans ?_)
    have hsys : StatusReg.SameSystem { new with z := s3.sr.z } s3.sr := hsr
    rw [Loc.put_byte_flagged n hsys]
    rfl
  · exact (State.keeps_operandRead _ .b ea (by simp [State.storeFrame])).trans
      (State.keeps_put _ .b loc r (by simp [State.storeFrame, loc]) (by simp [State.storeFrame, loc])
        (by simp [State.storeFrame, loc]))
  · simp [s3]

end Forms

/-- Settles O50: the two operations in each of the two forms, and NBCD. -/
theorem decimalArithmetic : Obligations.DecimalArithmetic := by
  unfold Obligations.DecimalArithmetic
  intro ry rx ea s s1 x right
  refine ⟨?_, ?_, ?_⟩
  · intro v d frame
    have habcd := State.completes_bcdRegs (s := s) (i := .abcdReg ry rx) rfl decimalOp_abcdOp
    have hsbcd := State.completes_bcdRegs (s := s) (i := .sbcdReg ry rx) rfl decimalOp_sbcdOp
    exact ⟨habcd, hsbcd⟩
  · intro src first dst second s3 v d frame hsrc hdst
    have habcd := State.completes_bcdMem (i := .abcdMem ry rx) rfl decimalOp_abcdOp hsrc hdst
    have hsbcd := State.completes_bcdMem (i := .sbcdMem ry rx) rfl decimalOp_sbcdOp hsrc hdst
    exact ⟨habcd, hsbcd⟩
  · exact fun hf hw => State.completes_nbcd (State.canStore_past hf hw)

end Sys2Proof.Machine

/-! Proofs about the program control instructions (46_program_control.md). -/

namespace Sys2Proof.Machine

/-! ## Control transfers (R461, R462, R464, R466) -/

/-- The state after a control transfer. -/
def State.jumped (s : State) (a : Long) : State := { s with pc := a, prefetch := [] }

theorem jump_eq (a : Long) (s : State) : jump a s = .ok () (s.jumped a) := rfl

section Jumped

variable (s : State) (a : Long)

@[simp] theorem State.jumped_pc : (s.jumped a).pc = a := rfl
@[simp] theorem State.jumped_sr : (s.jumped a).sr = s.sr := rfl
@[simp] theorem State.jumped_sp : (s.jumped a).sp = s.sp := rfl
@[simp] theorem State.jumped_deviceLog : (s.jumped a).deviceLog = s.deviceLog := rfl
@[simp] theorem State.jumped_readLong (x : Long) : (s.jumped a).readLong x = s.readLong x := rfl

theorem State.keeps_jumped (c : Changes) : s.Keeps (s.jumped a) c := s.keeps_flags c a s.sr [] _ _ rfl rfl rfl

end Jumped

/-- The target is counted from past the operation word, whether a displacement word follows or not. -/
theorem branchTarget_ok {s : State} {d : Disp} (h : s.fetchable s.pc (dispWords d) = true) :
    branchTarget d (s.pastWords 1) = .ok (s.pc + 2#32 + dispOffset d) (s.pastWords (dispWords d)) := by
  cases d with
  | byte d => exact branchTarget_byte d _
  | word d =>
    rw [branchTarget_word (State.fetchable_second (n := 0) h)]
    exact congrArg (EStateM.Result.ok _) (s.pastWords_pastWords 1 1)

theorem State.completes_bra {s : State} {d : Disp} (h : s.fetchable s.pc (dispWords d) = true) :
    s.Completes (.bra d) (s.jumped (s.pc + 2#32 + dispOffset d)) .none := by
  refine ⟨runBody_ok ?_, s.keeps_jumped _ _⟩
  rw [Exec.bind_ok (branchTarget_ok h), jump_eq]
  rfl

theorem State.completes_bcc {s : State} {d : Disp} (h : s.fetchable s.pc (dispWords d) = true) (c : Cond) :
    s.Completes (.bcc c d)
      (if s.sr.holds c then s.jumped (s.pc + 2#32 + dispOffset d) else s.pastWords (dispWords d)) .none := by
  by_cases hc : s.sr.holds c = true
  · rw [if_pos hc]
    refine ⟨runBody_ok ?_, s.keeps_jumped _ _⟩
    rw [Exec.bind_ok (branchTarget_ok h), Exec.bind_ok (Exec.get_apply _)]
    exact (Exec.if_pos hc _ _ _).trans rfl
  · rw [if_neg hc]
    refine ⟨runBody_ok ?_, s.keeps_pastWords _ _⟩
    rw [Exec.bind_ok (branchTarget_ok h), Exec.bind_ok (Exec.get_apply _)]
    exact Exec.if_neg hc _ _ _

/-- What DBcc does once its displacement word is fetched, the base of the displacement being `base` (R462). -/
def countDown (c : Cond) (r : RegNo) (d : Word) (base : Long) : Exec Unit := do
  let st ← get
  if !st.sr.holds c then
    let count : Word := (st.dreg r).setWidth 16 - 1
    modify fun s => s.putDreg r count
    if count ≠ 0xFFFF#16 then jump (base + d.signExtend 32)

/-- DBcc does with the state past its two words what `countDown` says. -/
theorem exec_dbcc {s : State} (h : s.fetchable s.pc 2 = true) (c : Cond) (r : RegNo) (d : Word) :
    exec (.dbcc c r d) s = conclude s.pc (countDown c r d (s.pc + 2#32) (s.pastWords 2)) :=
  congrArg (conclude s.pc) (Exec.bind_ok (fetchExt_second (n := 0) h))

theorem countDown_of_holds {u : State} {c : Cond} (hc : u.sr.holds c = true) (r : RegNo) (d : Word) (base : Long) :
    countDown c r d base u = .ok () u := by
  rw [countDown, Exec.bind_ok (Exec.get_apply u), Exec.if_neg (by simp [hc])]
  rfl

theorem countDown_of_not_holds {u : State} {c : Cond} (hc : u.sr.holds c = false) (r : RegNo) (d : Word) (base : Long) :
    let count : Word := (u.dreg r).setWidth 16 - 1#16
    countDown c r d base u = .ok () (if count = 0xFFFF#16 then u.putDreg r count
      else (u.jumped (base + d.signExtend 32)).putDreg r count) := by
  intro count
  rw [countDown, Exec.bind_ok (Exec.get_apply u), Exec.if_pos (by simp [hc]), Exec.bind_ok (Exec.modify_apply _ u)]
  by_cases hcount : count = 0xFFFF#16
  · rw [if_pos hcount]
    exact Exec.if_neg (not_not.mpr hcount) _ _ _
  · rw [if_neg hcount]
    exact (Exec.if_pos hcount _ _ _).trans rfl

/-- Settles O51: the four transfers, DBcc with its condition met, its count spent or its branch taken. -/
theorem branches : Obligations.Branches := by
  unfold Obligations.Branches
  intro s at_
  refine ⟨fun d h => ⟨State.completes_bra h, State.completes_bcc h⟩, fun c r d h => ?_, fun ea sp a hf ha => ?_⟩
  · intro count
    refine ⟨fun hc => ⟨?_, s.keeps_pastWords 2 _⟩, fun hc => ⟨?_, ?_⟩⟩
    · rw [exec_dbcc h, countDown_of_holds (u := s.pastWords 2) hc]
      rfl
    · rw [exec_dbcc h, countDown_of_not_holds (u := s.pastWords 2) hc]
      rfl
    · split
      · exact (s.keeps_pastWords 2 _).trans (State.keeps_putDreg _ r count (by simp))
      · exact (s.keeps_jumped _ _).trans (State.keeps_putDreg _ r count (by simp))
  · refine State.completes_of_body (t := ((s.pastWords 1).resolved .l ea).jumped a) rfl ?_
      ((State.keeps_resolved _ .l ea (by simp)).trans (State.keeps_jumped _ a _))
    rw [Exec.bind_ok (addressEA_ok (State.fetchable_past 1 _ hf) ha), jump_eq]

/-! ## Calls (R465, R467) -/

/-- The end of BSR and JSR: the return address is pushed, then control transfers. -/
def callTo (a : Long) : Exec Unit := do
  push32 (← get).pc
  jump a

theorem exec_bsr (d : Disp) (s : State) : exec (.bsr d) s = runBody (branchTarget d >>= callTo) s := rfl

theorem exec_jsr (ea : EA) (s : State) : exec (.jsr ea) s = runBody (addressEA .l ea >>= callTo) s := rfl

/-- What a call leaves of the state `s` whose `PC` is the return address. -/
def State.called (s : State) (a : Long) : State :=
  ((s.setSp (s.sp - 4#32)).writeLong (s.sp - 4#32) s.pc).jumped a

theorem callTo_ok {s : State} {a : Long} (h : s.cellsOk .l (s.sp - 4#32) = true) :
    callTo a s = .ok () (s.called a) := by
  rw [callTo, Exec.bind_ok (Exec.get_apply s), Exec.bind_ok (push32_ok h)]
  rfl

theorem State.keeps_called (s : State) (a : Long) {c : Changes} (hr : 7#3 ∈ c.aregs)
    (hb : bytesAt (s.sp - 4#32) 4 ⊆ c.bytes) : s.Keeps (s.called a) c :=
  ((s.keeps_setSp _ hr).trans (State.keeps_writeLong _ _ _ hb)).trans (State.keeps_jumped _ a c)

@[simp] theorem State.called_sr (s : State) (a : Long) : (s.called a).sr = s.sr := by simp [State.called]
@[simp] theorem State.called_deviceLog (s : State) (a : Long) : (s.called a).deviceLog = s.deviceLog := by
  simp [State.called]
@[simp] theorem State.called_sp (s : State) (a : Long) : (s.called a).sp = s.sp - 4#32 := by
  simp [State.called, State.sp_writeLong]
theorem State.called_readLong (s : State) (a : Long) : (s.called a).readLong (s.called a).sp = s.pc := by
  rw [State.called_sp, State.called, State.jumped_readLong, State.readLong_writeLong_self]

/-- An instruction that ends in a call, made in the state `u` that resolving its target leaves. -/
theorem State.completes_call {s u : State} {i : Instr} {target : Exec Long} {a : Long} {c : Changes}
    (hexec : exec i s = runBody (target >>= callTo) s) (htarget : target (s.pastWords 1) = .ok a u)
    (hcells : u.cellsOk .l (u.sp - 4#32) = true) (hkeeps : s.Keeps u c) (hr : 7#3 ∈ c.aregs)
    (hb : bytesAt (u.sp - 4#32) 4 ⊆ c.bytes) (hsr : u.sr = s.sr) (hlog : u.deviceLog = s.deviceLog) :
    ∃ t, s.Completes i t c ∧ t.sr = s.sr ∧ t.deviceLog = s.deviceLog ∧ t.pc = a ∧ t.sp = u.sp - 4#32 ∧
      t.readLong t.sp = u.pc :=
  ⟨u.called a,
    ⟨hexec.trans (runBody_ok ((Exec.bind_ok htarget).trans (callTo_ok hcells))), hkeeps.trans (u.keeps_called a hr hb)⟩,
    (u.called_sr a).trans hsr, (u.called_deviceLog a).trans hlog, rfl, u.called_sp a, u.called_readLong a⟩

/-! ## Returns (R468, R469) -/

/-- RTS, and the end of RTR. -/
def popPc : Exec Unit := do jump (← pop32)

/-- What popping `PC` leaves. -/
def State.returned (s : State) : State := (s.setSp (s.sp + 4#32)).jumped (s.readLong s.sp)

theorem popPc_ok {s : State} (h : s.cellsOk .l s.sp = true) : popPc s = .ok () s.returned := by
  rw [popPc, Exec.bind_ok (pop32_ok h)]
  rfl

theorem State.keeps_returned (s : State) {c : Changes} (h : 7#3 ∈ c.aregs) : s.Keeps s.returned c :=
  (s.keeps_setSp _ h).trans (State.keeps_jumped _ _ c)

@[simp] theorem State.returned_sr (s : State) : s.returned.sr = s.sr := by simp [State.returned]
@[simp] theorem State.returned_deviceLog (s : State) : s.returned.deviceLog = s.deviceLog := by simp [State.returned]
@[simp] theorem State.returned_sp (s : State) : s.returned.sp = s.sp + 4#32 := by simp [State.returned]

theorem State.completes_rts {s : State} (h : s.cellsOk .l s.sp = true) :
    s.Completes .rts (s.pastWords 1).returned { dregs := [], aregs := [7#3], bytes := [] } :=
  State.completes_of_body (body := popPc) rfl (popPc_ok h) (State.keeps_returned _ (by simp))

/-- The state in which RTR pops `PC`: the word of condition codes popped and written. -/
def State.ccrPopped (s : State) : State :=
  { s.setSp (s.sp + 2#32) with sr := s.sr.withCcr ((s.readWord s.sp).setWidth 8) }

theorem State.ccrPopped_sp (s : State) : s.ccrPopped.sp = s.sp + 2#32 := by
  rw [← s.sp_setSp (s.sp + 2#32), State.sp, State.sp, State.setSp_sr]
  rfl

theorem State.ccrPopped_readLong (s : State) (x : Long) : s.ccrPopped.readLong x = s.readLong x :=
  s.readSized_setSp _ .l x

theorem State.keeps_ccrPopped (s : State) {c : Changes} (h : 7#3 ∈ c.aregs) : s.Keeps s.ccrPopped c :=
  (s.keeps_setSp _ h).withFlags _ (s.sr.sameSystem_withCcr _)

theorem State.completes_rtr {s : State} (hw : s.cellsOk .w s.sp = true) (hl : s.cellsOk .l (s.sp + 2#32) = true) :
    s.Completes .rtr (s.pastWords 1).ccrPopped.returned { dregs := [], aregs := [7#3], bytes := [] } := by
  have hpop : (s.pastWords 1).ccrPopped.cellsOk .l (s.pastWords 1).ccrPopped.sp = true := by
    rw [State.ccrPopped_sp, State.cellsOk_congr (t := s) (by simp [State.ccrPopped]) (by simp [State.ccrPopped])]
    exact hl
  refine State.completes_of_body rfl ?_ ((State.keeps_ccrPopped _ (by simp)).trans (State.keeps_returned _ (by simp)))
  rw [Exec.bind_ok (pop16_ok (s := s.pastWords 1) hw), Exec.bind_ok (setFlags_apply _ _), State.setSp_sr]
  exact popPc_ok hpop

/-- Settles O52: a call is a push and a transfer, a return a pop and a transfer. -/
theorem callsAndReturns : Obligations.CallsAndReturns := by
  unfold Obligations.CallsAndReturns
  refine fun s => ⟨fun d hf hc => ?_, ?_, fun h => ?_, fun hw hl => ?_⟩
  · exact State.completes_call (exec_bsr d s) (branchTarget_ok hf) hc (s.keeps_pastWords _ _) (by simp)
      (List.Subset.refl _) rfl rfl
  · intro ea sp a s2 hf ha hc
    have hs2 : s2.cellsOk .l (s2.sp - 4#32) = true :=
      (State.cellsOk_congr (by simp [s2]) (by simp [s2]) .l _).trans hc
    exact State.completes_call (exec_jsr ea s) (addressEA_ok (State.fetchable_past 1 _ hf) ha) hs2
      ((s.keeps_pastWords 1 _).trans (State.keeps_resolved _ .l ea (by simp))) (by simp) (List.Subset.refl _)
      (by simp [s2]) (by simp [s2])
  · exact ⟨(s.pastWords 1).returned, State.completes_rts h, by simp, by simp, rfl, State.returned_sp _⟩
  · refine ⟨(s.pastWords 1).ccrPopped.returned, State.completes_rtr hw hl, by simp [State.ccrPopped],
      by simp [State.ccrPopped], ?_, ?_⟩
    · rw [State.returned, State.jumped_pc, State.ccrPopped_sp, State.ccrPopped_readLong]
      rfl
    · rw [State.returned_sp, State.ccrPopped_sp, BitVec.add_assoc]
      rfl

/-! ## Values stored out of the status register (R463, 40_data_movement.md R206) -/

/-- Scc and MOVE from SR: the value is taken from the status register once the destination has been read (20_memory.md
R76). -/
def storeFromSr (sz : Size) (ea : EA) (f : StatusReg → BitVec sz.bits) : Exec Unit := do
  let loc ← resolveEA sz ea
  discardRead sz loc
  writeLoc sz loc (f (← get).sr)

/-- The byte Scc stores. -/
def conditionByte (c : Cond) (sr : StatusReg) : Byte := if sr.holds c then 0xFF#8 else 0x00#8

theorem exec_scc (c : Cond) (ea : EA) (s : State) :
    exec (.scc c ea) s = runBody (storeFromSr .b ea (conditionByte c)) s := rfl

theorem exec_moveFromSr (ea : EA) (s : State) :
    exec (.moveFromSr ea) s = runBody (storeFromSr .w ea StatusReg.toWord) s := rfl

theorem State.CanStore.storeFromSr {s : State} {sz : Size} {ea : EA} (h : s.CanStore sz ea)
    (f : StatusReg → BitVec sz.bits) :
    storeFromSr sz ea f s = .ok () ((eaLoc sz ea s).put sz (s.operandRead sz ea) (f s.sr)) := by
  rw [← s.operandRead_sr sz ea, Machine.storeFromSr, Exec.bind_ok (resolveEA_ok h.fetch),
    Exec.bind_ok (discardRead_ok (Loc.writable_readable h.write)), Exec.bind_ok (Exec.get_apply _),
    writeLoc_ok (Loc.writable_afterRead h.write), State.operandRead]

theorem State.completes_storeFromSr {s : State} {sz : Size} {ea : EA} {i : Instr} {f : StatusReg → BitVec sz.bits}
    (hexec : exec i s = runBody (Machine.storeFromSr sz ea f) s) (h : (s.pastWords 1).CanStore sz ea) :
    s.Completes i ((eaLoc sz ea (s.pastWords 1)).put sz ((s.pastWords 1).operandRead sz ea) (f s.sr))
      ((s.pastWords 1).storeFrame sz ea) :=
  State.completes_of_body hexec (h.storeFromSr f)
    ((State.keeps_operandRead _ sz ea (by simp [State.storeFrame])).trans
      (State.keeps_put _ sz _ _ (by simp [State.storeFrame]) (by simp [State.storeFrame]) (by simp [State.storeFrame])))

/-- Settles O53: one form, with two functions of the status register. -/
theorem conditionAndStatusStores : Obligations.ConditionAndStatusStores := by
  unfold Obligations.ConditionAndStatusStores
  constructor
  · intro c ea s s1 s2 loc s3 hf hw
    exact State.completes_storeFromSr (exec_scc c ea s) (State.canStore_past hf hw)
  · intro ea s s1 s2 loc s3 hf hw
    exact State.completes_storeFromSr (exec_moveFromSr ea s) (State.canStore_past hf hw)

/-! ## CHK (R472) -/

/-- What CHK does with a bound once it is read. -/
def checkBound (rx : RegNo) (b : Word) : Exec Unit := do
  let d : Word := ((← get).dreg rx).setWidth 16
  chkFlags d.toInt b.toInt
  if d.toInt < 0 ∨ b.toInt < d.toInt then trapNext 6

theorem exec_chk (ea : EA) (rx : RegNo) (s : State) :
    exec (.chk ea rx) s = runBody (readEA .w ea >>= checkBound rx) s := rfl

/-- The flags of CHK: N by the bound that is violated, where it is one; Z, V and C free. -/
def State.checkedSr (u : State) (d b : Int) : StatusReg :=
  { u.sr with n := chkSign d b (Config.freeBit (u.draws + 3)), z := Config.freeBit u.draws
              v := Config.freeBit (u.draws + 1), c := Config.freeBit (u.draws + 2) }

/-- The state with the flags of CHK set, whether a trap follows or not. -/
def State.checked (u : State) (d b : Int) : State := u.flagged (u.checkedSr d b) (u.draws + 4)

theorem State.sameSystem_checkedSr (u : State) (d b : Int) : (u.checkedSr d b).SameSystem u.sr := ⟨rfl, rfl, rfl⟩

theorem State.keeps_checked (u : State) (d b : Int) (c : Changes) : u.Keeps (u.checked d b) c :=
  u.keeps_flags c _ _ _ _ _ rfl rfl rfl

theorem chkSign_of_negative {d b : Int} (hd : d < 0) (hb : d ≤ b) (free : Bool) : chkSign d b free = true :=
  if_pos ⟨hd, not_lt.mpr hb⟩

theorem chkSign_of_above {d b : Int} (hd : 0 ≤ d) (hb : b < d) (free : Bool) : chkSign d b free = false := by
  rw [chkSign, if_neg fun h => not_lt.mpr hd h.1, if_pos ⟨hb, not_lt.mpr hd⟩]

section CheckBound

variable {u : State} {rx : RegNo} {b d : Word} (hd : (u.dreg rx).setWidth 16 = d)
include hd

theorem checkBound_inside (h : ¬(d.toInt < 0 ∨ b.toInt < d.toInt)) :
    checkBound rx b u = .ok () (u.checked d.toInt b.toInt) := by
  subst hd
  rw [checkBound, Exec.bind_ok (Exec.get_apply u), Exec.bind_ok (chkFlags_apply _ _ u), Exec.if_neg h]
  rfl

theorem checkBound_outside (h : d.toInt < 0 ∨ b.toInt < d.toInt) (hexc : u.canExcept 6 = true) :
    let t := u.checked d.toInt b.toInt
    checkBound rx b u = .ok () (t.excepted 6 t.pc none) := by
  subst hd
  intro t
  have ht : t.canExcept 6 = true := hexc
  rw [checkBound, Exec.bind_ok (Exec.get_apply u), Exec.bind_ok (chkFlags_apply _ _ u), Exec.if_pos h]
  exact trapNext_ok ht

end CheckBound

/-- Settles O55: the bound is read and the flags are set; then the instruction completes, or its trap is taken. -/
theorem checkBounds : Obligations.CheckBounds := by
  unfold Obligations.CheckBounds
  intro ea rx s s1 s2 loc s3 b d hf hr
  have h : s1.CanRead .w ea := State.canRead_past hf hr
  have hd : (s3.dreg rx).setWidth 16 = d := congrArg _ (s1.operandRead_dreg .w ea rx)
  have hareg (q : RegNo) : (s3.checked d.toInt b.toInt).areg q = s2.areg q :=
    (State.flagged_areg _ (s3.sameSystem_checkedSr _ _) q).trans (s1.operandRead_areg .w ea q)
  have hx : (s3.checked d.toInt b.toInt).sr.x = s.sr.x := by
    have hsr : s3.sr = s.sr := s1.operandRead_sr .w ea
    rw [← hsr]
    rfl
  constructor
  · intro hin
    have hbody := checkBound_inside (b := b) hd (by omega)
    exact ⟨_, State.completes_of_read (exec_chk ea rx s) h hbody (s3.keeps_checked _ _ _) (List.Subset.refl _),
      s1.operandRead_pc .w ea, hareg, rfl, hx⟩
  · intro hout hexc
    rw [← State.canExcept_operandRead] at hexc
    have hbody := (Exec.bind_ok h.readEA).trans (checkBound_outside hd hout hexc)
    refine ⟨_, (exec_chk ea rx s).trans (runBody_ok hbody), ?_, s1.operandRead_pc .w ea, hareg, rfl, hx,
      fun ⟨hneg, hle⟩ => chkSign_of_negative hneg hle _, fun ⟨hnonneg, habove⟩ => chkSign_of_above hnonneg habove _⟩
    exact ((s.keeps_pastWords 1 _).trans (s1.keeps_operandRead .w ea (by simp))).trans (s3.keeps_checked _ _ _)

end Sys2Proof.Machine

/-! Proofs about the system control instructions (47_system_control.md): the privileged instructions in supervisor state,
and NOP. -/

namespace Sys2Proof.Machine

/-! ## The privileged instructions in supervisor state (R500 to R504) -/

/-- Of two writes of the active stack pointer the second remains. -/
theorem State.setSp_setSp (s : State) (v w : Long) : (s.setSp v).setSp w = s.setSp w := by
  cases h : s.sr.s with
  | true =>
    rw [State.setSp_of_supervisor h v, State.setSp_of_supervisor h w]
    exact State.setSp_of_supervisor (s := { s with ssp := v }) h w
  | false =>
    rw [State.setSp_of_user h v, State.setSp_of_user h w]
    exact State.setSp_of_user (s := { s with usp := v }) h w

section Privileged

variable {s : State} {i : Instr}

/-- In supervisor state a privileged instruction ends as its rule does from the state past the operation word. -/
theorem exec_of_supervisor {t : State} {body : Exec Unit} (hexec : exec i s = runBody (privileged body) s)
    (hs : s.sr.s = true) (hbody : body (s.pastWords 1) = .ok () t) : exec i s = .next t :=
  hexec.trans (runBody_ok ((privileged_of_supervisor (s := s.pastWords 1) hs).trans hbody))

/-- MOVE to SR loads the status register with the word read (40_data_movement.md R205). -/
theorem exec_moveToSr_of_supervisor {ea : EA} (hs : s.sr.s = true) (h : (s.pastWords 1).CanRead .w ea) :
    exec (.moveToSr ea) s = .next { (s.pastWords 1).operandRead .w ea with
      sr := StatusReg.ofWord ((s.pastWords 1).operand .w ea) } :=
  exec_of_supervisor rfl hs ((Exec.bind_ok h.readEA).trans (setFlags_apply _ _))

/-- An immediate word combined with `SR` (42_logical.md R335, R339, R344). -/
theorem exec_immToSr_of_supervisor {w : Word} {f : Word → Word → Word} (hexec : exec i s = runBody (immToSr w f) s)
    (hs : s.sr.s = true) (hf : s.fetchable s.pc 2 = true) :
    exec i s = .next { s.pastWords 2 with sr := StatusReg.ofWord (f s.sr.toWord w) } :=
  exec_of_supervisor hexec hs ((Exec.bind_ok (fetchExt_second (n := 0) hf)).trans (setFlags_apply _ _))

/-- STOP loads the status register, and stops unless `T` was set before (R501, 60_exceptions.md R560). -/
theorem exec_stop_of_supervisor {w : Word} (hs : s.sr.s = true) (hf : s.fetchable s.pc 2 = true) :
    exec (.stop w) s = .next { s.pastWords 2 with sr := StatusReg.ofWord w, stopped := !s.sr.t } := by
  refine exec_of_supervisor rfl hs ?_
  rw [Exec.bind_ok (Exec.get_apply _), Exec.bind_ok (fetchExt_second (n := 0) hf), Exec.modify_apply, State.pastWords_sr]

/-- MOVE USP,An (40_data_movement.md R208). -/
theorem State.completes_moveFromUsp (hs : s.sr.s = true) (r : RegNo) :
    s.Completes (.moveFromUsp r) ((s.pastWords 1).setAreg r s.usp) { dregs := [], aregs := [r], bytes := [] } :=
  ⟨exec_of_supervisor rfl hs (Exec.modify_apply _ _),
    (s.keeps_pastWords 1 _).trans (State.keeps_setAreg _ r _ (by simp))⟩

/-- RTE pops the status register and `PC` from the supervisor stack (R500). -/
theorem exec_rte_of_supervisor (hs : s.sr.s = true) (hw : s.cellsOk .w s.ssp = true)
    (hl : s.cellsOk .l (s.ssp + 2#32) = true) :
    exec .rte s = .next { s with
      ssp := s.ssp + 6#32, sr := StatusReg.ofWord (s.readWord s.ssp), pc := s.readLong (s.ssp + 2#32), prefetch := [] } := by
  have hsp : (s.pastWords 1).sp = s.ssp := State.sp_of_supervisor hs
  have hpop := returnFromException_ok (s := s.pastWords 1) (hsp ▸ hw) (hsp ▸ hl)
  rw [hsp, State.setSp_setSp, State.setSp_of_supervisor (s := s.pastWords 1) hs, BitVec.add_assoc] at hpop
  exact exec_of_supervisor rfl hs hpop

end Privileged

/-- Settles O58: past the operation word each privileged instruction is the update that its own lemma gives. -/
theorem privilegedInSupervisorState : Obligations.PrivilegedInSupervisorState := by
  unfold Obligations.PrivilegedInSupervisorState
  intro s hs
  refine ⟨?moveToSr, ?immediates, fun r => ⟨State.completes_moveFromUsp hs r, ?moveToUsp⟩, exec_reset_of_supervisor hs,
    exec_rte_of_supervisor hs⟩
  case moveToSr =>
    intro ea s1 s2 loc s3 hf hr
    exact ⟨exec_moveToSr_of_supervisor hs (State.canRead_past hf hr),
      (s.keeps_pastWords 1 _).trans (s1.keeps_operandRead .w ea (List.Subset.refl _))⟩
  case immediates =>
    intro w hf done
    exact ⟨exec_immToSr_of_supervisor rfl hs hf, exec_immToSr_of_supervisor rfl hs hf,
      exec_immToSr_of_supervisor rfl hs hf, exec_stop_of_supervisor hs hf⟩
  case moveToUsp => exact exec_of_supervisor rfl hs (Exec.modify_apply _ _)

/-! ## NOP (R503) -/

/-- Settles O60: the word is NOP's encoding, and its rule does nothing past the operation word. -/
theorem noOperation : Obligations.NoOperation := by
  unfold Obligations.NoOperation
  exact fun s rest => ⟨decodeEncode .nop rest rfl, runBody_ok (Exec.pure_apply () (s.pastWords 1))⟩

end Sys2Proof.Machine

namespace Sys2Proof

/-! ## The words of the longest instruction are enough to decode (30_encoding.md R100, log entry 8)

An operation word is followed by at most two words of immediate data or one word of its own, and by the words of its
effective addresses, two at most for each: with four words after it the decoder never comes to the end of the list. -/

/-- The words were enough: where there is no answer, the operation word matches no instruction. -/
def Sufficed {α : Type} (p : Except DecodeError α) : Prop := ∀ e, p = .error e → ∃ w, e = .unmatched w

/-- A reading that does not come to the end of four words. -/
def Fed {α : Type} (r : Reader α) : Prop := ∀ ws : List Word, 4 ≤ ws.length → Sufficed (r ws)

theorem sufficed_ok {α : Type} (a : α) : Sufficed (.ok a) := nofun

theorem sufficed_bind {α β : Type} {r : Reader α} {f : α → Reader β} {ws : List Word} {a : α}
    {mid : List Word} (hr : r ws = .ok (a, mid)) (hf : Sufficed (f a mid)) : Sufficed ((r >>= f) ws) := by
  rwa [Reader.bind_ok hr]

/-- An effective address that ends what is read. -/
theorem sufficed_takeEA_map {ws : List Word} (h : 2 ≤ ws.length) (sz : Size) (mode : Mode) (r : RegNo)
    (k : EA → Instr) : Sufficed ((takeEA sz mode r >>= fun ea => (pure (k ea) : Reader Instr)) ws) := by
  obtain ⟨ea, rest, hea⟩ := takeEA_of_two_words sz mode r h
  exact sufficed_bind hea (sufficed_ok _)

/-- Two words are enough for an immediate. -/
theorem takeImm_of_two_words (sz : Size) (x y : Word) (ws : List Word) :
    ∃ v rest, takeImm sz (x :: y :: ws) = .ok (v, rest) ∧ ws.length ≤ rest.length := by
  cases sz with
  | b | w => exact ⟨_, _, rfl, Nat.le_succ _⟩
  | l => exact ⟨_, _, rfl, Nat.le_refl _⟩

@[simp] theorem fed_pure {α : Type} (a : α) : Fed (pure a : Reader α) := fun _ _ => sufficed_ok _

@[simp] theorem fed_unmatched (w : Word) : Fed (unmatched w) := by
  rintro ws - e ⟨⟩
  exact ⟨w, rfl⟩

/-- A word of its own, and then what two words are enough for. -/
theorem fed_takeWord_bind {f : Word → Reader Instr}
    (hf : ∀ x (ws : List Word), 2 ≤ ws.length → Sufficed (f x ws)) : Fed (takeWord >>= f) := by
  rintro (_ | ⟨x, ws⟩) hws
  · simp at hws
  · have hws' : 2 ≤ ws.length := by simp only [List.length_cons] at hws; omega
    exact sufficed_bind (mid := ws) rfl (hf x ws hws')

section Forms

variable (w : Word) (c : Category)

@[simp] theorem fed_withEA (sz : Size) (k : EA → Instr) : Fed (withEA w c sz k) := by
  unfold withEA
  split
  · exact fed_unmatched w
  · exact fun ws hws => sufficed_takeEA_map (by omega) _ _ _ k

@[simp] theorem fed_withSizedEA (k : Size → EA → Instr) : Fed (withSizedEA w c k) := by
  unfold withSizedEA
  split
  · exact fed_unmatched w
  · exact fed_withEA w c _ _

@[simp] theorem fed_withImmEA (sz : Size) (k : Size → Long → EA → Instr) : Fed (withImmEA w sz k) := by
  unfold withImmEA
  split
  · exact fed_unmatched w
  · rintro (_ | ⟨x, _ | ⟨y, ws⟩⟩) hws
    · simp at hws
    · simp at hws
    · obtain ⟨v, rest, hv, hrest⟩ := takeImm_of_two_words sz x y ws
      have hrest' : 2 ≤ rest.length := by simp only [List.length_cons] at hws; omega
      exact sufficed_bind hv (sufficed_takeEA_map hrest' _ _ _ _)

@[simp] theorem fed_withBitEA (k : Byte → EA → Instr) : Fed (withBitEA w c k) := by
  unfold withBitEA
  split
  · exact fed_unmatched w
  · exact fed_takeWord_bind fun _ _ hws => sufficed_takeEA_map hws _ _ _ _

@[simp] theorem fed_withMaskEA (sz : SizeWL) (k : SizeWL → Word → EA → Instr) : Fed (withMaskEA w c sz k) := by
  unfold withMaskEA
  split
  · exact fed_unmatched w
  · exact fed_takeWord_bind fun _ _ hws => sufficed_takeEA_map hws _ _ _ _

@[simp] theorem fed_withByteWord (k : Byte → Instr) : Fed (withByteWord k) := fed_takeWord_bind fun _ _ _ => sufficed_ok _

@[simp] theorem fed_withWord (k : Word → Instr) : Fed (withWord k) := fed_takeWord_bind fun _ _ _ => sufficed_ok _

@[simp] theorem fed_withDisp (k : Disp → Instr) : Fed (withDisp w k) := by
  unfold withDisp
  split
  · exact fed_takeWord_bind fun _ _ _ => sufficed_ok _
  · exact fed_pure _

@[simp] theorem fed_logicImm (sz : Size) (toCcr : Byte → Instr) (toSr : Word → Instr) (k : Size → Long → EA → Instr) :
    Fed (logicImm w sz toCcr toSr k) := by
  unfold logicImm
  split
  · cases sz <;> simp
  · exact fed_withImmEA w sz k

@[simp] theorem fed_pairOr {mode0 mode1 other : Reader Instr} (h0 : Fed mode0) (h1 : Fed mode1) (h : Fed other) :
    Fed (pairOr w mode0 mode1 other) := by
  unfold pairOr
  split <;> assumption

end Forms

/-! The groups of the opcode map: each row is one of the forms above. -/

section Groups

variable (w : Word)

theorem fed_decodeImmRow (sz : Size) : Fed (decodeImmRow w sz) := by
  unfold decodeImmRow
  split
  case h_5 => cases sz <;> simp
  all_goals simp

theorem fed_decode0 : Fed (decode0 w) := by
  unfold decode0
  dsimp only
  split
  case h_1 | h_2 | h_3 => exact fed_decodeImmRow w _
  all_goals split <;> simp

theorem fed_decodeMove (sz : Size) : Fed (decodeMove w sz) := by
  unfold decodeMove
  split
  · intro ws hws
    obtain ⟨ea, rest, hea⟩ := takeEA_of_two_words sz _ (eaRegField w) (show 2 ≤ ws.length by omega)
    obtain ⟨own, hcount, rfl, -⟩ := readsOwnWords_takeEA _ _ _ _ _ _ hea
    have htwo := Machine.eaExtCount_le_two sz ea
    rw [List.length_append] at hws
    exact sufficed_bind hea (sufficed_takeEA_map (by omega) _ _ _ _)
  · exact fed_unmatched w

theorem fed_decodeMoveWL (sz : SizeWL) : Fed (decodeMoveWL w sz) := by
  unfold decodeMoveWL
  split
  · exact fed_withEA w _ _ _
  · exact fed_decodeMove w _

theorem fed_decodeFixed : Fed (decodeFixed w) := by
  unfold decodeFixed
  split <;> simp

theorem fed_decode4E : Fed (decode4E w) := by
  unfold decode4E
  dsimp only
  split
  case h_7 => exact fed_decodeFixed w
  all_goals simp

theorem fed_decode48 : Fed (decode48 w) := by
  unfold decode48
  split
  case h_1 => exact fed_withEA w _ _ _
  all_goals split <;> simp

theorem fed_decode4Low : Fed (decode4Low w) := by
  unfold decode4Low
  split
  case h_1 | h_2 | h_3 | h_4 => split <;> simp
  case h_5 => exact fed_decode48 w
  case h_6 =>
    split
    · exact fed_pure _
    · split <;> simp
  case h_7 => split <;> simp
  case h_8 =>
    split
    case h_1 => exact fed_decode4E w
    all_goals simp

theorem fed_decode4 : Fed (decode4 w) := by
  unfold decode4
  split
  case h_5 => exact fed_decode4Low w
  all_goals simp

theorem fed_decode5 : Fed (decode5 w) := by
  unfold decode5
  split <;> split <;> simp

theorem fed_decode6 : Fed (decode6 w) := by
  unfold decode6
  split <;> simp

theorem fed_decode7 : Fed (decode7 w) := by
  unfold decode7
  split <;> simp

theorem fed_decode8 : Fed (decode8 w) := by
  unfold decode8
  dsimp only
  split <;> simp

theorem fed_decode9 : Fed (decode9 w) := by
  unfold decode9
  dsimp only
  split <;> simp

theorem fed_decodeB : Fed (decodeB w) := by
  unfold decodeB
  dsimp only
  split
  case h_5 | h_6 | h_7 => split <;> simp
  all_goals simp

theorem fed_decodeC : Fed (decodeC w) := by
  unfold decodeC
  dsimp only
  split <;> simp

theorem fed_decodeD : Fed (decodeD w) := by
  unfold decodeD
  dsimp only
  split <;> simp

theorem fed_decodeE : Fed (decodeE w) := by
  unfold decodeE
  split
  · unfold decodeShiftMem
    split <;> simp
  · unfold decodeShiftReg
    dsimp only
    split <;> simp

theorem fed_decodeGroup : Fed (decodeGroup w) := by
  unfold decodeGroup
  split
  · exact fed_decode0 w
  · exact fed_decodeMove w .b
  · exact fed_decodeMoveWL w .l
  · exact fed_decodeMoveWL w .w
  · exact fed_decode4 w
  · exact fed_decode5 w
  · exact fed_decode6 w
  · exact fed_decode7 w
  · exact fed_decode8 w
  · exact fed_decode9 w
  · exact fed_pure _
  · exact fed_decodeB w
  · exact fed_decodeC w
  · exact fed_decodeD w
  · exact fed_decodeE w
  · exact fed_pure _

end Groups

/-- As many words as the longest instruction has decode, unless their operation word matches no instruction. -/
theorem sufficed_decodeWords {ws : List Word} (h : ws.length = Machine.maxWords) : Sufficed (decodeWords ws) := by
  obtain _ | ⟨w, ext⟩ := ws
  · cases h
  · exact fed_decodeGroup w ext (Nat.succ.inj h).ge

end Sys2Proof

namespace Sys2Proof.Machine

/-! ## What a part of an instruction keeps, however it ends

A property of states that the parts of an instruction keep, and that none of them ends in a refusal of the model, follow
the parts one by one; the two relations below it is used for say what an instruction's rule leaves alone. -/

/-- A part of an instruction keeps a property of the state, whether it ends well or early, and refuses nothing. -/
structure Exec.Preserves (P : State → Prop) {α : Type} (m : Exec α) : Prop where
  final : ∀ s, P s → P (m.final s)
  unrefused : ∀ s r t, P s → m s ≠ .error (.refuse r) t

namespace Exec.Preserves

variable {P : State → Prop} {α β : Type} {m : Exec α}

theorem of_ok (hm : m.Preserves P) {s t : State} {a : α} (hs : P s) (h : m s = .ok a t) : P t := by
  have key := hm.final s hs
  rwa [Exec.final, h] at key

theorem of_error (hm : m.Preserves P) {s t : State} {e : Abort} (hs : P s) (h : m s = .error e t) :
    P t ∧ ∃ f, e = .group0 f := by
  have key := hm.final s hs
  rw [Exec.final, h] at key
  refine ⟨key, ?_⟩
  cases e with
  | group0 f => exact ⟨f, rfl⟩
  | refuse r => exact absurd h (hm.unrefused s r t hs)

theorem of_eq {f : State → α} {g : State → State} (h : ∀ s, m s = .ok (f s) (g s)) (hg : ∀ s, P s → P (g s)) :
    m.Preserves P where
  final s hs := by rw [Exec.final, h]; exact hg s hs
  unrefused s r t _ hr := by rw [h] at hr; cases hr

/-- A sequence, where what comes second may depend on the state that the first part leaves. -/
theorem bind_of_ok {f : α → Exec β} (hm : m.Preserves P)
    (hf : ∀ s a t, P s → m s = .ok a t → P ((f a).final t) ∧ ∀ r u, f a t ≠ .error (.refuse r) u) :
    (m >>= f).Preserves P where
  final s hs := by
    cases h : m s with
    | ok a t => rw [Exec.final, Exec.bind_ok h]; exact (hf s a t hs h).1
    | error e t => rw [Exec.final, Exec.bind_error h]; exact (hm.of_error hs h).1
  unrefused s r t hs := by
    cases h : m s with
    | ok a u => rw [Exec.bind_ok h]; exact (hf s a u hs h).2 r t
    | error e u =>
      obtain ⟨-, g, rfl⟩ := hm.of_error hs h
      rw [Exec.bind_error h]
      nofun

theorem bind {f : α → Exec β} (hm : m.Preserves P) (hf : ∀ a, (f a).Preserves P) : (m >>= f).Preserves P :=
  hm.bind_of_ok fun _ a t hs h => ⟨(hf a).final t (hm.of_ok hs h), fun r u => (hf a).unrefused t r u (hm.of_ok hs h)⟩

theorem pure (a : α) : (Pure.pure a : Exec α).Preserves P := .of_eq (fun _ => rfl) fun _ hs => hs

/-- What is done with the state as it stands. -/
theorem get_bind {f : State → Exec β} (hf : ∀ s, P s → (f s).Preserves P) :
    (MonadState.get >>= f : Exec β).Preserves P where
  final s hs := (hf s hs).final s hs
  unrefused s r t hs := (hf s hs).unrefused s r t hs

theorem get : (MonadState.get : Exec State).Preserves P := .of_eq (fun _ => rfl) fun _ hs => hs

theorem modify {f : State → State} (h : ∀ s, P s → P (f s)) : (modify f : Exec PUnit).Preserves P :=
  .of_eq (fun _ => rfl) h

theorem ite {c : Prop} [Decidable c] {n : Exec α} (hm : c → m.Preserves P) (hn : ¬c → n.Preserves P) :
    (if c then m else n).Preserves P := by
  split
  next h => exact hm h
  next h => exact hn h

end Exec.Preserves

/-- Every register and every byte of memory may change. -/
def Changes.all : Changes where
  dregs := (List.range 8).map (BitVec.ofNat 3)
  aregs := (List.range 8).map (BitVec.ofNat 3)
  bytes := List.range (2 ^ addrBits)

theorem mem_all_registers (r : RegNo) : r ∈ (List.range 8).map (BitVec.ofNat 3) :=
  List.mem_map.mpr ⟨r.toNat, List.mem_range.mpr r.isLt, by simp⟩

theorem bytesAt_subset_all (x : Long) (n : Nat) : bytesAt x n ⊆ Changes.all.bytes := by
  intro y hy
  obtain ⟨k, -, rfl⟩ := List.mem_map.mp hy
  rw [Changes.all, List.mem_range]
  exact addrOf_lt _

/-- What every part of an instruction that takes no exception leaves alone: the inactive stack pointer, the system part of
the status register, the hidden state and the platform. -/
def State.Steady (s t : State) : Prop := s.Keeps t Changes.all

theorem State.Steady.refl (s : State) : s.Steady s := Keeps.refl s _

theorem State.Steady.trans {s t u : State} (h1 : s.Steady t) (h2 : t.Steady u) : s.Steady u := Keeps.trans h1 h2

theorem State.steady_setDreg (s : State) (r : RegNo) (v : Long) : s.Steady (s.setDreg r v) :=
  s.keeps_setDreg r v (mem_all_registers r)

theorem State.steady_putDreg {n : Nat} (s : State) (r : RegNo) (v : BitVec n) : s.Steady (s.putDreg r v) :=
  s.steady_setDreg r _

theorem State.steady_setAreg (s : State) (r : RegNo) (v : Long) : s.Steady (s.setAreg r v) :=
  s.keeps_setAreg r v (mem_all_registers r)

theorem State.steady_setSp (s : State) (v : Long) : s.Steady (s.setSp v) := s.keeps_setSp v (mem_all_registers _)

theorem State.steady_flags (s : State) (pc : Long) {sr : StatusReg} (prefetch : List Prefetched)
    (log : List Config.BusEvent) (draws : Nat) (h : sr.SameSystem s.sr) :
    s.Steady { s with pc := pc, sr := sr, prefetch := prefetch, deviceLog := log, draws := draws } :=
  s.keeps_flags _ pc sr prefetch log draws h.1 h.2.1 h.2.2

theorem State.Steady.withFlags {s t : State} (h : s.Steady t) {sr : StatusReg} (hsr : sr.SameSystem s.sr) :
    s.Steady { t with sr := sr } := Keeps.withFlags h sr hsr

theorem StatusReg.SameSystem.trans {a b c : StatusReg} (h1 : a.SameSystem b) (h2 : b.SameSystem c) : a.SameSystem c :=
  ⟨h1.1.trans h2.1, h1.2.1.trans h2.2.1, h1.2.2.trans h2.2.2⟩

theorem State.Steady.sameSystem {s t : State} (h : s.Steady t) : t.sr.SameSystem s.sr :=
  ⟨h.trace, h.supervisor, h.mask⟩

/-- A part of an instruction that takes no exception, and so leaves what such a part leaves alone. -/
def Exec.Quiet {α : Type} (m : Exec α) : Prop := ∀ s : State, m.Preserves s.Steady

namespace Exec.Quiet

variable {α β : Type} {m : Exec α}

theorem bind {f : α → Exec β} (hm : m.Quiet) (hf : ∀ a, (f a).Quiet) : (m >>= f).Quiet :=
  fun s => (hm s).bind fun a => hf a s

theorem pure (a : α) : (Pure.pure a : Exec α).Quiet := fun _ => .pure a

theorem get : (MonadState.get : Exec State).Quiet := fun _ => .get

theorem modify {f : State → State} (h : ∀ s : State, s.Steady (f s)) : (modify f : Exec PUnit).Quiet :=
  fun _ => .modify fun t ht => ht.trans (h t)

theorem get_set {f : State → State} (h : ∀ s : State, s.Steady (f s)) :
    (MonadState.get >>= fun s => set (f s) : Exec PUnit).Quiet := modify h

theorem ite {c : Prop} [Decidable c] {n : Exec α} (hm : c → m.Quiet) (hn : ¬c → n.Quiet) :
    (if c then m else n).Quiet :=
  fun s => .ite (fun h => hm h s) fun h => hn h s

end Exec.Quiet

theorem setFlags_quiet {f : StatusReg → StatusReg} (h : ∀ sr, (f sr).SameSystem sr) : (setFlags f).Quiet :=
  .modify fun s => (State.Steady.refl s).withFlags (h s.sr)

/-- Flags that were computed from the status register of a state before. -/
theorem setFlags_preserves {s : State} {sr : StatusReg} (h : sr.SameSystem s.sr) :
    (setFlags fun _ => sr).Preserves s.Steady := .modify fun _ ht => ht.withFlags h

theorem jump_quiet (a : Long) : (jump a).Quiet := .modify fun s => s.steady_flags a [] _ _ ⟨rfl, rfl, rfl⟩

theorem State.steady_drawn (s : State) : s.Steady { s with draws := s.draws + 1 } :=
  s.steady_flags _ _ _ _ ⟨rfl, rfl, rfl⟩

theorem drawBit_quiet : drawBit.Quiet := fun _ => .of_eq (fun _ => rfl) fun t ht => ht.trans t.steady_drawn

theorem drawByte_quiet : drawByte.Quiet := fun _ => .of_eq (fun _ => rfl) fun t ht => ht.trans t.steady_drawn

/-! ### Accesses, operands and the stack -/

theorem memRead_quiet (sp : Space) (sz : Size) (a : Long) : (memRead sp sz a).Quiet := by
  refine fun s => ⟨fun t ht => ht.trans ?_, fun t r u _ => ?_⟩ <;> cases h : t.accessOk sz a
  · rw [Exec.final, memRead_fault h]
    obtain ⟨l, n, e⟩ := t.halfRead_state sz a
    rw [e]
    exact t.steady_flags _ _ _ _ ⟨rfl, rfl, rfl⟩
  · rw [Exec.final, memRead_ok h]
    exact t.keeps_busRead sz a _
  · rw [memRead_fault h]; nofun
  · rw [memRead_ok h]; nofun

theorem memWrite_quiet (sz : Size) (a : Long) (v : BitVec sz.bits) : (memWrite sz a v).Quiet := by
  refine fun s => ⟨fun t ht => ht.trans ?_, fun t r u _ => ?_⟩ <;> cases h : t.accessOk sz a
  · rw [Exec.final, memWrite_fault h]
    exact State.keeps_halfWritten t sz a v fun _ => bytesAt_subset_all a _
  · rw [Exec.final, memWrite_ok h]
    exact t.keeps_busWrite sz a v (bytesAt_subset_all a _)
  · rw [memWrite_fault h]; nofun
  · rw [memWrite_ok h]; nofun

theorem fetchExt_quiet : fetchExt.Quiet :=
  .bind .get fun _ => .bind (memRead_quiet _ _ _) fun _ => .modify fun s => s.steady_flags _ _ _ _ ⟨rfl, rfl, rfl⟩

theorem fetchExts_quiet (n : Nat) : (fetchExts n).Quiet := by
  induction n with
  | zero => exact .pure ()
  | succ n ih => exact .bind fetchExt_quiet fun _ => ih

theorem push32_quiet (v : Long) : (push32 v).Quiet :=
  .bind (.modify fun s => s.steady_setSp _) fun _ => .bind .get fun _ => memWrite_quiet _ _ _

theorem pop16_quiet : pop16.Quiet :=
  .bind .get fun _ => .bind (memRead_quiet _ _ _) fun _ => .bind (.modify fun s => s.steady_setSp _) fun _ => .pure _

theorem pop32_quiet : pop32.Quiet :=
  .bind .get fun _ => .bind (memRead_quiet _ _ _) fun _ => .bind (.modify fun s => s.steady_setSp _) fun _ => .pure _

theorem eaUpdate_quiet (sz : Size) (ea : EA) : (modify (eaUpdate sz ea) : Exec PUnit).Quiet :=
  .modify fun s => s.keeps_eaUpdate sz ea (c := .all) fun r _ => mem_all_registers r

theorem resolveEA_quiet (sz : Size) (ea : EA) : (resolveEA sz ea).Quiet :=
  .bind .get fun _ => .bind (fetchExts_quiet _) fun _ => .bind (eaUpdate_quiet sz ea) fun _ => .pure _

theorem readLoc_quiet (sz : Size) (loc : Loc) : (readLoc sz loc).Quiet := by
  cases loc with
  | mem sp a => exact memRead_quiet _ _ _
  | imm v => exact .pure _
  | _ => exact .bind .get fun _ => .pure _

theorem readEA_quiet (sz : Size) (ea : EA) : (readEA sz ea).Quiet :=
  .bind (resolveEA_quiet sz ea) fun _ => readLoc_quiet sz _

theorem discardRead_quiet (sz : Size) (loc : Loc) : (discardRead sz loc).Quiet := by
  cases loc with
  | mem sp a => exact .bind (memRead_quiet _ _ _) fun _ => .pure _
  | _ => exact .pure _

theorem readPreDec_quiet (sz : Size) (r : RegNo) : (readPreDec sz r).Quiet :=
  .bind (.modify fun s => s.steady_setAreg r _) fun _ => .bind .get fun _ => memRead_quiet _ _ _

theorem readPostInc_quiet (sz : Size) (r : RegNo) : (readPostInc sz r).Quiet :=
  .bind .get fun _ => .bind (memRead_quiet _ _ _) fun _ => .bind (.modify fun s => s.steady_setAreg r _) fun _ => .pure _

/-- A location that can be written to: no immediate and none in the program space (30_encoding.md R103). -/
def Loc.Stores : Loc → Prop
  | .mem .program _ | .imm _ => False
  | _ => True

theorem writeLoc_quiet {sz : Size} {loc : Loc} (h : loc.Stores) (v : BitVec sz.bits) : (writeLoc sz loc v).Quiet := by
  cases loc with
  | dreg r => exact .modify fun s => s.steady_putDreg r v
  | areg r => exact .modify fun s => s.steady_setAreg r _
  | imm w => exact h.elim
  | mem sp a =>
    cases sp with
    | data => exact memWrite_quiet _ _ _
    | program => exact h.elim

/-- What is done with the location an effective address resolves to. -/
theorem resolveEA_bind_quiet {β : Type} {sz : Size} {ea : EA} {f : Loc → Exec β}
    (hf : ∀ s, (f (eaLoc sz ea s)).Quiet) : (resolveEA sz ea >>= f).Quiet := by
  simp only [resolveEA, bind_assoc, pure_bind]
  exact .bind .get fun s => .bind (fetchExts_quiet _) fun _ => .bind (eaUpdate_quiet sz ea) fun _ => hf s

/-- An effective address that can be written to. -/
theorem EA.stores_of_wf {c : Category} {sz : Size} {ea : EA} (h : ea.wf c sz = true) (himm : c.allows .imm = false)
    (hdisp : c.allows .pcDisp = false) (hindex : c.allows .pcIndex = false) (sz' : Size) (s : State) :
    (eaLoc sz' ea s).Stores := by
  cases ea with
  | imm v => exact absurd rfl (EA.mode_ne_of_wf h himm)
  | pcDisp d => exact absurd rfl (EA.mode_ne_of_wf h hdisp)
  | pcIndex x => exact absurd rfl (EA.mode_ne_of_wf h hindex)
  | _ => trivial

/-- A control-mode effective address is one of memory. -/
theorem addressEA_quiet {c : Category} {sz : Size} {ea : EA} (h : ea.wf c sz = true) (hdn : c.allows .dn = false)
    (han : c.allows .an = false) (himm : c.allows .imm = false) (sz' : Size) : (addressEA sz' ea).Quiet := by
  refine resolveEA_bind_quiet fun s => ?_
  cases ea with
  | dn r => exact absurd rfl (EA.mode_ne_of_wf h hdn)
  | an r => exact absurd rfl (EA.mode_ne_of_wf h han)
  | imm v => exact absurd rfl (EA.mode_ne_of_wf h himm)
  | _ => exact .pure _

end Sys2Proof.Machine

namespace Sys2Proof.Machine

/-! ## The frame of an exception (60_exceptions.md R530, R534, R535)

Exception processing stacks items, the last the lowest, and loads the vector: two items for groups 1 and 2, five for
group 0. -/

/-- A word or a long word to be stacked. -/
abbrev StackItem := (sz : Size) × BitVec sz.bits

/-- How many bytes some items take. -/
def itemsBytes : List StackItem → Nat
  | [] => 0
  | x :: xs => x.1.bytes + itemsBytes xs

/-- The items, stacked one below the other. -/
def pushItems : List StackItem → Exec Unit
  | [] => pure ()
  | x :: xs => do
    modify fun s => s.setSp (s.sp - sizeOffset x.1)
    memWrite x.1 (← get).sp x.2
    pushItems xs

/-- Exception processing once supervisor state is entered. -/
def stackFrame (items : List StackItem) (k : Byte) : Exec Unit := do
  pushItems items
  loadVector k

/-- Steps 1 and 2 of exception processing, with the mask of an interrupt (R530). -/
def State.entered (s : State) (level : Option (BitVec 3)) : State :=
  { s.enterSupervisor with sr := { s.enterSupervisor.sr with i := level.getD s.sr.i } }

@[simp] theorem State.entered_sr (s : State) (level : Option (BitVec 3)) :
    (s.entered level).sr = { s.sr with s := true, t := false, i := level.getD s.sr.i } := rfl
@[simp] theorem State.entered_ssp (s : State) (level : Option (BitVec 3)) : (s.entered level).ssp = s.ssp := rfl
@[simp] theorem State.entered_silent (s : State) (level : Option (BitVec 3)) : (s.entered level).silent = s.silent := rfl

@[simp] theorem State.accessOk_entered (s : State) (level : Option (BitVec 3)) (sz : Size) (a : Long) :
    (s.entered level).accessOk sz a = s.accessOk sz a := State.accessOk_congr rfl sz a

/-- The frame of groups 1 and 2. -/
def shortFrame (p : Long) (old : Word) : List StackItem := [⟨.l, p⟩, ⟨.w, old⟩]

/-- The frame of group 0. -/
def longFrame (f : AccessFault) (p : Long) (old ir info : Word) : List StackItem :=
  [⟨.l, p⟩, ⟨.w, old⟩, ⟨.w, ir⟩, ⟨.l, f.addr⟩, ⟨.w, info⟩]

theorem takeException_eq (k : Byte) (p : Long) (level : Option (BitVec 3)) (s : State) :
    takeException k p level s = processing (stackFrame (shortFrame p s.sr.toWord) k) (s.entered level) := by
  have hframe (old : Word) : stackFrame (shortFrame p old) k = (do push32 p; push16 old; loadVector k) := by
    simp only [stackFrame, shortFrame, pushItems, push32, push16, bind_assoc, pure_bind]
    rfl
  rw [hframe]
  cases level <;> rfl

theorem group0Frame_eq (f : AccessFault) (p : Long) (ir info : Word) (s : State) :
    group0Frame f p ir info s = stackFrame (longFrame f p s.sr.toWord ir info) f.kind.vector (s.entered none) := by
  have hframe (old : Word) : stackFrame (longFrame f p old ir info) f.kind.vector =
      (do push32 p; push16 old; push16 ir; push32 f.addr; push16 info; loadVector f.kind.vector) := by
    simp only [stackFrame, longFrame, pushItems, push32, push16, bind_assoc, pure_bind]
    rfl
  rw [hframe]
  rfl

/-! ### What stacking leaves alone -/

/-- What exception processing keeps from where supervisor state is entered: the status register, and what every part of
an instruction keeps; nothing is prefetched. -/
structure State.Stacking (s t : State) : Prop where
  steady : s.Steady t
  sr : t.sr = s.sr
  prefetch : t.prefetch = []

theorem State.Stacking.refl {s : State} (h : s.prefetch = []) : s.Stacking s := ⟨.refl s, rfl, h⟩

theorem State.Stacking.trans {s t u : State} (h : s.Stacking t) (hu : t.Steady u) (hsr : u.sr = t.sr)
    (hp : u.prefetch = t.prefetch) : s.Stacking u := ⟨h.steady.trans hu, hsr.trans h.sr, hp.trans h.prefetch⟩

/-- A part of exception processing that moves no status register and prefetches nothing. -/
theorem Exec.Quiet.stacking {α : Type} {m : Exec α} (hm : m.Quiet)
    (h : ∀ s, (m.final s).sr = s.sr ∧ (m.final s).prefetch = s.prefetch) (s : State) : m.Preserves s.Stacking where
  final t ht := ht.trans ((hm t).final t (.refl t)) (h t).1 (h t).2
  unrefused t r u _ := (hm t).unrefused t r u (.refl t)

theorem memRead_final (sp : Space) (sz : Size) (a : Long) (s : State) :
    ∃ l n, (memRead sp sz a).final s = { s with deviceLog := l, draws := n } := by
  cases h : s.accessOk sz a
  · rw [Exec.final, memRead_fault h]; exact s.halfRead_state sz a
  · rw [Exec.final, memRead_ok h]; exact s.busRead_state sz a

theorem memWrite_final (sz : Size) (a : Long) (v : BitVec sz.bits) (s : State) :
    ∃ m l n, (memWrite sz a v).final s = { s with mem := m, deviceLog := l, draws := n } := by
  cases h : s.accessOk sz a
  · rw [Exec.final, memWrite_fault h]; exact s.halfWritten_state sz a v
  · rw [Exec.final, memWrite_ok h]; exact s.busWrite_state sz a v

theorem memRead_stacking (sp : Space) (sz : Size) (a : Long) (s : State) : (memRead sp sz a).Preserves s.Stacking :=
  (memRead_quiet sp sz a).stacking (fun t => by obtain ⟨l, n, e⟩ := memRead_final sp sz a t; simp [e]) s

theorem memWrite_stacking (sz : Size) (a : Long) (v : BitVec sz.bits) (s : State) :
    (memWrite sz a v).Preserves s.Stacking :=
  (memWrite_quiet sz a v).stacking (fun t => by obtain ⟨m, l, n, e⟩ := memWrite_final sz a v t; simp [e]) s

theorem pushItems_stacking (items : List StackItem) (s : State) : (pushItems items).Preserves s.Stacking := by
  induction items with
  | nil => exact .pure ()
  | cons x xs ih =>
    exact .bind (.modify fun t ht => ht.trans (t.steady_setSp _) (by simp) (by simp)) fun _ =>
      .bind .get fun _ => .bind (memWrite_stacking _ _ _ s) fun _ => ih

theorem stackFrame_stacking (items : List StackItem) (k : Byte) (s : State) :
    (stackFrame items k).Preserves s.Stacking :=
  .bind (pushItems_stacking items s) fun _ => .bind (memRead_stacking _ _ _ s) fun a =>
    .modify fun t ht => ⟨ht.steady.trans (t.steady_flags a [] _ _ ⟨rfl, rfl, rfl⟩), ht.sr, rfl⟩

/-! ### Where the items come to lie -/

/-- A condition on the accesses that stack some items below `top`. -/
def State.itemAccesses (s : State) (ok : State → Size → Long → Bool) : List StackItem → Long → Bool
  | [], _ => true
  | x :: xs, top => ok s x.1 (top - sizeOffset x.1) && s.itemAccesses ok xs (top - sizeOffset x.1)

theorem State.itemAccesses_congr {s t : State} {ok : State → Size → Long → Bool} (h : ∀ sz a, ok s sz a = ok t sz a)
    (items : List StackItem) (top : Long) : s.itemAccesses ok items top = t.itemAccesses ok items top := by
  induction items generalizing top with
  | nil => rfl
  | cons x xs ih => simp only [State.itemAccesses, h, ih]

/-- The place below some items. -/
theorem sub_itemsBytes_cons (top : Long) (x : StackItem) (xs : List StackItem) :
    top - BitVec.ofNat 32 (itemsBytes (x :: xs)) = top - sizeOffset x.1 - BitVec.ofNat 32 (itemsBytes xs) := by
  rw [itemsBytes, BitVec.ofNat_add, sizeOffset]
  bv_omega

theorem pushItems_cons (x : StackItem) (xs : List StackItem) (s : State) :
    pushItems (x :: xs) s = (memWrite x.1 (s.sp - sizeOffset x.1) x.2 >>= fun _ => pushItems xs)
      (s.setSp (s.sp - sizeOffset x.1)) := by
  rw [pushItems, Exec.bind_ok (Exec.modify_apply _ _), Exec.bind_ok (Exec.get_apply _), State.sp_setSp]

/-- Items that were stacked: every access could be made, and `SSP` is below them. -/
theorem pushItems_eq_ok {items : List StackItem} {s t : State} (hs : s.sr.s = true) (h : pushItems items s = .ok () t) :
    s.itemAccesses State.accessOk items s.ssp = true ∧ t.ssp = s.ssp - BitVec.ofNat 32 (itemsBytes items) ∧
      t.silent = s.silent := by
  induction items generalizing s with
  | nil => cases h; simp [State.itemAccesses, itemsBytes]
  | cons x xs ih =>
    rw [pushItems_cons, State.sp_of_supervisor hs] at h
    obtain ⟨_, u, hu, hrest⟩ := Exec.of_bind_ok h
    have hssp : (s.setSp (s.ssp - sizeOffset x.1)).ssp = s.ssp - sizeOffset x.1 := by
      rw [State.setSp_of_supervisor hs]
    cases hacc : (s.setSp (s.ssp - sizeOffset x.1)).accessOk x.1 (s.ssp - sizeOffset x.1) with
    | false => rw [memWrite_fault hacc] at hu; cases hu
    | true =>
      rw [memWrite_ok hacc] at hu
      cases hu
      obtain ⟨hxs, hend, hsil⟩ := ih (by simpa using hs) hrest
      simp only [State.busWrite_ssp, State.busWrite_silent, State.setSp_silent, hssp] at hxs hend hsil
      refine ⟨?_, by rw [hend, sub_itemsBytes_cons], hsil⟩
      rw [State.itemAccesses, ← State.accessOk_congr (s := s.setSp _) (by simp), hacc, Bool.true_and, ← hxs]
      exact State.itemAccesses_congr (State.accessOk_congr (by simp)) _ _

/-- The state with an item stacked in memory cells. -/
def State.pushed (s : State) (x : StackItem) : State :=
  State.writeSized { s with ssp := s.ssp - sizeOffset x.1 } x.1 (s.ssp - sizeOffset x.1) x.2

section Pushed

variable (s : State) (x : StackItem)

@[simp] theorem State.pushed_ssp : (s.pushed x).ssp = s.ssp - sizeOffset x.1 := State.writeSized_ssp ..
@[simp] theorem State.pushed_sr : (s.pushed x).sr = s.sr := State.writeSized_sr ..
@[simp] theorem State.pushed_silent : (s.pushed x).silent = s.silent := State.writeSized_silent ..
@[simp] theorem State.pushed_devices : (s.pushed x).devices = s.devices := State.writeSized_devices ..

theorem State.pushed_state : s.pushed x = { s with ssp := s.ssp - sizeOffset x.1, mem := (s.pushed x).mem } := by
  conv_lhs => rw [State.pushed, State.writeSized_state]
  rfl

theorem State.readByte_pushed {y : Long} (h : addrOf y ∉ bytesAt (s.ssp - sizeOffset x.1) x.1.bytes) :
    (s.pushed x).readByte y = s.readByte y := State.readByte_writeSized_of_notMem _ _ _ h

theorem State.readSized_pushed : (s.pushed x).readSized x.1 (s.ssp - sizeOffset x.1) = x.2 :=
  State.readSized_writeSized_self ..

end Pushed

/-- The state with items stacked in memory cells. -/
def State.stacked (items : List StackItem) (s : State) : State := items.foldl State.pushed s

theorem State.stacked_cons (x : StackItem) (xs : List StackItem) (s : State) :
    State.stacked (x :: xs) s = State.stacked xs (s.pushed x) := rfl

theorem pushItems_cells {items : List StackItem} {s : State} (hs : s.sr.s = true)
    (h : s.itemAccesses State.cellsOk items s.ssp = true) : pushItems items s = .ok () (s.stacked items) := by
  induction items generalizing s with
  | nil => rfl
  | cons x xs ih =>
    simp only [State.itemAccesses, Bool.and_eq_true] at h
    have hcell : (s.setSp (s.ssp - sizeOffset x.1)).cellsOk x.1 (s.ssp - sizeOffset x.1) = true := by
      rw [State.cellsOk_congr (t := s) (by simp) (by simp)]
      exact h.1
    rw [pushItems_cons, State.sp_of_supervisor hs, Exec.bind_ok (memWrite_cells hcell), State.setSp_of_supervisor hs,
      State.stacked_cons, ← ih (s := s.pushed x) (by simpa using hs)]
    · rfl
    · rw [State.itemAccesses_congr (State.cellsOk_congr (t := s) (by simp) (by simp)), State.pushed_ssp]
      exact h.2

/-- Stacking changes `SSP` and memory. -/
theorem State.stacked_state (items : List StackItem) (s : State) :
    s.stacked items = { s with ssp := s.ssp - BitVec.ofNat 32 (itemsBytes items), mem := (s.stacked items).mem } := by
  induction items generalizing s with
  | nil => simp [State.stacked, itemsBytes]
  | cons x xs ih =>
    have key := ih (s.pushed x)
    rw [sub_itemsBytes_cons, State.stacked_cons]
    generalize (State.stacked xs (s.pushed x)).mem = m at key ⊢
    rw [key, State.pushed_state]

/-- Stacking changes no byte but those of the items. -/
theorem State.readByte_stacked {items : List StackItem} {s : State} {y : Long}
    (h : addrOf y ∉ bytesAt (s.ssp - BitVec.ofNat 32 (itemsBytes items)) (itemsBytes items)) :
    (s.stacked items).readByte y = s.readByte y := by
  induction items generalizing s with
  | nil => rfl
  | cons x xs ih =>
    rw [sub_itemsBytes_cons, itemsBytes, Nat.add_comm, bytesAt_add, BitVec.sub_add_cancel] at h
    simp only [List.mem_append, not_or] at h
    rw [State.stacked_cons, ih (by rw [State.pushed_ssp]; exact h.1), State.readByte_pushed s x h.2]

/-- Each item is read back at its place. -/
theorem State.readSized_stacked (above : List StackItem) (x : StackItem) (below : List StackItem) (s : State)
    (h : itemsBytes below + x.1.bytes ≤ 2 ^ 24) :
    (s.stacked (above ++ x :: below)).readSized x.1 (s.ssp - BitVec.ofNat 32 (itemsBytes above) - sizeOffset x.1) =
      x.2 := by
  induction above generalizing s with
  | nil =>
    rw [itemsBytes, List.nil_append, State.stacked_cons, BitVec.sub_zero]
    refine Eq.trans (State.readSized_eq_of_bytes fun k hk => State.readByte_stacked fun hmem => ?_)
      (s.readSized_pushed x)
    have hdis := bytesAt_disjoint (s.ssp - sizeOffset x.1 - BitVec.ofNat 32 (itemsBytes below)) h
    rw [BitVec.sub_add_cancel] at hdis
    rw [State.pushed_ssp] at hmem
    exact hdis hmem (List.mem_map.mpr ⟨k, List.mem_range.mpr hk, rfl⟩)
  | cons y above ih =>
    rw [sub_itemsBytes_cons, List.cons_append, State.stacked_cons, ← State.pushed_ssp s y]
    exact ih (s.pushed y)

/-! ### Taking an exception, however it ends -/

/-- The state in which the vector is loaded once the items are stacked in memory cells. -/
def State.framed (s : State) (items : List StackItem) (k : Byte) : State :=
  { s.stacked items with pc := (s.stacked items).readLong (vectorAddress k), prefetch := [] }

theorem stackFrame_cells {items : List StackItem} {k : Byte} {s : State} (hs : s.sr.s = true)
    (h : s.itemAccesses State.cellsOk items s.ssp = true) (hk : s.cellsOk .l (vectorAddress k) = true) :
    stackFrame items k s = .ok () (s.framed items k) := by
  have hk' : (s.stacked items).cellsOk .l (vectorAddress k) = true := by
    rw [State.cellsOk_congr (t := s) (by rw [State.stacked_state]) (by rw [State.stacked_state])]
    exact hk
  rw [stackFrame, Exec.bind_ok (pushItems_cells hs h), loadVector, Exec.bind_ok (memRead_cells hk')]
  rfl

theorem stackFrame_eq_ok {items : List StackItem} {k : Byte} {s t : State} (hs : s.sr.s = true)
    (h : stackFrame items k s = .ok () t) :
    (s.itemAccesses State.accessOk items s.ssp && s.accessOk .l (vectorAddress k)) = true ∧
      t.ssp = s.ssp - BitVec.ofNat 32 (itemsBytes items) := by
  obtain ⟨_, u, hu, hvec⟩ := Exec.of_bind_ok h
  obtain ⟨hacc, hssp, hsil⟩ := pushItems_eq_ok hs hu
  obtain ⟨a, v, hread, hjump⟩ := Exec.of_bind_ok hvec
  cases hk : u.accessOk .l (vectorAddress k) with
  | false => rw [memRead_fault hk] at hread; cases hread
  | true =>
    rw [memRead_ok hk] at hread
    cases hread
    cases hjump
    rw [hacc, ← State.accessOk_congr hsil, hk]
    exact ⟨rfl, (State.busRead_ssp ..).trans hssp⟩

theorem processing_eq_ok {m : Exec Unit} {s t : State} (h : processing m s = .ok () t) : m s = .ok () t := by
  unfold processing at h
  split at h
  next heq => rw [heq, h]
  next => cases h

theorem processing_eq_error {m : Exec Unit} {s t : State} {e : Abort} (h : processing m s = .error e t) :
    ∃ e', m s = .error e' t ∧ e = e'.inProcessing := by
  unfold processing at h
  split at h
  next => cases h
  next heq => cases h; exact ⟨_, heq, rfl⟩

section TakeException

variable {k : Byte} {p : Long} {level : Option (BitVec 3)} {s t : State}

/-- Exception processing that ended well: its accesses could be made, and the frame is on the supervisor stack. -/
theorem takeException_eq_ok (h : takeException k p level s = .ok () t) :
    (s.entered level).Stacking t ∧ t.ssp = s.ssp - 6#32 ∧ s.frameAccesses k State.accessOk = true := by
  rw [takeException_eq] at h
  have hframe := processing_eq_ok h
  obtain ⟨hacc, hssp⟩ := stackFrame_eq_ok rfl hframe
  refine ⟨(stackFrame_stacking _ k _).of_ok (.refl rfl) hframe, hssp, ?_⟩
  rw [← hacc]
  simp [shortFrame, State.itemAccesses, State.frameAccesses, sizeOffset, Size.bytes]

/-- Exception processing that met a fault: supervisor state was entered, and the fault is one of exception processing. -/
theorem takeException_eq_error {e : Abort} (h : takeException k p level s = .error e t) :
    (s.entered level).Stacking t ∧ ∃ f, e = .group0 f ∧ f.inException = true := by
  rw [takeException_eq] at h
  obtain ⟨e', hframe, rfl⟩ := processing_eq_error h
  obtain ⟨hst, f, rfl⟩ := (stackFrame_stacking _ k _).of_error (.refl rfl) hframe
  exact ⟨hst, _, rfl, rfl⟩

end TakeException

/-- The state in which a group 0 exception is processed: the free values are drawn, and no trace follows. -/
def State.faulted (s : State) : State := { s with draws := s.draws + 3, traceDue := false }

/-- What a group 0 exception leaves is what stacking its frame leaves, halted where that met a fault. -/
theorem State.takeGroup0_state (s : State) (f : AccessFault) (concerned : Option Long) (ir : Option Word) :
    ∃ t, (s.faulted.entered none).Stacking t ∧
      (s.takeGroup0 f concerned ir = t ∨ s.takeGroup0 f concerned ir = { t with halted := true }) := by
  unfold State.takeGroup0
  dsimp only
  rw [group0Frame_eq]
  split
  next h => exact ⟨_, (stackFrame_stacking _ _ _).of_ok (.refl rfl) h, .inl rfl⟩
  next h => exact ⟨_, ((stackFrame_stacking _ _ _).of_error (.refl rfl) h).1, .inr rfl⟩

section TakeGroup0

variable (s : State) (f : AccessFault) (concerned : Option Long) (ir : Option Word)

@[simp] theorem State.takeGroup0_sr : (s.takeGroup0 f concerned ir).sr = { s.sr with s := true, t := false } := by
  obtain ⟨t, ht, h | h⟩ := s.takeGroup0_state f concerned ir <;> rw [h]
  · exact ht.sr
  · exact ht.sr

@[simp] theorem State.takeGroup0_prefetch : (s.takeGroup0 f concerned ir).prefetch = [] := by
  obtain ⟨t, ht, h | h⟩ := s.takeGroup0_state f concerned ir <;> rw [h]
  · exact ht.prefetch
  · exact ht.prefetch

@[simp] theorem State.takeGroup0_traceDue : (s.takeGroup0 f concerned ir).traceDue = false := by
  obtain ⟨t, ht, h | h⟩ := s.takeGroup0_state f concerned ir <;> rw [h]
  · exact ht.steady.traceDue
  · exact ht.steady.traceDue

end TakeGroup0

end Sys2Proof.Machine

namespace Sys2Proof.Machine

/-! ## What the rule of an instruction comes to

The rule of every instruction is of one of four kinds: it runs to its end, to a group 0 fault or to a trap; it is
privileged; an exception takes its place; or it is LINK or UNLK with `A7`, which the model refuses. -/

/-! ### The forms that several families share -/

/-- An operation on one operand that writes no more of the status register than the condition codes. -/
def FlagsOnlyUnary {n : Nat} (f : BitVec n → StatusReg → BitVec n × StatusReg) : Prop :=
  ∀ d sr, (f d sr).2.SameSystem sr

theorem Exec.Quiet.get_bind {α : Type} {f : State → Exec α} (hf : ∀ s t : State, s.Steady t → (f t).Preserves s.Steady) :
    (MonadState.get >>= f : Exec α).Quiet := fun s => .get_bind (hf s)

theorem State.steady_putDreg_flags {n : Nat} (s : State) (r : RegNo) (v : BitVec n) {sr : StatusReg}
    (h : sr.SameSystem s.sr) : s.Steady { s.putDreg r v with sr := sr } := (s.steady_putDreg r v).withFlags h

section Operands

variable {sz : Size} {ea : EA}

theorem modifyLoc_quiet {loc : Loc} {f : BitVec sz.bits → StatusReg → BitVec sz.bits × StatusReg} (hloc : loc.Stores)
    (hf : FlagsOnlyUnary f) : (modifyLoc sz loc f).Quiet :=
  .bind (readLoc_quiet sz loc) fun d => .get_bind fun s t ht => .bind (writeLoc_quiet hloc _ s) fun _ =>
    setFlags_preserves ((hf d t.sr).trans ht.sameSystem)

theorem modifyEA_quiet {f : BitVec sz.bits → StatusReg → BitVec sz.bits × StatusReg} (hea : ∀ s, (eaLoc sz ea s).Stores)
    (hf : FlagsOnlyUnary f) : (modifyEA sz ea f).Quiet :=
  resolveEA_bind_quiet fun s => modifyLoc_quiet (hea s) hf

theorem fetchImm_quiet (v : Long) : (fetchImm sz v).Quiet := .bind (fetchExts_quiet _) fun _ => .pure _

variable {f : BitVec sz.bits → BitVec sz.bits → StatusReg → BitVec sz.bits × StatusReg}

theorem eaToDreg_quiet (hf : FlagsOnly f) (rx : RegNo) : (eaToDreg sz ea rx f).Quiet :=
  .bind (readEA_quiet sz ea) fun v => .get_set fun s => s.steady_putDreg_flags rx _ (hf v _ s.sr)

theorem dregToEA_quiet (hea : ∀ s, (eaLoc sz ea s).Stores) (hf : FlagsOnly f) (rx : RegNo) :
    (dregToEA sz rx ea f).Quiet :=
  resolveEA_bind_quiet fun u => .bind (readLoc_quiet sz _) fun d => .get_bind fun s t ht =>
    .bind (writeLoc_quiet (hea u) _ s) fun _ => setFlags_preserves ((hf _ d t.sr).trans ht.sameSystem)

theorem immToEA_quiet (hea : ∀ s, (eaLoc sz ea s).Stores) (hf : FlagsOnly f) (v : Long) : (immToEA sz v ea f).Quiet :=
  .bind (fetchImm_quiet v) fun w => modifyEA_quiet hea (hf w)

theorem dregPair_quiet (hf : FlagsOnly f) (ry rx : RegNo) : (dregPair sz ry rx f).Quiet :=
  .get_set fun s => s.steady_putDreg_flags rx _ (hf _ _ s.sr)

theorem memPair_quiet (hf : FlagsOnly f) (ry rx : RegNo) : (memPair sz ry rx f).Quiet :=
  .bind (readPreDec_quiet sz ry) fun v => .bind (readPreDec_quiet sz rx) fun d => .get_bind fun s t ht =>
    .bind .get fun _ => .bind (memWrite_quiet sz _ _ s) fun _ => setFlags_preserves ((hf v d t.sr).trans ht.sameSystem)

end Operands

/-! ### Arithmetic, logic, shifts, bits and decimal arithmetic -/

theorem multiply_quiet (ea : EA) (rx : RegNo) (f : Word → Word → Long) : (multiply ea rx f).Quiet :=
  .bind (readEA_quiet .w ea) fun _ => .bind .get fun _ => .bind (.modify fun s => s.steady_setDreg rx _) fun _ =>
    setFlags_quiet fun sr => sr.sameSystem_logic _

theorem storeQuotient_quiet (rx : RegNo) (q m : Int) (fits negative : Bool) :
    (storeQuotient rx q m fits negative).Quiet :=
  .ite (fun _ => .bind (.modify fun s => s.steady_setDreg rx _) fun _ => setFlags_quiet fun _ => ⟨rfl, rfl, rfl⟩)
    fun _ => .bind drawBit_quiet fun _ => .bind drawBit_quiet fun _ => setFlags_quiet fun _ => ⟨rfl, rfl, rfl⟩

theorem immToCcr_quiet (v : Byte) (f : Byte → Byte → Byte) : (immToCcr v f).Quiet :=
  .bind fetchExt_quiet fun _ => setFlags_quiet fun sr => sr.sameSystem_withCcr _

theorem shiftReg_quiet (op : ShiftOp) (sz : Size) (count : Nat) (ry : RegNo) : (shiftReg op sz count ry).Quiet :=
  .get_set fun s => s.steady_putDreg_flags ry _ (sameSystem_shiftOp op count _ s.sr)

theorem shiftByReg_quiet (op : ShiftOp) (sz : Size) (rx ry : RegNo) : (shiftByReg op sz rx ry).Quiet :=
  .bind .get fun _ => shiftReg_quiet op sz _ ry

theorem shiftMem_quiet (op : ShiftOp) {ea : EA} (hea : ∀ s, (eaLoc .w ea s).Stores) : (shiftMem op ea).Quiet :=
  modifyEA_quiet hea fun d sr => sameSystem_shiftOp op 1 d sr

theorem bcdConclude_quiet (valid : Bool) (t : Int) : (bcdConclude valid t).Quiet :=
  .bind drawBit_quiet fun _ => .bind drawBit_quiet fun _ =>
    .ite (fun _ => .bind (setFlags_quiet fun _ => ⟨rfl, rfl, rfl⟩) fun _ => .bind .get fun _ => .pure _)
      fun _ => .bind drawByte_quiet fun _ => .bind drawBit_quiet fun _ => .bind drawBit_quiet fun _ =>
        .bind drawBit_quiet fun _ => .bind (setFlags_quiet fun _ => ⟨rfl, rfl, rfl⟩) fun _ => .pure _

theorem abcdOp_quiet (v d : Byte) : (abcdOp v d).Quiet := .bind .get fun _ => bcdConclude_quiet _ _

theorem sbcdOp_quiet (v d : Byte) : (sbcdOp v d).Quiet := .bind .get fun _ => bcdConclude_quiet _ _

theorem putZ_quiet (z : Bool) : (putZ z).Quiet := setFlags_quiet fun sr => sr.sameSystem_withZ z

section Decimal

variable {f : Byte → Byte → Exec (Byte × Bool)} (hf : ∀ v d, (f v d).Quiet) (ry rx : RegNo)
include hf

theorem bcdRegs_quiet : (bcdRegs ry rx f).Quiet :=
  .bind .get fun _ => .bind (hf _ _) fun _ => .bind (.modify fun s => s.steady_putDreg rx _) fun _ => putZ_quiet _

theorem bcdMem_quiet : (bcdMem ry rx f).Quiet :=
  .bind (readPreDec_quiet .b ry) fun _ => .bind (readPreDec_quiet .b rx) fun _ => .bind (hf _ _) fun _ =>
    .bind (putZ_quiet _) fun _ => .bind .get fun _ => memWrite_quiet .b _ _

end Decimal

theorem bitOp_tst_quiet (b : Nat) (ea : EA) : (bitOp .tst b ea).Quiet :=
  .bind (resolveEA_quiet _ ea) fun loc => .bind (readLoc_quiet _ loc) fun _ =>
    .bind (setFlags_quiet fun sr => sr.sameSystem_withZ _) fun _ => .pure _

theorem bitOp_quiet {ea : EA} (hea : ∀ s, (eaLoc ea.bitSize ea s).Stores) (op : BitOp) (b : Nat) : (bitOp op b ea).Quiet :=
  resolveEA_bind_quiet fun s => .bind (readLoc_quiet _ _) fun _ =>
    .bind (setFlags_quiet fun sr => sr.sameSystem_withZ _) fun _ => by
      cases op with
      | tst => exact .pure _
      | chg | clr | set => exact writeLoc_quiet (hea s) _

theorem bitOpReg_quiet {op : BitOp} {ea : EA} (h : ∀ b, (bitOp op b ea).Quiet) (rx : RegNo) : (bitOpReg op rx ea).Quiet :=
  .bind .get fun _ => h _

theorem bitOpImm_quiet {op : BitOp} {ea : EA} (h : ∀ b, (bitOp op b ea).Quiet) (n : Byte) : (bitOpImm op n ea).Quiet :=
  .bind fetchExt_quiet fun _ => h _

/-! ### Control and moves of many registers -/

theorem branchTarget_quiet (d : Disp) : (branchTarget d).Quiet :=
  .bind .get fun _ => by
    cases d with
    | byte d => exact .pure _
    | word d => exact .bind fetchExt_quiet fun _ => .pure _

theorem callTo_quiet (a : Long) : (callTo a).Quiet := .bind .get fun _ => .bind (push32_quiet _) fun _ => jump_quiet a

theorem chkFlags_quiet (d b : Int) : (chkFlags d b).Quiet :=
  .bind drawBit_quiet fun _ => .bind drawBit_quiet fun _ => .bind drawBit_quiet fun _ =>
    .bind drawBit_quiet fun _ => setFlags_quiet fun _ => ⟨rfl, rfl, rfl⟩

theorem State.steady_setReg (s : State) (i : Nat) (v : Long) : s.Steady (s.setReg i v) := by
  unfold State.setReg
  split
  · exact s.steady_setDreg _ v
  · exact s.steady_setAreg _ v

theorem storeUp_quiet (sz : Size) (is : List Nat) (a : Long) : (storeUp sz is a).Quiet := by
  induction is generalizing a with
  | nil => exact .pure _
  | cons i is ih => exact .bind .get fun _ => .bind (memWrite_quiet sz a _) fun _ => ih _

theorem storeDown_quiet (sz : Size) (is : List Nat) (a : Long) : (storeDown sz is a).Quiet := by
  induction is generalizing a with
  | nil => exact .pure _
  | cons i is ih => exact .bind .get fun _ => .bind (memWrite_quiet sz _ _) fun _ => ih _

theorem loadUp_quiet (sp : Space) (sz : Size) (is : List Nat) (a : Long) : (loadUp sp sz is a).Quiet := by
  induction is generalizing a with
  | nil => exact .pure _
  | cons i is ih => exact .bind (memRead_quiet sp sz a) fun _ => .bind (.modify fun s => s.steady_setReg i _) fun _ => ih _

theorem loadMany_quiet (sp : Space) (sz : Size) (mask : Word) (a : Long) : (loadMany sp sz mask a).Quiet :=
  .bind (loadUp_quiet sp sz _ a) fun _ =>
    .ite (fun _ => .bind (memRead_quiet sp .w _) fun _ => .pure _) fun _ => .pure _

theorem movepLoad_quiet (rx : RegNo) (ks : List Nat) (a : Long) : (movepLoad rx ks a).Quiet := by
  induction ks generalizing a with
  | nil => exact .pure _
  | cons k ks ih =>
    exact .bind (memRead_quiet _ _ _) fun _ => .bind (.modify fun s => s.steady_setDreg rx _) fun _ => ih _

theorem movepStore_quiet (rx : RegNo) (ks : List Nat) (a : Long) : (movepStore rx ks a).Quiet := by
  induction ks generalizing a with
  | nil => exact .pure _
  | cons k ks ih => exact .bind .get fun _ => .bind (memWrite_quiet .b a _) fun _ => ih _

/-! ### Rules that may trap -/

/-- How an ordinary instruction's rule ends: well, in a group 0 fault, or in the exception processing of a trap; up to
there it has left alone what every part of an instruction leaves alone. -/
inductive State.Ends (s : State) : EStateM.Result Abort State Unit → Prop
  | completes {t : State} (h : s.Steady t) : s.Ends (.ok () t)
  | faults {f : AccessFault} {t : State} (h : s.Steady t) : s.Ends (.error (.group0 f) t)
  | traps {k : Byte} {p : Long} {v : State} (h : s.Steady v) : s.Ends (takeException k p none v)

/-- The rule of an instruction that is not privileged and has no exception take its place. -/
def Exec.Ordinary (m : Exec Unit) : Prop := ∀ s : State, s.Ends (m s)

theorem State.Ends.of_steady {s t : State} {r : EStateM.Result Abort State Unit} (h : s.Steady t) (hr : t.Ends r) :
    s.Ends r := by
  cases hr with
  | completes h' => exact .completes (h.trans h')
  | faults h' => exact .faults (h.trans h')
  | traps h' => exact .traps (h.trans h')

theorem Exec.Quiet.ordinary {m : Exec Unit} (hm : m.Quiet) : m.Ordinary := by
  intro s
  cases h : m s with
  | ok u t => exact .completes ((hm s).of_ok (.refl s) h)
  | error e t =>
    obtain ⟨ht, f, rfl⟩ := (hm s).of_error (.refl s) h
    exact .faults ht

theorem Exec.Ordinary.bind {α : Type} {m : Exec α} {f : α → Exec Unit} (hm : m.Quiet) (hf : ∀ a, (f a).Ordinary) :
    (m >>= f).Ordinary := by
  intro s
  cases h : m s with
  | ok a t =>
    rw [Exec.bind_ok h]
    exact .of_steady ((hm s).of_ok (.refl s) h) (hf a t)
  | error e t =>
    obtain ⟨ht, f, rfl⟩ := (hm s).of_error (.refl s) h
    rw [Exec.bind_error h]
    exact .faults ht

theorem Exec.Ordinary.ite {c : Prop} [Decidable c] {m n : Exec Unit} (hm : m.Ordinary) (hn : n.Ordinary) :
    (if c then m else n).Ordinary := by split <;> assumption

theorem trapNext_ordinary (k : Byte) : (trapNext k).Ordinary := fun s => .traps (.refl s)

theorem zeroDivide_ordinary : zeroDivide.Ordinary :=
  .bind drawBit_quiet fun _ => .bind drawBit_quiet fun _ => .bind drawBit_quiet fun _ =>
    .bind (setFlags_quiet fun _ => ⟨rfl, rfl, rfl⟩) fun _ => trapNext_ordinary 5

theorem divideBy_ordinary {quotient : Word → Long → Exec Unit} (h : ∀ v d, (quotient v d).Quiet) (rx : RegNo) (v : Word) :
    (divideBy quotient rx v).Ordinary :=
  .ite zeroDivide_ordinary (.bind .get fun _ => (h _ _).ordinary)

/-- The part of a step runs a rule that is ordinary. -/
def RunsOrdinary (run : State → Host.Outcome State Fault Refusal) : Prop :=
  ∃ body, (∀ s, run s = runBody body s) ∧ body.Ordinary

theorem Exec.Ordinary.runs {body : Exec Unit} (h : body.Ordinary) : RunsOrdinary (runBody body) := ⟨body, fun _ => rfl, h⟩

theorem Exec.Quiet.runs {body : Exec Unit} (h : body.Quiet) : RunsOrdinary (runBody body) := h.ordinary.runs

/-- MOVEM loads from `(An)+` or from a control-mode address (40_data_movement.md R211). -/
theorem execMovemToReg_ordinary {sz : SizeWL} {mask : Word} {ea : EA} (hwf : ea.wf .movemLoad sz.size = true) :
    RunsOrdinary (execMovemToReg sz mask ea) := by
  refine Exec.Quiet.runs (.bind fetchExt_quiet fun _ => ?_)
  cases ea with
  | postInc r => exact .bind .get fun _ => .bind (loadMany_quiet _ _ _ _) fun _ => .modify fun s => s.steady_setAreg r _
  | dn r => exact absurd rfl (EA.mode_ne_of_wf hwf (mode := .dn) rfl)
  | an r => exact absurd rfl (EA.mode_ne_of_wf hwf (mode := .an) rfl)
  | imm v => exact absurd rfl (EA.mode_ne_of_wf hwf (mode := .imm) rfl)
  | _ => exact resolveEA_bind_quiet fun s => .bind (loadMany_quiet _ _ _ _) fun _ => .pure _

/-- MOVEM stores to `-(An)` or to a control-mode address (R210). -/
theorem execMovemToMem_ordinary {sz : SizeWL} {mask : Word} {ea : EA} (hwf : ea.wf .movemStore sz.size = true) :
    RunsOrdinary (execMovemToMem sz mask ea) := by
  refine Exec.Quiet.runs (.bind fetchExt_quiet fun _ => ?_)
  cases ea with
  | preDec r => exact .bind .get fun _ => .bind (storeDown_quiet _ _ _) fun _ => .modify fun s => s.steady_setAreg r _
  | _ => exact .bind (addressEA_quiet hwf rfl rfl rfl _) fun _ => storeUp_quiet _ _ _

theorem execAddq_ordinary {sz : Size} {q : BitVec 3} {ea : EA} (hwf : ea.wf .alterable sz = true) :
    RunsOrdinary (execAddq sz q ea) := by
  have hquiet : (modifyEA sz ea (addOp (quick sz.bits q))).Quiet :=
    modifyEA_quiet (EA.stores_of_wf hwf rfl rfl rfl sz) (flagsOnly_addOp _ _)
  cases ea with
  | an r => exact (Exec.Quiet.modify fun s => s.steady_setAreg r _).runs
  | _ => exact hquiet.runs

theorem execSubq_ordinary {sz : Size} {q : BitVec 3} {ea : EA} (hwf : ea.wf .alterable sz = true) :
    RunsOrdinary (execSubq sz q ea) := by
  have hquiet : (modifyEA sz ea (subOp (quick sz.bits q))).Quiet :=
    modifyEA_quiet (EA.stores_of_wf hwf rfl rfl rfl sz) (flagsOnly_subOp _ _)
  cases ea with
  | an r => exact (Exec.Quiet.modify fun s => s.steady_setAreg r _).runs
  | _ => exact hquiet.runs

theorem execExt_ordinary (sz : SizeWL) (r : RegNo) : RunsOrdinary (execExt sz r) := by
  cases sz with
  | w =>
    exact Exec.Quiet.runs (.bind .get fun _ => .bind (.modify fun s => s.steady_putDreg r _) fun _ =>
      setFlags_quiet fun sr => sr.sameSystem_logic _)
  | l =>
    exact Exec.Quiet.runs (.bind .get fun _ => .bind (.modify fun s => s.steady_setDreg r _) fun _ =>
      setFlags_quiet fun sr => sr.sameSystem_logic _)

theorem execMove_ordinary {sz : Size} {src dst : EA} (hwf : dst.wf .dataAlterable sz = true) :
    RunsOrdinary (execMove sz src dst) :=
  Exec.Quiet.runs (.bind (readEA_quiet sz src) fun v => resolveEA_bind_quiet fun s =>
    .bind (writeLoc_quiet (EA.stores_of_wf hwf rfl rfl rfl sz s) v) fun _ => setFlags_quiet fun sr => sr.sameSystem_logic v)

theorem execClr_ordinary {sz : Size} {ea : EA} (hwf : ea.wf .dataAlterable sz = true) : RunsOrdinary (execClr sz ea) :=
  Exec.Quiet.runs (resolveEA_bind_quiet fun s => .bind (discardRead_quiet sz _) fun _ =>
    .bind (writeLoc_quiet (EA.stores_of_wf hwf rfl rfl rfl sz s) 0) fun _ => setFlags_quiet fun _ => ⟨rfl, rfl, rfl⟩)

theorem execTas_ordinary {ea : EA} (hwf : ea.wf .dataAlterable .b = true) : RunsOrdinary (execTas ea) :=
  Exec.Quiet.runs (resolveEA_bind_quiet fun s => .bind (readLoc_quiet .b _) fun v =>
    .bind (setFlags_quiet fun sr => sr.sameSystem_logic v) fun _ => writeLoc_quiet (EA.stores_of_wf hwf rfl rfl rfl .b s) _)

theorem execNbcd_ordinary {ea : EA} (hwf : ea.wf .dataAlterable .b = true) : RunsOrdinary (execNbcd ea) :=
  Exec.Quiet.runs (resolveEA_bind_quiet fun s => .bind (readLoc_quiet .b _) fun v => .bind (sbcdOp_quiet v 0) fun _ =>
    .bind (writeLoc_quiet (EA.stores_of_wf hwf rfl rfl rfl .b s) _) fun _ => putZ_quiet _)

theorem execScc_ordinary {c : Cond} {ea : EA} (hwf : ea.wf .dataAlterable .b = true) : RunsOrdinary (execScc c ea) :=
  Exec.Quiet.runs (resolveEA_bind_quiet fun s => .bind (discardRead_quiet .b _) fun _ => .bind .get fun _ =>
    writeLoc_quiet (EA.stores_of_wf hwf rfl rfl rfl .b s) _)

theorem execMoveFromSr_ordinary {ea : EA} (hwf : ea.wf .dataAlterable .w = true) : RunsOrdinary (execMoveFromSr ea) :=
  Exec.Quiet.runs (resolveEA_bind_quiet fun s => .bind (discardRead_quiet .w _) fun _ => .bind .get fun _ =>
    writeLoc_quiet (EA.stores_of_wf hwf rfl rfl rfl .w s) _)

theorem execDbcc_ordinary (c : Cond) (r : RegNo) (d : Word) : RunsOrdinary (execDbcc c r d) :=
  Exec.Quiet.runs (.bind .get fun _ => .bind fetchExt_quiet fun _ => .bind .get fun _ =>
    .ite (fun _ => .bind (.modify fun s => s.steady_putDreg r _) fun _ => .ite (fun _ => jump_quiet _) fun _ => .pure _)
      fun _ => .pure _)

theorem execRtr_ordinary : RunsOrdinary execRtr :=
  Exec.Quiet.runs (.bind pop16_quiet fun _ => .bind (setFlags_quiet fun sr => sr.sameSystem_withCcr _) fun _ =>
    .bind pop32_quiet fun _ => jump_quiet _)

theorem execChk_ordinary (ea : EA) (rx : RegNo) : RunsOrdinary (execChk ea rx) :=
  Exec.Ordinary.runs (.bind (readEA_quiet .w ea) fun _ => .bind .get fun _ => .bind (chkFlags_quiet _ _) fun _ =>
    .ite (trapNext_ordinary 6) (Exec.Quiet.pure ()).ordinary)

theorem execCmpi_ordinary (sz : Size) (v : Long) (ea : EA) : RunsOrdinary (execCmpi sz v ea) :=
  Exec.Quiet.runs (.bind (fetchImm_quiet v) fun _ => .bind (readEA_quiet sz ea) fun _ =>
    setFlags_quiet fun sr => sr.sameSystem_ofCmp _ _ _)

theorem execCmpm_ordinary (sz : Size) (ry rx : RegNo) : RunsOrdinary (execCmpm sz ry rx) :=
  Exec.Quiet.runs (.bind (readPostInc_quiet sz ry) fun _ => .bind (readPostInc_quiet sz rx) fun _ =>
    setFlags_quiet fun sr => sr.sameSystem_ofCmp _ _ _)

theorem execLink_ordinary {r : RegNo} (hr : r ≠ 7#3) (d : Word) : RunsOrdinary (execLink r d) := by
  refine Exec.Quiet.runs ?_
  simp only [hr, if_false]
  exact .bind fetchExt_quiet fun _ => .bind .get fun _ => .bind (push32_quiet _) fun _ =>
    .bind (.modify fun s => s.steady_setAreg r _) fun _ => .modify fun s => s.steady_setSp _

theorem execUnlk_ordinary {r : RegNo} (hr : r ≠ 7#3) : RunsOrdinary (execUnlk r) := by
  refine Exec.Quiet.runs ?_
  simp only [hr, if_false]
  exact .bind (.modify fun s => s.steady_setSp _) fun _ => .bind pop32_quiet fun _ => .modify fun s => s.steady_setAreg r _

theorem execSwap_ordinary (r : RegNo) : RunsOrdinary (execSwap r) :=
  Exec.Quiet.runs (.bind .get fun s => .bind (.modify fun t => t.steady_setDreg r (swapWords (s.dreg r))) fun _ =>
    setFlags_quiet fun sr => sr.sameSystem_logic (swapWords (s.dreg r)))

theorem execExgDD_ordinary (rx ry : RegNo) : RunsOrdinary (execExgDD rx ry) :=
  Exec.Quiet.runs (.modify fun s =>
    (s.steady_setDreg rx (s.dreg ry)).trans (State.steady_setDreg _ ry (s.dreg rx)))

theorem execExgAA_ordinary (rx ry : RegNo) : RunsOrdinary (execExgAA rx ry) :=
  Exec.Quiet.runs (.modify fun s =>
    (s.steady_setAreg rx (s.areg ry)).trans (State.steady_setAreg _ ry (s.areg rx)))

theorem execExgDA_ordinary (rx ry : RegNo) : RunsOrdinary (execExgDA rx ry) :=
  Exec.Quiet.runs (.modify fun s =>
    (s.steady_setDreg rx (s.areg ry)).trans (State.steady_setAreg _ ry (s.dreg rx)))

theorem execDivu_ordinary (ea : EA) (rx : RegNo) : RunsOrdinary (exec (.divu ea rx)) :=
  ⟨_, exec_divu ea rx, .bind (readEA_quiet .w ea) fun v =>
    divideBy_ordinary (quotient := divuQuotient rx) (fun _ _ => storeQuotient_quiet rx _ _ _ _) rx v⟩

theorem execDivs_ordinary (ea : EA) (rx : RegNo) : RunsOrdinary (exec (.divs ea rx)) :=
  ⟨_, exec_divs ea rx, .bind (readEA_quiet .w ea) fun v =>
    divideBy_ordinary (quotient := divsQuotient rx) (fun _ _ => storeQuotient_quiet rx _ _ _ _) rx v⟩

/-- LINK or UNLK with `A7`, to which the spec gives no effect (R219, R220, log entry 16). -/
def LinksStackPointer (i : Instr) : Prop := (∃ d, i = .link 7#3 d) ∨ i = .unlk 7#3

/-- The operand of an instruction with an immediate, whose width is checked before it. -/
theorem stores_of_imm_wf {fits : Bool} {sz : Size} {ea : EA} (h : (fits && ea.wf .dataAlterable sz) = true) (s : State) :
    (eaLoc sz ea s).Stores := EA.stores_of_wf (Bool.and_eq_true_iff.mp h).2 rfl rfl rfl sz s

/-- The rule of every other instruction is ordinary. -/
theorem exec_ordinary {i : Instr} (hwf : i.wf = true) (hp : ¬Privileged i) (hu : ¬Unimplemented i)
    (hl : ¬LinksStackPointer i) : RunsOrdinary (exec i) := by
  cases i with
  | oriToSr | andiToSr | eoriToSr | reset | stop | rte | moveToUsp | moveFromUsp | moveToSr =>
    exact absurd (by simp [Privileged]) hp
  | illegal | moveFromCcr | lineA | lineF => exact absurd (by simp [Unimplemented]) hu
  | oriToCcr v | andiToCcr v | eoriToCcr v => exact (immToCcr_quiet v _).runs
  | movepToReg sz ry d rx =>
    exact Exec.Quiet.runs (.bind fetchExt_quiet fun _ => .bind .get fun _ => movepLoad_quiet rx _ _)
  | movepToMem sz rx ry d =>
    exact Exec.Quiet.runs (.bind fetchExt_quiet fun _ => .bind .get fun _ => movepStore_quiet rx _ _)
  | btstReg rx ea => exact (bitOpReg_quiet (fun b => bitOp_tst_quiet b ea) rx).runs
  | btstImm n ea => exact (bitOpImm_quiet (fun b => bitOp_tst_quiet b ea) n).runs
  | bchgReg rx ea | bclrReg rx ea | bsetReg rx ea =>
    exact (bitOpReg_quiet (bitOp_quiet (EA.stores_of_wf hwf rfl rfl rfl _) _) rx).runs
  | bchgImm n ea | bclrImm n ea | bsetImm n ea =>
    exact (bitOpImm_quiet (bitOp_quiet (EA.stores_of_wf hwf rfl rfl rfl _) _) n).runs
  | ori sz v ea => exact (immToEA_quiet (stores_of_imm_wf hwf) (flagsOnly_orOp _) v).runs
  | andi sz v ea => exact (immToEA_quiet (stores_of_imm_wf hwf) (flagsOnly_andOp _) v).runs
  | subi sz v ea => exact (immToEA_quiet (stores_of_imm_wf hwf) (flagsOnly_subOp _) v).runs
  | addi sz v ea => exact (immToEA_quiet (stores_of_imm_wf hwf) (flagsOnly_addOp _) v).runs
  | eori sz v ea => exact (immToEA_quiet (stores_of_imm_wf hwf) (flagsOnly_eorOp _) v).runs
  | cmpi sz v ea => exact execCmpi_ordinary sz v ea
  | movea sz src rx => exact Exec.Quiet.runs (.bind (readEA_quiet _ src) fun _ => .modify fun s => s.steady_setAreg rx _)
  | move sz src dst => exact execMove_ordinary (Bool.and_eq_true_iff.mp hwf).2
  | nop => exact (Exec.Quiet.pure ()).runs
  | rts => exact Exec.Quiet.runs (.bind pop32_quiet fun _ => jump_quiet _)
  | trapv => exact Exec.Ordinary.runs (.bind .get fun _ => .ite (trapNext_ordinary 7) (Exec.Quiet.pure ()).ordinary)
  | rtr => exact execRtr_ordinary
  | trap n => exact (trapNext_ordinary _).runs
  | link r d => exact execLink_ordinary (fun h => hl (.inl ⟨d, h ▸ rfl⟩)) d
  | unlk r => exact execUnlk_ordinary fun h => hl (.inr (h ▸ rfl))
  | jsr ea => exact Exec.Quiet.runs (.bind (addressEA_quiet hwf rfl rfl rfl .l) callTo_quiet)
  | jmp ea => exact Exec.Quiet.runs (.bind (addressEA_quiet hwf rfl rfl rfl .l) jump_quiet)
  | swap r => exact execSwap_ordinary r
  | ext sz r => exact execExt_ordinary sz r
  | nbcd ea => exact execNbcd_ordinary hwf
  | pea ea => exact Exec.Quiet.runs (.bind (addressEA_quiet hwf rfl rfl rfl .l) push32_quiet)
  | movemToMem sz mask ea => exact execMovemToMem_ordinary hwf
  | movemToReg sz mask ea => exact execMovemToReg_ordinary hwf
  | moveFromSr ea => exact execMoveFromSr_ordinary hwf
  | negx sz ea =>
    exact (modifyEA_quiet (EA.stores_of_wf hwf rfl rfl rfl sz) fun d sr => flagsOnly_subxOp _ d 0 sr).runs
  | neg sz ea => exact (modifyEA_quiet (EA.stores_of_wf hwf rfl rfl rfl sz) fun d sr => flagsOnly_subOp _ d 0 sr).runs
  | not sz ea => exact (modifyEA_quiet (EA.stores_of_wf hwf rfl rfl rfl sz) fun d sr => sr.sameSystem_logic _).runs
  | clr sz ea => exact execClr_ordinary hwf
  | moveToCcr ea =>
    exact Exec.Quiet.runs (.bind (readEA_quiet .w ea) fun _ => setFlags_quiet fun sr => sr.sameSystem_withCcr _)
  | tas ea => exact execTas_ordinary hwf
  | tst sz ea => exact Exec.Quiet.runs (.bind (readEA_quiet sz ea) fun _ => setFlags_quiet fun sr => sr.sameSystem_logic _)
  | chk ea rx => exact execChk_ordinary ea rx
  | lea ea rx =>
    exact Exec.Quiet.runs (.bind (addressEA_quiet hwf rfl rfl rfl .l) fun _ => .modify fun s => s.steady_setAreg rx _)
  | dbcc c r d => exact execDbcc_ordinary c r d
  | scc c ea => exact execScc_ordinary hwf
  | addq sz q ea => exact execAddq_ordinary hwf
  | subq sz q ea => exact execSubq_ordinary hwf
  | bra d => exact Exec.Quiet.runs (.bind (branchTarget_quiet d) jump_quiet)
  | bsr d => exact Exec.Quiet.runs (.bind (branchTarget_quiet d) callTo_quiet)
  | bcc c d =>
    exact Exec.Quiet.runs (.bind (branchTarget_quiet d) fun _ => .bind .get fun _ =>
      .ite (fun _ => jump_quiet _) fun _ => .pure _)
  | moveq v rx =>
    exact Exec.Quiet.runs (.bind (.modify fun s => s.steady_setDreg rx _) fun _ =>
      setFlags_quiet fun sr => sr.sameSystem_logic _)
  | divu ea rx => exact execDivu_ordinary ea rx
  | divs ea rx => exact execDivs_ordinary ea rx
  | sbcdReg ry rx => exact (bcdRegs_quiet sbcdOp_quiet ry rx).runs
  | sbcdMem ry rx => exact (bcdMem_quiet sbcdOp_quiet ry rx).runs
  | abcdReg ry rx => exact (bcdRegs_quiet abcdOp_quiet ry rx).runs
  | abcdMem ry rx => exact (bcdMem_quiet abcdOp_quiet ry rx).runs
  | orToReg sz ea rx => exact (eaToDreg_quiet (flagsOnly_orOp _) rx).runs
  | subToReg sz ea rx => exact (eaToDreg_quiet (flagsOnly_subOp _) rx).runs
  | andToReg sz ea rx => exact (eaToDreg_quiet (flagsOnly_andOp _) rx).runs
  | addToReg sz ea rx => exact (eaToDreg_quiet (flagsOnly_addOp _) rx).runs
  | orToMem sz rx ea => exact (dregToEA_quiet (EA.stores_of_wf hwf rfl rfl rfl sz) (flagsOnly_orOp _) rx).runs
  | subToMem sz rx ea => exact (dregToEA_quiet (EA.stores_of_wf hwf rfl rfl rfl sz) (flagsOnly_subOp _) rx).runs
  | andToMem sz rx ea => exact (dregToEA_quiet (EA.stores_of_wf hwf rfl rfl rfl sz) (flagsOnly_andOp _) rx).runs
  | addToMem sz rx ea => exact (dregToEA_quiet (EA.stores_of_wf hwf rfl rfl rfl sz) (flagsOnly_addOp _) rx).runs
  | eor sz rx ea => exact (dregToEA_quiet (EA.stores_of_wf hwf rfl rfl rfl sz) (flagsOnly_eorOp _) rx).runs
  | suba sz ea rx | adda sz ea rx =>
    exact Exec.Quiet.runs (.bind (readEA_quiet _ ea) fun _ => .modify fun s => s.steady_setAreg rx _)
  | subxReg sz ry rx => exact (dregPair_quiet (flagsOnly_subxOp _) ry rx).runs
  | addxReg sz ry rx => exact (dregPair_quiet (flagsOnly_addxOp _) ry rx).runs
  | subxMem sz ry rx => exact (memPair_quiet (flagsOnly_subxOp _) ry rx).runs
  | addxMem sz ry rx => exact (memPair_quiet (flagsOnly_addxOp _) ry rx).runs
  | cmpa sz ea rx | cmp sz ea rx =>
    exact Exec.Quiet.runs (.bind (readEA_quiet _ ea) fun _ => .bind .get fun _ =>
      setFlags_quiet fun sr => sr.sameSystem_ofCmp _ _ _)
  | cmpm sz ry rx => exact execCmpm_ordinary sz ry rx
  | mulu ea rx | muls ea rx => exact (multiply_quiet ea rx _).runs
  | exgDD rx ry => exact execExgDD_ordinary rx ry
  | exgAA rx ry => exact execExgAA_ordinary rx ry
  | exgDA rx ry => exact execExgDA_ordinary rx ry
  | aslMem ea | asrMem ea | lslMem ea | lsrMem ea | roxlMem ea | roxrMem ea | rolMem ea | rorMem ea =>
    exact (shiftMem_quiet _ (EA.stores_of_wf hwf rfl rfl rfl .w)).runs
  | aslReg sz rx ry | asrReg sz rx ry | lslReg sz rx ry | lsrReg sz rx ry | roxlReg sz rx ry | roxrReg sz rx ry
  | rolReg sz rx ry | rorReg sz rx ry => exact (shiftByReg_quiet _ sz rx ry).runs
  | aslImm sz q ry | asrImm sz q ry | lslImm sz q ry | lsrImm sz q ry | roxlImm sz q ry | roxrImm sz q ry
  | rolImm sz q ry | rorImm sz q ry => exact (shiftReg_quiet _ sz _ ry).runs

end Sys2Proof.Machine

namespace Sys2Proof.Machine

/-! ## The parts of a step (60_exceptions.md R565) -/

/-! ### Sampling the inputs -/

/-- Sampling changes the pins, the inputs that are left and whether a level 7 edge is remembered. -/
theorem State.sample_state (s : State) : s.sample = { s with
    pins := s.inputs.headD Pins.idle, inputs := s.inputs.tail
    nmiEdge := s.nmiEdge || ((s.inputs.headD Pins.idle).ipl == 7 && s.pins.ipl != 7 && !s.halted) } := by
  unfold State.sample
  split
  next h => simp [State.present, h]
  next p rest h => simp [State.present, h]

section Sample

variable (s : State)

@[simp] theorem State.sample_sr : s.sample.sr = s.sr := by rw [State.sample_state]
@[simp] theorem State.sample_pc : s.sample.pc = s.pc := by rw [State.sample_state]
@[simp] theorem State.sample_ssp : s.sample.ssp = s.ssp := by rw [State.sample_state]
@[simp] theorem State.sample_mem : s.sample.mem = s.mem := by rw [State.sample_state]
@[simp] theorem State.sample_stopped : s.sample.stopped = s.stopped := by rw [State.sample_state]
@[simp] theorem State.sample_halted : s.sample.halted = s.halted := by rw [State.sample_state]
@[simp] theorem State.sample_silent : s.sample.silent = s.silent := by rw [State.sample_state]
@[simp] theorem State.sample_devices : s.sample.devices = s.devices := by rw [State.sample_state]
@[simp] theorem State.sample_deviceLog : s.sample.deviceLog = s.deviceLog := by rw [State.sample_state]
@[simp] theorem State.sample_resetPulses : s.sample.resetPulses = s.resetPulses := by rw [State.sample_state]

theorem State.sample_pins : s.sample.pins = s.inputs.headD Pins.idle := by rw [State.sample_state]

theorem State.sample_nmiEdge : s.sample.nmiEdge =
    (s.nmiEdge || (s.sample.pins.ipl == 7 && s.pins.ipl != 7 && !s.halted)) := by rw [State.sample_state]

theorem State.sample_nmiEdge_iff : s.sample.nmiEdge = true ↔
    s.nmiEdge = true ∨ (s.halted = false ∧ s.sample.pins.ipl = 7 ∧ s.pins.ipl ≠ 7) := by
  rw [State.sample_nmiEdge]
  simp only [Bool.or_eq_true, Bool.and_eq_true, beq_iff_eq, bne_iff_ne, Bool.not_eq_true']
  tauto

end Sample

/-! ### Which part a step is -/

section Step

variable {s : State}

theorem step_of_reset (h : s.sample.pins.resetIn = true) : step s = .next s.sample.externalReset := by
  simp [step, State.cycle, h]

theorem step_of_halted (hr : s.sample.pins.resetIn = false) (h : s.halted = true) : step s = .next s.sample := by
  simp [step, State.cycle, hr, h]

theorem step_of_pending (hr : s.sample.pins.resetIn = false) (hh : s.halted = false) (h : s.sample.pending = true) :
    step s = .next s.sample.takeInterrupt := by
  simp [step, State.cycle, hr, hh, h]

theorem step_of_stopped (hr : s.sample.pins.resetIn = false) (hp : s.sample.pending = false) (h : s.stopped = true) :
    step s = .next s.sample := by
  cases hh : s.halted <;> simp [step, State.cycle, hr, hh, hp, h]

theorem step_of_ready (h : s.ready = true) : step s = s.sample.runInstruction := by
  simp only [State.ready, Bool.and_eq_true, Bool.not_eq_true'] at h
  obtain ⟨⟨⟨hr, hh⟩, hp⟩, hs⟩ := h
  simp [step, State.cycle, hr, hh, hp, hs]

/-- A step is a reset, waits, takes an interrupt or runs an instruction. -/
theorem step_cases (s : State) :
    (s.sample.pins.resetIn = true ∧ step s = .next s.sample.externalReset) ∨ step s = .next s.sample ∨
      (s.sample.pending = true ∧ step s = .next s.sample.takeInterrupt) ∨ s.ready = true := by
  cases hr : s.sample.pins.resetIn with
  | true => exact .inl ⟨rfl, step_of_reset hr⟩
  | false =>
    cases hh : s.halted with
    | true => exact .inr (.inl (step_of_halted hr hh))
    | false =>
      cases hp : s.sample.pending with
      | true => exact .inr (.inr (.inl ⟨rfl, step_of_pending hr hh hp⟩))
      | false =>
        cases hs : s.stopped with
        | true => exact .inr (.inl (step_of_stopped hr hp hs))
        | false => exact .inr (.inr (.inr (by simp [State.ready, hr, hh, hp, hs])))

end Step

/-! ### Fetching and decoding -/

section Run

variable {s : State} {ws rest : List Word} {n : Nat}

/-- The state in which an instruction of some length is executed: its operation word has been fetched. -/
def State.fetched (s : State) (w : Word) (n length : Nat) : State :=
  { (s.busRead .w s.pc).2 with ir := w, traceDue := s.sr.t, draws := n, prefetch := s.prefetchAfter length }

theorem State.runInstruction_decoded {i : Instr} (hacc : s.accessOk .w s.pc = true) (hw : s.instrWords = (ws, n))
    (hd : decodeWords ws = .ok (i, rest)) :
    s.runInstruction = traced s.pc (exec i (s.fetched (ws.headD 0) n i.length)) := by
  obtain ⟨l, e⟩ := s.readWordCycle_state s.pc
  simp only [State.runInstruction, hacc, if_true, hw, hd, State.fetched, State.begin, State.busRead, e]

theorem State.runInstruction_unmatched {w : Word} (hacc : s.accessOk .w s.pc = true) (hw : s.instrWords = (ws, n))
    (hd : decodeWords ws = .error (.unmatched w)) :
    s.runInstruction = execIllegal { (s.busRead .w s.pc).2 with ir := ws.headD 0, traceDue := s.sr.t, draws := n } := by
  obtain ⟨l, e⟩ := s.readWordCycle_state s.pc
  simp only [State.runInstruction, hacc, if_true, hw, hd, State.begin, State.busRead, e]

theorem State.runInstruction_unfetched (hacc : s.accessOk .w s.pc = false) :
    s.runInstruction = .next (s.takeGroup0 (s.accessFault .program .w s.pc true) (some s.pc) none) := by
  simp [State.runInstruction, hacc]

/-- The instruction that a step decodes is made from five words. -/
theorem State.instrWords_length (s : State) : s.instrWords.1.length = maxWords := by
  unfold State.instrWords
  dsimp only
  split
  next sz src dst rest h =>
    split
    next t ht =>
      have hcount := eaExtCount_le_two sz src
      have hmax : maxWords = 5 := rfl
      simp only [List.length_append, State.fetchWords_length]
      omega
    next => exact s.fetchWords_length ..
  next => exact s.fetchWords_length ..

theorem State.wf_of_decodes {s : State} {i : Instr} (h : decodeWords s.instrWords.1 = .ok (i, rest)) : i.wf = true := by
  have hlen := s.instrWords_length
  match hw : s.instrWords.1 with
  | [] =>
    rw [hw] at hlen
    cases hlen
  | w :: ws => exact (decodedInstruction w ws i rest (hw ▸ h)).1

/-- The words that are fetched are an instruction's or match none. -/
theorem State.decodes_or_unmatched (s : State) :
    (∃ i rest, decodeWords s.instrWords.1 = .ok (i, rest)) ∨
      ∃ w, decodeWords s.instrWords.1 = .error (.unmatched w) := by
  cases h : decodeWords s.instrWords.1 with
  | error e =>
    obtain ⟨w, rfl⟩ := sufficed_decodeWords s.instrWords_length e h
    exact .inr ⟨w, rfl⟩
  | ok r => exact .inl ⟨r.1, r.2, rfl⟩

/-- Without devices a fetch or a read that ends well changes neither memory nor, but for `k` words, `PC`. -/
structure State.Passes (s t : State) (k : Nat) : Prop where
  mem : t.mem = s.mem
  devices : t.devices = []
  pc : t.pc = s.pc + BitVec.ofNat 32 (2 * k)

theorem State.Passes.refl {s : State} (h : s.devices = []) : s.Passes s 0 := ⟨rfl, h, by simp⟩

theorem State.Passes.trans {s t u : State} {j k : Nat} (h1 : s.Passes t j) (h2 : t.Passes u k) : s.Passes u (j + k) :=
  ⟨h2.mem.trans h1.mem, h2.devices, by rw [h2.pc, h1.pc, BitVec.add_assoc, ← BitVec.ofNat_add, Nat.mul_add]⟩

theorem State.isCells_of_nil {s : State} (h : s.devices = []) (sz : Size) (a : Long) : s.isCells sz a = true := by
  cases sz <;> simp [State.isCells, State.wordDevice, State.deviceAt, h]

theorem memRead_of_nil {sp : Space} {sz : Size} {a : Long} {s t : State} {v : BitVec sz.bits} (h : s.devices = [])
    (hr : memRead sp sz a s = .ok v t) : t = s := by
  cases hacc : s.accessOk sz a with
  | false => rw [memRead_fault hacc] at hr; cases hr
  | true =>
    rw [memRead_ok hacc, State.busRead_cells (State.isCells_of_nil h sz a)] at hr
    cases hr
    rfl

theorem fetchExts_passes {n : Nat} {s t : State} (h : s.devices = []) (hr : fetchExts n s = .ok () t) : s.Passes t n := by
  induction n generalizing s with
  | zero => cases hr; exact .refl h
  | succ n ih =>
    obtain ⟨_, u, hu, hrest⟩ := Exec.of_bind_ok hr
    obtain ⟨_, _, hget, hu⟩ := Exec.of_bind_ok hu
    cases hget
    obtain ⟨w, _, hread, hpc⟩ := Exec.of_bind_ok hu
    obtain rfl := (memRead_of_nil h hread).symm
    cases hpc
    rw [Nat.add_comm]
    exact State.Passes.trans (t := { s with pc := s.pc + 2#32 }) ⟨rfl, h, rfl⟩ (ih h hrest)

theorem readLoc_of_nil {sz : Size} {loc : Loc} {s t : State} {v : BitVec sz.bits} (h : s.devices = [])
    (hr : readLoc sz loc s = .ok v t) : t = s := by
  cases loc with
  | mem sp a => exact memRead_of_nil h hr
  | _ => cases hr; rfl

theorem readEA_passes {sz : Size} {ea : EA} {s t : State} {v : BitVec sz.bits} (h : s.devices = [])
    (hr : readEA sz ea s = .ok v t) : s.Passes t (eaExtCount sz ea) := by
  obtain ⟨loc, u, hres, hloc⟩ := Exec.of_bind_ok hr
  obtain ⟨_, _, hget, hres⟩ := Exec.of_bind_ok hres
  cases hget
  obtain ⟨_, w, hfetch, hres⟩ := Exec.of_bind_ok hres
  have hw := fetchExts_passes h hfetch
  cases hres
  have hu : w.Passes (eaUpdate sz ea w) 0 := ⟨by simp, (eaUpdate_devices ..).trans hw.devices, by simp⟩
  obtain rfl := readLoc_of_nil hu.devices hloc
  exact hw.trans hu

theorem State.Passes.readWord {s t : State} {k : Nat} (h : s.Passes t k) (a : Long) : t.readWord a = s.readWord a :=
  State.readSized_congr h.mem .w a

theorem State.wordsAt_of_nil {s : State} (h : s.devices = []) (count : Nat) (a : Long) :
    s.wordsAt count a = (List.range count).map fun k => s.readWord (a + BitVec.ofNat 32 (2 * k)) := by
  induction count generalizing a with
  | zero => rfl
  | succ count ih =>
    rw [List.range_succ_eq_map, State.wordsAt, State.busRead_cells (State.isCells_of_nil h .w a), ih]
    simp [add_two_mul_succ, State.readSized, Function.comp_def]

/-- Words fetched after the first ones are those that follow them. -/
theorem State.Passes.wordsAt_append {s t : State} {j : Nat} (hs : s.devices = []) (h : s.Passes t j) (k : Nat) :
    s.wordsAt j s.pc ++ t.wordsAt k t.pc = s.wordsAt (j + k) s.pc := by
  rw [State.wordsAt_of_nil hs, State.wordsAt_of_nil hs, State.wordsAt_of_nil h.devices, List.range_add, List.map_append,
    List.map_map, h.pc]
  simp only [Function.comp_def, h.readWord, Nat.mul_add, BitVec.ofNat_add, BitVec.add_assoc]

/-- On a platform without devices, where nothing was prefetched, the words fetched are those of memory: reading the
source of a MOVE does not change them. -/
theorem State.instrWords_of_nil {s : State} (hp : s.prefetch = []) (hd : s.devices = []) :
    s.instrWords = ((List.range maxWords).map (fun k => s.readWord (s.pc + BitVec.ofNat 32 (2 * k))), s.draws) := by
  have hall := State.fetchWords_of_nil hp maxWords s.pc s.draws
  rw [← State.wordsAt_of_nil hd, ← hall]
  unfold State.instrWords
  dsimp only
  split
  next sz src dst rest h =>
    split
    next v t ht =>
      rw [State.begin_afterFetch] at ht
      have hfetch : s.Passes { (s.busRead .w s.pc).2 with
          ir := (s.fetchWords maxWords s.pc s.draws).1.headD 0, traceDue := s.sr.t
          draws := (s.fetchWords maxWords s.pc s.draws).2, pc := s.pc + 2#32 } 1 :=
        ⟨by rw [State.busRead_cells (State.isCells_of_nil hd .w s.pc)], by simpa using hd, rfl⟩
      have hpass := hfetch.trans (readEA_passes hfetch.devices ht)
      have htp : t.prefetch = [] := (readEA_keepsPrefetch sz src _ v t ht).trans ((s.busRead_prefetch _ _).trans hp)
      have hmax : 1 + eaExtCount sz src + (maxWords - (1 + eaExtCount sz src)) = maxWords := by
        have := eaExtCount_le_two sz src
        simp only [maxWords]
        omega
      rw [hall, State.fetchWords_of_nil hp, State.fetchWords_of_nil htp]
      exact congrArg (·, s.draws) ((hpass.wordsAt_append hd _).trans (by rw [hmax]))
    next => rfl
  next => rfl

end Run

end Sys2Proof.Machine

namespace Sys2Proof.Machine

/-! ## Reset, waiting and decoding: the parts of a step that take no exception -/

/-- Settles O12: `decide` on the register, and the vectors of an empty memory. -/
theorem resetState : Obligations.ResetState := by
  unfold Obligations.ResetState
  decide

/-- Settles O4: the part of the step that is left is the one that runs an instruction. -/
theorem stepRunsDecoded : Obligations.StepRunsDecoded := by
  unfold Obligations.StepRunsDecoded
  intro s ws rest n i s1 u hready hacc hwords hdec
  refine ⟨(step_of_ready hready).trans (State.runInstruction_decoded hacc hwords hdec), fun hp hd => ?_⟩
  rw [State.instrWords_of_nil hp hd] at hwords
  obtain ⟨rfl, rfl⟩ := Prod.mk.inj hwords
  exact ⟨rfl, rfl⟩

/-- Settles O14: neither part of the step does more than sample. -/
theorem haltedOrStoppedWaits : Obligations.HaltedOrStoppedWaits := by
  unfold Obligations.HaltedOrStoppedWaits
  refine fun s => ⟨fun hr => ⟨step_of_halted hr, fun hs hp => step_of_stopped hr hp hs⟩, s.sample.nmiEdge, ?_, ?_⟩
  · rw [State.sample_nmiEdge, State.sample_pins]
    exact s.sample_state
  · rw [← State.sample_pins]
    exact s.sample_nmiEdge_iff

/-! ### External reset (70_reset_and_hazards.md R580, R582) -/

/-- The state in which the reset vectors are read. -/
def State.resetting (s : State) : State := { s.note .externalReset with
  sr := { s.sr with s := true, t := false, i := 7 }
  stopped := false, halted := false, nmiEdge := false, prefetch := [], traceDue := false }

/-- Reset ends as the reading of its vectors does, and halts where that faults. -/
theorem State.externalReset_cases (s : State) :
    loadResetVectors s.resetting = .ok () s.externalReset ∨
      ∃ e t, loadResetVectors s.resetting = .error e t ∧ s.externalReset = { t with halted := true } := by
  unfold State.externalReset
  dsimp only
  split
  next h => exact .inl h
  next h => exact .inr ⟨_, _, h, rfl⟩

theorem loadResetVectors_cells {s : State} (h0 : s.cellsOk .l 0 = true) (h4 : s.cellsOk .l 4 = true) :
    loadResetVectors s = .ok () { s with ssp := s.readLong 0, pc := s.readLong 4, prefetch := [] } := by
  have h4' : ({ s with ssp := s.readLong 0 } : State).cellsOk .l 4 = true := h4
  rw [loadResetVectors, Exec.bind_ok (memRead_cells h0), Exec.bind_ok (Exec.modify_apply _ _)]
  exact Exec.bind_ok (memRead_cells h4')

/-- Where both vectors were loaded, both could be read. -/
theorem loadResetVectors_eq_ok {s t : State} (h : loadResetVectors s = .ok () t) :
    s.accessOk .l 0 = true ∧ s.accessOk .l 4 = true := by
  obtain ⟨p, u, hread0, h⟩ := Exec.of_bind_ok h
  cases h0 : s.accessOk .l 0 with
  | false => rw [memRead_fault h0] at hread0; cases hread0
  | true =>
    rw [memRead_ok h0] at hread0
    cases hread0
    obtain ⟨_, v, hset, h⟩ := Exec.of_bind_ok h
    cases hset
    obtain ⟨q, w, hread4, -⟩ := Exec.of_bind_ok h
    rw [← State.accessOk_congr (s := { (s.busRead .l 0).2 with ssp := (s.busRead .l 0).1 }) (s.busRead_silent ..)]
    cases h4 : State.accessOk _ .l 4 with
    | false => rw [memRead_fault h4] at hread4; cases hread4
    | true => exact ⟨rfl, rfl⟩

/-- What reading the reset vectors leaves alone. -/
structure State.VectorsRead (s t : State) : Prop where
  mem : t.mem = s.mem
  sr : t.sr = s.sr
  prefetch : t.prefetch = []

theorem memRead_vectorsRead (sp : Space) (sz : Size) (a : Long) (s : State) :
    (memRead sp sz a).Preserves s.VectorsRead where
  final t ht := by
    obtain ⟨l, n, e⟩ := memRead_final sp sz a t
    rw [e]
    exact ⟨ht.mem, ht.sr, ht.prefetch⟩
  unrefused t r u _ := (memRead_quiet sp sz a t).unrefused t r u (.refl t)

theorem loadResetVectors_vectorsRead (s : State) : loadResetVectors.Preserves s.VectorsRead :=
  .bind (memRead_vectorsRead _ _ _ s) fun _ => .bind (.modify fun _ ht => ⟨ht.mem, ht.sr, ht.prefetch⟩) fun _ =>
    .bind (memRead_vectorsRead _ _ _ s) fun _ => .modify fun _ ht => ⟨ht.mem, ht.sr, rfl⟩

theorem State.externalReset_vectorsRead (s : State) : s.resetting.VectorsRead s.externalReset := by
  obtain h | ⟨e, t, h, hreset⟩ := s.externalReset_cases
  · exact (loadResetVectors_vectorsRead _).of_ok ⟨rfl, rfl, rfl⟩ h
  · obtain ⟨⟨hmem, hsr, hprefetch⟩, -⟩ := (loadResetVectors_vectorsRead s.resetting).of_error ⟨rfl, rfl, rfl⟩ h
    rw [hreset]
    exact ⟨hmem, hsr, hprefetch⟩

theorem State.externalReset_cells {s : State} (h0 : s.cellsOk .l 0 = true) (h4 : s.cellsOk .l 4 = true) :
    s.externalReset = { s.resetting with ssp := s.readLong 0, pc := s.readLong 4 } := by
  have hload := loadResetVectors_cells (s := s.resetting) h0 h4
  obtain h | ⟨e, t, h, -⟩ := s.externalReset_cases
  · exact (EStateM.Result.ok.inj (h.symm.trans hload)).2
  · cases h.symm.trans hload

theorem State.externalReset_halted {s : State} (h : s.accessOk .l 0 = false ∨ s.accessOk .l 4 = false) :
    s.externalReset.halted = true := by
  obtain hload | ⟨e, t, -, hreset⟩ := s.externalReset_cases
  · obtain ⟨h0, h4⟩ := loadResetVectors_eq_ok hload
    obtain h | h := h
    · cases h0.symm.trans h
    · cases h4.symm.trans h
  · rw [hreset]

/-- Settles O13: reset comes first, and ends as the reading of its two vectors does. -/
theorem externalReset : Obligations.ExternalReset := by
  unfold Obligations.ExternalReset
  intro s hr
  rw [step_of_reset hr]
  refine ⟨fun h0 h4 => ?_, fun h => ⟨_, rfl, State.externalReset_halted ?_, ?_⟩⟩
  · have hsample (a : Long) : s.sample.cellsOk .l a = s.cellsOk .l a := State.cellsOk_congr (by simp) (by simp) .l a
    have hread (a : Long) : s.sample.readLong a = s.readLong a := State.readSized_congr (by simp) .l a
    rw [State.externalReset_cells (by rw [hsample, h0]) (by rw [hsample, h4]), hread, hread]
    simp [State.resetting, State.note]
  · simpa only [State.accessOk_congr s.sample_silent] using h
  · exact s.sample.externalReset_vectorsRead.mem.trans s.sample_mem

end Sys2Proof.Machine

namespace Sys2Proof.Machine

/-! ## Taking an exception, and the exceptions that instructions take (60_exceptions.md) -/

/-! ### The frame in memory cells -/

section Framed

variable {items : List StackItem} {k : Byte} (s : State)

theorem State.framed_state : s.framed items k = { s with
    ssp := s.ssp - BitVec.ofNat 32 (itemsBytes items), pc := (s.framed items k).pc, mem := (s.framed items k).mem
    prefetch := [] } := by
  conv_lhs => rw [State.framed, State.stacked_state]
  rfl

@[simp] theorem State.framed_ssp : (s.framed items k).ssp = s.ssp - BitVec.ofNat 32 (itemsBytes items) := by
  rw [State.framed_state]

@[simp] theorem State.framed_sr : (s.framed items k).sr = s.sr := by rw [State.framed_state]

theorem State.framed_pc : (s.framed items k).pc = (s.framed items k).readLong (vectorAddress k) :=
  State.readSized_congr (sz := .l) rfl _

/-- An item of the frame is read back at its place. -/
theorem State.framed_readSized {above below : List StackItem} {x : StackItem} {a : Long}
    (hitems : above ++ x :: below = items) (ha : a = s.ssp - BitVec.ofNat 32 (itemsBytes above) - sizeOffset x.1)
    (hlen : itemsBytes below + x.1.bytes ≤ 2 ^ 24) : (s.framed items k).readSized x.1 a = x.2 := by
  subst hitems ha
  exact (State.readSized_congr rfl _ _).trans (State.readSized_stacked above x below s hlen)

theorem State.framed_readByte {y : Long}
    (h : addrOf y ∉ bytesAt (s.ssp - BitVec.ofNat 32 (itemsBytes items)) (itemsBytes items)) :
    (s.framed items k).readByte y = s.readByte y := State.readByte_stacked h

end Framed

theorem vectorAddress_eq (k : Byte) : vectorAddress k = BitVec.ofNat 32 (4 * k.toNat) := by
  have hk := k.isLt
  refine BitVec.eq_of_toNat_eq ?_
  rw [vectorAddress, BitVec.toNat_shiftLeft, BitVec.toNat_setWidth, BitVec.toNat_ofNat, Nat.shiftLeft_eq]
  omega

/-- What `excepted` spells out is a frame of two items. -/
theorem State.excepted_eq_framed (s : State) (k : Byte) (p : Long) (level : Option (BitVec 3)) :
    s.excepted k p level = (s.entered level).framed (shortFrame p s.sr.toWord) k := rfl

/-- Settles O22: the frame is one of two items, and its two stores and the vector are the only accesses. -/
theorem exceptionEntry : Obligations.ExceptionEntry := by
  unfold Obligations.ExceptionEntry
  intro k p level s
  constructor
  · intro h t
    have ht : t = (s.entered level).framed (shortFrame p s.sr.toWord) k := s.excepted_eq_framed k p level
    have hssp : t.ssp = s.ssp - 6#32 := by rw [ht, State.framed_ssp]; rfl
    refine ⟨takeException_ok h, by rw [ht, State.framed_sr]; rfl, hssp, ?_, ?_, ?_, ?_, fun y hy => ?_⟩
    · rw [ht]
      exact State.framed_readSized (above := [⟨.l, p⟩]) (x := ⟨.w, s.sr.toWord⟩) (below := []) _ rfl
        (by rw [← ht, hssp]; simp [itemsBytes, sizeOffset, Size.bytes]; bv_omega) (by simp [itemsBytes, Size.bytes])
    · rw [ht]
      exact State.framed_readSized (above := []) (x := ⟨.l, p⟩) (below := [⟨.w, s.sr.toWord⟩]) _ rfl
        (by rw [← ht, hssp]; simp [itemsBytes, sizeOffset, Size.bytes]; bv_omega) (by simp [itemsBytes, Size.bytes])
    · rw [← vectorAddress_eq, ht]
      exact State.framed_pc _
    · conv_lhs => rw [ht, State.framed_state]
      rw [ht, State.framed_state]
      rfl
    · rw [ht]
      rw [hssp] at hy
      exact State.framed_readByte (items := shortFrame p s.sr.toWord) (s.entered level) hy
  · intro h
    cases hrun : takeException k p level s with
    | ok u t =>
      have hacc := (takeException_eq_ok hrun).2.2
      rw [h] at hacc
      cases hacc
    | error e t =>
      obtain ⟨hst, f, rfl, hin⟩ := takeException_eq_error hrun
      exact ⟨f, t, rfl, hin, by rw [hst.sr]; rfl, by rw [hst.sr]; rfl⟩

/-! ### Group 0 (60_exceptions.md R535, R546) -/

/-- The frame that a group 0 exception stacks. -/
def State.faultFrame (s : State) (f : AccessFault) (concerned : Option Long) (ir : Option Word) : List StackItem :=
  longFrame f (group0Pc concerned s.draws) s.sr.toWord (ir.getD (Config.freeWord (s.draws + 1)))
    (f.info (Config.freeWord (s.draws + 2)))

section GroupZero

variable (s : State) (f : AccessFault) (concerned : Option Long) (ir : Option Word)

/-- Group 0 processing ends as the stacking of its frame does, and halts where that faults. -/
theorem State.takeGroup0_cases :
    stackFrame (s.faultFrame f concerned ir) f.kind.vector (s.faulted.entered none) = .ok () (s.takeGroup0 f concerned ir) ∨
      ∃ e t, stackFrame (s.faultFrame f concerned ir) f.kind.vector (s.faulted.entered none) = .error e t ∧
        s.takeGroup0 f concerned ir = { t with halted := true } := by
  unfold State.takeGroup0
  dsimp only
  rw [group0Frame_eq]
  split
  next h => exact .inl h
  next h => exact .inr ⟨_, _, h, rfl⟩

/-- The accesses that stack the 14-byte frame, at their places. -/
theorem State.itemAccesses_longFrame (ok : State → Size → Long → Bool) (p : Long) (old w info : Word) :
    s.itemAccesses ok (longFrame f p old w info) s.ssp =
      (ok s .l (s.ssp - 14#32 + 10#32) && ok s .w (s.ssp - 14#32 + 8#32) && ok s .w (s.ssp - 14#32 + 6#32) &&
        ok s .l (s.ssp - 14#32 + 2#32) && ok s .w (s.ssp - 14#32)) := by
  have h10 : s.ssp - 14#32 + 10#32 = s.ssp - 4#32 := by bv_omega
  have h8 : s.ssp - 14#32 + 8#32 = s.ssp - 4#32 - 2#32 := by bv_omega
  have h6 : s.ssp - 14#32 + 6#32 = s.ssp - 4#32 - 2#32 - 2#32 := by bv_omega
  have h2 : s.ssp - 14#32 + 2#32 = s.ssp - 4#32 - 2#32 - 2#32 - 4#32 := by bv_omega
  have h0 : s.ssp - 14#32 = s.ssp - 4#32 - 2#32 - 2#32 - 4#32 - 2#32 := by bv_omega
  rw [h10, h8, h6, h2, h0]
  simp only [longFrame, State.itemAccesses, sizeOffset, Size.bytes, Bool.and_true, Bool.and_assoc]

variable {s f concerned ir}

theorem State.takeGroup0_cells
    (h : s.itemAccesses State.cellsOk (s.faultFrame f concerned ir) s.ssp = true)
    (hk : s.cellsOk .l (vectorAddress f.kind.vector) = true) :
    s.takeGroup0 f concerned ir = (s.faulted.entered none).framed (s.faultFrame f concerned ir) f.kind.vector := by
  have hcells : ∀ sz a, (s.faulted.entered none).cellsOk sz a = s.cellsOk sz a := State.cellsOk_congr rfl rfl
  have hframe : stackFrame (s.faultFrame f concerned ir) f.kind.vector (s.faulted.entered none) = .ok () _ :=
    stackFrame_cells rfl ((State.itemAccesses_congr hcells _ _).trans h) ((hcells _ _).trans hk)
  obtain hok | ⟨e, t, herror, -⟩ := s.takeGroup0_cases f concerned ir
  · exact (EStateM.Result.ok.inj (hok.symm.trans hframe)).2
  · cases herror.symm.trans hframe

theorem State.takeGroup0_halted
    (h : (s.itemAccesses State.accessOk (s.faultFrame f concerned ir) s.ssp &&
      s.accessOk .l (vectorAddress f.kind.vector)) = false) : (s.takeGroup0 f concerned ir).halted = true := by
  have hacc : ∀ sz a, (s.faulted.entered none).accessOk sz a = s.accessOk sz a := State.accessOk_congr rfl
  obtain hok | ⟨e, t, -, hhalt⟩ := s.takeGroup0_cases f concerned ir
  · have hall := (stackFrame_eq_ok rfl hok).1
    rw [State.itemAccesses_congr hacc, hacc] at hall
    cases h.symm.trans hall
  · rw [hhalt]

end GroupZero

/-- The words of the 14-byte frame, at their places (R535). -/
theorem State.framed_longFrame (s : State) (f : AccessFault) (p : Long) (old w info : Word) (k : Byte) :
    let t := s.framed (longFrame f p old w info) k
    let top := s.ssp - 14#32
    t.readWord top = info ∧ t.readLong (top + 2#32) = f.addr ∧ t.readWord (top + 6#32) = w ∧
      t.readWord (top + 8#32) = old ∧ t.readLong (top + 10#32) = p := by
  have hitem := fun above x below a => s.framed_readSized (items := longFrame f p old w info) (k := k)
    (above := above) (x := x) (below := below) (a := a)
  refine ⟨hitem [⟨.l, p⟩, ⟨.w, old⟩, ⟨.w, w⟩, ⟨.l, f.addr⟩] ⟨.w, info⟩ [] _ rfl ?_ ?_,
    hitem [⟨.l, p⟩, ⟨.w, old⟩, ⟨.w, w⟩] ⟨.l, f.addr⟩ [⟨.w, info⟩] _ rfl ?_ ?_,
    hitem [⟨.l, p⟩, ⟨.w, old⟩] ⟨.w, w⟩ [⟨.l, f.addr⟩, ⟨.w, info⟩] _ rfl ?_ ?_,
    hitem [⟨.l, p⟩] ⟨.w, old⟩ [⟨.w, w⟩, ⟨.l, f.addr⟩, ⟨.w, info⟩] _ rfl ?_ ?_,
    hitem [] ⟨.l, p⟩ [⟨.w, old⟩, ⟨.w, w⟩, ⟨.l, f.addr⟩, ⟨.w, info⟩] _ rfl ?_ ?_⟩
  all_goals simp only [itemsBytes, sizeOffset, Size.bytes]
  all_goals bv_omega

/-- The low bits of the access information word are the fault's (R535). -/
theorem AccessFault.extractLsb'_info (f : AccessFault) (free : Word) :
    (f.info free).extractLsb' 0 5 = BitVec.ofBool f.read ++ BitVec.ofBool f.inException ++ f.fc := by
  refine BitVec.eq_of_getLsbD_eq fun j hj => ?_
  simp only [AccessFault.info, BitVec.getLsbD_extractLsb', BitVec.getLsbD_append, Nat.zero_add, decide_eq_true hj,
    Bool.true_and, BitVec.getLsbD_ofBool]
  by_cases h4 : j - 3 < 1
  · simp [h4]
  · simp [h4, show j - 3 - 1 < 1 by omega]

theorem FaultKind.vectorAddress_vector (k : FaultKind) :
    vectorAddress k.vector = if k = .busError then 8#32 else 12#32 := by
  cases k <;> rfl

theorem group0Pc_some (i : Long) (draw : Nat) : ∃ k ≤ 8, group0Pc (some i) draw = i + 2#32 + BitVec.ofNat 32 k :=
  ⟨Config.freeNat draw % 9, by omega, rfl⟩

/-- Settles O23: the frame is one of five items, and its five stores and the vector are the only accesses. -/
theorem groupZeroEntry : Obligations.GroupZeroEntry := by
  unfold Obligations.GroupZeroEntry
  intro s f concerned ir t top reachable
  have hreach (ok : State → Size → Long → Bool) : reachable ok =
      (s.itemAccesses ok (s.faultFrame f concerned ir) s.ssp && ok s .l (vectorAddress f.kind.vector)) := by
    rw [State.faultFrame, State.itemAccesses_longFrame]
  constructor
  · intro h
    rw [hreach, Bool.and_eq_true] at h
    have ht : t = (s.faulted.entered none).framed (s.faultFrame f concerned ir) f.kind.vector :=
      State.takeGroup0_cells h.1 h.2
    have hssp : t.ssp = top := by rw [ht, State.framed_ssp]; rfl
    have hsr : t.sr = { s.sr with s := true, t := false } := s.takeGroup0_sr f concerned ir
    have hvector : t.pc = t.readLong (vectorAddress f.kind.vector) := by rw [ht]; exact State.framed_pc _
    obtain ⟨hinfo, haddr, hir, hold, hpc⟩ := State.framed_longFrame (s.faulted.entered none) f
      (group0Pc concerned s.draws) s.sr.toWord (ir.getD (Config.freeWord (s.draws + 1)))
      (f.info (Config.freeWord (s.draws + 2))) f.kind.vector
    rw [State.faultFrame] at ht
    rw [← ht] at hinfo haddr hir hold hpc
    refine ⟨hssp, hsr, ?_, ?_, ?_, haddr, ?_, hold, ?_, ?_, fun y hy => ?_⟩
    · rw [ht, State.framed_state]; rfl
    · rw [hvector, FaultKind.vectorAddress_vector]
    · exact (congrArg (BitVec.extractLsb' 0 5) hinfo).trans (f.extractLsb'_info _)
    · rintro w rfl
      exact hir
    · rintro i rfl
      obtain ⟨k, hk, hi⟩ := group0Pc_some i s.draws
      exact ⟨k, hk, hpc.trans hi⟩
    · conv_lhs => rw [ht, State.framed_state]
      rw [ht, State.framed_state]
      rfl
    · rw [ht]
      exact State.framed_readByte (items := s.faultFrame f concerned ir) (s.faulted.entered none) hy
  · intro h
    rw [hreach] at h
    exact State.takeGroup0_halted h

/-! ### The exceptions that instructions take (R526, R527, R531, R532) -/

/-- A rule that is an exception in the instruction's place saves the instruction's own address. -/
theorem runBody_exceptionInstead {k : Byte} {s : State} (h : s.canExcept k = true) :
    runBody (exceptionInstead k) s = .next ({ s.pastWords 1 with traceDue := false }.excepted k s.pc none) := by
  have hpc : (s.pastWords 1).pc - 2#32 = s.pc := BitVec.add_sub_cancel s.pc 2#32
  rw [runBody_ok (exceptionInstead_ok (s := s.pastWords 1) h), hpc]

/-- A rule that is a trap saves the address of the next instruction. -/
theorem runBody_trapNext {k : Byte} {s : State} (h : s.canExcept k = true) :
    runBody (trapNext k) s = .next ((s.pastWords 1).excepted k (s.pc + 2#32) none) :=
  runBody_ok (trapNext_ok (s := s.pastWords 1) h)

theorem exec_trapv_set {s : State} (hv : s.sr.v = true) : exec .trapv s = runBody (trapNext 7) s := by
  refine runBody_congr ?_
  rw [Exec.bind_ok (Exec.get_apply _), Exec.if_pos (by exact hv)]

theorem completes_trapv {s : State} (hv : s.sr.v = false) : s.Completes .trapv (s.pastWords 1) .none := by
  refine State.completes_of_body rfl ?_ (State.Keeps.refl _ _)
  rw [Exec.bind_ok (Exec.get_apply _), Exec.if_neg (by simp [hv])]
  rfl

/-- Settles O54: each of them is a trap or an exception in the instruction's place. -/
theorem trapInstructions : Obligations.TrapInstructions := by
  unfold Obligations.TrapInstructions
  intro s instead
  exact ⟨fun n h => runBody_trapNext h, completes_trapv, fun hv h => (exec_trapv_set hv).trans (runBody_trapNext h),
    runBody_exceptionInstead, fun h _ => runBody_exceptionInstead h, fun h _ => runBody_exceptionInstead h,
    fun h _ => runBody_exceptionInstead h⟩

theorem runBody_privileged_user {body : Exec Unit} {s : State} (h : s.sr.s = false) :
    runBody (privileged body) s = runBody (exceptionInstead 8) s := runBody_congr (privileged_of_user h)

theorem State.canExcept_congr {s t : State} (hssp : s.ssp = t.ssp) (hsil : s.silent = t.silent)
    (hdev : s.devices = t.devices) (k : Byte) : s.canExcept k = t.canExcept k := by
  simp only [State.canExcept, State.frameAccesses, hssp, State.cellsOk_congr hsil hdev]

/-- Settles O16: the rule of ILLEGAL runs, once the word is fetched. -/
theorem unmatchedWordTraps : Obligations.UnmatchedWordTraps := by
  unfold Obligations.UnmatchedWordTraps
  intro s ws n w s1 hready hacc hwords hdec hexc
  rw [step_of_ready hready, State.runInstruction_unmatched hacc hwords hdec]
  refine (runBody_exceptionInstead ?_).trans ?_
  · refine (State.canExcept_congr ?_ ?_ ?_ 4).trans hexc <;> simp
  · simp [State.pastWords]

/-! ### Interrupts (R541, R542) -/

/-- The state in which the exception of an interrupt is processed. -/
def State.acknowledged (s : State) : State :=
  { s.note (.acknowledge s.pins.ipl) with stopped := false, nmiEdge := s.nmiEdge && s.pins.ipl != 7 }

/-- Taking an interrupt ends well, or in a group 0 exception of its exception processing. -/
theorem State.takeInterrupt_cases (s : State) :
    let run := takeException (s.pins.ack.vectorNumber s.pins.ipl) s.pc (some s.pins.ipl) s.acknowledged
    run = .ok () s.takeInterrupt ∨
      ∃ f t, run = .error (.group0 f) t ∧ s.takeInterrupt = t.takeGroup0 f none none := by
  unfold State.takeInterrupt
  dsimp only
  split
  next h => exact .inl h
  next f t h => exact .inr ⟨f, t, h, rfl⟩
  next h =>
    obtain ⟨-, f, hf, -⟩ := takeException_eq_error h
    cases hf

theorem State.takeInterrupt_ok {s : State} (h : s.canExcept (s.pins.ack.vectorNumber s.pins.ipl) = true) :
    s.takeInterrupt = s.acknowledged.excepted (s.pins.ack.vectorNumber s.pins.ipl) s.pc (some s.pins.ipl) := by
  have htake := takeException_ok (p := s.pc) (level := some s.pins.ipl) (s := s.acknowledged) h
  obtain hok | ⟨f, t, herror, -⟩ := s.takeInterrupt_cases
  · exact (EStateM.Result.ok.inj (hok.symm.trans htake)).2
  · cases herror.symm.trans htake

/-- Sampling a level that is not 7 remembers no edge. -/
theorem State.sample_nmiEdge_and_ne (s : State) :
    (s.sample.nmiEdge && s.sample.pins.ipl != 7) = (s.nmiEdge && s.sample.pins.ipl != 7) := by
  rw [State.sample_nmiEdge]
  cases h : s.sample.pins.ipl == 7 with
  | true => rw [beq_iff_eq.mp h]; simp
  | false => simp

theorem State.acknowledged_sample (s : State) : s.sample.acknowledged = { s.sample with
    stopped := false, nmiEdge := s.nmiEdge && s.sample.pins.ipl != 7
    deviceLog := .acknowledge s.sample.pins.ipl :: s.sample.deviceLog } := by
  rw [State.acknowledged, State.sample_nmiEdge_and_ne, State.note]

/-- Settles O15: the interrupt is taken before an instruction, and its exception processing meets no fault. -/
theorem interruptTaken : Obligations.InterruptTaken := by
  unfold Obligations.InterruptTaken
  intro s s1 level k
  constructor
  · simp only [s1, State.pending, Bool.or_eq_true, Bool.and_eq_true, decide_eq_true_eq, beq_iff_eq,
      State.sample_nmiEdge_iff, State.sample_sr, BitVec.lt_def, level]
    tauto
  · intro hr hh hp hexc
    have hk : k = s1.pins.ack.vectorNumber level := rfl
    rw [hk] at hexc
    rw [step_of_pending hr hh hp, hk, ← s.sample_pc, State.takeInterrupt_ok hexc, State.acknowledged_sample]

end Sys2Proof.Machine

namespace Sys2Proof.Machine

/-! ## Accesses that cannot be made (60_exceptions.md R524, R525, R545) -/

/-- What the fault of an access reports. -/
theorem State.accessFault_eq (s : State) (sp : Space) (sz : Size) (a : Long) (read : Bool) :
    s.accessFault sp sz a read =
      { kind := if sz ≠ .b ∧ a.getLsbD 0 then .addressError else .busError, addr := a, read := read
        fc := s.functionCode sp, inException := false } := by
  simp only [State.accessFault, misaligned_eq_true_iff]

/-- The fault of a fetch. -/
theorem State.accessFault_fetch (s : State) (a : Long) :
    s.accessFault .program .w a true =
      { kind := if a.getLsbD 0 then .addressError else .busError, addr := a, read := true
        fc := if s.sr.s then 6 else 2, inException := false } := by
  simp only [State.accessFault_eq, State.functionCode]
  simp

/-- The fault of a push. -/
theorem State.accessFault_push (s : State) (a : Long) :
    s.accessFault .data .l a false =
      { kind := if a.getLsbD 0 then .addressError else .busError, addr := a, read := false
        fc := s.functionCode .data, inException := false } := by
  simp only [State.accessFault_eq]
  simp

theorem State.accessFault_congr {s t : State} (h : s.sr = t.sr) (sp : Space) (sz : Size) (a : Long) (read : Bool) :
    s.accessFault sp sz a read = t.accessFault sp sz a read := by
  simp only [State.accessFault, State.functionCode, h]

/-- A rule that ends in a fault: the changes so far stay, and the fault is processed. -/
theorem runBody_fault {body : Exec Unit} {s t : State} {f : AccessFault}
    (h : body (s.pastWords 1) = .error (.group0 f) t) :
    runBody body s = .next (t.takeGroup0 f (some s.pc) (some t.ir)) := by
  have hrun : runBody body s = conclude s.pc (body (s.pastWords 1)) := rfl
  rw [hrun, h, conclude]

/-! ### Faults of fetches and operands -/

theorem fetchExt_fault {s : State} (h : s.accessOk .w s.pc = false) :
    fetchExt s = .error (.group0 (s.accessFault .program .w s.pc true)) s := by
  rw [fetchExt, Exec.bind_ok (Exec.get_apply s), Exec.bind_error (memRead_fault h),
    State.halfRead_of_none (State.answeredHalf_of_ne_long (by decide) _)]

/-- The fetch that faults is the first that cannot be made. -/
theorem fetchExts_fault {n m : Nat} {s : State} (hm : m < n) (hf : s.fetchable s.pc m = true)
    (h : s.accessOk .w (s.pc + BitVec.ofNat 32 (2 * m)) = false) :
    fetchExts n s = .error (.group0 (s.accessFault .program .w (s.pc + BitVec.ofNat 32 (2 * m)) true)) (s.pastWords m) := by
  induction m generalizing n s with
  | zero =>
    obtain ⟨n, rfl⟩ := Nat.exists_eq_add_of_lt hm
    simp only [Nat.mul_zero, BitVec.add_zero] at h ⊢
    rw [State.pastWords_zero, Nat.zero_add, fetchExts, Exec.bind_error (fetchExt_fault h)]
  | succ m ih =>
    obtain ⟨n, rfl⟩ : ∃ n', n = n' + 1 := ⟨n - 1, by omega⟩
    obtain ⟨h0, hrest⟩ := State.fetchable_succ hf
    rw [add_two_mul_succ] at h ⊢
    rw [fetchExts, Exec.bind_ok (fetchExt_ok h0), ← Nat.add_comm 1 m, ← State.pastWords_pastWords]
    exact ih (s := s.pastWords 1) (by omega) hrest h

theorem resolveEA_fault {sz : Size} {ea : EA} {m : Nat} {s : State} (hm : m < eaExtCount sz ea)
    (hf : s.fetchable s.pc m = true) (h : s.accessOk .w (s.pc + BitVec.ofNat 32 (2 * m)) = false) :
    resolveEA sz ea s =
      .error (.group0 (s.accessFault .program .w (s.pc + BitVec.ofNat 32 (2 * m)) true)) (s.pastWords m) := by
  rw [resolveEA, Exec.bind_ok (Exec.get_apply s), Exec.bind_error (fetchExts_fault hm hf h)]

/-- An operand in memory that cannot be read. -/
theorem readEA_fault {sz : Size} {ea : EA} {s : State} {sp : Space} {a : Long}
    (hf : s.fetchable s.pc (eaExtCount sz ea) = true) (ha : eaLoc sz ea s = .mem sp a)
    (h : (s.resolved sz ea).accessOk sz a = false) :
    readEA sz ea s =
      .error (.group0 ((s.resolved sz ea).accessFault sp sz a true)) ((s.resolved sz ea).halfRead sz a) := by
  rw [readEA, Exec.bind_ok (resolveEA_ok hf), ha]
  exact memRead_fault h

@[simp] theorem State.halfRead_ir (s : State) (sz : Size) (a : Long) : (s.halfRead sz a).ir = s.ir := by
  obtain ⟨l, n, e⟩ := s.halfRead_state sz a
  rw [e]

@[simp] theorem State.halfWritten_ir (s : State) (sz : Size) (a : Long) (v : BitVec sz.bits) :
    (s.halfWritten sz a v).ir = s.ir := by
  obtain ⟨m, l, n, e⟩ := s.halfWritten_state sz a v
  rw [e]

theorem State.resolved_accessOk (s : State) (sz : Size) (ea : EA) (sz' : Size) (a : Long) :
    (s.resolved sz ea).accessOk sz' a = s.accessOk sz' a := State.accessOk_congr (by simp [State.resolved]) sz' a

theorem State.resolved_accessFault (s : State) (sz : Size) (ea : EA) (sp : Space) (sz' : Size) (a : Long) (read : Bool) :
    (s.resolved sz ea).accessFault sp sz' a read = s.accessFault sp sz' a read :=
  State.accessFault_congr (by simp [State.resolved]) sp sz' a read

section Instructions

variable {s : State} {sz : Size} {ea : EA} {a : Long}

/-- TST whose extension word cannot be fetched. -/
theorem exec_tst_fetchFault {m : Nat} (hm : m < eaExtCount sz ea) (hf : s.fetchable s.pc (1 + m) = true)
    (h : s.accessOk .w (s.pc + BitVec.ofNat 32 (2 * (1 + m))) = false) :
    exec (.tst sz ea) s = .next ((s.pastWords (1 + m)).takeGroup0
      (s.accessFault .program .w (s.pc + BitVec.ofNat 32 (2 * (1 + m))) true) (some s.pc) (some s.ir)) := by
  have hplace : (s.pastWords 1).pc + BitVec.ofNat 32 (2 * m) = s.pc + BitVec.ofNat 32 (2 * (1 + m)) := by
    rw [State.pastWords, BitVec.add_assoc, ← BitVec.ofNat_add, Nat.mul_add]
  have hread := resolveEA_fault (s := s.pastWords 1) hm (State.fetchable_drop 1 m hf) (by rw [hplace]; exact h)
  rw [hplace, State.pastWords_pastWords] at hread
  exact runBody_fault (Exec.bind_error (Exec.bind_error hread))

/-- TST whose operand cannot be read. -/
theorem exec_tst_readFault {sp : Space} (hf : s.fetchable s.pc (1 + eaExtCount sz ea) = true)
    (ha : eaLoc sz ea (s.pastWords 1) = .mem sp a) (h : s.accessOk sz a = false) :
    exec (.tst sz ea) s = .next ((((s.pastWords 1).resolved sz ea).halfRead sz a).takeGroup0
      (s.accessFault sp sz a true) (some s.pc) (some s.ir)) := by
  have hext : (s.pastWords 1).fetchable (s.pastWords 1).pc (eaExtCount sz ea) = true := State.fetchable_drop 1 _ hf
  have hread := readEA_fault hext ha (by rw [State.resolved_accessOk]; exact h)
  have hrun : exec (.tst sz ea) s = _ := runBody_fault (Exec.bind_error hread)
  rw [hrun, State.halfRead_ir, State.resolved_ir, State.resolved_accessFault]
  rfl

/-- MOVE from a data register whose destination cannot be written. -/
theorem exec_move_writeFault {r : RegNo} (hf : s.fetchable s.pc (1 + eaExtCount sz ea) = true)
    (ha : eaLoc sz ea (s.pastWords 1) = .mem .data a) (h : s.accessOk sz a = false) :
    exec (.move sz (.dn r) ea) s =
      .next ((((s.pastWords 1).resolved sz ea).halfWritten sz a ((s.dreg r).setWidth sz.bits)).takeGroup0
        (s.accessFault .data sz a false) (some s.pc) (some s.ir)) := by
  have hext : (s.pastWords 1).fetchable (s.pastWords 1).pc (eaExtCount sz ea) = true := State.fetchable_drop 1 _ hf
  have hread : readEA sz (.dn r) (s.pastWords 1) = .ok ((s.dreg r).setWidth sz.bits) (s.pastWords 1) := rfl
  have hwrite := memWrite_fault (v := (s.dreg r).setWidth sz.bits) (s := (s.pastWords 1).resolved sz ea) (sz := sz) (a := a)
    (by rw [State.resolved_accessOk]; exact h)
  have hresolve := resolveEA_ok hext
  rw [ha] at hresolve
  have hrun : exec (.move sz (.dn r) ea) s = _ := runBody_fault
    ((Exec.bind_ok hread).trans ((Exec.bind_ok hresolve).trans (Exec.bind_error hwrite)))
  rw [hrun, State.halfWritten_ir, State.resolved_ir, State.resolved_accessFault]
  rfl

/-- BSR whose return address cannot be pushed. -/
theorem exec_bsr_pushFault {d : Byte} (h : s.accessOk .l (s.sp - 4#32) = false) :
    exec (.bsr (.byte d)) s = .next ((((s.pastWords 1).setSp (s.sp - 4#32)).halfWritten .l (s.sp - 4#32)
      (s.pc + 2#32)).takeGroup0 (s.accessFault .data .l (s.sp - 4#32) false) (some s.pc) (some s.ir)) := by
  have hwrite := memWrite_fault (v := s.pc + 2#32) (s := (s.pastWords 1).setSp (s.sp - 4#32)) (sz := .l)
    (a := s.sp - 4#32) (by rw [State.accessOk_congr (t := s) (by simp)]; exact h)
  have hpush : push32 (s.pc + 2#32) (s.pastWords 1) = _ := (push32_eq _ _).trans hwrite
  have hcall : callTo (s.pc + 2#32 + d.signExtend 32) (s.pastWords 1) = _ :=
    (Exec.bind_ok (Exec.get_apply _)).trans (Exec.bind_error hpush)
  have htarget : branchTarget (.byte d) (s.pastWords 1) = .ok (s.pc + 2#32 + d.signExtend 32) (s.pastWords 1) := rfl
  rw [exec_bsr, runBody_fault ((Exec.bind_ok htarget).trans hcall), State.halfWritten_ir,
    State.accessFault_congr (t := s) (by simp), State.setSp_ir]
  rfl

end Instructions

/-! ### Faults of exception processing -/

/-- The trace ends well, or in a group 0 exception of its exception processing. -/
theorem State.takeTrace_cases (s : State) (i : Long) :
    let run := takeException 9 s.pc none { s with traceDue := false, stopped := false }
    run = .ok () (s.takeTrace i) ∨
      ∃ f t, run = .error (.group0 f) t ∧ s.takeTrace i = t.takeGroup0 f (some i) (some t.ir) := by
  unfold State.takeTrace
  dsimp only
  split
  next h => exact .inl h
  next f t h => exact .inr ⟨f, t, h, rfl⟩
  next h =>
    obtain ⟨-, f, hf, -⟩ := takeException_eq_error h
    cases hf

theorem takeException_fault_inException {k : Byte} {p : Long} {level : Option (BitVec 3)} {s t : State} {f : AccessFault}
    (h : takeException k p level s = .error (.group0 f) t) : f.inException = true := by
  obtain ⟨-, f', hf, hin⟩ := takeException_eq_error h
  cases hf
  exact hin

theorem traced_of_due {s : State} (h : s.traceDue = true) (i : Long) : traced i (.next s) = .next (s.takeTrace i) := by
  simp [traced, h]

theorem traced_of_not_due {s : State} (h : s.traceDue = false) (i : Long) : traced i (.next s) = .next s := by
  simp [traced, h]

theorem State.takeTrace_fault {s t : State} {f : AccessFault} (i : Long)
    (h : takeException 9 s.pc none { s with traceDue := false, stopped := false } = .error (.group0 f) t) :
    s.takeTrace i = t.takeGroup0 f (some i) (some t.ir) := by
  obtain hok | ⟨f', t', herror, htake⟩ := s.takeTrace_cases i
  · cases hok.symm.trans h
  · cases herror.symm.trans h
    exact htake

theorem State.takeInterrupt_fault {s t : State} {f : AccessFault}
    (h : takeException (s.pins.ack.vectorNumber s.pins.ipl) s.pc (some s.pins.ipl) s.acknowledged =
      .error (.group0 f) t) : s.takeInterrupt = t.takeGroup0 f none none := by
  obtain hok | ⟨f', t', herror, htake⟩ := s.takeInterrupt_cases
  · cases hok.symm.trans h
  · cases herror.symm.trans h
    exact htake

/-- Settles O17, by the part of the step that makes the access. -/
theorem accessFaultsAreTaken : Obligations.AccessFaultsAreTaken := by
  unfold Obligations.AccessFaultsAreTaken
  refine ⟨?_, fun body s t f h => runBody_fault h, ?_, ?_, ?_, ?_, ?_, ?_, ?_⟩
  · intro s hready h
    rw [step_of_ready hready, State.runInstruction_unfetched h, State.accessFault_fetch, State.sample_pc, State.sample_sr]
  · intro sz ea m s a hm hf h
    rw [← State.accessFault_fetch]
    exact exec_tst_fetchFault hm hf h
  · intro sz ea s sp a s1 s2 hf ha h
    rw [← State.accessFault_eq]
    exact exec_tst_readFault hf ha h
  · intro sz r ea s a s1 s2 hf ha h
    rw [← State.accessFault_eq]
    exact exec_move_writeFault hf ha h
  · intro d s top h
    rw [← State.accessFault_push]
    exact exec_bsr_pushFault h
  · intro n s t f h
    exact ⟨runBody_fault h, takeException_fault_inException h⟩
  · intro i s t f hdue h
    exact ⟨(traced_of_due hdue i).trans (congrArg _ (State.takeTrace_fault i h)), takeException_fault_inException h⟩
  · intro s t f s1 level hr hh hp h
    rw [← s.sample_pc] at h
    exact ⟨(step_of_pending hr hh hp).trans (congrArg _ (State.takeInterrupt_fault h)), takeException_fault_inException h⟩

end Sys2Proof.Machine

namespace Sys2Proof.Machine

/-! ## Every instruction's rule ends (60_exceptions.md R565) -/

/-- A run that ended, well or in a group 0 fault, in a state of which a property holds. -/
def EndsIn (P : State → Prop) {α : Type} : EStateM.Result Abort State α → Prop
  | .ok _ t | .error (.group0 _) t => P t
  | .error (.refuse _) _ => False

theorem EndsIn.imp {P Q : State → Prop} {α : Type} {r : EStateM.Result Abort State α} (h : EndsIn P r)
    (hpq : ∀ t, P t → Q t) : EndsIn Q r := by
  match r with
  | .ok _ t | .error (.group0 _) t => exact hpq t h
  | .error (.refuse _) _ => exact h.elim

/-- The outcome of an instruction's rule that ended. -/
theorem EndsIn.conclude {P : State → Prop} {r : EStateM.Result Abort State Unit} (h : EndsIn P r) (i : Long) :
    ∃ t, P t ∧ (conclude i r = .next t ∨ ∃ f, conclude i r = .next (t.takeGroup0 f (some i) (some t.ir))) := by
  match r with
  | .ok _ t => exact ⟨t, h, .inl rfl⟩
  | .error (.group0 f) t => exact ⟨t, h, .inr ⟨f, rfl⟩⟩
  | .error (.refuse _) _ => exact h.elim

theorem Exec.Preserves.endsIn {P : State → Prop} {α : Type} {m : Exec α} (hm : m.Preserves P) {s : State} (hs : P s) :
    EndsIn P (m s) := by
  match h : m s with
  | .ok _ t => exact hm.of_ok hs h
  | .error (.group0 _) t => exact (hm.of_error hs h).1
  | .error (.refuse r) t => exact hm.unrefused s r t hs h

theorem Exec.Preserves.of_endsIn {P : State → Prop} {α : Type} {m : Exec α} (h : ∀ s, P s → EndsIn P (m s)) :
    m.Preserves P where
  final s hs := by
    have hend := h s hs
    match hm : m s with
    | .ok _ t | .error (.group0 _) t =>
      rw [Exec.final, hm]
      rw [hm] at hend
      exact hend
    | .error (.refuse r) t =>
      rw [hm] at hend
      exact hend.elim
  unrefused s r t hs hm := by
    have hend := h s hs
    rw [hm] at hend
    exact hend

/-! ### What every rule but a privileged one's effect keeps -/

/-- The instruction register, and whether a trace is due, are as they were. -/
structure State.SameInstr (s t : State) : Prop where
  ir : t.ir = s.ir
  traceDue : t.traceDue = s.traceDue

theorem State.SameInstr.refl (s : State) : s.SameInstr s := ⟨rfl, rfl⟩

theorem State.SameInstr.trans {s t u : State} (h1 : s.SameInstr t) (h2 : t.SameInstr u) : s.SameInstr u :=
  ⟨h2.ir.trans h1.ir, h2.traceDue.trans h1.traceDue⟩

theorem State.Steady.sameInstr {s t : State} (h : s.Steady t) : s.SameInstr t := ⟨h.ir, h.traceDue⟩

theorem takeException_endsIn (k : Byte) (p : Long) (level : Option (BitVec 3)) (s : State) :
    EndsIn (s.entered level).Stacking (takeException k p level s) := by
  cases h : takeException k p level s with
  | ok _ t => exact (takeException_eq_ok h).1
  | error e t =>
    obtain ⟨ht, f, rfl, -⟩ := takeException_eq_error h
    exact ht

/-- A part of an instruction that keeps the instruction register and whether a trace is due. -/
def Exec.KeepsInstr {α : Type} (m : Exec α) : Prop := ∀ s : State, m.Preserves s.SameInstr

theorem Exec.KeepsInstr.of_endsIn {α : Type} {m : Exec α} (h : ∀ s : State, EndsIn s.SameInstr (m s)) : m.KeepsInstr :=
  fun _ => .of_endsIn fun t ht => (h t).imp fun _ hu => ht.trans hu

theorem Exec.Quiet.keepsInstr {α : Type} {m : Exec α} (hm : m.Quiet) : m.KeepsInstr :=
  .of_endsIn fun s => ((hm s).endsIn (.refl s)).imp fun _ ht => ht.sameInstr

theorem Exec.KeepsInstr.bind {α β : Type} {m : Exec α} {f : α → Exec β} (hm : m.KeepsInstr)
    (hf : ∀ a, (f a).KeepsInstr) : (m >>= f).KeepsInstr := fun s => (hm s).bind fun a => hf a s

theorem Exec.KeepsInstr.modify {f : State → State} (h : ∀ s : State, s.SameInstr (f s)) :
    (modify f : Exec PUnit).KeepsInstr := fun _ => .modify fun t ht => ht.trans (h t)

theorem setFlags_keepsInstr (f : StatusReg → StatusReg) : (setFlags f).KeepsInstr := .modify fun _ => ⟨rfl, rfl⟩

theorem State.Ends.endsIn {s : State} {r : EStateM.Result Abort State Unit} (h : s.Ends r) : EndsIn s.SameInstr r := by
  cases h with
  | completes h | faults h => exact h.sameInstr
  | traps h =>
    exact (takeException_endsIn _ _ _ _).imp fun _ ht => h.sameInstr.trans ⟨ht.steady.ir, ht.steady.traceDue⟩

theorem Exec.Ordinary.keepsInstr {m : Exec Unit} (hm : m.Ordinary) : m.KeepsInstr := .of_endsIn fun s => (hm s).endsIn

/-- The rule of a privileged instruction checks the privilege first, and keeps the instruction. -/
theorem exec_privileged {i : Instr} (h : Privileged i) :
    ∃ body, (∀ s, exec i s = runBody (privileged body) s) ∧ body.KeepsInstr := by
  have himm (v : Word) (f : Word → Word → Word) :
      (do fetchExt; setFlags fun sr => StatusReg.ofWord (f sr.toWord v) : Exec Unit).KeepsInstr :=
    .bind fetchExt_quiet.keepsInstr fun _ => setFlags_keepsInstr _
  obtain ⟨ea, rfl⟩ | ⟨r, rfl⟩ | ⟨r, rfl⟩ | ⟨w, rfl⟩ | ⟨w, rfl⟩ | ⟨w, rfl⟩ | rfl | rfl | ⟨w, rfl⟩ := h
  · exact ⟨_, fun _ => rfl, .bind (readEA_quiet .w ea).keepsInstr fun _ => setFlags_keepsInstr _⟩
  · exact ⟨_, fun _ => rfl, .modify fun s => (s.steady_setAreg r s.usp).sameInstr⟩
  · exact ⟨_, fun _ => rfl, .modify fun _ => ⟨rfl, rfl⟩⟩
  · exact ⟨_, fun _ => rfl, himm w _⟩
  · exact ⟨_, fun _ => rfl, himm w _⟩
  · exact ⟨_, fun _ => rfl, himm w _⟩
  · exact ⟨_, fun _ => rfl, .bind pop16_quiet.keepsInstr fun _ => .bind pop32_quiet.keepsInstr fun _ =>
      .bind (.modify fun _ => ⟨rfl, rfl⟩) fun _ => (jump_quiet _).keepsInstr⟩
  · exact ⟨_, fun _ => rfl, .modify fun _ => ⟨rfl, rfl⟩⟩
  · exact ⟨_, fun _ => rfl, .bind Exec.Quiet.get.keepsInstr fun _ => .bind fetchExt_quiet.keepsInstr fun _ =>
      .modify fun _ => ⟨rfl, rfl⟩⟩

/-- Settles O59: the check comes before anything else. -/
theorem privilegeViolation : Obligations.PrivilegeViolation := by
  unfold Obligations.PrivilegeViolation
  intro s i hs hexc hi
  obtain ⟨body, hbody, -⟩ := exec_privileged hi
  rw [hbody, runBody_privileged_user hs, runBody_exceptionInstead hexc]

theorem exec_unimplemented {i : Instr} (h : Unimplemented i) : ∃ k, ∀ s, exec i s = runBody (exceptionInstead k) s := by
  obtain rfl | ⟨low, rfl⟩ | ⟨low, rfl⟩ | ⟨low, rfl⟩ := h <;> exact ⟨_, fun _ => rfl⟩

/-- An exception that takes the instruction's place. -/
theorem exec_trapsInstead {i : Instr} {s : State} (h : TrapsInstead i s) :
    ∃ k, exec i s = runBody (exceptionInstead k) s := by
  obtain hu | ⟨hp, hs⟩ := h
  · obtain ⟨k, hk⟩ := exec_unimplemented hu
    exact ⟨k, hk s⟩
  · obtain ⟨body, hbody, -⟩ := exec_privileged hp
    exact ⟨8, (hbody s).trans (runBody_privileged_user hs)⟩

/-- Any other instruction's rule keeps the instruction register and whether a trace is due. -/
theorem exec_keepsInstr {i : Instr} {s : State} (hwf : i.wf = true) (h : ¬TrapsInstead i s) (hl : ¬LinksStackPointer i) :
    ∃ body, exec i s = runBody body s ∧ body.KeepsInstr := by
  by_cases hp : Privileged i
  · obtain ⟨body, hbody, hkeeps⟩ := exec_privileged hp
    have hs : s.sr.s = true := Bool.not_eq_false _ |>.mp fun hs => h (.inr ⟨hp, hs⟩)
    exact ⟨body, (hbody s).trans (runBody_congr (privileged_of_supervisor hs)), hkeeps⟩
  · obtain ⟨body, hbody, hord⟩ := exec_ordinary hwf hp (fun hu => h (.inl hu)) hl
    exact ⟨body, hbody s, hord.keepsInstr⟩

/-- An exception in the instruction's place leaves no trace due. -/
theorem exceptionInstead_endsIn (k : Byte) (s : State) :
    EndsIn (fun t => t.traceDue = false) (exceptionInstead k s) :=
  (takeException_endsIn k (s.pc - 2#32) none { s with traceDue := false }).imp fun _ ht => ht.steady.traceDue

theorem runBody_conclude (body : Exec Unit) (s : State) : runBody body s = conclude s.pc (body (s.pastWords 1)) := rfl

/-- An instruction's outcome where its rule keeps whether a trace is due. -/
theorem runBody_keepsInstr {body : Exec Unit} (h : body.KeepsInstr) (s : State) :
    ∃ t, s.SameInstr t ∧
      (runBody body s = .next t ∨ ∃ f, runBody body s = .next (t.takeGroup0 f (some s.pc) (some t.ir))) := by
  rw [runBody_conclude]
  exact ((h s).endsIn (s := s.pastWords 1) ⟨rfl, rfl⟩).conclude s.pc

/-- An instruction's outcome where an exception takes its place. -/
theorem runBody_exceptionInstead_untraced (k : Byte) (s : State) :
    ∃ t, runBody (exceptionInstead k) s = .next t ∧ t.traceDue = false := by
  obtain ⟨t, ht, h | ⟨f, h⟩⟩ := (exceptionInstead_endsIn k (s.pastWords 1)).conclude s.pc
  · exact ⟨t, h, ht⟩
  · exact ⟨_, h, State.takeGroup0_traceDue ..⟩

/-! ### O7: every step answers a next state -/

theorem exec_next {i : Instr} (hwf : i.wf = true) (hl : ¬LinksStackPointer i) (s : State) : ∃ t, exec i s = .next t := by
  by_cases h : TrapsInstead i s
  · obtain ⟨k, hk⟩ := exec_trapsInstead h
    obtain ⟨t, ht, -⟩ := runBody_exceptionInstead_untraced k s
    exact ⟨t, hk.trans ht⟩
  · obtain ⟨body, hbody, hkeeps⟩ := exec_keepsInstr hwf h hl
    obtain ⟨t, -, ht | ⟨f, ht⟩⟩ := runBody_keepsInstr hkeeps s
    · exact ⟨_, hbody.trans ht⟩
    · exact ⟨_, hbody.trans ht⟩

theorem traced_next (i : Long) (s : State) : ∃ t, traced i (.next s) = .next t := by
  cases h : s.traceDue with
  | true => exact ⟨_, traced_of_due h i⟩
  | false => exact ⟨_, traced_of_not_due h i⟩

/-- The refusal of LINK or UNLK with `A7`, and the words it was decoded from. -/
def RefusesStackPointer (ws : List Word) (r : Refusal) : Prop :=
  ∃ rest, (r = .linkA7 ∧ ∃ d, decodeWords ws = .ok (.link 7#3 d, rest)) ∨
    (r = .unlkA7 ∧ decodeWords ws = .ok (.unlk 7#3, rest))

theorem State.runInstruction_next_or_refused (s : State) :
    (∃ t, s.runInstruction = .next t) ∨
      ∃ r, s.runInstruction = .refused r ∧ RefusesStackPointer s.instrWords.1 r := by
  cases hacc : s.accessOk .w s.pc with
  | false => exact .inl ⟨_, State.runInstruction_unfetched hacc⟩
  | true =>
    obtain ⟨ws, n, hw⟩ : ∃ ws n, s.instrWords = (ws, n) := ⟨_, _, rfl⟩
    have hcases := s.decodes_or_unmatched
    rw [hw] at hcases
    obtain ⟨i, rest, hdec⟩ | ⟨w, hdec⟩ := hcases
    · have hwf : i.wf = true := State.wf_of_decodes (s := s) (rest := rest) (by rw [hw]; exact hdec)
      rw [State.runInstruction_decoded hacc hw hdec]
      by_cases hl : LinksStackPointer i
      · obtain ⟨d, rfl⟩ | rfl := hl
        · exact .inr ⟨.linkA7, rfl, rest, .inl ⟨rfl, d, by rw [hw]; exact hdec⟩⟩
        · exact .inr ⟨.unlkA7, rfl, rest, .inr ⟨rfl, by rw [hw]; exact hdec⟩⟩
      · obtain ⟨t, ht⟩ := exec_next hwf hl (s.fetched (ws.headD 0) n i.length)
        rw [ht]
        exact .inl (traced_next _ t)
    · rw [State.runInstruction_unmatched hacc hw hdec]
      obtain ⟨t, ht, -⟩ := runBody_exceptionInstead_untraced 4 _
      exact .inl ⟨t, ht⟩

theorem step_next_or_refused (s : State) :
    (∃ t, step s = .next t) ∨ ∃ r, step s = .refused r ∧ RefusesStackPointer s.sample.instrWords.1 r := by
  obtain ⟨-, h⟩ | h | ⟨-, h⟩ | h := step_cases s
  · exact .inl ⟨_, h⟩
  · exact .inl ⟨_, h⟩
  · exact .inl ⟨_, h⟩
  · rw [step_of_ready h]
    exact s.sample.runInstruction_next_or_refused

/-- Settles O7: five fetched words decode to an instruction or match none, and every rule but that of LINK and UNLK with
`A7` ends well or in an exception. -/
theorem stepAnswersNext : Obligations.StepAnswersNext := by
  unfold Obligations.StepAnswersNext
  intro s
  obtain ⟨t, h⟩ | ⟨r, h, rest, hdec⟩ := step_next_or_refused s
  · rw [h]
    exact ⟨nofun, nofun⟩
  · rw [h]
    refine ⟨nofun, fun r' hr => ?_⟩
    cases hr
    exact ⟨_, _, rest, rfl, hdec⟩

end Sys2Proof.Machine

namespace Sys2Proof.Machine

/-! ## The trace exception (60_exceptions.md R538, R552) -/

section Fetched

variable (s : State) (w : Word) (n length : Nat)

@[simp] theorem State.fetched_pc : (s.fetched w n length).pc = s.pc := State.busRead_pc ..
@[simp] theorem State.fetched_sr : (s.fetched w n length).sr = s.sr := State.busRead_sr ..
@[simp] theorem State.fetched_ssp : (s.fetched w n length).ssp = s.ssp := State.busRead_ssp ..
@[simp] theorem State.fetched_stopped : (s.fetched w n length).stopped = s.stopped := State.busRead_stopped ..
@[simp] theorem State.fetched_halted : (s.fetched w n length).halted = s.halted := State.busRead_halted ..
@[simp] theorem State.fetched_silent : (s.fetched w n length).silent = s.silent := State.busRead_silent ..
@[simp] theorem State.fetched_devices : (s.fetched w n length).devices = s.devices := State.busRead_devices ..
@[simp] theorem State.fetched_resetPulses : (s.fetched w n length).resetPulses = s.resetPulses :=
  State.busRead_resetPulses ..

end Fetched

theorem State.takeTrace_ok {s : State} (h : s.canExcept 9 = true) (i : Long) :
    s.takeTrace i = State.excepted { s with traceDue := false, stopped := false } 9 s.pc none := by
  have htake := takeException_ok (p := s.pc) (level := none) (s := { s with traceDue := false, stopped := false }) h
  obtain hok | ⟨f, t, herror, -⟩ := s.takeTrace_cases i
  · exact (EStateM.Result.ok.inj (hok.symm.trans htake)).2
  · cases herror.symm.trans htake

/-- An exception that takes the instruction's place leaves no trace due. -/
theorem untraced_of_trapsInstead {i : Instr} {s t : State} (h : TrapsInstead i s) (hexec : exec i s = .next t) :
    t.traceDue = false := by
  obtain ⟨k, hk⟩ := exec_trapsInstead h
  obtain ⟨t', ht', hdue⟩ := runBody_exceptionInstead_untraced k s
  cases hexec.symm.trans (hk.trans ht')
  exact hdue

theorem not_linksStackPointer {i : Instr} {s t : State} (h : exec i s = .next t) : ¬LinksStackPointer i := by
  rintro (⟨d, rfl⟩ | rfl) <;> cases h

/-- An instruction that is executed leaves a trace due if one was, or a group 0 exception ended it. -/
theorem traceDue_of_executed {i : Instr} {s t : State} (hwf : i.wf = true) (h : ¬TrapsInstead i s)
    (hexec : exec i s = .next t) :
    t.traceDue = s.traceDue ∨
      (t.traceDue = false ∧ ∃ (f : AccessFault) (v : State), t = v.takeGroup0 f (some s.pc) (some s.ir)) := by
  obtain ⟨body, hbody, hkeeps⟩ := exec_keepsInstr hwf h (not_linksStackPointer hexec)
  obtain ⟨v, hv, hnext | ⟨f, hnext⟩⟩ := runBody_keepsInstr hkeeps s
  · cases hexec.symm.trans (hbody.trans hnext)
    exact .inl hv.traceDue
  · cases hexec.symm.trans (hbody.trans hnext)
    exact .inr ⟨State.takeGroup0_traceDue .., f, v, by rw [hv.ir]⟩

theorem trapsInstead_congr {i : Instr} {s t : State} (h : s.sr = t.sr) : TrapsInstead i s ↔ TrapsInstead i t := by
  rw [TrapsInstead, TrapsInstead, h]

/-- Settles O6: what is executed keeps whether a trace is due, and what is not leaves none due. -/
theorem traceFollows : Obligations.TraceFollows := by
  unfold Obligations.TraceFollows
  intro s t ws rest n i s1 u hready hacc hwords hdec hexec
  have hu : u = s1.fetched (ws.headD 0) n i.length := rfl
  have hstep : step s = traced s1.pc (exec i u) :=
    (step_of_ready hready).trans (State.runInstruction_decoded hacc hwords hdec)
  have hwf : i.wf = true := State.wf_of_decodes (s := s1) (rest := rest) (by rw [hwords]; exact hdec)
  have hinstead : TrapsInstead i u ↔ TrapsInstead i s1 := trapsInstead_congr (State.fetched_sr ..)
  have hpc : u.pc = s1.pc := State.fetched_pc ..
  rw [hexec] at hstep
  refine ⟨fun h => hstep.trans (traced_of_not_due h _), fun h hexc => ?_, fun hT => ?_,
    fun h => untraced_of_trapsInstead (hinstead.mpr h) hexec, fun hT h => ?_⟩
  · rw [hstep, traced_of_due h, State.takeTrace_ok hexc]
  · by_cases h : TrapsInstead i u
    · exact untraced_of_trapsInstead h hexec
    · obtain hdue | ⟨hdue, -⟩ := traceDue_of_executed hwf h hexec
      · exact hdue.trans hT
      · exact hdue
  · rw [← hpc]
    obtain hdue | hfault := traceDue_of_executed hwf (mt hinstead.mp h) hexec
    · exact .inl (hdue.trans hT)
    · exact .inr hfault

end Sys2Proof.Machine

namespace Sys2Proof.Machine

/-! ## Steps that begin in user state (60_exceptions.md R520, R526, R530) -/

/-- The supervisor's part of the state: what no instruction in user state changes. -/
structure State.SystemKept (s t : State) : Prop where
  supervisor : t.sr.s = s.sr.s
  ssp : t.ssp = s.ssp
  trace : t.sr.t = s.sr.t
  mask : t.sr.i = s.sr.i
  stopped : t.stopped = s.stopped
  halted : t.halted = s.halted
  resetPulses : t.resetPulses = s.resetPulses
  silent : t.silent = s.silent
  devices : t.devices = s.devices

theorem State.SystemKept.trans {s t u : State} (h1 : s.SystemKept t) (h2 : t.SystemKept u) : s.SystemKept u where
  supervisor := h2.supervisor.trans h1.supervisor
  ssp := h2.ssp.trans h1.ssp
  trace := h2.trace.trans h1.trace
  mask := h2.mask.trans h1.mask
  stopped := h2.stopped.trans h1.stopped
  halted := h2.halted.trans h1.halted
  resetPulses := h2.resetPulses.trans h1.resetPulses
  silent := h2.silent.trans h1.silent
  devices := h2.devices.trans h1.devices

theorem State.systemKept_sample (s : State) : s.SystemKept s.sample := by constructor <;> simp

theorem State.systemKept_fetched (s : State) (w : Word) (n length : Nat) : s.SystemKept (s.fetched w n length) := by
  constructor <;> simp

theorem State.Steady.systemKept {s t : State} (h : s.Steady t) (hs : s.sr.s = false) : s.SystemKept t where
  supervisor := h.supervisor
  ssp := by simpa [hs] using h.otherSp
  trace := h.trace
  mask := h.mask
  stopped := h.stopped
  halted := h.halted
  resetPulses := h.resetPulses
  silent := h.silent
  devices := h.devices

/-! ### Entering supervisor state -/

/-- Exception processing that led from the state `s` to supervisor state, the mask then being `mask`: of groups 1 and 2,
its frame at the supervisor stack or, for a trace, below that of an instruction's exception; or of group 0. -/
inductive State.Entry (s : State) (mask : BitVec 3) : State → Prop
  | exception {k : Byte} {p : Long} {level : Option (BitVec 3)} {v t : State} (h : takeException k p level v = .ok () t)
      (ssp : v.ssp = s.ssp ∨ v.ssp = s.ssp - 6#32) (silent : v.silent = s.silent) (devices : v.devices = s.devices)
      (level : level.getD v.sr.i = mask) : s.Entry mask t
  | groupZero {f : AccessFault} {concerned : Option Long} {ir : Option Word} {v : State} (silent : v.silent = s.silent)
      (devices : v.devices = s.devices) (level : v.sr.i = mask) : s.Entry mask (v.takeGroup0 f concerned ir)

/-- Supervisor state, T clear, the mask, and nothing prefetched (R530). -/
theorem State.Entry.entered {s t : State} {mask : BitVec 3} (h : s.Entry mask t) :
    t.sr.s = true ∧ t.sr.t = false ∧ t.sr.i = mask ∧ t.prefetch = [] := by
  cases h with
  | exception h _ _ _ hmask =>
    obtain ⟨hst, -, -⟩ := takeException_eq_ok h
    rw [hst.sr]
    exact ⟨rfl, rfl, hmask, hst.prefetch⟩
  | groupZero _ _ hmask =>
    rw [State.takeGroup0_sr, State.takeGroup0_prefetch]
    exact ⟨rfl, rfl, hmask, rfl⟩

theorem State.Entry.of_systemKept {s u t : State} {mask : BitVec 3} (hu : s.SystemKept u) (h : u.Entry mask t) :
    s.Entry mask t := by
  cases h with
  | exception h hssp hsil hdev hmask =>
    rw [hu.ssp] at hssp
    exact .exception h hssp (hsil.trans hu.silent) (hdev.trans hu.devices) hmask
  | groupZero hsil hdev hmask => exact .groupZero (hsil.trans hu.silent) (hdev.trans hu.devices) hmask

/-- Exception processing that meets a fault becomes that of group 0. -/
theorem State.Entry.of_fault {s v t : State} {k : Byte} {p : Long} {level : Option (BitVec 3)} {f : AccessFault}
    (h : takeException k p level v = .error (.group0 f) t) (hsil : v.silent = s.silent) (hdev : v.devices = s.devices)
    (concerned : Option Long) (ir : Option Word) : s.Entry (level.getD v.sr.i) (t.takeGroup0 f concerned ir) := by
  obtain ⟨hst, -⟩ := takeException_eq_error h
  exact .groupZero (hst.steady.silent.trans hsil) (hst.steady.devices.trans hdev) (by rw [hst.sr]; rfl)

theorem State.takeInterrupt_entry (s : State) : s.Entry s.pins.ipl s.takeInterrupt := by
  obtain h | ⟨f, t, h, htake⟩ := s.takeInterrupt_cases
  · exact .exception h (.inl rfl) rfl rfl rfl
  · rw [htake]
    exact State.Entry.of_fault (s := s) h rfl rfl none none

/-- A trace that follows an instruction which left the supervisor's part alone, or which took an exception. -/
theorem State.takeTrace_entry {s t : State} (hssp : t.ssp = s.ssp ∨ t.ssp = s.ssp - 6#32) (hsil : t.silent = s.silent)
    (hdev : t.devices = s.devices) (i : Long) : s.Entry t.sr.i (t.takeTrace i) := by
  obtain h | ⟨f, u, h, htake⟩ := t.takeTrace_cases i
  · exact .exception h hssp hsil hdev rfl
  · rw [htake]
    exact .of_fault h hsil hdev (some i) (some u.ir)

/-! ### What an instruction in user state comes to -/

/-- What an instruction in user state leaves: the supervisor's part as it was, or what an exception makes of that. -/
inductive State.UserNext (s : State) : State → Prop
  | stays {t : State} (h : s.SystemKept t) : s.UserNext t
  | traps {k : Byte} {p : Long} {v t : State} (hv : s.SystemKept v) (h : takeException k p none v = .ok () t) : s.UserNext t
  | faults {f : AccessFault} {concerned : Option Long} {ir : Option Word} {v : State} (silent : v.silent = s.silent)
      (devices : v.devices = s.devices) (mask : v.sr.i = s.sr.i) : s.UserNext (v.takeGroup0 f concerned ir)

theorem State.UserNext.of_takeException {s v t : State} {k : Byte} {p i : Long} (hv : s.SystemKept v)
    (hr : conclude i (takeException k p none v) = .next t) : s.UserNext t := by
  cases hrun : takeException k p none v with
  | ok _ u =>
    rw [hrun] at hr
    cases hr
    exact .traps hv hrun
  | error e u =>
    obtain ⟨hst, f, rfl, -⟩ := takeException_eq_error hrun
    rw [hrun] at hr
    cases hr
    exact .faults (hst.steady.silent.trans hv.silent) (hst.steady.devices.trans hv.devices)
      ((congrArg StatusReg.i hst.sr).trans hv.mask)

theorem State.UserNext.of_ends {s u t : State} {r : EStateM.Result Abort State Unit} {i : Long} (hs : s.sr.s = false)
    (hu : s.SystemKept u) (h : u.Ends r) (hr : conclude i r = .next t) : s.UserNext t := by
  have hkept {v : State} (hv : u.Steady v) : s.SystemKept v := hu.trans (hv.systemKept (hu.supervisor.trans hs))
  cases h with
  | completes hv =>
    cases hr
    exact .stays (hkept hv)
  | faults hv =>
    cases hr
    exact .faults (hkept hv).silent (hkept hv).devices (hkept hv).mask
  | traps hv => exact .of_takeException (hkept hv) hr

theorem State.systemKept_pastWords (s : State) (n : Nat) : s.SystemKept (s.pastWords n) := by constructor <;> rfl

theorem runBody_exceptionInstead_userNext {s t : State} {k : Byte} (h : runBody (exceptionInstead k) s = .next t) :
    s.UserNext t :=
  .of_takeException (v := { s.pastWords 1 with traceDue := false }) (by constructor <;> rfl) h

theorem exec_userNext {i : Instr} {s t : State} (hwf : i.wf = true) (hs : s.sr.s = false) (h : exec i s = .next t) :
    s.UserNext t := by
  by_cases hinstead : TrapsInstead i s
  · obtain ⟨k, hk⟩ := exec_trapsInstead hinstead
    exact runBody_exceptionInstead_userNext (hk.symm.trans h)
  · obtain ⟨body, hbody, hord⟩ := exec_ordinary hwf (fun hp => hinstead (.inr ⟨hp, hs⟩))
      (fun hu => hinstead (.inl hu)) (not_linksStackPointer h)
    exact .of_ends hs (s.systemKept_pastWords 1) (hord _) ((hbody s).symm.trans h)

/-- Where no trace follows. -/
theorem State.UserNext.untraced {s t : State} (h : s.UserNext t) : s.SystemKept t ∨ s.Entry s.sr.i t := by
  cases h with
  | stays h => exact .inl h
  | traps hv h => exact .inr (.exception h (.inl hv.ssp) hv.silent hv.devices hv.mask)
  | faults hsil hdev hmask => exact .inr (.groupZero hsil hdev hmask)

/-- Where a trace may follow: a group 0 exception leaves none due. -/
theorem State.UserNext.traced {s t u : State} (h : s.UserNext t) {i : Long} (ht : traced i (.next t) = .next u) :
    s.SystemKept u ∨ s.Entry s.sr.i u := by
  cases hdue : t.traceDue with
  | false =>
    cases ht.symm.trans (traced_of_not_due hdue i)
    exact h.untraced
  | true =>
    cases ht.symm.trans (traced_of_due hdue i)
    refine .inr ?_
    cases h with
    | stays h =>
      rw [← h.mask]
      exact State.takeTrace_entry (.inl h.ssp) h.silent h.devices i
    | traps hv h =>
      obtain ⟨hst, hssp, -⟩ := takeException_eq_ok h
      have hmask : t.sr.i = s.sr.i := (congrArg StatusReg.i hst.sr).trans hv.mask
      rw [← hmask]
      exact State.takeTrace_entry (.inr (hssp.trans (by rw [hv.ssp]))) (hst.steady.silent.trans hv.silent)
        (hst.steady.devices.trans hv.devices) i
    | faults => exact absurd hdue (by simp)

/-! ### The step -/

theorem of_traced_next {i : Long} {o : Host.Outcome State Fault Refusal} {t : State} (h : traced i o = .next t) :
    ∃ v, o = .next v ∧ traced i (.next v) = .next t := by
  cases o with
  | next v => exact ⟨v, rfl, h⟩
  | fault f => cases h
  | refused r => cases h

theorem State.SystemKept.keptOrEntered {s u t : State} (hu : s.SystemKept u) (h : u.SystemKept t ∨ u.Entry u.sr.i t) :
    s.SystemKept t ∨ s.Entry s.sr.i t := by
  obtain h | h := h
  · exact .inl (hu.trans h)
  · rw [hu.mask] at h
    exact .inr (h.of_systemKept hu)

theorem State.runInstruction_of_user {s t : State} (hs : s.sr.s = false) (h : s.runInstruction = .next t) :
    s.SystemKept t ∨ s.Entry s.sr.i t := by
  cases hacc : s.accessOk .w s.pc with
  | false =>
    cases h.symm.trans (State.runInstruction_unfetched hacc)
    exact .inr (.groupZero rfl rfl rfl)
  | true =>
    obtain ⟨ws, n, hw⟩ : ∃ ws n, s.instrWords = (ws, n) := ⟨_, _, rfl⟩
    have hcases := s.decodes_or_unmatched
    rw [hw] at hcases
    obtain ⟨i, rest, hdec⟩ | ⟨w, hdec⟩ := hcases
    · have hwf : i.wf = true := State.wf_of_decodes (s := s) (rest := rest) (by rw [hw]; exact hdec)
      rw [State.runInstruction_decoded hacc hw hdec] at h
      have hu := s.systemKept_fetched (ws.headD 0) n i.length
      obtain ⟨v, hexec, ht⟩ := of_traced_next h
      exact hu.keptOrEntered ((exec_userNext hwf (hu.supervisor.trans hs) hexec).traced ht)
    · rw [State.runInstruction_unmatched hacc hw hdec] at h
      exact State.SystemKept.keptOrEntered (by constructor <;> simp) (runBody_exceptionInstead_userNext h).untraced

/-- A step that begins in user state is a reset, leaves the supervisor's part as it was, or enters supervisor state by
exception processing, of an interrupt where one is pending. -/
theorem step_of_user {s t : State} (hs : s.sr.s = false) (h : step s = .next t) :
    (s.sample.pins.resetIn = true ∧ t = s.sample.externalReset) ∨ s.SystemKept t ∨
      ∃ mask, s.Entry mask t ∧ (s.sample.pending = false → mask = s.sr.i) := by
  obtain ⟨hr, hstep⟩ | hstep | ⟨hp, hstep⟩ | hready := step_cases s
  · cases h.symm.trans hstep
    exact .inl ⟨hr, rfl⟩
  · cases h.symm.trans hstep
    exact .inr (.inl s.systemKept_sample)
  · cases h.symm.trans hstep
    exact .inr (.inr ⟨_, s.sample.takeInterrupt_entry.of_systemKept s.systemKept_sample,
      fun hp' => by cases hp.symm.trans hp'⟩)
  · rw [step_of_ready hready] at h
    obtain hkept | hentry := s.systemKept_sample.keptOrEntered
      (State.runInstruction_of_user ((congrArg StatusReg.s s.sample_sr).trans hs) h)
    · exact .inr (.inl hkept)
    · exact .inr (.inr ⟨_, hentry, fun _ => rfl⟩)

/-- Settles O10: a step that enters supervisor state does not end in user state. -/
theorem userStateIsolation : Obligations.UserStateIsolation := by
  unfold Obligations.UserStateIsolation
  intro s t hs h ht
  obtain ⟨-, rfl⟩ | hkept | ⟨mask, hentry, -⟩ := step_of_user hs h
  · rw [s.sample.externalReset_vectorsRead.sr] at ht
    cases ht
  · exact ⟨hkept.ssp, hkept.trace, hkept.mask, hkept.stopped, hkept.halted, hkept.resetPulses, hkept.silent, hkept.devices⟩
  · cases ht.symm.trans hentry.entered.1

/-- Settles O11: a step that leaves the supervisor's part as it was does not end in supervisor state. -/
theorem supervisorEntry : Obligations.SupervisorEntry := by
  unfold Obligations.SupervisorEntry
  intro s t hs h ht
  obtain ⟨hr, rfl⟩ | hkept | ⟨mask, hentry, hmask⟩ := step_of_user hs h
  · have hread := s.sample.externalReset_vectorsRead
    exact ⟨congrArg StatusReg.t hread.sr, hread.prefetch, fun hr' => (by cases hr.symm.trans hr'), .inl ⟨hr, rfl⟩⟩
  · cases hs.symm.trans (hkept.supervisor.symm.trans ht)
  · obtain ⟨-, htrace, hi, hprefetch⟩ := hentry.entered
    refine ⟨htrace, hprefetch, fun _ hp => hi.trans (hmask hp), .inr ?_⟩
    cases hentry with
    | exception h hssp hsil hdev => exact .inl ⟨_, _, _, _, h, hssp, (takeException_eq_ok h).2.1, hsil, hdev⟩
    | groupZero hsil hdev => exact .inr ⟨_, _, _, _, rfl, hsil, hdev⟩

end Sys2Proof.Machine
